-- ==== Sys2Proof/Word.lean ====
section
/-! DEFINITION. The word types of the block: bytes, selectors and 32-bit words (00_scope.md R7). -/

namespace Sys2Proof

/-- A byte of guest memory. -/
abbrev Byte := BitVec 8

/-- A 16-bit selector (00_scope.md R7). -/
abbrev Sel := BitVec 16

/-- A 32-bit register, linear address or offset (00_scope.md R7). -/
abbrev Word := BitVec 32

/-- A privilege level 0..3 (00_scope.md R7). -/
abbrev Level := BitVec 2

end Sys2Proof
end

