-- ==== Sys2Proof/Syntax.lean ====
section
/-! DEFINITION. The instructions of the block as data: one constructor of `Instr` per row of spec/opcode_table.json. Operands
are typed (registers, memory operands, immediates); the decoder of Decode.lean is the only place that sees raw encodings. -/

namespace Sys2Proof

/-- The eight general registers (10_state.md R23). -/
inductive Gpr where
  | eax | ecx | edx | ebx | esp | ebp | esi | edi
  deriving DecidableEq, Repr

/-- The six segment registers (10_state.md R30). -/
inductive SegName where
  | es | cs | ss | ds | fs | gs
  deriving DecidableEq, Repr

/-- The bytes that may stand before an opcode: operand size (30_encoding.md R94), address size (R96), and the segment
overrides, LOCK and REP of the x86 family (PRESUMED, log 5); the last two have no effect, since a prefix never changes which entry
point is reached (R94). An instruction keeps them as written, so its length is that of its bytes. -/
inductive Pfx where
  | opSize
  | addrSize
  | segment (s : SegName)
  | lock
  | repne
  | rep
  deriving DecidableEq, Repr

/-- The displacement of a memory operand: none, 8 bits sign-extended, or the full width of the address. -/
inductive Disp (n : Nat) where
  | none
  | short (d : BitVec 8)
  | full (d : BitVec n)
  deriving DecidableEq, Repr

/-- The base forms of 16-bit addressing. -/
inductive Base16 where
  | bxSi | bxDi | bpSi | bpDi | si | di | bp | bx
  deriving DecidableEq, Repr

/-- A memory operand (a ModRM byte with mod not 11, 30_encoding.md R93; the address forms are the x86 family's, log 5). -/
inductive MemOp where
  | a16 (base : Base16) (d : Disp 16)
  | a16Abs (d : BitVec 16)
  | a32 (base : Gpr) (d : Disp 32)
  | a32Abs (d : BitVec 32)
  | sib (scale : BitVec 2) (index base : Gpr) (d : Disp 32)
  | sibAbs (scale : BitVec 2) (index : Gpr) (d : BitVec 32)
  deriving DecidableEq, Repr

/-- An r/m16 operand: a register (mod = 11) or a memory operand (30_encoding.md R93). -/
inductive RmOp where
  | reg (r : Gpr)
  | mem (m : MemOp)
  deriving DecidableEq, Repr

/-- One constructor per row of spec/opcode_table.json. `p` is the list of bytes before the opcode, as written. -/
inductive Instr where
  -- far JMP and CALL (42_control_transfer.md R180, R185)
  | jmpFarPtr (p : List Pfx) (off : BitVec 32) (sel : BitVec 16)
  | jmpFarMem (p : List Pfx) (m : MemOp)
  | callFarPtr (p : List Pfx) (off : BitVec 32) (sel : BitVec 16)
  | callFarMem (p : List Pfx) (m : MemOp)
  -- far RET (R192)
  | retf (p : List Pfx)
  | retfImm (p : List Pfx) (imm : BitVec 16)
  -- IRET and software interrupts (43_interrupts.md R222, R212)
  | iret (p : List Pfx)
  | int3 (p : List Pfx)
  | intImm (p : List Pfx) (v : BitVec 8)
  | into (p : List Pfx)
  -- segment loads (41_segment_loading.md R152)
  | movEs (p : List Pfx) (src : RmOp)
  | movSs (p : List Pfx) (src : RmOp)
  | movDs (p : List Pfx) (src : RmOp)
  | movFs (p : List Pfx) (src : RmOp)
  | movGs (p : List Pfx) (src : RmOp)
  | popEs (p : List Pfx)
  | popSs (p : List Pfx)
  | popDs (p : List Pfx)
  | popFs (p : List Pfx)
  | popGs (p : List Pfx)
  | les (p : List Pfx) (r : Gpr) (m : MemOp)
  | lds (p : List Pfx) (r : Gpr) (m : MemOp)
  | lss (p : List Pfx) (r : Gpr) (m : MemOp)
  | lfs (p : List Pfx) (r : Gpr) (m : MemOp)
  | lgs (p : List Pfx) (r : Gpr) (m : MemOp)
  -- LDTR, TR and inspection of a selector (R160, R161, R168, R169)
  | lldt (p : List Pfx) (src : RmOp)
  | ltr (p : List Pfx) (src : RmOp)
  | verr (p : List Pfx) (src : RmOp)
  | verw (p : List Pfx) (src : RmOp)
  -- table registers (R162 to R165)
  | sgdt (p : List Pfx) (m : MemOp)
  | sidt (p : List Pfx) (m : MemOp)
  | lgdt (p : List Pfx) (m : MemOp)
  | lidt (p : List Pfx) (m : MemOp)
  -- ARPL, LAR, LSL (R166, R167, R170)
  | arpl (p : List Pfx) (dst : RmOp) (src : Gpr)
  | lar (p : List Pfx) (r : Gpr) (src : RmOp)
  | lsl (p : List Pfx) (r : Gpr) (src : RmOp)
  -- control and debug registers (45_system_registers.md R270 to R276)
  | movFromCr (p : List Pfx) (n : BitVec 3) (r : Gpr)
  | movToCr (p : List Pfx) (n : BitVec 3) (r : Gpr)
  | movFromDr (p : List Pfx) (n : BitVec 3) (r : Gpr)
  | movToDr (p : List Pfx) (n : BitVec 3) (r : Gpr)
  -- flags (R281 to R284)
  | cli (p : List Pfx)
  | sti (p : List Pfx)
  | pushf (p : List Pfx)
  | popf (p : List Pfx)
  -- entry points without an opcode (43_interrupts.md R219, R216)
  | hardwareInterrupt (v : BitVec 8)
  | exceptionDelivery
  deriving DecidableEq, Repr

end Sys2Proof
end

