-- ==== Sys2Proof/Decode.lean ====
section
/-! DEFINITION. The decoder, total on any bytes and rejecting by name, and the encoder, both written from the opcode map of
30_encoding.md R92 to R96 (the map is informative: decode is the instruction core's; log 5). The address forms behind a ModRM
byte and the segment-override bytes are the x86 family's (PRESUMED, log 5). -/

namespace Sys2Proof

/-- Why a byte sequence is no instruction of the block. -/
inductive Reject where
  /-- more bytes are needed -/
  | truncated
  /-- an encoding that 30_encoding.md R95 lists as #UD -/
  | undefined
  /-- not an encoding of the opcode table, nor one R95 lists -/
  | outside
  /-- longer than 15 bytes (R96) -/
  | tooLong
  deriving DecidableEq, Repr

/-! ### Register numbers and fields -/

/-- The register number 0..7 (30_encoding.md R91: EAX..EDI). -/
def Gpr.code : Gpr → BitVec 3
  | .eax => 0 | .ecx => 1 | .edx => 2 | .ebx => 3 | .esp => 4 | .ebp => 5 | .esi => 6 | .edi => 7

/-- The register of a number. -/
def Gpr.ofCode (c : BitVec 3) : Gpr :=
  match c.toNat with
  | 0 => .eax | 1 => .ecx | 2 => .edx | 3 => .ebx | 4 => .esp | 5 => .ebp | 6 => .esi | _ => .edi

/-- The rm field of a 16-bit base form. PRESUMED (log 5). -/
def Base16.code : Base16 → BitVec 3
  | .bxSi => 0 | .bxDi => 1 | .bpSi => 2 | .bpDi => 3 | .si => 4 | .di => 5 | .bp => 6 | .bx => 7

/-- The 16-bit base form of an rm field. PRESUMED (log 5). -/
def Base16.ofCode (c : BitVec 3) : Base16 :=
  match c.toNat with
  | 0 => .bxSi | 1 => .bxDi | 2 => .bpSi | 3 => .bpDi | 4 => .si | 5 => .di | 6 => .bp | _ => .bx

/-- The byte of a prefix: 0x66 (R94), 0x67, the segment overrides, LOCK and REP (PRESUMED, log 5). -/
def Pfx.byte : Pfx → Byte
  | .opSize => 0x66
  | .addrSize => 0x67
  | .segment .es => 0x26
  | .segment .cs => 0x2E
  | .segment .ss => 0x36
  | .segment .ds => 0x3E
  | .segment .fs => 0x64
  | .segment .gs => 0x65
  | .lock => 0xF0
  | .repne => 0xF2
  | .rep => 0xF3

/-- The prefix a byte is, if it is one. -/
def Pfx.ofByte (b : Byte) : Option Pfx :=
  match b.toNat with
  | 0x66 => some .opSize
  | 0x67 => some .addrSize
  | 0x26 => some (.segment .es)
  | 0x2E => some (.segment .cs)
  | 0x36 => some (.segment .ss)
  | 0x3E => some (.segment .ds)
  | 0x64 => some (.segment .fs)
  | 0x65 => some (.segment .gs)
  | 0xF0 => some .lock
  | 0xF2 => some .repne
  | 0xF3 => some .rep
  | _ => none

/-- `use32` of 30_encoding.md R94: the default size of the code, inverted by a 0x66 byte. -/
def use32 (big : Bool) (p : List Pfx) : Bool := big != p.contains .opSize

/-- The address size: the default size of the code, inverted by a 0x67 byte. PRESUMED (log 5). -/
def addr32 (big : Bool) (p : List Pfx) : Bool := big != p.contains .addrSize

/-- The segment override of an instruction: the last one written. PRESUMED (log 5). -/
def segOverride : List Pfx → Option SegName
  | [] => none
  | .segment s :: p => some ((segOverride p).getD s)
  | _ :: p => segOverride p

/-- A ModRM byte (30_encoding.md R93). -/
def modrmByte (mod : BitVec 2) (reg rm : BitVec 3) : Byte := mod ++ reg ++ rm

/-- The mod field: bits 7:6 (R93). -/
def modOf (b : Byte) : BitVec 2 := b.extractLsb' 6 2

/-- The reg field: bits 5:3 (R93). -/
def regOf (b : Byte) : BitVec 3 := b.extractLsb' 3 3

/-- The rm field: bits 2:0 (R93). -/
def rmOf (b : Byte) : BitVec 3 := b.extractLsb' 0 3

/-- A 16-bit immediate in memory order (20_memory.md R62). -/
def le16 (v : BitVec 16) : List Byte := [v.extractLsb' 0 8, v.extractLsb' 8 8]

/-- A 32-bit immediate in memory order (20_memory.md R62). -/
def le32 (v : BitVec 32) : List Byte :=
  [v.extractLsb' 0 8, v.extractLsb' 8 8, v.extractLsb' 16 8, v.extractLsb' 24 8]

/-! ### The encoder -/

/-- The mod field a displacement asks for. -/
def Disp.mod {n : Nat} : Disp n → BitVec 2
  | .none => 0 | .short _ => 1 | .full _ => 2

/-- The bytes of a 16-bit displacement. -/
def Disp.bytes16 : Disp 16 → List Byte
  | .none => [] | .short d => [d] | .full d => le16 d

/-- The bytes of a 32-bit displacement. -/
def Disp.bytes32 : Disp 32 → List Byte
  | .none => [] | .short d => [d] | .full d => le32 d

/-- The ModRM byte, SIB byte and displacement of a memory operand. -/
def encodeMem (reg : BitVec 3) : MemOp → List Byte
  | .a16 b d => modrmByte d.mod reg b.code :: d.bytes16
  | .a16Abs d => modrmByte 0 reg 6 :: le16 d
  | .a32 b d => modrmByte d.mod reg b.code :: d.bytes32
  | .a32Abs d => modrmByte 0 reg 5 :: le32 d
  | .sib sc ix b d => modrmByte d.mod reg 4 :: modrmByte sc ix.code b.code :: d.bytes32
  | .sibAbs sc ix d => modrmByte 0 reg 4 :: modrmByte sc ix.code 5 :: le32 d

/-- The ModRM byte and what follows it, of an r/m operand. -/
def encodeRm (reg : BitVec 3) : RmOp → List Byte
  | .reg r => [modrmByte 3 reg r.code]
  | .mem m => encodeMem reg m

/-- The offset of an immediate far pointer: 2 or 4 bytes (30_encoding.md R92). -/
def encodeOff (wide : Bool) (off : BitVec 32) : List Byte :=
  if wide then le32 off else le16 (off.setWidth 16)

/-- The bytes of an instruction after its prefixes (30_encoding.md R92). `big` is the default size of the code. The two
entry points without an opcode have no bytes. -/
def encodeBody (big : Bool) : Instr → List Byte
  | .jmpFarPtr p off sel => 0xEA :: (encodeOff (use32 big p) off ++ le16 sel)
  | .jmpFarMem _ m => 0xFF :: encodeMem 5 m
  | .callFarPtr p off sel => 0x9A :: (encodeOff (use32 big p) off ++ le16 sel)
  | .callFarMem _ m => 0xFF :: encodeMem 3 m
  | .retf _ => [0xCB]
  | .retfImm _ imm => 0xCA :: le16 imm
  | .iret _ => [0xCF]
  | .int3 _ => [0xCC]
  | .intImm _ v => [0xCD, v]
  | .into _ => [0xCE]
  | .movEs _ src => 0x8E :: encodeRm 0 src
  | .movSs _ src => 0x8E :: encodeRm 2 src
  | .movDs _ src => 0x8E :: encodeRm 3 src
  | .movFs _ src => 0x8E :: encodeRm 4 src
  | .movGs _ src => 0x8E :: encodeRm 5 src
  | .popEs _ => [0x07]
  | .popSs _ => [0x17]
  | .popDs _ => [0x1F]
  | .popFs _ => [0x0F, 0xA1]
  | .popGs _ => [0x0F, 0xA9]
  | .les _ r m => 0xC4 :: encodeMem r.code m
  | .lds _ r m => 0xC5 :: encodeMem r.code m
  | .lss _ r m => 0x0F :: 0xB2 :: encodeMem r.code m
  | .lfs _ r m => 0x0F :: 0xB4 :: encodeMem r.code m
  | .lgs _ r m => 0x0F :: 0xB5 :: encodeMem r.code m
  | .lldt _ src => 0x0F :: 0x00 :: encodeRm 2 src
  | .ltr _ src => 0x0F :: 0x00 :: encodeRm 3 src
  | .verr _ src => 0x0F :: 0x00 :: encodeRm 4 src
  | .verw _ src => 0x0F :: 0x00 :: encodeRm 5 src
  | .sgdt _ m => 0x0F :: 0x01 :: encodeMem 0 m
  | .sidt _ m => 0x0F :: 0x01 :: encodeMem 1 m
  | .lgdt _ m => 0x0F :: 0x01 :: encodeMem 2 m
  | .lidt _ m => 0x0F :: 0x01 :: encodeMem 3 m
  | .arpl _ dst src => 0x63 :: encodeRm src.code dst
  | .lar _ r src => 0x0F :: 0x02 :: encodeRm r.code src
  | .lsl _ r src => 0x0F :: 0x03 :: encodeRm r.code src
  | .movFromCr _ n r => [0x0F, 0x20, modrmByte 3 n r.code]
  | .movToCr _ n r => [0x0F, 0x22, modrmByte 3 n r.code]
  | .movFromDr _ n r => [0x0F, 0x21, modrmByte 3 n r.code]
  | .movToDr _ n r => [0x0F, 0x23, modrmByte 3 n r.code]
  | .cli _ => [0xFA]
  | .sti _ => [0xFB]
  | .pushf _ => [0x9C]
  | .popf _ => [0x9D]
  | .hardwareInterrupt _ => []
  | .exceptionDelivery => []

/-- The prefixes of an instruction, as written. -/
def Instr.pfxs : Instr → List Pfx
  | .jmpFarPtr p _ _ => p
  | .jmpFarMem p _ => p
  | .callFarPtr p _ _ => p
  | .callFarMem p _ => p
  | .retf p => p
  | .retfImm p _ => p
  | .iret p => p
  | .int3 p => p
  | .intImm p _ => p
  | .into p => p
  | .movEs p _ => p
  | .movSs p _ => p
  | .movDs p _ => p
  | .movFs p _ => p
  | .movGs p _ => p
  | .popEs p => p
  | .popSs p => p
  | .popDs p => p
  | .popFs p => p
  | .popGs p => p
  | .les p _ _ => p
  | .lds p _ _ => p
  | .lss p _ _ => p
  | .lfs p _ _ => p
  | .lgs p _ _ => p
  | .lldt p _ => p
  | .ltr p _ => p
  | .verr p _ => p
  | .verw p _ => p
  | .sgdt p _ => p
  | .sidt p _ => p
  | .lgdt p _ => p
  | .lidt p _ => p
  | .arpl p _ _ => p
  | .lar p _ _ => p
  | .lsl p _ _ => p
  | .movFromCr p _ _ => p
  | .movToCr p _ _ => p
  | .movFromDr p _ _ => p
  | .movToDr p _ _ => p
  | .cli p => p
  | .sti p => p
  | .pushf p => p
  | .popf p => p
  | .hardwareInterrupt _ => []
  | .exceptionDelivery => []

/-- The bytes of an instruction in code of default size `big`. -/
def encode (big : Bool) (i : Instr) : List Byte := i.pfxs.map Pfx.byte ++ encodeBody big i

/-- The length of an instruction in bytes (30_encoding.md R96). -/
def Instr.size (big : Bool) (i : Instr) : Nat := (encode big i).length

/-! ### The decoder -/

/-- What a piece of the decoder answers: a value and the bytes after it, or why there is none. -/
abbrev Parsed (α : Type) := Except Reject (α × List Byte)

/-- The next byte. -/
def take8 : List Byte → Parsed Byte
  | b :: bs => .ok (b, bs)
  | _ => .error .truncated

/-- The next two bytes, little-endian. -/
def take16 : List Byte → Parsed (BitVec 16)
  | b0 :: b1 :: bs => .ok (b1 ++ b0, bs)
  | _ => .error .truncated

/-- The next four bytes, little-endian. -/
def take32 : List Byte → Parsed (BitVec 32)
  | b0 :: b1 :: b2 :: b3 :: bs => .ok (b3 ++ b2 ++ b1 ++ b0, bs)
  | _ => .error .truncated

/-- The displacement a mod field 00, 01 or 10 asks for, under 16-bit addressing. -/
def takeDisp16 (mod : BitVec 2) (bs : List Byte) : Parsed (Disp 16) :=
  match mod.toNat with
  | 0 => .ok (.none, bs)
  | 1 => (take8 bs).map fun (d, bs) => (.short d, bs)
  | _ => (take16 bs).map fun (d, bs) => (.full d, bs)

/-- The displacement a mod field 00, 01 or 10 asks for, under 32-bit addressing. -/
def takeDisp32 (mod : BitVec 2) (bs : List Byte) : Parsed (Disp 32) :=
  match mod.toNat with
  | 0 => .ok (.none, bs)
  | 1 => (take8 bs).map fun (d, bs) => (.short d, bs)
  | _ => (take32 bs).map fun (d, bs) => (.full d, bs)

/-- The memory operand behind a SIB byte. PRESUMED (log 5). -/
def takeSib (mod : BitVec 2) (bs : List Byte) : Parsed MemOp :=
  match take8 bs with
  | .error e => .error e
  | .ok (s, bs) =>
    if rmOf s = 5 ∧ mod = 0 then
      (take32 bs).map fun (d, bs) => (.sibAbs (modOf s) (.ofCode (regOf s)) d, bs)
    else
      (takeDisp32 mod bs).map fun (d, bs) => (.sib (modOf s) (.ofCode (regOf s)) (.ofCode (rmOf s)) d, bs)

/-- The memory operand of a ModRM byte with mod not 11 (30_encoding.md R93). PRESUMED (log 5). -/
def takeMem (wide : Bool) (mod : BitVec 2) (rm : BitVec 3) (bs : List Byte) : Parsed MemOp :=
  if wide then
    if rm = 4 then takeSib mod bs
    else if rm = 5 ∧ mod = 0 then (take32 bs).map fun (d, bs) => (.a32Abs d, bs)
    else (takeDisp32 mod bs).map fun (d, bs) => (.a32 (.ofCode rm) d, bs)
  else if rm = 6 ∧ mod = 0 then (take16 bs).map fun (d, bs) => (.a16Abs d, bs)
  else (takeDisp16 mod bs).map fun (d, bs) => (.a16 (.ofCode rm) d, bs)

/-- An r/m operand: mod = 11 is a register (30_encoding.md R93). -/
def takeRm (wide : Bool) (mod : BitVec 2) (rm : BitVec 3) (bs : List Byte) : Parsed RmOp :=
  if mod = 3 then .ok (.reg (.ofCode rm), bs)
  else (takeMem wide mod rm bs).map fun (m, bs) => (.mem m, bs)

/-- A ModRM byte and its r/m operand, given to `k` with the reg field; `k` answers `none` for a reg field that names no
instruction of the block, with the reason `why`. -/
def withRm (wide : Bool) (why : BitVec 3 → Reject) (bs : List Byte) (k : BitVec 3 → Option (RmOp → Instr)) :
    Parsed Instr :=
  match take8 bs with
  | .error e => .error e
  | .ok (b, bs) =>
    match k (regOf b) with
    | none => .error (why (regOf b))
    | some f => (takeRm wide (modOf b) (rmOf b) bs).map fun (x, bs) => (f x, bs)

/-- A ModRM byte that must name memory: mod = 11 is #UD (30_encoding.md R95). -/
def withMem (wide : Bool) (why : BitVec 3 → Reject) (bs : List Byte) (k : BitVec 3 → Option (MemOp → Instr)) :
    Parsed Instr :=
  match take8 bs with
  | .error e => .error e
  | .ok (b, bs) =>
    match k (regOf b) with
    | none => .error (why (regOf b))
    | some f =>
      if modOf b = 3 then .error .undefined
      else (takeMem wide (modOf b) (rmOf b) bs).map fun (m, bs) => (f m, bs)

/-- A ModRM byte that must name a register (MOV CR, MOV DR: mod = 11, 30_encoding.md R92); `why` is the reason when it does
not. -/
def withReg (why : BitVec 3 → Reject) (bs : List Byte) (k : BitVec 3 → Gpr → Instr) : Parsed Instr :=
  match take8 bs with
  | .error e => .error e
  | .ok (b, bs) =>
    if modOf b = 3 then .ok (k (regOf b) (.ofCode (rmOf b)), bs) else .error (why (regOf b))

/-- MOV CR with mod not 11: #UD for the control registers that do not exist, whatever mod is (R95). -/
def noCrReject (r : BitVec 3) : Reject := if r = 1 ∨ r = 5 ∨ r = 6 ∨ r = 7 then .undefined else .outside

/-- An immediate far pointer: offset, then selector (30_encoding.md R92). -/
def withFarPtr (wide : Bool) (bs : List Byte) (k : BitVec 32 → BitVec 16 → Instr) : Parsed Instr :=
  match (if wide then take32 bs else (take16 bs).map fun (o, bs) => (o.setWidth 32, bs)) with
  | .error e => .error e
  | .ok (off, bs) => (take16 bs).map fun (sel, bs) => (k off sel, bs)

/-- The instructions behind the byte 0F. -/
def decode0F (big : Bool) (p : List Pfx) (op : Byte) (bs : List Byte) : Parsed Instr :=
  let wide := addr32 big p
  let out := fun _ : BitVec 3 => Reject.outside
  match op.toNat with
  | 0x00 => withRm wide (fun r => if r = 6 ∨ r = 7 then .undefined else .outside) bs fun r =>
      match r.toNat with
      | 2 => some (.lldt p) | 3 => some (.ltr p) | 4 => some (.verr p) | 5 => some (.verw p) | _ => none
  | 0x01 => withMem wide out bs fun r =>
      match r.toNat with
      | 0 => some (.sgdt p) | 1 => some (.sidt p) | 2 => some (.lgdt p) | 3 => some (.lidt p) | _ => none
  | 0x02 => withRm wide out bs fun r => some (.lar p (.ofCode r))
  | 0x03 => withRm wide out bs fun r => some (.lsl p (.ofCode r))
  | 0x20 => withReg noCrReject bs (.movFromCr p)
  | 0x21 => withReg out bs (.movFromDr p)
  | 0x22 => withReg noCrReject bs (.movToCr p)
  | 0x23 => withReg out bs (.movToDr p)
  | 0xA1 => .ok (.popFs p, bs)
  | 0xA9 => .ok (.popGs p, bs)
  | 0xB2 => withMem wide out bs fun r => some (.lss p (.ofCode r))
  | 0xB4 => withMem wide out bs fun r => some (.lfs p (.ofCode r))
  | 0xB5 => withMem wide out bs fun r => some (.lgs p (.ofCode r))
  | _ => .error .outside

/-- The instruction whose opcode begins the bytes, after the prefixes `p` (30_encoding.md R92, R95). -/
def decodeBody (big : Bool) (p : List Pfx) : List Byte → Parsed Instr
  | [] => .error .truncated
  | op :: bs =>
    let wide := addr32 big p
    let out := fun _ : BitVec 3 => Reject.outside
    match op.toNat with
    | 0x07 => .ok (.popEs p, bs)
    | 0x0F =>
      match bs with
      | [] => .error .truncated
      | op2 :: bs => decode0F big p op2 bs
    | 0x17 => .ok (.popSs p, bs)
    | 0x1F => .ok (.popDs p, bs)
    | 0x63 => withRm wide out bs fun r => some fun x => .arpl p x (.ofCode r)
    | 0x8E => withRm wide (fun _ => .undefined) bs fun r =>
        match r.toNat with
        | 0 => some (.movEs p) | 2 => some (.movSs p) | 3 => some (.movDs p) | 4 => some (.movFs p)
        | 5 => some (.movGs p) | _ => none
    | 0x9A => withFarPtr (use32 big p) bs (.callFarPtr p)
    | 0x9C => .ok (.pushf p, bs)
    | 0x9D => .ok (.popf p, bs)
    | 0xC4 => withMem wide out bs fun r => some (.les p (.ofCode r))
    | 0xC5 => withMem wide out bs fun r => some (.lds p (.ofCode r))
    | 0xCA => (take16 bs).map fun (imm, bs) => (.retfImm p imm, bs)
    | 0xCB => .ok (.retf p, bs)
    | 0xCC => .ok (.int3 p, bs)
    | 0xCD => (take8 bs).map fun (v, bs) => (.intImm p v, bs)
    | 0xCE => .ok (.into p, bs)
    | 0xCF => .ok (.iret p, bs)
    | 0xEA => withFarPtr (use32 big p) bs (.jmpFarPtr p)
    | 0xFA => .ok (.cli p, bs)
    | 0xFB => .ok (.sti p, bs)
    | 0xFF => withMem wide out bs fun r =>
        match r.toNat with
        | 3 => some (.callFarMem p) | 5 => some (.jmpFarMem p) | _ => none
    | _ => .error .outside

/-- The prefixes at the start of the bytes, and the bytes after them. -/
def splitPfxs : List Byte → List Pfx × List Byte
  | [] => ([], [])
  | b :: bs =>
    match Pfx.ofByte b with
    | none => ([], b :: bs)
    | some x => (x :: (splitPfxs bs).1, (splitPfxs bs).2)

/-- The instruction at the start of the bytes, in code of default size `big`, and the bytes after it. An instruction is at
most 15 bytes long (30_encoding.md R96). -/
def decode (big : Bool) (bs : List Byte) : Parsed Instr :=
  match decodeBody big (splitPfxs bs).1 (splitPfxs bs).2 with
  | .error e => .error e
  | .ok (i, rest) => if bs.length - rest.length ≤ 15 then .ok (i, rest) else .error .tooLong

/-! ### Words as spec/opcode_table.json numbers them -/

/-- The `n` bytes of a table word, the FIRST byte of the instruction in the MOST significant place: the table's match of
`0F 00 /2` is 0x0F0010 (log 6). -/
def tableBytes : Nat → Nat → List Byte
  | 0, _ => []
  | n + 1, w => BitVec.ofNat 8 (w / 256 ^ n) :: tableBytes n w

/-- The bytes the hardware holds for a table word of `nbits` bits: its bytes, then zeros up to the longest instruction. -/
def tableWordBytes (nbits w : Nat) : List Byte :=
  tableBytes ((nbits + 7) / 8) w ++ List.replicate (15 - (nbits + 7) / 8) 0

/-- The instruction the decoder reads from a table word, in 16-bit code (the size after reset). -/
def decodeTableWord (nbits w : Nat) : Option Instr :=
  match decode false (tableWordBytes nbits w) with
  | .ok (i, _) => some i
  | .error _ => none

end Sys2Proof
end

