-- ==== Sys2Proof/Config.lean ====
section
/-! DEFINITION. What an implementation fixes: the OPEN parameters of 00_scope.md R8 as plain data that State carries (so a
statement for every state is a statement for every choice of them), and what unwritten memory reads as. -/

namespace Sys2Proof.Config

/-- `NESTED_FAULT_POLICY` (00_scope.md R8, 43_interrupts.md R216): what a fault raised while a fault is delivered does. -/
inductive NestedFaultPolicy where
  | redeliver
  | doubleFault
  | stop
  deriving DecidableEq, Repr

/-- `PRIV_ACCESS_FAULT` (00_scope.md R8, 60_exceptions.md R306): the fault of a privileged entry point at CPL > 0. -/
inductive PrivAccessFault where
  | ud
  | gp0
  deriving DecidableEq, Repr

/-- The parameters of one implementation. No step changes them. -/
structure Params where
  nestedFaultPolicy : NestedFaultPolicy
  privAccessFault : PrivAccessFault
  deriving DecidableEq, Repr

/-- The spec's defaults (00_scope.md R8: `redeliver`, `UD`). -/
def Params.default : Params := { nestedFaultPolicy := .redeliver, privAccessFault := .ud }

/-- What a byte of memory that nothing has written reads as. DESIGN CHOICE (log 3): the spec leaves memory after reset to the
platform (70_reset_and_hazards.md R330, R331); unsafe. -/
def unlistedByte : Byte := 0

end Sys2Proof.Config
end

