-- ==== Sys2Proof/Machine/State.lean ====
section
/-! DEFINITION. The state of the block as plain data (10_state.md), the instruction core's program text and guest memory
(20_memory.md), the answers of the `Mmu` collaborator (20_memory.md R61), what the outside world does next, and reset
(70_reset_and_hazards.md R330). -/

namespace Sys2Proof.Machine

/-! ### Registers -/

/-- The eight general registers (10_state.md R23). -/
structure Gprs where
  eax : Word
  ecx : Word
  edx : Word
  ebx : Word
  esp : Word
  ebp : Word
  esi : Word
  edi : Word
  deriving DecidableEq, Repr

/-- The active stack {mask, notmask, big} (10_state.md R29). -/
structure ActiveStack where
  mask : Word
  notmask : Word
  big : Bool
  deriving DecidableEq, Repr

/-- The kind a segment register caches (10_state.md R30). -/
inductive SegKind where
  | code (conforming readable : Bool)
  | data (writable expandDown : Bool)
  deriving DecidableEq, Repr

/-- A segment register: the visible selector and the hidden cache (10_state.md R30). -/
structure SegReg where
  sel : Sel
  base : Word
  limit : Word
  big : Bool
  valid : Bool
  dpl : Level
  kind : SegKind
  deriving DecidableEq, Repr

/-- The six segment registers (10_state.md R30). -/
structure Segs where
  es : SegReg
  cs : SegReg
  ss : SegReg
  ds : SegReg
  fs : SegReg
  gs : SegReg
  deriving DecidableEq, Repr

/-- GDTR or IDTR (10_state.md R32). -/
structure TableReg where
  base : Word
  limit : BitVec 16
  deriving DecidableEq, Repr

/-- LDTR (10_state.md R33). -/
structure LdtReg where
  sel : Sel
  base : Word
  limit : Word
  valid : Bool
  deriving DecidableEq, Repr

/-- TR, the current TSS (10_state.md R34). -/
structure TaskReg where
  sel : Sel
  base : Word
  limit : Word
  valid : Bool
  iomap : BitVec 16
  deriving DecidableEq, Repr

/-- The debug registers that exist; DR4 and DR5 are other names of DR6 and DR7 (10_state.md R39). -/
structure Drs where
  dr0 : Word
  dr1 : Word
  dr2 : Word
  dr3 : Word
  dr6 : Word
  dr7 : Word
  deriving DecidableEq, Repr

/-- A pending fault (10_state.md R40). -/
structure PendingFault where
  vector : BitVec 8
  hasError : Bool
  errorCode : Word
  returnEip : Word
  deriving DecidableEq, Repr

/-! ### Guest memory and the `Mmu` -/

/-- Guest memory behind the `Mmu`: the bytes that differ from `Config.unlistedByte`, by address, strictly rising. -/
abbrev Memory := List Host.Cell

/-- One access the block asks the `Mmu` about (20_memory.md R61: `check(addr, n, kind, user)`). -/
structure Access where
  addr : Word
  size : Nat
  write : Bool
  user : Bool
  deriving DecidableEq, Repr

/-- An answer `MmuFault{vector, error_code, addr}` (20_memory.md R61). -/
structure MmuFault where
  vector : BitVec 8
  errorCode : Word
  addr : Word
  deriving DecidableEq, Repr

/-- The answers of the `Mmu` under one page directory: which accesses fault (any not listed is `Ok`) and which byte of memory
a linear address names (one not listed names the byte of the same number). -/
structure MmuView where
  faults : List (Access × MmuFault)
  map : List (Word × Nat)
  deriving DecidableEq, Repr

/-- What the `Mmu` says to one access, whatever its view is (20_memory.md R61, R73): the fault `check` answers, or `Ok` with the
value that `read` then answers (a write takes the `Ok` alone). -/
inductive MmuAnswer where
  | fault (f : MmuFault)
  | ok (v : Word)
  deriving DecidableEq, Repr

/-- The `Mmu`: what the block has told it (`set_paging`, `set_page_directory_base`), its view for each value of the two (one not
listed never faults and maps each address to itself), and what it says to the accesses of an operation one by one, in the order
the operation makes them: `none`, and any access past the end of the list, is answered by the view. So an operation may meet any
answers at all, and between two operations the input `remap` gives others: a statement for every state is a statement for every
`Mmu` (20_memory.md R61; log 4). -/
structure Mmu where
  paging : Bool
  pdb : Word
  views : List ((Bool × Word) × MmuView)
  answers : List (Option MmuAnswer)
  deriving DecidableEq, Repr

/-! ### What the outside world does -/

/-- What the outside does next, between two operations (log 8). -/
inductive Input where
  /-- nothing: the next operation runs -/
  | idle
  /-- the core takes a hardware interrupt once EFLAGS.IF allows it (60_exceptions.md R308) -/
  | interrupt (v : BitVec 8)
  /-- the core detects an exception of its own with this vector and error code (43_interrupts.md R212, 60_exceptions.md R301) -/
  | exception (v : BitVec 8) (errorCode : Word)
  /-- the core is about to run a port access and asks `io_permitted` (45_system_registers.md R285) -/
  | portAccess
  /-- another owner of the memory writes one byte of it (20_memory.md R73) -/
  | store (addr : Nat) (b : Byte)
  /-- the `Mmu`'s answers change (20_memory.md R61), as other owners of the memory may change them (R73) -/
  | remap (views : List ((Bool × Word) × MmuView)) (answers : List (Option MmuAnswer))
  /-- reset (70_reset_and_hazards.md R330) -/
  | reset
  deriving DecidableEq, Repr

/-! ### The state -/

/-- The state of one instance of the block, the memory it shares and what the outside world does next. -/
structure State where
  gpr : Gprs
  eip : Word
  eflags : Word
  cpl : Level
  stack : ActiveStack
  seg : Segs
  gdtr : TableReg
  idtr : TableReg
  ldtr : LdtReg
  tr : TaskReg
  cr0 : Word
  cr2 : Word
  cr3 : Word
  cr4 : Word
  dr : Drs
  pendingFault : Option PendingFault
  refused : Bool
  mem : Memory
  mmu : Mmu
  inputs : List Input
  params : Config.Params
  deriving DecidableEq, Repr

/-- How the machine stops with a fault. -/
inductive Fault where
  /-- `NESTED_FAULT_POLICY` says stop: a fault was raised while a fault (under `double_fault`: #DF) was being delivered
  (43_interrupts.md R216, "stop (no further step)"). Raised by `execExceptionDelivery`. Safe: the spec stops here too. -/
  | nestedFaultStop
  deriving DecidableEq, Repr

/-- Why a step has no meaning. -/
inductive Refusal where
  /-- An instruction without a meaning in this model, by mnemonic. Raised only by `exec`'s refused arms. Safe. -/
  | notModelled (mnemonic : String)
  /-- The mark `refused` is set: an operation reached a 286 descriptor (10_state.md R41, 60_exceptions.md R312), and the spec
  gives no further step. Raised by `step`. Safe. -/
  | unsupported286
  /-- The bytes at the program counter are no encoding of the opcode table: an instruction of the core that lies outside the
  block (00_scope.md R6). Raised by `step`. Safe. -/
  | outsideBlock
  /-- An instruction of more than 15 bytes (30_encoding.md R96), which the spec gives no effect. Raised by `step`. Safe. -/
  | tooLong
  /-- `exceptionDelivery` with no pending fault, which 43_interrupts.md R216 does not define. Raised by
  `execExceptionDelivery` only when called on such a state; `step` never does. Safe. -/
  | nothingPending
  deriving DecidableEq, Repr

/-! ### Reset -/

/-- The reset value of ES, SS, DS, FS, GS (10_state.md R31). -/
def SegReg.resetData : SegReg :=
  { sel := 0, base := 0, limit := 0xFFFF, big := false, valid := true, dpl := 0, kind := .data true false }

/-- The reset value of CS (10_state.md R31). -/
def SegReg.resetCode : SegReg :=
  { sel := 0xF000, base := 0xFFFF0000, limit := 0xFFFF, big := false, valid := true, dpl := 0, kind := .code false true }

/-- The machine right after reset (70_reset_and_hazards.md R330). EDX is 0: DESIGN CHOICE (log 1), the spec leaves it
unspecified. Memory lists nothing (log 3); the `Mmu` starts with paging off and page-directory base 0 (R330). -/
def State.reset : State where
  gpr := { eax := 0, ecx := 0, edx := 0, ebx := 0, esp := 0, ebp := 0, esi := 0, edi := 0 }
  eip := 0x0000FFF0
  eflags := 0x00000002
  cpl := 0
  stack := { mask := 0x0000FFFF, notmask := 0xFFFF0000, big := false }
  seg :=
    { es := .resetData, cs := .resetCode, ss := .resetData, ds := .resetData, fs := .resetData, gs := .resetData }
  gdtr := { base := 0, limit := 0xFFFF }
  idtr := { base := 0, limit := 0xFFFF }
  ldtr := { sel := 0, base := 0, limit := 0xFFFF, valid := false }
  tr := { sel := 0, base := 0, limit := 0xFFFF, valid := false, iomap := 0 }
  cr0 := 0x60000010
  cr2 := 0
  cr3 := 0
  cr4 := 0
  dr := { dr0 := 0, dr1 := 0, dr2 := 0, dr3 := 0, dr6 := 0xFFFF0FF0, dr7 := 0x00000400 }
  pendingFault := none
  refused := false
  mem := []
  mmu := { paging := false, pdb := 0, views := [], answers := [] }
  inputs := []
  params := .default

end Sys2Proof.Machine
end

