-- ==== Sys2Proof/Machine/Flags.lean ====
section
/-! DEFINITION. EFLAGS: its fields, the masks of 30_encoding.md R90, the write rule of 10_state.md R25 and the merge of IRET and
POPF (43_interrupts.md R225). -/

namespace Sys2Proof.Machine

/-! ### Bit positions (10_state.md R25, R28, R35) -/

/-- EFLAGS.ZF. -/
abbrev bitZF : Nat := 6
/-- EFLAGS.TF. -/
abbrev bitTF : Nat := 8
/-- EFLAGS.IF. -/
abbrev bitIF : Nat := 9
/-- EFLAGS.OF. -/
abbrev bitOF : Nat := 11
/-- EFLAGS.NT. -/
abbrev bitNT : Nat := 14
/-- EFLAGS.RF. -/
abbrev bitRF : Nat := 16
/-- EFLAGS.VM. -/
abbrev bitVM : Nat := 17
/-- CR0.PE. -/
abbrev bitPE : Nat := 0
/-- CR0.TS. -/
abbrev bitTS : Nat := 3
/-- CR0.PG. -/
abbrev bitPG : Nat := 31

/-- A register with bit `n` set to `b`. -/
def setBit (v : Word) (n : Nat) (b : Bool) : Word :=
  if b then v ||| (1#32 <<< n) else v &&& ~~~(1#32 <<< n)

/-! ### Masks (30_encoding.md R90) -/

/-- NORMAL: CF, PF, AF, ZF, SF, TF, IF, DF, OF, AC, ID. -/
def maskNormal : Word := 0x00240FD5
/-- ALL: NORMAL, IOPL and NT. -/
def maskAll : Word := 0x00247FD5
/-- V86_ALL: ALL, RF, VM, VIF and VIP. -/
def maskV86All : Word := 0x003F7FD5

/-- What every write of EFLAGS stores: reserved bits 0, bit 1 one (10_state.md R25). -/
def eflagsWrite (v : Word) : Word := (v &&& maskV86All) ||| 0x2

/-- EFLAGS.IOPL: bits 13:12 (10_state.md R25). -/
def State.iopl (s : State) : Level := s.eflags.extractLsb' 12 2

/-- EFLAGS.VM (10_state.md R26). -/
def State.vm (s : State) : Bool := s.eflags.getLsbD bitVM

/-- EFLAGS.NT. -/
def State.nt (s : State) : Bool := s.eflags.getLsbD bitNT

/-- EFLAGS.IF. -/
def State.ifl (s : State) : Bool := s.eflags.getLsbD bitIF

/-- EFLAGS.OF. -/
def State.ofl (s : State) : Bool := s.eflags.getLsbD bitOF

/-- EFLAGS.ZF. -/
def State.zf (s : State) : Bool := s.eflags.getLsbD bitZF

/-- CR0.PE, the protected-mode flag (10_state.md R28). -/
def State.pe (s : State) : Bool := s.cr0.getLsbD bitPE

/-- A write of EFLAGS (10_state.md R25). -/
def State.withEflags (s : State) (v : Word) : State := { s with eflags := eflagsWrite v }

/-- A write of one flag (10_state.md R25). -/
def State.withFlag (s : State) (n : Nat) (b : Bool) : State := s.withEflags (setBit s.eflags n b)

/-! ### The merge table of IRET and POPF (43_interrupts.md R225) -/

/-- The merge mask of a CPL and an IOPL: the literal table of R225. -/
def mergeMask (cpl iopl : Level) : Word :=
  match cpl.toNat, iopl.toNat with
  | 0, _ => 0x00247FD5
  | 1, 0 => 0x00244DD5
  | 1, _ => 0x00244FD5
  | 2, 0 => 0x00244DD5
  | 2, 1 => 0x00244DD5
  | 2, _ => 0x00244FD5
  | _, 0 => 0x00244DD5
  | _, 1 => 0x00244DD5
  | _, 2 => 0x00244DD5
  | _, _ => 0x00244FD5

/-- The mask `MergeFlags` uses: a 16-bit pop writes no bit above 15. -/
def mergeMaskFor (cpl iopl : Level) (wide : Bool) : Word :=
  if wide then mergeMask cpl iopl else mergeMask cpl iopl &&& 0x0000FFFF

/-- EFLAGS after `MergeFlags(fl, w)`; CPL and IOPL are those of `s` (R225). -/
def State.mergeFlags (s : State) (fl : Word) (wide : Bool) : State :=
  let m := mergeMaskFor s.cpl s.iopl wide
  s.withEflags ((s.eflags &&& ~~~m) ||| (fl &&& m))

/-- `ClearOnDelivery` (43_interrupts.md R217): TF, NT, RF and VM cleared, IF too for an interrupt gate. -/
def State.clearOnDelivery (s : State) (interruptGate : Bool) : State :=
  let fl := setBit (setBit (setBit (setBit s.eflags bitTF false) bitNT false) bitRF false) bitVM false
  s.withEflags (if interruptGate then setBit fl bitIF false else fl)

/-- The image PUSHFD pushes: VM and RF read as 0 (45_system_registers.md R283). -/
def pushfImage (fl : Word) : Word := fl &&& ~~~0x00030000#32

/-! ### Modes (10_state.md R28) -/

/-- CR0.PE = 0 or EFLAGS.VM = 1: segment loads and far transfers are unchecked. -/
def State.unchecked (s : State) : Bool := !s.pe || s.vm

/-- Real mode. -/
def State.realMode (s : State) : Bool := !s.pe

/-- Virtual-8086 mode. -/
def State.v86Mode (s : State) : Bool := s.pe && s.vm

/-- Protected mode. -/
def State.protMode (s : State) : Bool := s.pe && !s.vm

end Sys2Proof.Machine
end

