-- ==== Sys2Proof/Machine/Ops.lean ====
section
/-! DEFINITION. The shared operations: registers, memory, the `Mmu`, an operation's working copy and plan (20_memory.md R64,
R65; 40_privilege_checks.md R120), descriptors and privilege predicates (40), the segment register loader (41), the task
switch (44), TAKING AN EXCEPTION (43_interrupts.md R212 to R218) and RETURNING FROM ONE (R222 to R229). -/

namespace Sys2Proof.Machine

/-! ### Registers -/

/-- `GPR[r]` (00_scope.md R10). -/
def Gprs.get (g : Gprs) : Gpr → Word
  | .eax => g.eax | .ecx => g.ecx | .edx => g.edx | .ebx => g.ebx
  | .esp => g.esp | .ebp => g.ebp | .esi => g.esi | .edi => g.edi

/-- `GPR[r] <- v`. -/
def Gprs.set (g : Gprs) (r : Gpr) (v : Word) : Gprs :=
  match r with
  | .eax => { g with eax := v }
  | .ecx => { g with ecx := v }
  | .edx => { g with edx := v }
  | .ebx => { g with ebx := v }
  | .esp => { g with esp := v }
  | .ebp => { g with ebp := v }
  | .esi => { g with esi := v }
  | .edi => { g with edi := v }

/-- `SEG[s]` (00_scope.md R10). -/
def Segs.get (g : Segs) : SegName → SegReg
  | .es => g.es | .cs => g.cs | .ss => g.ss | .ds => g.ds | .fs => g.fs | .gs => g.gs

/-- `SEG[s] <- v`. -/
def Segs.set (g : Segs) (s : SegName) (v : SegReg) : Segs :=
  match s with
  | .es => { g with es := v }
  | .cs => { g with cs := v }
  | .ss => { g with ss := v }
  | .ds => { g with ds := v }
  | .fs => { g with fs := v }
  | .gs => { g with gs := v }

/-- The control registers that exist (45_system_registers.md R270): CR0, CR2, CR3, CR4. -/
def State.cr (s : State) (n : BitVec 3) : Option Word :=
  match n.toNat with
  | 0 => some s.cr0 | 2 => some s.cr2 | 3 => some s.cr3 | 4 => some s.cr4 | _ => none

/-- `DR[alias(n)]`: DR4 and DR5 are DR6 and DR7 (45_system_registers.md R275). -/
def Drs.get (d : Drs) (n : BitVec 3) : Word :=
  match n.toNat with
  | 0 => d.dr0 | 1 => d.dr1 | 2 => d.dr2 | 3 => d.dr3 | 4 => d.dr6 | 5 => d.dr7 | 6 => d.dr6 | _ => d.dr7

/-- `DR[alias(n)] <- v` (45_system_registers.md R275). -/
def Drs.set (d : Drs) (n : BitVec 3) (v : Word) : Drs :=
  match n.toNat with
  | 0 => { d with dr0 := v }
  | 1 => { d with dr1 := v }
  | 2 => { d with dr2 := v }
  | 3 => { d with dr3 := v }
  | 4 => { d with dr6 := v }
  | 5 => { d with dr7 := v }
  | 6 => { d with dr6 := v }
  | _ => { d with dr7 := v }

/-- A value written at an operand size: 32 bits, or the low 16 with the upper 16 kept, as 41_segment_loading.md R167 and R170 say
for LAR and LSL. For LES and its like and for ARPL the kept half is PRESUMED (log 23): the spec leaves a register's 16-bit alias
to the instruction core (10_state.md R23). -/
def mergeSize (wide : Bool) (old v : Word) : Word :=
  if wide then v else (old &&& 0xFFFF0000) ||| (v &&& 0x0000FFFF)

/-- The bytes of an operand size. -/
def widthBytes (wide : Bool) : Nat := if wide then 4 else 2

/-- `trunc_16` of a 32-bit value. -/
def low16 (v : Word) : BitVec 16 := v.extractLsb' 0 16

/-- `zext_32(trunc_16(v))` when the operand size is 16, else `v`: the target EIP of 10_state.md R24, and `LoadESP` of
40_privilege_checks.md R135. -/
def sizeTrunc (wide : Bool) (v : Word) : Word := if wide then v else v &&& 0x0000FFFF

/-- The active stack of an SS cache (10_state.md R29). -/
def ActiveStack.ofBig (big : Bool) : ActiveStack :=
  if big then { mask := 0xFFFFFFFF, notmask := 0, big := true }
  else { mask := 0x0000FFFF, notmask := 0xFFFF0000, big := false }

/-- ESP after `SetESP(v)` (40_privilege_checks.md R134). -/
def ActiveStack.merge (st : ActiveStack) (esp v : Word) : Word := (esp &&& st.notmask) ||| (v &&& st.mask)

/-- `SetESP(v)` (40_privilege_checks.md R134). -/
def State.setEsp (s : State) (v : Word) : State :=
  { s with gpr := { s.gpr with esp := s.stack.merge s.gpr.esp v } }

/-- `ESP <- v`, no mask applied (40_privilege_checks.md R135, 41_segment_loading.md R152). -/
def State.loadEsp (s : State) (v : Word) : State := { s with gpr := { s.gpr with esp := v } }

/-- The default size of the code being run: CS.big in protected mode, 16 bits otherwise (30_encoding.md R94). -/
def State.codeBig (s : State) : Bool := s.protMode && s.seg.cs.big

/-- `next_eip`: the address of the instruction after `i` (00_scope.md R16). Wraps modulo 2^32 (log 5). -/
def State.nextEip (s : State) (i : Instr) : Word := s.eip + BitVec.ofNat 32 (i.size s.codeBig)

/-- The operand size of an instruction with these prefixes (30_encoding.md R94). -/
def State.opSize (s : State) (p : List Pfx) : Bool := use32 s.codeBig p

/-! ### Guest memory -/

/-- The byte at an address of memory. -/
def Memory.read : Memory → Nat → Byte
  | [], _ => Config.unlistedByte
  | (k, b) :: m, a => if k = a then b else Memory.read m a

/-- Memory with one byte written, in canonical form: sorted, and no entry equal to `Config.unlistedByte`. -/
def Memory.write : Memory → Nat → Byte → Memory
  | [], a, v => if v = Config.unlistedByte then [] else [(a, v)]
  | (k, b) :: m, a, v =>
    if a < k then (if v = Config.unlistedByte then (k, b) :: m else (a, v) :: (k, b) :: m)
    else if a = k then (if v = Config.unlistedByte then m else (a, v) :: m)
    else (k, b) :: Memory.write m a v

/-- The canonical form: addresses strictly rising, no entry equal to what an unlisted address reads as. -/
def Memory.wf : Memory → Bool
  | [] => true
  | [(_, b)] => b != Config.unlistedByte
  | (k, b) :: (k', b') :: m => b != Config.unlistedByte && decide (k < k') && Memory.wf ((k', b') :: m)

/-! ### The `Mmu` (20_memory.md R61) -/

/-- The answers in force for the page directory and paging mode the `Mmu` was told. -/
def Mmu.view (m : Mmu) : MmuView := (m.views.lookup (m.paging, m.pdb)).getD { faults := [], map := [] }

/-- `Mmu.check`: `none` is `Ok`. -/
def Mmu.check (m : Mmu) (a : Access) : Option MmuFault := m.view.faults.lookup a

/-- The byte of memory a linear address names. -/
def Mmu.translate (m : Mmu) (a : Word) : Nat := (m.view.map.lookup a).getD a.toNat

/-- The byte a linear address reads as, between operations. -/
def State.readByte (s : State) (a : Word) : Byte := s.mem.read (s.mmu.translate a)

/-- The little-endian value of `n` bytes read by `f` at `a`, addresses modulo 2^32 (20_memory.md R62). -/
def readLe (f : Word → Byte) (a : Word) : Nat → Word
  | 0 => 0
  | n + 1 => (f a).setWidth 32 ||| (readLe f (a + 1#32) n <<< 8)

/-- The value of `n` bytes at a linear address, between operations (20_memory.md R62). -/
def State.readLin (s : State) (a : Word) (n : Nat) : Word := readLe s.readByte a n

/-- The bytes `MemWrite(a, n, v)` writes, with their addresses, in order (20_memory.md R62). -/
def bytesLe (a : Word) : Nat → Word → List (Word × Byte)
  | 0, _ => []
  | n + 1, v => (a, v.setWidth 8) :: bytesLe (a + 1#32) n (v >>> 8)

/-- Memory after the writes of a plan (the latest first) through an `Mmu` (20_memory.md R65). -/
def applyPlan (m : Mmu) (plan : List (Word × Byte)) (mem : Memory) : Memory :=
  plan.foldr (fun w acc => Memory.write acc (m.translate w.1) w.2) mem

/-- The state after `MemWrite(a, n, v)` has been performed. -/
def State.writeLin (s : State) (a : Word) (n : Nat) (v : Word) : State :=
  { s with mem := applyPlan s.mmu (bytesLe a n v).reverse s.mem }

/-! ### Faults (60_exceptions.md R301 to R304) -/

/-- What `raise` carries: the vector, whether an error code goes with it, the code (0 without one), and the address CR2 takes
for an `Mmu` page fault. -/
structure FaultCode where
  vector : BitVec 8
  hasError : Bool
  errorCode : Word
  cr2 : Option Word
  deriving DecidableEq, Repr

/-- #UD (60_exceptions.md R301). -/
def FaultCode.ud : FaultCode := { vector := 6, hasError := false, errorCode := 0, cr2 := none }
/-- #TS(e) (60_exceptions.md R301). -/
def FaultCode.ts (e : Word) : FaultCode := { vector := 10, hasError := true, errorCode := e, cr2 := none }
/-- #NP(e) (60_exceptions.md R301). -/
def FaultCode.np (e : Word) : FaultCode := { vector := 11, hasError := true, errorCode := e, cr2 := none }
/-- #SS(e) (60_exceptions.md R301). -/
def FaultCode.ss (e : Word) : FaultCode := { vector := 12, hasError := true, errorCode := e, cr2 := none }
/-- #GP(e) (60_exceptions.md R301). -/
def FaultCode.gp (e : Word) : FaultCode := { vector := 13, hasError := true, errorCode := e, cr2 := none }

/-- An `Mmu` fault: its vector and code pass through; vector 14 also gives CR2 (60_exceptions.md R304). -/
def MmuFault.code (f : MmuFault) : FaultCode :=
  { vector := f.vector, hasError := true, errorCode := f.errorCode,
    cr2 := if f.vector = 14 then some f.addr else none }

/-- Vectors an Exception pushes an error code for (60_exceptions.md R301). -/
def vectorHasError (v : BitVec 8) : Bool :=
  v == 8 || v == 10 || v == 11 || v == 12 || v == 13 || v == 14 || v == 17

/-- The state after a fault: `pending_fault` written with EIP as the return address, CR2 for a page fault, nothing else
(60_exceptions.md R303, R304). -/
def State.takeFault (s : State) (f : FaultCode) : State :=
  { s with
    pendingFault := some { vector := f.vector, hasError := f.hasError, errorCode := f.errorCode, returnEip := s.eip }
    cr2 := f.cr2.getD s.cr2 }

/-! ### An operation: working copy, plan, commit -/

/-- How an operation ends without committing (00_scope.md R12). -/
inductive Halt where
  | raise (f : FaultCode)
  | refuse
  deriving DecidableEq, Repr

/-- An operation in progress: the committed state, the working copy `W` (40_privilege_checks.md R120), the planned writes,
the latest first (20_memory.md R64), whether a task switch has committed (44_task_switch.md R249), and what the `Mmu` will say to
the accesses still to come (20_memory.md R61). -/
structure Ctx where
  base : State
  work : State
  plan : List (Word × Byte)
  switched : Bool
  answers : List (Option MmuAnswer)
  deriving DecidableEq, Repr

/-- A piece of an operation. A raise keeps the context, whose `base` is what the fault leaves. -/
abbrev Op (α : Type) := EStateM Halt Ctx α

/-- The start of an operation. -/
def Ctx.start (s : State) : Ctx := { base := s, work := s, plan := [], switched := false, answers := s.mmu.answers }

/-- `commit`: the planned writes through the `Mmu`, and the working copy (20_memory.md R65). -/
def Ctx.commit (c : Ctx) : State := { c.work with mem := applyPlan c.base.mmu c.plan c.base.mem }

/-- The working copy. -/
def work : Op State := fun c => .ok c.work c

/-- A write of the working copy. -/
def modifyWork (f : State → State) : Op Unit := fun c => .ok () { c with work := f c.work }

/-- `raise #XX(e)` (00_scope.md R11). -/
def raiseFault {α : Type} (f : FaultCode) : Op α := fun c => .error (.raise f) c

/-- `if b: raise #XX(e)`. -/
def raiseIf (b : Bool) (f : FaultCode) : Op Unit := if b then raiseFault f else pure ()

/-- `refuse Unsupported286Descriptor` (60_exceptions.md R312). -/
def refuseIf (b : Bool) : Op Unit := fun c => if b then .error .refuse c else .ok () c

/-- `op` if `b`. -/
def whenOp (b : Bool) (op : Op Unit) : Op Unit := if b then op else pure ()

/-- Every load done so far is kept even if a later one faults (44_task_switch.md R250). -/
def keepWork : Op Unit := fun c => .ok () { c with base := c.work }

/-- `EIP <- next_eip`, the end of an operation that transfers no control (10_state.md R24). -/
def advance (next : Word) : Op Unit := modifyWork fun w => { w with eip := next }

/-- The outcome of an operation (00_scope.md R12): committed; faulted (60_exceptions.md R303); or refused, which sets the mark
`refused` (10_state.md R41). -/
def finish : EStateM.Result Halt Ctx Unit → Host.Outcome State Fault Refusal
  | .ok _ c => .next c.commit
  | .error (.raise f) c => .next (c.base.takeFault f)
  | .error .refuse c => .next { c.base with refused := true }

/-- The outcome of operation `op` at `s`. -/
def State.run (s : State) (op : Op Unit) : Host.Outcome State Fault Refusal := finish (op (Ctx.start s))

/-! ### Memory inside an operation (20_memory.md R64) -/

/-- `Mmu.check` of the next access of the operation: as the `Mmu` says to this one access, or else as its view says. -/
def Ctx.check (c : Ctx) (x : Access) : Option MmuFault :=
  match c.answers with
  | some (.fault f) :: _ => some f
  | some (.ok _) :: _ => none
  | none :: _ | [] => c.base.mmu.check x

/-- The byte at `x` of what `Mmu.read` answers to the next access, one that begins at `a`: a byte of the value it says, or else of
memory. -/
def Ctx.mmuByte (c : Ctx) (a x : Word) : Byte :=
  match c.answers with
  | some (.ok v) :: _ => (v >>> (8 * (x - a).toNat)).setWidth 8
  | some (.fault _) :: _ | none :: _ | [] => c.base.readByte x

/-- The byte at `x` that an operation reads by an access that begins at `a`: its own latest write to it, or else the `Mmu`'s. -/
def Ctx.readByte (c : Ctx) (a x : Word) : Byte := (c.plan.lookup x).getD (c.mmuByte a x)

/-- The next access has been answered. -/
def Ctx.asked (c : Ctx) : Ctx := { c with answers := c.answers.tail }

/-- `MemRead(a, n)`: the access is checked, then read (20_memory.md R64). -/
def memRead (user : Bool) (a : Word) (n : Nat) : Op Word := fun c =>
  match c.check { addr := a, size := n, write := false, user := user } with
  | some f => .error (.raise f.code) c.asked
  | none => .ok (readLe (c.readByte a) a n) c.asked

/-- `MemWrite(a, n, v)`: the access is checked, then planned (20_memory.md R64). -/
def memWrite (user : Bool) (a : Word) (n : Nat) (v : Word) : Op Unit := fun c =>
  match c.check { addr := a, size := n, write := true, user := user } with
  | some f => .error (.raise f.code) c.asked
  | none => .ok () { c.asked with plan := (bytesLe a n v).reverse ++ c.plan }

/-- The `user` flag of a stack access: CPL 3 (20_memory.md R61). -/
def State.user (s : State) : Bool := s.cpl == 3

/-- The linear address of stack offset `o` (20_memory.md R70). -/
def State.stackAddr (s : State) (o : Word) : Word := s.seg.ss.base + (o &&& s.stack.mask)

/-- `Push(w, v)` (40_privilege_checks.md R136). -/
def push (w : Nat) (v : Word) : Op Unit := do
  let s ← work
  memWrite s.user (s.stackAddr (s.gpr.esp - BitVec.ofNat 32 w)) w v
  modifyWork fun s => s.setEsp (s.gpr.esp - BitVec.ofNat 32 w)

/-- `PeekStack(k, w)` (40_privilege_checks.md R137). -/
def peekStack (k : Word) (w : Nat) : Op Word := do
  let s ← work
  memRead s.user (s.stackAddr (s.gpr.esp + k)) w

/-- `Pop(w)` (40_privilege_checks.md R137). -/
def pop (w : Nat) : Op Word := do
  let v ← peekStack 0#32 w
  modifyWork fun s => s.setEsp (s.gpr.esp + BitVec.ofNat 32 w)
  pure v

/-- A selector in a 32-bit value: pushed zero-extended (40_privilege_checks.md R137). -/
def selWord (s : Sel) : Word := s.setWidth 32

/-! ### Selectors (30_encoding.md R80, 40_privilege_checks.md R121, R122) -/

/-- `index(s)`: bits 15:3. -/
def selIndex (s : Sel) : BitVec 13 := s.extractLsb' 3 13
/-- `ti(s)`: bit 2; 1 names the LDT. -/
def selTi (s : Sel) : Bool := s.getLsbD 2
/-- `rpl(s)`: bits 1:0. -/
def selRpl (s : Sel) : Level := s.extractLsb' 0 2
/-- `IsNull(s)` (R121). -/
def isNull (s : Sel) : Bool := (s &&& 0xFFFC) == 0
/-- `ErrSel(s)` (R122, 30_encoding.md R89). -/
def errSel (s : Sel) : Word := (s &&& 0xFFFC).setWidth 32
/-- `IdtErr(v)` (30_encoding.md R89). -/
def idtErr (v : BitVec 8) : Word := (v.setWidth 32 <<< 3) ||| 2
/-- The selector with its RPL replaced (R142). -/
def withRpl (s : Sel) (n : Level) : Sel := (s &&& 0xFFFC) ||| n.setWidth 16

/-! ### Descriptors (30_encoding.md R81 to R86) -/

/-- The kind of a descriptor (30_encoding.md R86). -/
inductive DescKind where
  | seg (k : SegKind)
  | callGate
  | taskGate
  | interruptGate
  | trapGate
  | tss (busy : Bool)
  | ldt
  | tss286
  | gate286
  | invalid
  deriving DecidableEq, Repr

/-- A decoded descriptor (30_encoding.md R86). -/
structure Desc where
  kind : DescKind
  base : Word
  limit : Word
  dpl : Level
  present : Bool
  big : Bool
  gateSel : Sel
  gateOff : Word
  paramCount : BitVec 5
  lo : Word
  hi : Word
  deriving DecidableEq, Repr

/-- The type field `hi[11:8]` (R81). -/
def typeField (hi : Word) : BitVec 4 := hi.extractLsb' 8 4

/-- The kind of a system descriptor by its type field (R84). -/
def systemKind (t : BitVec 4) : DescKind :=
  match t.toNat with
  | 0x1 => .tss286
  | 0x2 => .ldt
  | 0x3 => .tss286
  | 0x4 => .gate286
  | 0x5 => .taskGate
  | 0x6 => .gate286
  | 0x7 => .gate286
  | 0x9 => .tss false
  | 0xB => .tss true
  | 0xC => .callGate
  | 0xE => .interruptGate
  | 0xF => .trapGate
  | _ => .invalid

/-- `decode_kind(hi)` (R86, with the tables of R83 and R84). -/
def decodeKind (hi : Word) : DescKind :=
  if hi.getLsbD 12 then
    if hi.getLsbD 11 then .seg (.code (hi.getLsbD 10) (hi.getLsbD 9))
    else .seg (.data (hi.getLsbD 9) (hi.getLsbD 10))
  else systemKind (typeField hi)

/-- The kind has a base, a limit and a default size (R81: code, data, LDT and TSS descriptors). -/
def DescKind.isSegment : DescKind → Bool
  | .seg _ | .ldt | .tss _ | .tss286 => true
  | .callGate | .taskGate | .interruptGate | .trapGate | .gate286 | .invalid => false

/-- The kind has a target selector (R85: call, interrupt, trap and task gates). -/
def DescKind.isGate : DescKind → Bool
  | .callGate | .taskGate | .interruptGate | .trapGate => true
  | .seg _ | .tss _ | .ldt | .tss286 | .gate286 | .invalid => false

/-- `limit_eff` (R82). -/
def limitEff (lo hi : Word) : Word :=
  let l : Word := (hi &&& 0x000F0000) ||| (lo &&& 0x0000FFFF)
  if hi.getLsbD 23 then (l <<< 12) ||| 0xFFF else l

/-- `DecodeDesc(lo, hi)` (40_privilege_checks.md R123); a field that a kind does not have is 0 (R86). -/
def decodeDesc (lo hi : Word) : Desc :=
  let k := decodeKind hi
  { kind := k
    base := if k.isSegment then (hi &&& 0xFF000000) ||| ((hi &&& 0xFF) <<< 16) ||| (lo >>> 16) else 0
    limit := if k.isSegment then limitEff lo hi else 0
    dpl := hi.extractLsb' 13 2
    present := hi.getLsbD 15
    big := k.isSegment && hi.getLsbD 22
    gateSel := if k.isGate then lo.extractLsb' 16 16 else 0
    gateOff := if k.isGate && k != .taskGate then (hi &&& 0xFFFF0000) ||| (lo &&& 0x0000FFFF) else 0
    paramCount := if k = .callGate then hi.extractLsb' 0 5 else 0
    lo := lo
    hi := hi }

/-- The kind is `Code{..}`. -/
def DescKind.isCode : DescKind → Bool
  | .seg (.code _ _) => true
  | .seg (.data _ _) | .callGate | .taskGate | .interruptGate | .trapGate | .tss _ | .ldt | .tss286 | .gate286
  | .invalid => false

/-- The kind is `Code{conforming = 1}`. -/
def DescKind.isConforming : DescKind → Bool
  | .seg (.code c _) => c
  | .seg (.data _ _) | .callGate | .taskGate | .interruptGate | .trapGate | .tss _ | .ldt | .tss286 | .gate286
  | .invalid => false

/-- The kind is `Data{writable = 1}`. -/
def DescKind.isWritableData : DescKind → Bool
  | .seg (.data w _) => w
  | .seg (.code _ _) | .callGate | .taskGate | .interruptGate | .trapGate | .tss _ | .ldt | .tss286 | .gate286
  | .invalid => false

/-- The kind is `Data{..}` or `Code{readable = 1}`: loadable into DS, ES, FS, GS (41_segment_loading.md R150). -/
def DescKind.isLoadable : DescKind → Bool
  | .seg (.data _ _) => true
  | .seg (.code _ r) => r
  | .callGate | .taskGate | .interruptGate | .trapGate | .tss _ | .ldt | .tss286 | .gate286 | .invalid => false

/-- The kind is a 286 descriptor (R84, R86). -/
def DescKind.is286 : DescKind → Bool
  | .tss286 | .gate286 => true
  | .seg _ | .callGate | .taskGate | .interruptGate | .trapGate | .tss _ | .ldt | .invalid => false

/-- The kind a segment register caches. Only code and data descriptors are installed (R150); the last case is not reached. -/
def DescKind.cached : DescKind → SegKind
  | .seg k => k
  | .callGate | .taskGate | .interruptGate | .trapGate | .tss _ | .ldt | .tss286 | .gate286 | .invalid =>
    .data false false

/-! ### Descriptor tables (40_privilege_checks.md R124 to R126) -/

/-- The table a selector names (R124). -/
structure Table where
  base : Word
  limit : Word
  usable : Bool
  deriving DecidableEq, Repr

/-- The table of a selector (R124). -/
def State.tableOf (s : State) (sel : Sel) : Table :=
  if selTi sel then { base := s.ldtr.base, limit := s.ldtr.limit, usable := s.ldtr.valid }
  else { base := s.gdtr.base, limit := s.gdtr.limit.setWidth 32, usable := true }

/-- The lookup fails (R125): no usable table, or `index*8 + 7 > limit`. -/
def State.beyondLimit (s : State) (sel : Sel) : Bool :=
  !(s.tableOf sel).usable || decide ((selIndex sel).toNat * 8 + 7 > (s.tableOf sel).limit.toNat)

/-- The linear address of the descriptor a selector names (20_memory.md R70). -/
def State.descAddr (s : State) (sel : Sel) : Word := (s.tableOf sel).base + (sel &&& 0xFFF8).setWidth 32

/-- `LookupDesc(s)` (R125); `none` is `NotPresent`. -/
def lookupDesc (sel : Sel) : Op (Option Desc) := do
  let s ← work
  if s.beyondLimit sel then
    pure none
  else do
    let lo ← memRead false (s.descAddr sel) 4
    let hi ← memRead false (s.descAddr sel + 4#32) 4
    pure (some (decodeDesc lo hi))

/-- `d = LookupDesc(s); if d == NotPresent: raise f`. -/
def requireDesc (sel : Sel) (f : FaultCode) : Op Desc := do
  let d ← lookupDesc sel
  match d with
  | some d => pure d
  | none => raiseFault f

/-- What `LookupDesc(s)` finds when the `Mmu` answers `Ok`: the lookup as a function of the state. -/
def State.lookup (s : State) (sel : Sel) : Option Desc :=
  if s.beyondLimit sel then none
  else some (decodeDesc (s.readLin (s.descAddr sel) 4) (s.readLin (s.descAddr sel + 4#32) 4))

/-- The address of the access byte `SetBusy` writes (R126). -/
def State.busyAddr (s : State) (sel : Sel) : Word := s.gdtr.base + (sel &&& 0xFFF8).setWidth 32 + 5#32

/-- An access byte with the Busy bit set to `b` (R126). -/
def busyByte (v : Word) (b : Bool) : Word := (v &&& ~~~0x02#32) ||| (if b then 0x02 else 0)

/-- `SetBusy(s, b)` (R126). R126 has it called after a lookup of `s` in the same operation, within the GDT's limit; it checks no
limit itself, so a task switch that frees the outgoing task writes the byte that TR.sel names in the GDT of now, also where that
lies beyond its limit (44_task_switch.md R245; DESIGN CHOICE, log 22). -/
def setBusy (sel : Sel) (b : Bool) : Op Unit := do
  let s ← work
  let v ← memRead false (s.busyAddr sel) 1
  memWrite false (s.busyAddr sel) 1 (busyByte v b)

/-! ### Privilege predicates (40_privilege_checks.md R127 to R133) -/

/-- `max(a, b)`: the less privileged level (R127). -/
def levelMax (a b : Level) : Level := if a ≤ b then b else a

/-- `may_load_data_segment(cpl, s, d)` (R128). -/
def mayLoadDataSegment (cpl : Level) (sel : Sel) (d : Desc) : Bool :=
  match d.kind with
  | .seg (.data _ _) => decide (levelMax cpl (selRpl sel) ≤ d.dpl)
  | .seg (.code false true) => decide (levelMax cpl (selRpl sel) ≤ d.dpl)
  | .seg (.code true true) => true
  | .seg (.code _ false) => false
  | .callGate | .taskGate | .interruptGate | .trapGate | .tss _ | .ldt | .tss286 | .gate286 | .invalid => false

/-- `may_jump(cpl, s, d)` (R129). -/
def mayJump (cpl : Level) (sel : Sel) (d : Desc) : Bool :=
  if d.kind.isConforming then decide (d.dpl ≤ cpl) else decide (selRpl sel ≤ cpl) && d.dpl == cpl

/-- `may_call(cpl, s, d)` (R130). -/
def mayCall (cpl : Level) (sel : Sel) (d : Desc) : Bool :=
  if d.kind.isConforming then decide (d.dpl ≤ cpl) else decide (selRpl sel ≤ cpl) && decide (d.dpl ≤ cpl)

/-- `gate_ok(cpl, s, g)` (R131). -/
def gateOk (cpl : Level) (sel : Sel) (g : Desc) : Bool := decide (levelMax cpl (selRpl sel) ≤ g.dpl)

/-- `may_return(cpl, s, d)` (R132). -/
def mayReturn (cpl : Level) (sel : Sel) (d : Desc) : Bool :=
  decide (cpl ≤ selRpl sel) &&
    (if d.kind.isConforming then decide (d.dpl ≤ selRpl sel) else d.dpl == selRpl sel)

/-- `io_permitted(cpl, iopl, vm)` (R133). -/
def ioPermitted (cpl iopl : Level) (vm : Bool) : Bool := if vm then iopl == 3 else decide (cpl ≤ iopl)

/-- `io_permitted` of the state (R133; 45_system_registers.md R281, R285). -/
def State.ioAllowed (s : State) : Bool := ioPermitted s.cpl s.iopl s.vm

/-! ### Gates on entry points -/

/-- `PrivFault` (60_exceptions.md R306). -/
def State.privFault (s : State) : FaultCode :=
  match s.params.privAccessFault with
  | .ud => .ud
  | .gp0 => .gp 0

/-- The mode gate of LLDT, LTR, LAR, LSL, VERR, VERW and ARPL (41_segment_loading.md R156). -/
def modeGate : Op Unit := do
  let s ← work
  raiseIf s.unchecked .ud

/-- The privilege gate of LLDT, LTR, LGDT and LIDT (41_segment_loading.md R157). -/
def privGate : Op Unit := do
  let s ← work
  raiseIf (s.pe && s.cpl != 0) s.privFault

/-- The privilege gate of MOV CR and MOV DR (45_system_registers.md R271, R275). -/
def crGate : Op Unit := do
  let s ← work
  raiseIf (s.vm || (s.pe && s.cpl != 0)) s.privFault

/-- The gate of CLI, STI and a port access: #GP(0) unless `io_permitted` (45_system_registers.md R281, R285). -/
def ioGate : Op Unit := do
  let s ← work
  raiseIf (!s.ioAllowed) (.gp 0)

/-- The V86 gate of PUSHF, POPF and IRET: #GP(0) unless IOPL = 3 (45_system_registers.md R283, R284; 43_interrupts.md R224). -/
def v86IoplGate : Op Unit := do
  let s ← work
  raiseIf (s.vm && s.iopl != 3) (.gp 0)

/-! ### The TSS stack pair and a new stack segment (40_privilege_checks.md R138, R139) -/

/-- `ReadStackForLevel(n)` (R138). -/
def readStackForLevel (n : Level) : Op (Sel × Word) := do
  let s ← work
  raiseIf (!s.tr.valid) (.ts 0)
  raiseIf (decide (8 * n.toNat + 11 > s.tr.limit.toNat)) (.ts (errSel s.tr.sel))
  let esp ← memRead false (s.tr.base + BitVec.ofNat 32 (8 * n.toNat + 4)) 4
  let ss ← memRead false (s.tr.base + BitVec.ofNat 32 (8 * n.toNat + 8)) 2
  pure (low16 ss, esp)

/-- `CheckNewSS(ss, n, F)` (R139). -/
def checkNewSs (sel : Sel) (n : Level) (f : Word → FaultCode) : Op Desc := do
  raiseIf (isNull sel) (f 0)
  let d ← requireDesc sel (f (errSel sel))
  raiseIf (selRpl sel != n) (f (errSel sel))
  raiseIf (!d.kind.isWritableData) (f (errSel sel))
  raiseIf (d.dpl != n) (f (errSel sel))
  raiseIf (!d.present) (.ss (errSel sel))
  pure d

/-! ### Segment-register installation (40_privilege_checks.md R140 to R143) -/

/-- A segment register written; for SS the active stack follows its `big` (10_state.md R29). -/
def State.setSeg (s : State) (n : SegName) (r : SegReg) : State :=
  match n with
  | .ss => { s with seg := s.seg.set .ss r, stack := .ofBig r.big }
  | .es | .cs | .ds | .fs | .gs => { s with seg := s.seg.set n r }

/-- The segment register a descriptor gives (R140). -/
def Desc.toSeg (d : Desc) (sel : Sel) : SegReg :=
  { sel := sel, base := d.base, limit := d.limit, big := d.big, valid := true, dpl := d.dpl, kind := d.kind.cached }

/-- `InstallSeg(s, sel, d)` (R140). -/
def State.installSeg (s : State) (n : SegName) (sel : Sel) (d : Desc) : State := s.setSeg n (d.toSeg sel)

/-- The segment register of a null selector (R141). -/
def SegReg.null (sel : Sel) : SegReg :=
  { sel := sel, base := 0, limit := 0, big := false, valid := false, dpl := 0, kind := .data false false }

/-- `InstallNull(s, sel)` (R141). -/
def State.installNull (s : State) (n : SegName) (sel : Sel) : State := { s with seg := s.seg.set n (.null sel) }

/-- `InstallCS(sel, d, newcpl)` (R142). -/
def State.installCs (s : State) (sel : Sel) (d : Desc) (n : Level) : State :=
  { s.installSeg .cs (withRpl sel n) d with cpl := n }

/-- `InvalidateDataSegs(newcpl)` nulls this register (R143). -/
def SegReg.losesAccess (r : SegReg) (n : Level) : Bool :=
  r.valid && (match r.kind with | .data _ _ => true | .code c _ => !c) && decide (r.dpl < n)

/-- One register of `InvalidateDataSegs` (R143). -/
def State.invalidateOne (s : State) (n : Level) (r : SegName) : State :=
  if (s.seg.get r).losesAccess n then s.installNull r 0 else s

/-- `InvalidateDataSegs(newcpl)`: ES, FS, GS, DS (R143). -/
def State.invalidateDataSegs (s : State) (n : Level) : State :=
  (((s.invalidateOne n .es).invalidateOne n .fs).invalidateOne n .gs).invalidateOne n .ds

/-! ### The segment register loader (41_segment_loading.md R151 to R154) -/

/-- `LoadSegReal(s, sel)` (R151). -/
def State.loadSegReal (s : State) (n : SegName) (sel : Sel) : State :=
  let r := { s.seg.get n with sel := sel, base := selWord sel <<< 4 }
  s.setSeg n
    (if s.vm then
      { r with limit := 0xFFFF, big := false, valid := true, dpl := 3,
               kind := if n = .cs then .code false true else .data true false }
    else r)

/-- `LoadSSProt(sel)` (R153). -/
def loadSsProt (sel : Sel) : Op Unit := do
  let s ← work
  raiseIf (isNull sel) (.gp 0)
  let d ← requireDesc sel (.gp (errSel sel))
  raiseIf (selRpl sel != s.cpl) (.gp (errSel sel))
  raiseIf (!d.kind.isWritableData) (.gp (errSel sel))
  raiseIf (d.dpl != s.cpl) (.gp (errSel sel))
  raiseIf (!d.present) (.ss (errSel sel))
  modifyWork fun s => s.installSeg .ss sel d

/-- `LoadDataSegProt(s, sel)` (R154), with the fault `f` that a failed check raises: #GP, and #TS in a task switch
(44_task_switch.md R250). -/
def loadDataSegProt (f : Word → FaultCode) (n : SegName) (sel : Sel) : Op Unit := do
  if isNull sel then
    modifyWork fun s => s.installNull n sel
  else do
    let s ← work
    let d ← requireDesc sel (f (errSel sel))
    raiseIf (!d.kind.isLoadable) (f (errSel sel))
    raiseIf (!mayLoadDataSegment s.cpl sel d) (f (errSel sel))
    raiseIf (!d.present) (.np (errSel sel))
    modifyWork fun s => s.installSeg n sel d

/-- The load itself (R152): unchecked in real and V86 mode, SS by R153, the others by R154. -/
def loadSegBody (n : SegName) (sel : Sel) : Op Unit := do
  let s ← work
  if s.unchecked then modifyWork fun s => s.loadSegReal n sel
  else if n = .ss then loadSsProt sel
  else loadDataSegProt .gp n sel

/-- `load_segment(which, sel, esp_new)` (R152). -/
def loadSegment (n : SegName) (sel : Sel) (espNew : Option Word) (next : Word) : Op Unit := do
  loadSegBody n sel
  modifyWork fun s => s.loadEsp (espNew.getD s.gpr.esp)
  advance next

/-! ### The task switch (44_task_switch.md) -/

/-- The mode of a task switch (44_task_switch.md R241). -/
inductive SwitchMode where
  | jmp
  | call
  | callInt
  | iret
  deriving DecidableEq, Repr

/-- The incoming TSS image (44_task_switch.md R244). -/
structure TssImage where
  cr3 : Word
  eip : Word
  eflags : Word
  gpr : Gprs
  es : Sel
  cs : Sel
  ss : Sel
  ds : Sel
  fs : Sel
  gs : Sel
  ldt : Sel
  iomap : BitVec 16
  deriving DecidableEq, Repr

/-- The kind is `Tss{..}`. -/
def DescKind.isTss : DescKind → Bool
  | .tss _ => true
  | .seg _ | .callGate | .taskGate | .interruptGate | .trapGate | .ldt | .tss286 | .gate286 | .invalid => false

/-- `CheckTarget(sel, mode)` (R242). -/
def checkTarget (sel : Sel) (mode : SwitchMode) : Op Desc := do
  let f := fun e => if mode = .iret then FaultCode.ts e else FaultCode.gp e
  raiseIf (selTi sel) (f (errSel sel))
  let d ← requireDesc sel (f (errSel sel))
  refuseIf (d.kind == .tss286)
  raiseIf (!d.kind.isTss) (f (errSel sel))
  raiseIf (mode != .iret && d.kind == .tss true) (.gp (errSel sel))
  raiseIf (mode == .iret && d.kind == .tss false) (.ts (errSel sel))
  raiseIf (!d.present) (.np (errSel sel))
  raiseIf (decide (d.limit.toNat < 0x67)) (.ts (errSel sel))
  pure d

/-- `CheckOutgoing()` (R243). -/
def checkOutgoing : Op Unit := do
  let s ← work
  raiseIf (!s.tr.valid) (.ts 0)
  raiseIf (decide (s.tr.limit.toNat < 0x67)) (.ts (errSel s.tr.sel))

/-- A 16-bit field of a TSS image (R240). -/
def memRead16 (a : Word) : Op (BitVec 16) := do
  let v ← memRead false a 2
  pure (low16 v)

/-- `ReadImage(b)` (R244). -/
def readImage (b : Word) : Op TssImage := do
  let cr3 ← memRead false (b + 0x1C#32) 4
  let eip ← memRead false (b + 0x20#32) 4
  let eflags ← memRead false (b + 0x24#32) 4
  let eax ← memRead false (b + 0x28#32) 4
  let ecx ← memRead false (b + 0x2C#32) 4
  let edx ← memRead false (b + 0x30#32) 4
  let ebx ← memRead false (b + 0x34#32) 4
  let esp ← memRead false (b + 0x38#32) 4
  let ebp ← memRead false (b + 0x3C#32) 4
  let esi ← memRead false (b + 0x40#32) 4
  let edi ← memRead false (b + 0x44#32) 4
  let es ← memRead16 (b + 0x48#32)
  let cs ← memRead16 (b + 0x4C#32)
  let ss ← memRead16 (b + 0x50#32)
  let ds ← memRead16 (b + 0x54#32)
  let fs ← memRead16 (b + 0x58#32)
  let gs ← memRead16 (b + 0x5C#32)
  let ldt ← memRead16 (b + 0x60#32)
  let iomap ← memRead16 (b + 0x66#32)
  pure
    { cr3, eip, eflags
      gpr := { eax, ecx, edx, ebx, esp, ebp, esi, edi }
      es, cs, ss, ds, fs, gs, ldt, iomap }

/-- What `ReadImage(b)` finds when the `Mmu` answers `Ok` (R244). -/
def State.tssImage (s : State) (b : Word) : TssImage where
  cr3 := s.readLin (b + 0x1C#32) 4
  eip := s.readLin (b + 0x20#32) 4
  eflags := s.readLin (b + 0x24#32) 4
  gpr :=
    { eax := s.readLin (b + 0x28#32) 4
      ecx := s.readLin (b + 0x2C#32) 4
      edx := s.readLin (b + 0x30#32) 4
      ebx := s.readLin (b + 0x34#32) 4
      esp := s.readLin (b + 0x38#32) 4
      ebp := s.readLin (b + 0x3C#32) 4
      esi := s.readLin (b + 0x40#32) 4
      edi := s.readLin (b + 0x44#32) 4 }
  es := low16 (s.readLin (b + 0x48#32) 2)
  cs := low16 (s.readLin (b + 0x4C#32) 2)
  ss := low16 (s.readLin (b + 0x50#32) 2)
  ds := low16 (s.readLin (b + 0x54#32) 2)
  fs := low16 (s.readLin (b + 0x58#32) 2)
  gs := low16 (s.readLin (b + 0x5C#32) 2)
  ldt := low16 (s.readLin (b + 0x60#32) 2)
  iomap := low16 (s.readLin (b + 0x66#32) 2)

/-- The EFLAGS saved for the outgoing task: NT cleared by IRET (R246, 90_conflicts.md C3). -/
def savedEflags (mode : SwitchMode) (fl : Word) : Word := if mode = .iret then setBit fl bitNT false else fl

/-- `FlushOutgoing(mode, ret)` (R246). -/
def flushOutgoing (mode : SwitchMode) (ret : Word) : Op Unit := do
  let s ← work
  let b := s.tr.base
  memWrite false (b + 0x20#32) 4 ret
  memWrite false (b + 0x24#32) 4 (savedEflags mode s.eflags)
  memWrite false (b + 0x28#32) 4 s.gpr.eax
  memWrite false (b + 0x2C#32) 4 s.gpr.ecx
  memWrite false (b + 0x30#32) 4 s.gpr.edx
  memWrite false (b + 0x34#32) 4 s.gpr.ebx
  memWrite false (b + 0x38#32) 4 s.gpr.esp
  memWrite false (b + 0x3C#32) 4 s.gpr.ebp
  memWrite false (b + 0x40#32) 4 s.gpr.esi
  memWrite false (b + 0x44#32) 4 s.gpr.edi
  memWrite false (b + 0x48#32) 2 (selWord s.seg.es.sel)
  memWrite false (b + 0x4C#32) 2 (selWord s.seg.cs.sel)
  memWrite false (b + 0x50#32) 2 (selWord s.seg.ss.sel)
  memWrite false (b + 0x54#32) 2 (selWord s.seg.ds.sel)
  memWrite false (b + 0x58#32) 2 (selWord s.seg.fs.sel)
  memWrite false (b + 0x5C#32) 2 (selWord s.seg.gs.sel)

/-- A segment register with the new task's selector, not loaded yet (R249). -/
def SegReg.unloaded (r : SegReg) (sel : Sel) : SegReg := { r with sel := sel, valid := false }

/-- The registers `CommitSwitch` installs (R249); memory is already written. -/
def State.enterTask (s : State) (sel : Sel) (d : Desc) (img : TssImage) (mode : SwitchMode) : State :=
  let fl := eflagsWrite img.eflags
  let fl := if mode = .call ∨ mode = .callInt then eflagsWrite (setBit fl bitNT true) else fl
  { s with
    cr3 := img.cr3
    mmu := { s.mmu with pdb := img.cr3 }
    gpr := img.gpr
    eflags := fl
    tr := { sel := sel, base := d.base, limit := d.limit, valid := true, iomap := img.iomap }
    cr0 := setBit s.cr0 bitTS true
    eip := img.eip
    cpl := if fl.getLsbD bitVM then 3 else selRpl img.cs
    seg :=
      { es := s.seg.es.unloaded img.es
        cs := s.seg.cs.unloaded img.cs
        ss := s.seg.ss.unloaded img.ss
        ds := s.seg.ds.unloaded img.ds
        fs := s.seg.fs.unloaded img.fs
        gs := s.seg.gs.unloaded img.gs }
    ldtr := { sel := img.ldt, base := 0, limit := 0, valid := false } }

/-- `CommitSwitch(sel, d, img, mode)`: the commit point (R249). -/
def commitSwitch (sel : Sel) (d : Desc) (img : TssImage) (mode : SwitchMode) : Op Unit := fun c =>
  let s := c.commit.enterTask sel d img mode
  .ok () { c with base := s, work := s, plan := [], switched := true }

/-- LDTR of the new task (R250). -/
def loadTaskLdt (l : Sel) : Op Unit :=
  if isNull l then pure ()
  else do
    raiseIf (selTi l) (.ts (errSel l))
    let d ← requireDesc l (.ts (errSel l))
    raiseIf (d.kind != .ldt) (.ts (errSel l))
    raiseIf (!d.present) (.ts (errSel l))
    modifyWork fun s => { s with ldtr := { sel := l, base := d.base, limit := d.limit, valid := true } }

/-- CS of the new task (R250). -/
def loadTaskCs (c : Sel) : Op Unit := do
  raiseIf (isNull c) (.ts 0)
  let d ← requireDesc c (.ts (errSel c))
  raiseIf (!d.kind.isCode) (.ts (errSel c))
  raiseIf (d.kind.isConforming && decide (selRpl c < d.dpl)) (.ts (errSel c))
  raiseIf (!d.kind.isConforming && d.dpl != selRpl c) (.ts (errSel c))
  raiseIf (!d.present) (.np (errSel c))
  modifyWork fun s => s.installCs c d (selRpl c)

/-- SS of the new task (R250). -/
def loadTaskSs (sel : Sel) (n : Level) : Op Unit := do
  let d ← checkNewSs sel n .ts
  modifyWork fun s => s.installSeg .ss sel d

/-- The segment registers of a V86 task: unchecked loads (R250). -/
def State.loadV86Segs (s : State) (cs ss ds es fs gs : Sel) : State :=
  (((((s.loadSegReal .cs cs).loadSegReal .ss ss).loadSegReal .ds ds).loadSegReal .es es).loadSegReal .fs fs).loadSegReal
    .gs gs

/-- `LoadTaskSegments(img)` (R250): each load that succeeds is kept even if a later one faults. -/
def loadTaskSegments (img : TssImage) : Op Unit := do
  loadTaskLdt img.ldt
  keepWork
  let s ← work
  if s.vm then do
    modifyWork fun s => s.loadV86Segs img.cs img.ss img.ds img.es img.fs img.gs
    keepWork
  else do
    loadTaskCs img.cs
    keepWork
    loadTaskSs img.ss (selRpl img.cs)
    keepWork
    loadDataSegProt .ts .ds img.ds
    keepWork
    loadDataSegProt .ts .es img.es
    keepWork
    loadDataSegProt .ts .fs img.fs
    keepWork
    loadDataSegProt .ts .gs img.gs
    keepWork

/-- The error code of a task-gate delivery, pushed on the new task's stack (R251). -/
def pushError : Option Word → Op Unit
  | none => pure ()
  | some e => push 4 e

/-- `SwitchTask(sel, mode, ret, err)` (R241). The outgoing task's Busy bit is written with no lookup of TR.sel, as R241 and R245
have it (DESIGN CHOICE beside R126, log 22). -/
def switchTask (sel : Sel) (mode : SwitchMode) (ret : Word) (err : Option Word) : Op Unit := do
  let d ← checkTarget sel mode
  checkOutgoing
  let img ← readImage d.base
  let s ← work
  whenOp (mode == .jmp || mode == .iret) (setBusy s.tr.sel false)
  flushOutgoing mode ret
  whenOp (mode != .iret) (setBusy sel true)
  whenOp (mode == .call || mode == .callInt) (memWrite false d.base 2 (selWord s.tr.sel))
  commitSwitch sel d img mode
  loadTaskSegments img
  pushError err

/-! ### Taking an exception or interrupt (43_interrupts.md R210 to R218) -/

/-- Where an interrupt comes from (43_interrupts.md R212). -/
inductive IntTag where
  | software
  | hardware
  | exception
  deriving DecidableEq, Repr

/-- `RealInterrupt(v, return_eip)` (R210). -/
def realInterrupt (v : BitVec 8) (ret : Word) : Op Unit := do
  let s ← work
  let a := s.idtr.base + (v.setWidth 32 <<< 2)
  let off ← memRead false a 2
  let sel ← memRead false (a + 2#32) 2
  push 2 s.eflags
  push 2 (selWord s.seg.cs.sel)
  push 2 ret
  modifyWork fun s => s.withEflags (setBit (setBit s.eflags bitIF false) bitTF false)
  modifyWork fun s => { s.loadSegReal .cs (low16 sel) with eip := off }

/-- `ReadIdtGate(v)` (R211). -/
def readIdtGate (v : BitVec 8) : Op Desc := do
  let s ← work
  raiseIf (decide (8 * v.toNat + 7 > s.idtr.limit.toNat)) (.gp (idtErr v))
  let lo ← memRead false (s.idtr.base + (v.setWidth 32 <<< 3)) 4
  let hi ← memRead false (s.idtr.base + (v.setWidth 32 <<< 3) + 4#32) 4
  pure (decodeDesc lo hi)

/-- The frame of an inter-level delivery, pushed on the new stack (R215): from V86 the data selectors first. -/
def pushInterruptFrame (old : State) (fl : Word) (err : Option Word) (ret : Word) : Op Unit := do
  whenOp old.vm do
    push 4 (selWord old.seg.gs.sel)
    push 4 (selWord old.seg.fs.sel)
    push 4 (selWord old.seg.ds.sel)
    push 4 (selWord old.seg.es.sel)
  push 4 (selWord old.seg.ss.sel)
  push 4 old.gpr.esp
  push 4 fl
  push 4 (selWord old.seg.cs.sel)
  push 4 ret
  pushError err

/-- DS, ES, FS, GS made null on a delivery from V86 (R215). -/
def State.nullDataSegs (s : State) : State :=
  (((s.installNull .es 0).installNull .ds 0).installNull .fs 0).installNull .gs 0

/-- The move to the stack of level `n` (R189, R215): SS, ESP (not masked) and CPL. -/
def State.enterStack (s : State) (sel : Sel) (d : Desc) (esp : Word) (n : Level) : State :=
  { (s.installSeg .ss sel d).loadEsp esp with cpl := n }

/-- `InterLevelInterrupt` (R215). -/
def interLevelInterrupt (t : Sel) (c : Desc) (err : Option Word) (ret : Word) : Op Unit := do
  let s ← work
  let n := c.dpl
  raiseIf (s.vm && n != 0) (.gp (errSel t))
  let pair ← readStackForLevel n
  let sd ← checkNewSs pair.1 n .ts
  modifyWork fun s => s.enterStack pair.1 sd pair.2 n
  pushInterruptFrame s s.eflags err ret
  whenOp s.vm (modifyWork fun s => s.nullDataSegs)
  modifyWork fun s => s.installCs t c n

/-- The same-level delivery of R214: no stack switch, never from V86. -/
def sameLevelInterrupt (t : Sel) (c : Desc) (err : Option Word) (ret : Word) : Op Unit := do
  let s ← work
  raiseIf s.vm (.gp (errSel t))
  push 4 s.eflags
  push 4 (selWord s.seg.cs.sel)
  push 4 ret
  pushError err
  modifyWork fun w => w.installCs t c s.cpl

/-- The target code segment of an interrupt, trap or call gate, checked (R214; 42_control_transfer.md R188). -/
def gateTarget (t : Sel) : Op Desc := do
  let s ← work
  raiseIf (isNull t) (.gp 0)
  let c ← requireDesc t (.gp (errSel t))
  raiseIf (!c.kind.isCode) (.gp (errSel t))
  raiseIf (decide (s.cpl < c.dpl)) (.gp (errSel t))
  raiseIf (!c.present) (.np (errSel t))
  pure c

/-- A transfer to code `c` that is more privileged and non-conforming changes level (R214; 42_control_transfer.md R187, R188). -/
def State.isInterLevel (s : State) (c : Desc) : Bool := !c.kind.isConforming && decide (c.dpl < s.cpl)

/-- `GateDelivery(g, has_error, error_code, return_eip)` (R214). -/
def gateDelivery (g : Desc) (err : Option Word) (ret : Word) : Op Unit := do
  let s ← work
  let c ← gateTarget g.gateSel
  bif s.isInterLevel c then interLevelInterrupt g.gateSel c err ret else sameLevelInterrupt g.gateSel c err ret
  modifyWork fun s => { s.clearOnDelivery (g.kind == .interruptGate) with eip := g.gateOff }

/-- A gate the IDT may hold (R212). -/
def DescKind.isIdtGate : DescKind → Bool
  | .interruptGate | .trapGate | .taskGate => true
  | .seg _ | .callGate | .tss _ | .ldt | .tss286 | .gate286 | .invalid => false

/-- `Interrupt(v, tag, noioplcheck, has_error, error_code, return_eip)` (R212): THE ONE OPERATION THAT TAKES an exception, a
software interrupt or a hardware interrupt. `err` is the error code when there is one. -/
def interrupt (v : BitVec 8) (tag : IntTag) (noIoplCheck : Bool) (err : Option Word) (ret : Word) : Op Unit := do
  let s ← work
  if !s.pe then
    realInterrupt v ret
  else do
    raiseIf (s.vm && tag == .software && !noIoplCheck && s.iopl != 3) (.gp 0)
    let g ← readIdtGate v
    refuseIf (g.kind == .gate286)
    raiseIf (!g.kind.isIdtGate) (.gp (idtErr v))
    raiseIf (tag == .software && decide (g.dpl < s.cpl)) (.gp (idtErr v))
    raiseIf (!g.present) (.np (idtErr v))
    if g.kind = .taskGate then switchTask g.gateSel .callInt ret err
    else gateDelivery g err ret

/-- The state after a fault raised while `f` was being delivered, under `NESTED_FAULT_POLICY` (R216, 60_exceptions.md R310).
`s` is the state with `pending_fault` emptied. -/
def nestedFault (s : State) (f : PendingFault) (f2 : FaultCode) : Host.Outcome State Fault Refusal :=
  match s.params.nestedFaultPolicy with
  | .redeliver =>
    .next { s with
      pendingFault :=
        some { vector := f2.vector, hasError := f2.hasError, errorCode := f2.errorCode, returnEip := f.returnEip }
      cr2 := f2.cr2.getD s.cr2 }
  | .doubleFault =>
    if f.vector = 8 then .fault .nestedFaultStop
    else
      .next { s with
        pendingFault := some { vector := 8, hasError := true, errorCode := 0, returnEip := f.returnEip }
        cr2 := f2.cr2.getD s.cr2 }
  | .stop => .fault .nestedFaultStop

/-- The error code an interrupt pushes: one exactly when the fault has one (R212, R216). -/
def PendingFault.err (f : PendingFault) : Option Word := if f.hasError then some f.errorCode else none

/-- `DeliverPending()` of the pending fault `f` (R216). A fault raised after a task switch of the delivery has committed is a
fault of the new task (44_task_switch.md R249, R250; log 9). -/
def deliver (s : State) (f : PendingFault) : Host.Outcome State Fault Refusal :=
  let s0 := { s with pendingFault := none }
  match interrupt f.vector .exception true f.err f.returnEip (Ctx.start s0) with
  | .ok _ c => .next c.commit
  | .error .refuse _ => .next { s with refused := true }
  | .error (.raise f2) c => if c.switched then .next (c.base.takeFault f2) else nestedFault s0 f f2

/-! ### Returning from an exception or interrupt (43_interrupts.md R222 to R229) -/

/-- `IretReal(w)` (R223), also the body of `IretV86(w)` (R224). -/
def iretReal (wide : Bool) : Op Unit := do
  let w := widthBytes wide
  let eip ← pop w
  let cs ← pop w
  let fl ← pop w
  modifyWork fun s => ({ s.loadSegReal .cs (low16 cs) with eip := sizeTrunc wide eip }).mergeFlags fl wide

/-- `IretTask()` (R229). -/
def iretTask (next : Word) : Op Unit := do
  let s ← work
  raiseIf (!s.tr.valid) (.ts 0)
  let bl ← memRead16 s.tr.base
  switchTask bl .iret next none

/-- `IretToV86(eip, cs, fl)` (R228). -/
def iretToV86 (eip : Word) (cs : Sel) (fl : Word) : Op Unit := do
  let esp ← peekStack 12#32 4
  let ss ← peekStack 16#32 4
  let es ← peekStack 20#32 4
  let ds ← peekStack 24#32 4
  let fs ← peekStack 28#32 4
  let gs ← peekStack 32#32 4
  modifyWork fun s =>
    let s := (s.withEflags fl).loadV86Segs cs (low16 ss) (low16 ds) (low16 es) (low16 fs) (low16 gs)
    { s.loadEsp esp with eip := sizeTrunc false eip, cpl := 3 }

/-- The checks of a CS popped by a far RET or IRET (42_control_transfer.md R192, 43_interrupts.md R222). -/
def checkReturnCs (cs : Sel) : Op Desc := do
  let s ← work
  raiseIf (isNull cs) (.gp 0)
  let d ← requireDesc cs (.gp (errSel cs))
  raiseIf (!d.kind.isCode) (.gp (errSel cs))
  raiseIf (!mayReturn s.cpl cs d) (.gp (errSel cs))
  raiseIf (!d.present) (.np (errSel cs))
  pure d

/-- `IretSame` (R226). -/
def iretSame (cs : Sel) (d : Desc) (eip fl : Word) (wide : Bool) : Op Unit :=
  modifyWork fun s =>
    let s := (s.setEsp (s.gpr.esp + BitVec.ofNat 32 (3 * widthBytes wide))).installCs cs d s.cpl
    ({ s with eip := sizeTrunc wide eip }).mergeFlags fl wide

/-- The registers `IretOuter` writes (R227): flags by the old CPL and IOPL, then CS, SS, ESP, EIP and the data segments. -/
def State.iretOuterRegs (s : State) (cs : Sel) (d : Desc) (nss : Sel) (sd : Desc) (nesp eip fl : Word) (wide : Bool) :
    State :=
  let n := selRpl cs
  let s := (s.mergeFlags fl wide).installCs cs d n
  let s := (s.installSeg .ss nss sd).loadEsp (sizeTrunc wide nesp)
  ({ s with eip := sizeTrunc wide eip }).invalidateDataSegs n

/-- `IretOuter` (R227). -/
def iretOuter (cs : Sel) (d : Desc) (eip fl : Word) (wide : Bool) : Op Unit := do
  let w := widthBytes wide
  let nesp ← peekStack (BitVec.ofNat 32 (3 * w)) w
  let nss ← peekStack (BitVec.ofNat 32 (4 * w)) w
  let sd ← checkNewSs (low16 nss) (selRpl cs) .gp
  modifyWork fun s => s.iretOuterRegs cs d (low16 nss) sd nesp eip fl wide

/-- IRET in protected mode with NT = 0 (R222). -/
def iretProt (wide : Bool) : Op Unit := do
  let s ← work
  let w := widthBytes wide
  let eip ← peekStack 0#32 w
  let csw ← peekStack (BitVec.ofNat 32 w) w
  let fl ← peekStack (BitVec.ofNat 32 (2 * w)) w
  let cs := low16 csw
  if wide && fl.getLsbD bitVM && s.cpl == 0 then
    iretToV86 eip cs fl
  else do
    let d ← checkReturnCs cs
    if selRpl cs = s.cpl then iretSame cs d eip fl wide
    else iretOuter cs d eip fl wide

/-- `IRET(use32)` (R222): THE ONE OPERATION THAT RETURNS from an interrupt, an exception or a nested task. -/
def iretOp (wide : Bool) (next : Word) : Op Unit := do
  let s ← work
  if !s.pe then iretReal wide
  else if s.vm then do
    v86IoplGate
    iretReal wide
  else if s.nt then iretTask next
  else iretProt wide

end Sys2Proof.Machine
end

