-- ==== Sys2Proof/Machine/Operands.lean ====
section
/-! DEFINITION. The operands the instruction core hands to the block (30_encoding.md R93): effective addresses, r/m16 operands,
far pointers in memory, and the bytes of an instruction. The block takes them decoded; how the core forms an address and
fetches is the x86 family's (PRESUMED, log 5). No segment limit is checked (20_memory.md R70, 60_exceptions.md R305). -/

namespace Sys2Proof.Machine

/-! ### Effective addresses (PRESUMED, log 5) -/

/-- A displacement as a 32-bit value, the short form sign-extended. -/
def dispWord {n : Nat} : Disp n → Word
  | .none => 0
  | .short d => d.signExtend 32
  | .full d => d.setWidth 32

/-- The sum of a 16-bit base form. -/
def base16Sum (g : Gprs) : Base16 → Word
  | .bxSi => g.ebx + g.esi
  | .bxDi => g.ebx + g.edi
  | .bpSi => g.ebp + g.esi
  | .bpDi => g.ebp + g.edi
  | .si => g.esi
  | .di => g.edi
  | .bp => g.ebp
  | .bx => g.ebx

/-- The scaled index of a SIB byte; ESP as index means none. -/
def indexWord (g : Gprs) (scale : BitVec 2) (index : Gpr) : Word :=
  if index = .esp then 0 else g.get index <<< scale.toNat

/-- The offset of a memory operand: modulo 2^16 under 16-bit addressing, else modulo 2^32. -/
def memOffset (g : Gprs) : MemOp → Word
  | .a16 b d => (base16Sum g b + dispWord d) &&& 0xFFFF
  | .a16Abs d => d.setWidth 32
  | .a32 b d => g.get b + dispWord d
  | .a32Abs d => d
  | .sib sc ix b d => g.get b + indexWord g sc ix + dispWord d
  | .sibAbs sc ix d => indexWord g sc ix + d

/-- The segment a memory operand uses without an override: SS for a BP, EBP or ESP base, else DS. -/
def defaultSeg : MemOp → SegName
  | .a16 .bpSi _ | .a16 .bpDi _ | .a16 .bp _ => .ss
  | .a16 .bxSi _ | .a16 .bxDi _ | .a16 .si _ | .a16 .di _ | .a16 .bx _ => .ds
  | .a16Abs _ | .a32Abs _ | .sibAbs _ _ _ => .ds
  | .a32 b _ | .sib _ _ b _ => if b = .esp ∨ b = .ebp then .ss else .ds

/-- The linear address of a memory operand (30_encoding.md R93: the core's to form). -/
def State.linear (s : State) (p : List Pfx) (m : MemOp) : Word :=
  (s.seg.get ((segOverride p).getD (defaultSeg m))).base + memOffset s.gpr m

/-! ### r/m16 operands and far pointers -/

/-- An r/m16 operand: the low 16 bits of a register, or two bytes of memory read at the privilege of the core (PRESUMED,
log 5: `user` at CPL 3). -/
def readRm16 (p : List Pfx) : RmOp → Op (BitVec 16)
  | .reg r => do
    let s ← work
    pure (low16 (s.gpr.get r))
  | .mem m => do
    let s ← work
    let v ← memRead s.user (s.linear p m) 2
    pure (low16 v)

/-- The 16-bit value an r/m16 operand has when the `Mmu` answers `Ok`. -/
def State.rm16 (s : State) (p : List Pfx) : RmOp → BitVec 16
  | .reg r => low16 (s.gpr.get r)
  | .mem m => low16 (s.readLin (s.linear p m) 2)

/-- `GPR[r] <- v` at an operand size; the upper half stays under 16 bits (41_segment_loading.md R167, R170; PRESUMED for LES and
its like and for ARPL, log 23). -/
def State.setGpr (s : State) (r : Gpr) (wide : Bool) (v : Word) : State :=
  { s with gpr := s.gpr.set r (mergeSize wide (s.gpr.get r) v) }

/-- The write of an r/m16 destination (41_segment_loading.md R166: the core writes the result back). -/
def writeRm16 (p : List Pfx) (x : RmOp) (v : BitVec 16) : Op Unit :=
  match x with
  | .reg r => modifyWork fun s => s.setGpr r false (v.setWidth 32)
  | .mem m => do
    let s ← work
    memWrite s.user (s.linear p m) 2 (v.setWidth 32)

/-- A far pointer in memory, m16:16 or m16:32: the offset, then the selector (30_encoding.md R92). Under 16-bit addressing too the
selector stands at the linear address after the offset's last byte: an operand that begins near the end of the 64K does not wrap to
its start (DESIGN CHOICE, log 5). -/
def readFarPtr (p : List Pfx) (m : MemOp) : Op (Word × Sel) := do
  let s ← work
  let w := widthBytes (s.opSize p)
  let off ← memRead s.user (s.linear p m) w
  let sel ← memRead s.user (s.linear p m + BitVec.ofNat 32 w) 2
  pure (off, low16 sel)

/-- The far pointer in memory when the `Mmu` answers `Ok`. -/
def State.farPtr (s : State) (p : List Pfx) (m : MemOp) : Word × Sel :=
  let w := widthBytes (s.opSize p)
  (s.readLin (s.linear p m) w, low16 (s.readLin (s.linear p m + BitVec.ofNat 32 w) 2))

/-! ### Fetch (PRESUMED, log 5; 20_memory.md R75) -/

/-- The address of the byte to fetch first: `CS.base + EIP` (20_memory.md R69). -/
def State.fetchAddr (s : State) : Word := s.seg.cs.base + s.eip

/-- Up to `n` bytes at `a`, and the `Mmu` fault that ended them early, if one did. -/
def State.fetchBytes (s : State) : Nat → Word → List Byte × Option MmuFault
  | 0, _ => ([], none)
  | n + 1, a =>
    match s.mmu.check { addr := a, size := 1, write := false, user := s.user } with
    | some f => ([], some f)
    | none => (s.readByte a :: (s.fetchBytes n (a + 1#32)).1, (s.fetchBytes n (a + 1#32)).2)

/-- What the fetch of one instruction gives. -/
inductive Fetched where
  /-- an instruction of the block -/
  | instr (i : Instr)
  /-- the core raises a fault: #UD for an encoding of 30_encoding.md R95, or the `Mmu`'s on a byte it needs -/
  | fault (f : FaultCode)
  /-- no instruction of the block -/
  | stop (r : Refusal)
  deriving DecidableEq, Repr

/-- The instruction at the program counter. -/
def State.fetch (s : State) : Fetched :=
  let (bs, f) := s.fetchBytes 15 s.fetchAddr
  match decode s.codeBig bs with
  | .ok (i, _) => .instr i
  | .error .undefined => .fault .ud
  | .error .truncated =>
    match f with
    | some f => .fault f.code
    | none => .stop .tooLong
  | .error .tooLong => .stop .tooLong
  | .error .outside => .stop .outsideBlock

/-- The memory after bytes are stored at linear addresses from `a` on (log 6). -/
def State.placeBytes (s : State) : List Byte → Word → State
  | [], _ => s
  | b :: bs, a => ({ s with mem := s.mem.write (s.mmu.translate a) b }).placeBytes bs (a + 1#32)

end Sys2Proof.Machine
end

