-- ==== Sys2Proof/Machine/Interrupts.lean ====
section
/-! DEFINITION. The meanings of the software interrupts, IRET, a hardware interrupt and the delivery of a pending fault
(43_interrupts.md). -/

namespace Sys2Proof.Machine

/-- `int3`: Interrupt(3, Software) (30_encoding.md R92; R212). -/
def execInt3 (p : List Pfx) (s : State) : Host.Outcome State Fault Refusal :=
  s.run (interrupt 3 .software false none (s.nextEip (.int3 p)))

/-- `int imm8`: Interrupt(imm8, Software) (R212). -/
def execIntImm (p : List Pfx) (v : BitVec 8) (s : State) : Host.Outcome State Fault Refusal :=
  s.run (interrupt v .software false none (s.nextEip (.intImm p v)))

/-- `into`: Interrupt(4, Software) when OF = 1 (30_encoding.md R92; R212). No rule says what the byte CE does when OF = 0: there it
only goes to the next instruction, as in the x86 family (PRESUMED, log 24). -/
def execInto (p : List Pfx) (s : State) : Host.Outcome State Fault Refusal :=
  s.run (bif s.ofl then interrupt 4 .software false none (s.nextEip (.into p)) else advance (s.nextEip (.into p)))

/-- `iret` / `iretd` (R222). -/
def execIret (p : List Pfx) (s : State) : Host.Outcome State Fault Refusal :=
  s.run (iretOp (s.opSize p) (s.nextEip (.iret p)))

/-- A hardware interrupt: Interrupt(v, Hardware), returning to the next instruction to run (R212, R219). -/
def execHardwareInterrupt (v : BitVec 8) (s : State) : Host.Outcome State Fault Refusal :=
  s.run (interrupt v .hardware false none s.eip)

/-- `DeliverPending()` (R216). -/
def execExceptionDelivery (s : State) : Host.Outcome State Fault Refusal :=
  match s.pendingFault with
  | none => .refused .nothingPending
  | some f => deliver s f

end Sys2Proof.Machine
end

