-- ==== Sys2Proof/Machine/Segments.lean ====
section
/-! DEFINITION. The meanings of the segment-register-loading instructions (41_segment_loading.md R152 to R155). -/

namespace Sys2Proof.Machine

/-- `mov sreg, r/m16`: the core reads the operand, the block loads the register (R152). -/
def movSeg (n : SegName) (p : List Pfx) (src : RmOp) (next : Word) : Op Unit := do
  let sel ← readRm16 p src
  loadSegment n sel none next

/-- The ESP a pop of `w` bytes leaves, with the stack mask before the load (R152: `esp_new`; log 5). -/
def State.espAfterPop (s : State) (w : Nat) : Word := s.stack.merge s.gpr.esp (s.gpr.esp + BitVec.ofNat 32 w)

/-- `pop sreg`: the selector from the stack, and `esp_new` committed with it (R152). -/
def popSeg (n : SegName) (wide : Bool) (next : Word) : Op Unit := do
  let s ← work
  let v ← peekStack 0#32 (widthBytes wide)
  loadSegment n (low16 v) (some (s.espAfterPop (widthBytes wide))) next

/-- `les`, `lds`, `lss`, `lfs`, `lgs`: the offset goes to `r` (for ESP this is R152's `esp_new`), the selector to the segment
register; both or neither (R155). Under a 16-bit operand size the upper half of `r` is kept, so the ESP of R152 too (PRESUMED,
log 23). -/
def loadFarSeg (n : SegName) (p : List Pfx) (r : Gpr) (m : MemOp) (wide : Bool) (next : Word) : Op Unit := do
  let ptr ← readFarPtr p m
  loadSegment n ptr.2 none next
  modifyWork fun s => s.setGpr r wide ptr.1

/-- `mov es, r/m16` (R152). -/
def execMovEs (p : List Pfx) (src : RmOp) (s : State) : Host.Outcome State Fault Refusal :=
  s.run (movSeg .es p src (s.nextEip (.movEs p src)))
/-- `mov ss, r/m16` (R152, R153). -/
def execMovSs (p : List Pfx) (src : RmOp) (s : State) : Host.Outcome State Fault Refusal :=
  s.run (movSeg .ss p src (s.nextEip (.movSs p src)))
/-- `mov ds, r/m16` (R152). -/
def execMovDs (p : List Pfx) (src : RmOp) (s : State) : Host.Outcome State Fault Refusal :=
  s.run (movSeg .ds p src (s.nextEip (.movDs p src)))
/-- `mov fs, r/m16` (R152). -/
def execMovFs (p : List Pfx) (src : RmOp) (s : State) : Host.Outcome State Fault Refusal :=
  s.run (movSeg .fs p src (s.nextEip (.movFs p src)))
/-- `mov gs, r/m16` (R152). -/
def execMovGs (p : List Pfx) (src : RmOp) (s : State) : Host.Outcome State Fault Refusal :=
  s.run (movSeg .gs p src (s.nextEip (.movGs p src)))

/-- `pop es` (R152). -/
def execPopEs (p : List Pfx) (s : State) : Host.Outcome State Fault Refusal :=
  s.run (popSeg .es (s.opSize p) (s.nextEip (.popEs p)))
/-- `pop ss` (R152, R153). -/
def execPopSs (p : List Pfx) (s : State) : Host.Outcome State Fault Refusal :=
  s.run (popSeg .ss (s.opSize p) (s.nextEip (.popSs p)))
/-- `pop ds` (R152). -/
def execPopDs (p : List Pfx) (s : State) : Host.Outcome State Fault Refusal :=
  s.run (popSeg .ds (s.opSize p) (s.nextEip (.popDs p)))
/-- `pop fs` (R152). -/
def execPopFs (p : List Pfx) (s : State) : Host.Outcome State Fault Refusal :=
  s.run (popSeg .fs (s.opSize p) (s.nextEip (.popFs p)))
/-- `pop gs` (R152). -/
def execPopGs (p : List Pfx) (s : State) : Host.Outcome State Fault Refusal :=
  s.run (popSeg .gs (s.opSize p) (s.nextEip (.popGs p)))

/-- `les r, m` (R152). -/
def execLes (p : List Pfx) (r : Gpr) (m : MemOp) (s : State) : Host.Outcome State Fault Refusal :=
  s.run (loadFarSeg .es p r m (s.opSize p) (s.nextEip (.les p r m)))
/-- `lds r, m` (R152). -/
def execLds (p : List Pfx) (r : Gpr) (m : MemOp) (s : State) : Host.Outcome State Fault Refusal :=
  s.run (loadFarSeg .ds p r m (s.opSize p) (s.nextEip (.lds p r m)))
/-- `lss r, m` (R152, R153). -/
def execLss (p : List Pfx) (r : Gpr) (m : MemOp) (s : State) : Host.Outcome State Fault Refusal :=
  s.run (loadFarSeg .ss p r m (s.opSize p) (s.nextEip (.lss p r m)))
/-- `lfs r, m` (R152). -/
def execLfs (p : List Pfx) (r : Gpr) (m : MemOp) (s : State) : Host.Outcome State Fault Refusal :=
  s.run (loadFarSeg .fs p r m (s.opSize p) (s.nextEip (.lfs p r m)))
/-- `lgs r, m` (R152). -/
def execLgs (p : List Pfx) (r : Gpr) (m : MemOp) (s : State) : Host.Outcome State Fault Refusal :=
  s.run (loadFarSeg .gs p r m (s.opSize p) (s.nextEip (.lgs p r m)))

end Sys2Proof.Machine
end

