-- ==== Sys2Proof/Machine/System.lean ====
section
/-! DEFINITION. The meanings of MOV to and from control and debug registers and of CLI, STI, PUSHF and POPF
(45_system_registers.md). -/

namespace Sys2Proof.Machine

/-- CR0 written, and the `Mmu` told when PG changes (R271). -/
def State.writeCr0 (s : State) (v : Word) : State :=
  { s with
    cr0 := v
    mmu := if v.getLsbD bitPG != s.cr0.getLsbD bitPG then { s.mmu with paging := v.getLsbD bitPG } else s.mmu }

/-- A control register written, after the checks (R271). -/
def State.writeCr (s : State) (n : BitVec 3) (v : Word) : State :=
  match n.toNat with
  | 0 => s.writeCr0 v
  | 2 => { s with cr2 := v }
  | 3 => { s with cr3 := v, mmu := { s.mmu with pdb := v } }
  | 4 => { s with cr4 := v }
  | _ => s

/-- The number names no control register (R270). -/
def noSuchCr (n : BitVec 3) : Bool := n == 1 || n == 5 || n == 6 || n == 7

/-- `mov r32, crN` (R272). -/
def execMovFromCr (p : List Pfx) (n : BitVec 3) (r : Gpr) (s : State) : Host.Outcome State Fault Refusal :=
  s.run do
    raiseIf (noSuchCr n) .ud
    crGate
    modifyWork fun w => w.setGpr r true ((w.cr n).getD 0)
    advance (s.nextEip (.movFromCr p n r))

/-- `mov crN, r32` (R271): PG = 1 with PE = 0 is #GP(0). -/
def execMovToCr (p : List Pfx) (n : BitVec 3) (r : Gpr) (s : State) : Host.Outcome State Fault Refusal :=
  s.run do
    raiseIf (noSuchCr n) .ud
    crGate
    let v := s.gpr.get r
    raiseIf (n == 0 && v.getLsbD bitPG && !v.getLsbD bitPE) (.gp 0)
    modifyWork fun w => w.writeCr n v
    advance (s.nextEip (.movToCr p n r))

/-- `mov r32, drN` (R276). -/
def execMovFromDr (p : List Pfx) (n : BitVec 3) (r : Gpr) (s : State) : Host.Outcome State Fault Refusal :=
  s.run do
    crGate
    modifyWork fun w => w.setGpr r true (w.dr.get n)
    advance (s.nextEip (.movFromDr p n r))

/-- `mov drN, r32` (R275). -/
def execMovToDr (p : List Pfx) (n : BitVec 3) (r : Gpr) (s : State) : Host.Outcome State Fault Refusal :=
  s.run do
    crGate
    modifyWork fun w => { w with dr := w.dr.set n (s.gpr.get r) }
    advance (s.nextEip (.movToDr p n r))

/-- `cli` (R281). -/
def execCli (p : List Pfx) (s : State) : Host.Outcome State Fault Refusal :=
  s.run do
    ioGate
    modifyWork fun w => w.withFlag bitIF false
    advance (s.nextEip (.cli p))

/-- `sti` (R282). -/
def execSti (p : List Pfx) (s : State) : Host.Outcome State Fault Refusal :=
  s.run do
    ioGate
    modifyWork fun w => w.withFlag bitIF true
    advance (s.nextEip (.sti p))

/-- `pushf` / `pushfd` (R283). -/
def execPushf (p : List Pfx) (s : State) : Host.Outcome State Fault Refusal :=
  s.run do
    v86IoplGate
    push (widthBytes (s.opSize p)) (if s.opSize p then pushfImage s.eflags else s.eflags)
    advance (s.nextEip (.pushf p))

/-- `popf` / `popfd` (R284). -/
def execPopf (p : List Pfx) (s : State) : Host.Outcome State Fault Refusal :=
  s.run do
    v86IoplGate
    let v ← pop (widthBytes (s.opSize p))
    modifyWork fun w => w.mergeFlags v (s.opSize p)
    advance (s.nextEip (.popf p))

end Sys2Proof.Machine
end

