-- ==== Sys2Proof/Machine/Tables.lean ====
section
/-! DEFINITION. The meanings of LLDT, LTR, LGDT, LIDT, SGDT, SIDT, ARPL, LAR, LSL, VERR and VERW (41_segment_loading.md R156 to
R170). -/

namespace Sys2Proof.Machine

/-! ### LDTR and TR -/

/-- `LLDT(sel)` after its gates (R160). -/
def lldtOp (sel : Sel) : Op Unit := do
  if isNull sel then
    modifyWork fun s => { s with ldtr := { sel := sel, base := 0, limit := 0, valid := false } }
  else do
    raiseIf (selTi sel) (.gp (errSel sel))
    let d ← requireDesc sel (.gp (errSel sel))
    raiseIf (d.kind != .ldt) (.gp (errSel sel))
    raiseIf (!d.present) (.np (errSel sel))
    modifyWork fun s => { s with ldtr := { sel := sel, base := d.base, limit := d.limit, valid := true } }

/-- The I/O-map base LTR reads (R161): 0 when the TSS is too short to hold it. -/
def readIomap (d : Desc) : Op (BitVec 16) :=
  if 0x67 ≤ d.limit.toNat then memRead16 (d.base + 0x66#32) else pure 0

/-- `LTR(sel)` after its gates (R161). -/
def ltrOp (sel : Sel) : Op Unit := do
  raiseIf (isNull sel) (.gp 0)
  raiseIf (selTi sel) (.gp (errSel sel))
  let d ← requireDesc sel (.gp (errSel sel))
  refuseIf (d.kind == .tss286)
  raiseIf (d.kind != .tss false) (.gp (errSel sel))
  raiseIf (!d.present) (.np (errSel sel))
  let iomap ← readIomap d
  setBusy sel true
  modifyWork fun s => { s with tr := { sel := sel, base := d.base, limit := d.limit, valid := true, iomap := iomap } }

/-- `lldt r/m16` (R160; the gates of R156 and R157 come before the operand is read). -/
def execLldt (p : List Pfx) (src : RmOp) (s : State) : Host.Outcome State Fault Refusal :=
  s.run do
    modeGate
    privGate
    let sel ← readRm16 p src
    lldtOp sel
    advance (s.nextEip (.lldt p src))

/-- `ltr r/m16` (R161). -/
def execLtr (p : List Pfx) (src : RmOp) (s : State) : Host.Outcome State Fault Refusal :=
  s.run do
    modeGate
    privGate
    let sel ← readRm16 p src
    ltrOp sel
    advance (s.nextEip (.ltr p src))

/-! ### Table registers -/

/-- The pseudo-descriptor at `addr` (30_encoding.md R88, R162): a 16-bit operand size keeps base bits 23:0. -/
def readPseudo (addr : Word) (wide : Bool) : Op TableReg := do
  let limit ← memRead false addr 2
  let base ← memRead false (addr + 2#32) 4
  pure { base := if wide then base else base &&& 0x00FFFFFF, limit := low16 limit }

/-- The pseudo-descriptor at `addr` when the `Mmu` answers `Ok` (R162). -/
def State.pseudo (s : State) (addr : Word) (wide : Bool) : TableReg :=
  let base := s.readLin (addr + 2#32) 4
  { base := if wide then base else base &&& 0x00FFFFFF, limit := low16 (s.readLin addr 2) }

/-- The store of SGDT and SIDT (R164): the full base whatever the operand size. -/
def storePseudo (addr : Word) (t : TableReg) : Op Unit := do
  memWrite false addr 2 (t.limit.setWidth 32)
  memWrite false (addr + 2#32) 4 t.base

/-- `sgdt m` (R164). -/
def execSgdt (p : List Pfx) (m : MemOp) (s : State) : Host.Outcome State Fault Refusal :=
  s.run do
    storePseudo (s.linear p m) s.gdtr
    advance (s.nextEip (.sgdt p m))

/-- `sidt m` (R165). -/
def execSidt (p : List Pfx) (m : MemOp) (s : State) : Host.Outcome State Fault Refusal :=
  s.run do
    storePseudo (s.linear p m) s.idtr
    advance (s.nextEip (.sidt p m))

/-- `lgdt m` (R162). -/
def execLgdt (p : List Pfx) (m : MemOp) (s : State) : Host.Outcome State Fault Refusal :=
  s.run do
    privGate
    let t ← readPseudo (s.linear p m) (s.opSize p)
    modifyWork fun w => { w with gdtr := t }
    advance (s.nextEip (.lgdt p m))

/-- `lidt m` (R163). -/
def execLidt (p : List Pfx) (m : MemOp) (s : State) : Host.Outcome State Fault Refusal :=
  s.run do
    privGate
    let t ← readPseudo (s.linear p m) (s.opSize p)
    modifyWork fun w => { w with idtr := t }
    advance (s.nextEip (.lidt p m))

/-! ### Selector inspection -/

/-- ARPL adjusts: the destination's RPL is below the source's (R166). -/
def arplAdjusts (dst src : Sel) : Bool := decide (selRpl dst < selRpl src)

/-- The result of ARPL (R166). -/
def arplResult (dst src : Sel) : Sel := if arplAdjusts dst src then withRpl dst (selRpl src) else dst

/-- `arpl r/m16, r16` (R166). -/
def execArpl (p : List Pfx) (dst : RmOp) (src : Gpr) (s : State) : Host.Outcome State Fault Refusal :=
  s.run do
    modeGate
    let d ← readRm16 p dst
    writeRm16 p dst (arplResult d (low16 (s.gpr.get src)))
    modifyWork fun w => w.withFlag bitZF (arplAdjusts d (low16 (s.gpr.get src)))
    advance (s.nextEip (.arpl p dst src))

/-- Types LAR reports (R167): code, data, and the listed system types. -/
def Desc.larType (d : Desc) : Bool :=
  d.hi.getLsbD 12 || [0x1#4, 0x2, 0x3, 0x4, 0x5, 0x9, 0xB, 0xC].contains (typeField d.hi)

/-- Types LSL reports (R170). -/
def Desc.lslType (d : Desc) : Bool :=
  d.hi.getLsbD 12 || [0x1#4, 0x2, 0x3, 0x9, 0xB].contains (typeField d.hi)

/-- The privilege condition of LAR and LSL (R167, R170). -/
def Desc.visible (d : Desc) (cpl : Level) (sel : Sel) : Bool :=
  d.kind.isConforming || decide (levelMax cpl (selRpl sel) ≤ d.dpl)

/-- What VERR accepts (R168). -/
def Desc.verrOk (d : Desc) (cpl : Level) (sel : Sel) : Bool :=
  match d.kind with
  | .seg (.code true true) => true
  | .seg (.code false true) => decide (levelMax cpl (selRpl sel) ≤ d.dpl)
  | .seg (.data _ _) => decide (levelMax cpl (selRpl sel) ≤ d.dpl)
  | .seg (.code _ false) => false
  | .callGate | .taskGate | .interruptGate | .trapGate | .tss _ | .ldt | .tss286 | .gate286 | .invalid => false

/-- What VERW accepts (R169). -/
def Desc.verwOk (d : Desc) (cpl : Level) (sel : Sel) : Bool :=
  match d.kind with
  | .seg (.data true _) => decide (levelMax cpl (selRpl sel) ≤ d.dpl)
  | .seg (.data false _) => false
  | .seg (.code _ _) => false
  | .callGate | .taskGate | .interruptGate | .trapGate | .tss _ | .ldt | .tss286 | .gate286 | .invalid => false

/-- The descriptor an inspection finds: none for a null selector or one beyond the limit, and only one that `ok` accepts at
the CPL of the state (R167 to R170). -/
def inspect (sel : Sel) (ok : Desc → Level → Bool) : Op (Option Desc) := do
  let s ← work
  if isNull sel then pure none
  else do
    let d ← lookupDesc sel
    pure (d.filter fun d => ok d s.cpl)

/-- What `inspect` finds when the `Mmu` answers `Ok`. -/
def State.inspected (s : State) (sel : Sel) (ok : Desc → Level → Bool) : Option Desc :=
  if isNull sel then none else (s.lookup sel).filter fun d => ok d s.cpl

/-- The end of LAR and LSL: ZF, and the register when the inspection succeeded (R167, R170). -/
def State.report (s : State) (r : Gpr) (wide : Bool) (v : Option Word) : State :=
  match v with
  | some v => (s.withFlag bitZF true).setGpr r wide v
  | none => s.withFlag bitZF false

/-- The value LAR reports (R167). -/
def Desc.larValue (d : Desc) (wide : Bool) : Word := if wide then d.hi &&& 0x00FFFF00 else d.hi &&& 0x0000FF00

/-- `lar r, r/m16` (R167). -/
def execLar (p : List Pfx) (r : Gpr) (src : RmOp) (s : State) : Host.Outcome State Fault Refusal :=
  s.run do
    modeGate
    let sel ← readRm16 p src
    let d ← inspect sel fun d cpl => d.larType && d.visible cpl sel
    modifyWork fun w => w.report r (s.opSize p) (d.map fun d => d.larValue (s.opSize p))
    advance (s.nextEip (.lar p r src))

/-- `lsl r, r/m16` (R170). -/
def execLsl (p : List Pfx) (r : Gpr) (src : RmOp) (s : State) : Host.Outcome State Fault Refusal :=
  s.run do
    modeGate
    let sel ← readRm16 p src
    let d ← inspect sel fun d cpl => d.lslType && d.visible cpl sel
    modifyWork fun w => w.report r (s.opSize p) (d.map fun d => d.limit)
    advance (s.nextEip (.lsl p r src))

/-- `verr r/m16` (R168). -/
def execVerr (p : List Pfx) (src : RmOp) (s : State) : Host.Outcome State Fault Refusal :=
  s.run do
    modeGate
    let sel ← readRm16 p src
    let d ← inspect sel fun d cpl => d.verrOk cpl sel
    modifyWork fun w => w.withFlag bitZF d.isSome
    advance (s.nextEip (.verr p src))

/-- `verw r/m16` (R169). -/
def execVerw (p : List Pfx) (src : RmOp) (s : State) : Host.Outcome State Fault Refusal :=
  s.run do
    modeGate
    let sel ← readRm16 p src
    let d ← inspect sel fun d cpl => d.verwOk cpl sel
    modifyWork fun w => w.withFlag bitZF d.isSome
    advance (s.nextEip (.verw p src))

end Sys2Proof.Machine
end

