-- ==== Sys2Proof/Machine/Transfer.lean ====
section
/-! DEFINITION. The meanings of far JMP, far CALL and far RET (42_control_transfer.md). -/

namespace Sys2Proof.Machine

/-! ### Far JMP -/

/-- `JumpReal(sel, off)` (R181). -/
def jumpReal (sel : Sel) (off : Word) (wide : Bool) : Op Unit :=
  modifyWork fun s => { s.loadSegReal .cs sel with eip := sizeTrunc wide off }

/-- `JumpToCode(sel, d, off)` (R182). -/
def jumpToCode (sel : Sel) (d : Desc) (off : Word) (wide : Bool) : Op Unit := do
  let s ← work
  raiseIf (!mayJump s.cpl sel d) (.gp (errSel sel))
  raiseIf (!d.present) (.np (errSel sel))
  modifyWork fun w => { w.installCs sel d s.cpl with eip := sizeTrunc wide off }

/-- `JumpViaCallGate(sel, g)` (R183). -/
def jumpViaCallGate (sel : Sel) (g : Desc) : Op Unit := do
  let s ← work
  raiseIf (!gateOk s.cpl sel g) (.gp (errSel sel))
  raiseIf (!g.present) (.np (errSel sel))
  let t := g.gateSel
  raiseIf (isNull t) (.gp 0)
  let c ← requireDesc t (.gp (errSel t))
  raiseIf (!c.kind.isCode) (.gp (errSel t))
  raiseIf (c.kind.isConforming && decide (s.cpl < c.dpl)) (.gp (errSel t))
  raiseIf (!c.kind.isConforming && c.dpl != s.cpl) (.gp (errSel t))
  raiseIf (!c.present) (.np (errSel t))
  modifyWork fun w => { w.installCs t c s.cpl with eip := g.gateOff }

/-- `TaskTarget(sel, d, mode)` for a TSS descriptor (R190). -/
def taskViaTss (sel : Sel) (d : Desc) (mode : SwitchMode) (next : Word) : Op Unit := do
  let s ← work
  raiseIf (!gateOk s.cpl sel d) (.gp (errSel sel))
  switchTask sel mode next none

/-- `TaskTarget(sel, d, mode)` for a task gate (R190). -/
def taskViaGate (sel : Sel) (d : Desc) (mode : SwitchMode) (next : Word) : Op Unit := do
  let s ← work
  raiseIf (!gateOk s.cpl sel d) (.gp (errSel sel))
  raiseIf (!d.present) (.np (errSel sel))
  switchTask d.gateSel mode next none

/-- `refuse Unsupported286Descriptor` (60_exceptions.md R312). -/
def refuse286 : Op Unit := refuseIf true

/-- The dispatch of JMP by the kind of the target (R180). -/
def jumpDispatch (sel : Sel) (d : Desc) (off : Word) (wide : Bool) (next : Word) : Op Unit :=
  match d.kind with
  | .seg (.code _ _) => jumpToCode sel d off wide
  | .callGate => jumpViaCallGate sel d
  | .taskGate => taskViaGate sel d .jmp next
  | .tss _ => taskViaTss sel d .jmp next
  | .tss286 | .gate286 => refuse286
  | .seg (.data _ _) | .ldt | .interruptGate | .trapGate | .invalid => raiseFault (.gp (errSel sel))

/-- `JMP(sel, off, use32)` (R180). -/
def farJump (sel : Sel) (off : Word) (wide : Bool) (next : Word) : Op Unit := do
  let s ← work
  if s.unchecked then jumpReal sel off wide
  else do
    raiseIf (isNull sel) (.gp 0)
    let d ← requireDesc sel (.gp (errSel sel))
    jumpDispatch sel d off wide next

/-! ### Far CALL -/

/-- The return address of a far CALL: CS, then `next_eip` (R186, R187, R188). -/
def pushReturn (w : Nat) (next : Word) : Op Unit := do
  let s ← work
  push w (selWord s.seg.cs.sel)
  push w next

/-- `CallReal(sel, off)` (R186). -/
def callReal (sel : Sel) (off : Word) (wide : Bool) (next : Word) : Op Unit := do
  pushReturn (widthBytes wide) next
  modifyWork fun s => { s.loadSegReal .cs sel with eip := sizeTrunc wide off }

/-- The `n` stack slots from slot `i` on, lowest first (R189: the parameters). -/
def peekSlots (w : Nat) : Nat → Nat → Op (List Word)
  | _, 0 => pure []
  | i, n + 1 => do
    let v ← peekStack (BitVec.ofNat 32 (w * i)) w
    let vs ← peekSlots w (i + 1) n
    pure (v :: vs)

/-- The pushes of a list of slots, the last first, so that they keep their order (R189). -/
def pushSlots (w : Nat) : List Word → Op Unit
  | [] => pure ()
  | v :: vs => do
    pushSlots w vs
    push w v

/-- `InterLevelCall(t, c, target, w, pc)` (R189). -/
def interLevelCall (t : Sel) (c : Desc) (target : Word) (w pc : Nat) (next : Word) : Op Unit := do
  let s ← work
  let n := c.dpl
  let pair ← readStackForLevel n
  let sd ← checkNewSs pair.1 n .ts
  let ps ← peekSlots w 0 pc
  modifyWork fun s => s.enterStack pair.1 sd pair.2 n
  push w (selWord s.seg.ss.sel)
  push w s.gpr.esp
  pushSlots w ps
  push w (selWord s.seg.cs.sel)
  push w next
  modifyWork fun s => { s.installCs t c n with eip := target }

/-- A CALL that keeps the level: the return address, then CS and EIP (R187, R188). -/
def sameLevelCall (t : Sel) (c : Desc) (target : Word) (w : Nat) (next : Word) : Op Unit := do
  pushReturn w next
  modifyWork fun s => { s.installCs t c s.cpl with eip := target }

/-- `CallToCode(sel, d, off)` (R187). -/
def callToCode (sel : Sel) (d : Desc) (off : Word) (wide : Bool) (next : Word) : Op Unit := do
  let s ← work
  raiseIf (!mayCall s.cpl sel d) (.gp (errSel sel))
  raiseIf (!d.present) (.np (errSel sel))
  bif s.isInterLevel d then interLevelCall sel d (sizeTrunc wide off) (widthBytes wide) 0 next
  else sameLevelCall sel d (sizeTrunc wide off) (widthBytes wide) next

/-- `CallViaCallGate(sel, g)` (R188). -/
def callViaCallGate (sel : Sel) (g : Desc) (next : Word) : Op Unit := do
  let s ← work
  raiseIf (!gateOk s.cpl sel g) (.gp (errSel sel))
  raiseIf (!g.present) (.np (errSel sel))
  let c ← gateTarget g.gateSel
  bif s.isInterLevel c then interLevelCall g.gateSel c g.gateOff 4 g.paramCount.toNat next
  else sameLevelCall g.gateSel c g.gateOff 4 next

/-- The dispatch of CALL by the kind of the target (R185). -/
def callDispatch (sel : Sel) (d : Desc) (off : Word) (wide : Bool) (next : Word) : Op Unit :=
  match d.kind with
  | .seg (.code _ _) => callToCode sel d off wide next
  | .callGate => callViaCallGate sel d next
  | .taskGate => taskViaGate sel d .call next
  | .tss _ => taskViaTss sel d .call next
  | .tss286 | .gate286 => refuse286
  | .seg (.data _ _) | .ldt | .interruptGate | .trapGate | .invalid => raiseFault (.gp (errSel sel))

/-- `CALL(sel, off, use32)` (R185). -/
def farCall (sel : Sel) (off : Word) (wide : Bool) (next : Word) : Op Unit := do
  let s ← work
  if s.unchecked then callReal sel off wide next
  else do
    raiseIf (isNull sel) (.gp 0)
    let d ← requireDesc sel (.gp (errSel sel))
    callDispatch sel d off wide next

/-! ### Far RET -/

/-- `ReturnReal(imm16, w)` (R193). -/
def returnReal (imm : BitVec 16) (wide : Bool) : Op Unit := do
  let eip ← pop (widthBytes wide)
  let cs ← pop (widthBytes wide)
  modifyWork fun s =>
    { (s.setEsp (s.gpr.esp + imm.setWidth 32)).loadSegReal .cs (low16 cs) with eip := sizeTrunc wide eip }

/-- `ReturnSame(cs, d, eip, imm16, w)` (R194). -/
def returnSame (cs : Sel) (d : Desc) (eip : Word) (imm : BitVec 16) (wide : Bool) : Op Unit :=
  modifyWork fun s =>
    { (s.setEsp (s.gpr.esp + BitVec.ofNat 32 (2 * widthBytes wide) + imm.setWidth 32)).installCs cs d s.cpl with
      eip := sizeTrunc wide eip }

/-- The registers `ReturnOuter` writes (R195). -/
def State.returnOuterRegs (s : State) (cs : Sel) (d : Desc) (nss : Sel) (sd : Desc) (nesp eip : Word) (imm : BitVec 16)
    (wide : Bool) : State :=
  let n := selRpl cs
  let s := ((s.installCs cs d n).installSeg .ss nss sd).loadEsp (sizeTrunc wide nesp)
  let s := s.setEsp (s.gpr.esp + imm.setWidth 32)
  ({ s with eip := sizeTrunc wide eip }).invalidateDataSegs n

/-- `ReturnOuter(cs, d, eip, imm16, w)` (R195). -/
def returnOuter (cs : Sel) (d : Desc) (eip : Word) (imm : BitVec 16) (wide : Bool) : Op Unit := do
  let w := widthBytes wide
  let nesp ← peekStack (BitVec.ofNat 32 (2 * w) + imm.setWidth 32) w
  let nss ← peekStack (BitVec.ofNat 32 (3 * w) + imm.setWidth 32) w
  let sd ← checkNewSs (low16 nss) (selRpl cs) .gp
  modifyWork fun s => s.returnOuterRegs cs d (low16 nss) sd nesp eip imm wide

/-- `RET(imm16, use32)` (R192). -/
def farReturn (imm : BitVec 16) (wide : Bool) : Op Unit := do
  let s ← work
  if s.unchecked then returnReal imm wide
  else do
    let eip ← peekStack 0#32 (widthBytes wide)
    let csw ← peekStack (BitVec.ofNat 32 (widthBytes wide)) (widthBytes wide)
    let cs := low16 csw
    let d ← checkReturnCs cs
    if selRpl cs = s.cpl then returnSame cs d eip imm wide
    else returnOuter cs d eip imm wide

/-! ### Meanings -/

/-- `jmp far ptr16:16/32` (R180). -/
def execJmpFarPtr (p : List Pfx) (off : BitVec 32) (sel : BitVec 16) (s : State) : Host.Outcome State Fault Refusal :=
  s.run (farJump sel off (s.opSize p) (s.nextEip (.jmpFarPtr p off sel)))

/-- `jmp far m16:16/32` (R180). -/
def execJmpFarMem (p : List Pfx) (m : MemOp) (s : State) : Host.Outcome State Fault Refusal :=
  s.run do
    let ptr ← readFarPtr p m
    farJump ptr.2 ptr.1 (s.opSize p) (s.nextEip (.jmpFarMem p m))

/-- `call far ptr16:16/32` (R185). -/
def execCallFarPtr (p : List Pfx) (off : BitVec 32) (sel : BitVec 16) (s : State) : Host.Outcome State Fault Refusal :=
  s.run (farCall sel off (s.opSize p) (s.nextEip (.callFarPtr p off sel)))

/-- `call far m16:16/32` (R185). -/
def execCallFarMem (p : List Pfx) (m : MemOp) (s : State) : Host.Outcome State Fault Refusal :=
  s.run do
    let ptr ← readFarPtr p m
    farCall ptr.2 ptr.1 (s.opSize p) (s.nextEip (.callFarMem p m))

/-- `retf` (R192 with imm16 = 0). -/
def execRetf (p : List Pfx) (s : State) : Host.Outcome State Fault Refusal := s.run (farReturn 0 (s.opSize p))

/-- `retf imm16` (R192). -/
def execRetfImm (p : List Pfx) (imm : BitVec 16) (s : State) : Host.Outcome State Fault Refusal :=
  s.run (farReturn imm (s.opSize p))

end Sys2Proof.Machine
end

