-- ==== Sys2Proof/Machine/Dispatch.lean ====
section
/-! DEFINITION. One arm per instruction: the meaning each has. -/

namespace Sys2Proof.Machine

def exec (i : Instr) (s : State) : Host.Outcome State Fault Refusal :=
  match i with
  | .jmpFarPtr p off sel => Sys2Proof.Machine.execJmpFarPtr p off sel s
  | .jmpFarMem p m => Sys2Proof.Machine.execJmpFarMem p m s
  | .callFarPtr p off sel => Sys2Proof.Machine.execCallFarPtr p off sel s
  | .callFarMem p m => Sys2Proof.Machine.execCallFarMem p m s
  | .retf p => Sys2Proof.Machine.execRetf p s
  | .retfImm p imm => Sys2Proof.Machine.execRetfImm p imm s
  | .iret p => Sys2Proof.Machine.execIret p s
  | .int3 p => Sys2Proof.Machine.execInt3 p s
  | .intImm p v => Sys2Proof.Machine.execIntImm p v s
  | .into p => Sys2Proof.Machine.execInto p s
  | .movEs p src => Sys2Proof.Machine.execMovEs p src s
  | .movSs p src => Sys2Proof.Machine.execMovSs p src s
  | .movDs p src => Sys2Proof.Machine.execMovDs p src s
  | .movFs p src => Sys2Proof.Machine.execMovFs p src s
  | .movGs p src => Sys2Proof.Machine.execMovGs p src s
  | .popEs p => Sys2Proof.Machine.execPopEs p s
  | .popSs p => Sys2Proof.Machine.execPopSs p s
  | .popDs p => Sys2Proof.Machine.execPopDs p s
  | .popFs p => Sys2Proof.Machine.execPopFs p s
  | .popGs p => Sys2Proof.Machine.execPopGs p s
  | .les p r m => Sys2Proof.Machine.execLes p r m s
  | .lds p r m => Sys2Proof.Machine.execLds p r m s
  | .lss p r m => Sys2Proof.Machine.execLss p r m s
  | .lfs p r m => Sys2Proof.Machine.execLfs p r m s
  | .lgs p r m => Sys2Proof.Machine.execLgs p r m s
  | .lldt p src => Sys2Proof.Machine.execLldt p src s
  | .ltr p src => Sys2Proof.Machine.execLtr p src s
  | .verr p src => Sys2Proof.Machine.execVerr p src s
  | .verw p src => Sys2Proof.Machine.execVerw p src s
  | .sgdt p m => Sys2Proof.Machine.execSgdt p m s
  | .sidt p m => Sys2Proof.Machine.execSidt p m s
  | .lgdt p m => Sys2Proof.Machine.execLgdt p m s
  | .lidt p m => Sys2Proof.Machine.execLidt p m s
  | .arpl p dst src => Sys2Proof.Machine.execArpl p dst src s
  | .lar p r src => Sys2Proof.Machine.execLar p r src s
  | .lsl p r src => Sys2Proof.Machine.execLsl p r src s
  | .movFromCr p n r => Sys2Proof.Machine.execMovFromCr p n r s
  | .movToCr p n r => Sys2Proof.Machine.execMovToCr p n r s
  | .movFromDr p n r => Sys2Proof.Machine.execMovFromDr p n r s
  | .movToDr p n r => Sys2Proof.Machine.execMovToDr p n r s
  | .cli p => Sys2Proof.Machine.execCli p s
  | .sti p => Sys2Proof.Machine.execSti p s
  | .pushf p => Sys2Proof.Machine.execPushf p s
  | .popf p => Sys2Proof.Machine.execPopf p s
  | .hardwareInterrupt v => Sys2Proof.Machine.execHardwareInterrupt v s
  | .exceptionDelivery => Sys2Proof.Machine.execExceptionDelivery s

end Sys2Proof.Machine
end

