-- ==== Sys2Proof/Machine/Events.lean ====
section
/-! DEFINITION. What happens next between two operations (60_exceptions.md R308): what the outside does, the pending fault, a
hardware interrupt, the next instruction. -/

namespace Sys2Proof.Machine

/-- What a step does. -/
inductive Action where
  /-- the outside acts, or the core raises a fault: the state after it -/
  | goto (s : State)
  /-- an operation of the block runs -/
  | run (i : Instr) (s : State)
  /-- no further step -/
  | stop (r : Refusal)
  deriving DecidableEq, Repr

/-- Reset: every register at its reset value, memory and the implementation's parameters kept, the `Mmu` with paging off and
page-directory base 0 (70_reset_and_hazards.md R330). `rest` is what the outside does after it. -/
def State.resetKeepingMemory (s : State) (rest : List Input) : State :=
  { State.reset with
    mem := s.mem
    mmu := { s.mmu with paging := false, pdb := 0 }
    inputs := rest
    params := s.params }

/-- The next instruction fetched and run (60_exceptions.md R308 (3)). -/
def State.fetchAction (s : State) : Action :=
  match s.fetch with
  | .instr i => .run i s
  | .fault f => .goto (s.takeFault f)
  | .stop r => .stop r

/-- An exception the core itself detects becomes the pending fault (43_interrupts.md R212, 60_exceptions.md R301). -/
def State.coreException (s : State) (v : BitVec 8) (code : Word) : State :=
  s.takeFault
    { vector := v, hasError := vectorHasError v, errorCode := if vectorHasError v then code else 0, cr2 := none }

/-- The core's check before a port access (45_system_registers.md R285): #GP(0) when `io_permitted` is false; the access
itself is outside the block. -/
def State.portCheck (s : State) : State := if s.ioAllowed then s else s.takeFault (.gp 0)

/-- With no pending fault: a hardware interrupt that EFLAGS.IF allows, what else the core has, or the next instruction
(60_exceptions.md R308). -/
def State.idleAction (s : State) : Action :=
  match s.inputs with
  | .interrupt v :: rest => if s.ifl then .run (.hardwareInterrupt v) { s with inputs := rest } else s.fetchAction
  | .exception v code :: rest => .goto (({ s with inputs := rest }).coreException v code)
  | .portAccess :: rest => .goto ({ s with inputs := rest }).portCheck
  | .idle :: rest => ({ s with inputs := rest }).fetchAction
  | .store _ _ :: _ => s.fetchAction
  | .remap _ _ :: _ => s.fetchAction
  | .reset :: _ => s.fetchAction
  | [] => s.fetchAction

/-- The inputs once an operation has run for the `idle` at their head, if there is one (log 8). -/
def Input.afterIdle : List Input → List Input
  | .idle :: rest => rest
  | .interrupt v :: rest => .interrupt v :: rest
  | .exception v code :: rest => .exception v code :: rest
  | .portAccess :: rest => .portAccess :: rest
  | .store a b :: rest => .store a b :: rest
  | .remap views answers :: rest => .remap views answers :: rest
  | .reset :: rest => .reset :: rest
  | [] => []

/-- A state that is not refused: the pending fault is delivered before anything else runs (70_reset_and_hazards.md R341). -/
def State.liveAction (s : State) : Action :=
  match s.pendingFault with
  | some _ => .run .exceptionDelivery { s with inputs := Input.afterIdle s.inputs }
  | none => s.idleAction

/-- What the next step does. Other owners of the memory, the `Mmu` and reset act whatever the block's state is; a refused state
has no other step (10_state.md R41). -/
def State.nextAction (s : State) : Action :=
  match s.inputs with
  | .reset :: rest => .goto (s.resetKeepingMemory rest)
  | .store a b :: rest => .goto { s with mem := s.mem.write a b, inputs := rest }
  | .remap views answers :: rest =>
    .goto { s with mmu := { s.mmu with views := views, answers := answers }, inputs := rest }
  | .idle :: _ => if s.refused then .stop .unsupported286 else s.liveAction
  | .interrupt _ :: _ => if s.refused then .stop .unsupported286 else s.liveAction
  | .exception _ _ :: _ => if s.refused then .stop .unsupported286 else s.liveAction
  | .portAccess :: _ => if s.refused then .stop .unsupported286 else s.liveAction
  | [] => if s.refused then .stop .unsupported286 else s.liveAction

end Sys2Proof.Machine
end

