-- ==== Sys2Proof/Machine/Step.lean ====
section
/-! DEFINITION. One step of the machine: an operation of the block, a fault the core raises, or something the outside does
(60_exceptions.md R308, 70_reset_and_hazards.md R350). -/

namespace Sys2Proof.Machine

/-- One step. -/
def step (s : State) : Host.Outcome State Fault Refusal :=
  match s.nextAction with
  | .goto s' => .next s'
  | .run i s' => exec i s'
  | .stop r => .refused r

/-- The state with a table word stored where the next instruction is fetched, and nothing standing before that fetch: no
outside action, no pending fault, no refusal mark (log 6). -/
def State.withFetchWord (s : State) (nbits w : Nat) : State :=
  { s.placeBytes (tableWordBytes nbits w) s.fetchAddr with inputs := [], pendingFault := none, refused := false }

end Sys2Proof.Machine
end

