-- ==== Sys2Proof/WellFormed.lean ====
section
/-! DEFINITION. Which instructions have an encoding in code of a given default size: the operands fit the fields the opcode map
gives them (30_encoding.md R92 to R96). The two entry points without an opcode have none. -/

namespace Sys2Proof

/-- A memory operand that 16- or 32-bit addressing (`wide`) can encode. -/
def MemOp.wf (wide : Bool) : MemOp → Bool
  | .a16 b d => !wide && !(b == .bp && d == .none)
  | .a16Abs _ => !wide
  | .a32 b d => wide && b != .esp && !(b == .ebp && d == .none)
  | .a32Abs _ => wide
  | .sib _ _ b d => wide && !(b == .ebp && d == .none)
  | .sibAbs _ _ _ => wide

/-- An r/m operand that can be encoded. -/
def RmOp.wf (wide : Bool) : RmOp → Bool
  | .reg _ => true
  | .mem m => m.wf wide

/-- The offset of an immediate far pointer fits 2 bytes under a 16-bit operand size. -/
def offWf (wide : Bool) (off : BitVec 32) : Bool := wide || off.toNat < 65536

/-- The operands of an instruction fit its encoding. -/
def Instr.operandsWf (big : Bool) : Instr → Bool
  | .jmpFarPtr p off _ => offWf (use32 big p) off
  | .jmpFarMem p m => m.wf (addr32 big p)
  | .callFarPtr p off _ => offWf (use32 big p) off
  | .callFarMem p m => m.wf (addr32 big p)
  | .retf _ => true
  | .retfImm _ _ => true
  | .iret _ => true
  | .int3 _ => true
  | .intImm _ _ => true
  | .into _ => true
  | .movEs p src => src.wf (addr32 big p)
  | .movSs p src => src.wf (addr32 big p)
  | .movDs p src => src.wf (addr32 big p)
  | .movFs p src => src.wf (addr32 big p)
  | .movGs p src => src.wf (addr32 big p)
  | .popEs _ => true
  | .popSs _ => true
  | .popDs _ => true
  | .popFs _ => true
  | .popGs _ => true
  | .les p _ m => m.wf (addr32 big p)
  | .lds p _ m => m.wf (addr32 big p)
  | .lss p _ m => m.wf (addr32 big p)
  | .lfs p _ m => m.wf (addr32 big p)
  | .lgs p _ m => m.wf (addr32 big p)
  | .lldt p src => src.wf (addr32 big p)
  | .ltr p src => src.wf (addr32 big p)
  | .verr p src => src.wf (addr32 big p)
  | .verw p src => src.wf (addr32 big p)
  | .sgdt p m => m.wf (addr32 big p)
  | .sidt p m => m.wf (addr32 big p)
  | .lgdt p m => m.wf (addr32 big p)
  | .lidt p m => m.wf (addr32 big p)
  | .arpl p dst _ => dst.wf (addr32 big p)
  | .lar p _ src => src.wf (addr32 big p)
  | .lsl p _ src => src.wf (addr32 big p)
  | .movFromCr _ _ _ => true
  | .movToCr _ _ _ => true
  | .movFromDr _ _ _ => true
  | .movToDr _ _ _ => true
  | .cli _ => true
  | .sti _ => true
  | .pushf _ => true
  | .popf _ => true
  | .hardwareInterrupt _ => false
  | .exceptionDelivery => false

/-- The instruction has an encoding of 1 to 15 bytes in code of default size `big` (30_encoding.md R96). -/
def WellFormed (big : Bool) (i : Instr) : Bool := i.operandsWf big && i.size big ≤ 15

end Sys2Proof
end

