-- ==== Sys2Proof/Safety.lean ====
section
/-! DEFINITION. The terms claims are stated in: the invariant of the machine, which accesses the `Mmu` answers `Ok`, what a push
leaves, when a segment load succeeds and with what, and classes of instructions. -/

namespace Sys2Proof.Machine

/-! ### The invariant -/

/-- What every state of a run meets: memory in canonical form; EFLAGS as every write leaves it (10_state.md R25); the active
stack follows SS (R29); CPL 0 and VM 0 in real mode, CPL 3 in V86 mode (R27); and a pending fault returns to the instruction
at EIP (60_exceptions.md R303). -/
structure State.Inv (s : State) : Prop where
  memory : Memory.wf s.mem = true
  reserved : eflagsWrite s.eflags = s.eflags
  stackMask : s.stack = .ofBig s.seg.ss.big
  real : s.pe = false → s.cpl = 0 ∧ s.vm = false
  v86 : s.vm = true → s.cpl = 3
  pending : ∀ f, s.pendingFault = some f → f.returnEip = s.eip

/-! ### Accesses the `Mmu` allows -/

/-- The `Mmu` answers this read as its view says, and with `Ok` (20_memory.md R61). -/
def State.canRead (s : State) (user : Bool) (a : Word) (n : Nat) : Bool :=
  s.mmu.answers.isEmpty && (s.mmu.check { addr := a, size := n, write := false, user := user }).isNone

/-- The `Mmu` answers this write as its view says, and with `Ok` (20_memory.md R61). -/
def State.canWrite (s : State) (user : Bool) (a : Word) (n : Nat) : Bool :=
  s.mmu.answers.isEmpty && (s.mmu.check { addr := a, size := n, write := true, user := user }).isNone

/-- What the `Mmu` answers to the first access of an operation: `none` is `Ok` (20_memory.md R61). -/
def State.checkFirst (s : State) (x : Access) : Option MmuFault :=
  match s.mmu.answers with
  | some (.fault f) :: _ => some f
  | some (.ok _) :: _ => none
  | none :: _ | [] => s.mmu.check x

/-- The `Mmu` answers `Ok` to the reads of a descriptor lookup (40_privilege_checks.md R125). -/
def State.canLookup (s : State) (sel : Sel) : Bool :=
  s.beyondLimit sel || (s.canRead false (s.descAddr sel) 4 && s.canRead false (s.descAddr sel + 4#32) 4)

/-- The `Mmu` answers `Ok` to the read of an r/m16 operand. -/
def State.canReadRm (s : State) (p : List Pfx) : RmOp → Bool
  | .reg _ => true
  | .mem m => s.canRead s.user (s.linear p m) 2

/-- The `Mmu` answers `Ok` to the read of a far pointer in memory. -/
def State.canReadFar (s : State) (p : List Pfx) (m : MemOp) : Bool :=
  s.canRead s.user (s.linear p m) (widthBytes (s.opSize p)) &&
    s.canRead s.user (s.linear p m + BitVec.ofNat 32 (widthBytes (s.opSize p))) 2

/-- The `Mmu` answers `Ok` to the read of the stack slot of `w` bytes at offset `k` above ESP. -/
def State.canPeek (s : State) (k : Word) (w : Nat) : Bool := s.canRead s.user (s.stackAddr (s.gpr.esp + k)) w

/-- The `Mmu` answers every access as its view says, and with `Ok`, whatever page directory it is told of. -/
structure State.Quiet (s : State) : Prop where
  views : ∀ v ∈ s.mmu.views, v.2.faults = []
  answers : s.mmu.answers = []

/-- The `Mmu` answers every access as its view says, and with `Ok` every one but a write to the stack of CPL 3. -/
structure State.SystemQuiet (s : State) : Prop where
  views : ∀ v ∈ s.mmu.views, ∀ x ∈ v.2.faults, x.1.write = true ∧ x.1.user = true
  answers : s.mmu.answers = []

/-- The r/m16 operand as an operation reads it whose first access it is: the value the `Mmu` says to that access, or else memory's
(20_memory.md R61). -/
def State.rm16Asked (s : State) (p : List Pfx) : RmOp → BitVec 16
  | .reg r => low16 (s.gpr.get r)
  | .mem m => low16 (readLe ((Ctx.start s).readByte (s.linear p m)) (s.linear p m) 2)

/-! ### Stacks -/

/-- What the `Mmu`'s view answers to the write of a push of `w` bytes: `none` is `Ok` (40_privilege_checks.md R136). -/
def State.pushCheck (s : State) (w : Nat) : Option MmuFault :=
  s.mmu.check { addr := s.stackAddr (s.gpr.esp - BitVec.ofNat 32 w), size := w, write := true, user := s.user }

/-- The state after `Push(w, v)` has been performed (40_privilege_checks.md R136). -/
def State.pushed (s : State) (w : Nat) (v : Word) : State :=
  (s.writeLin (s.stackAddr (s.gpr.esp - BitVec.ofNat 32 w)) w v).setEsp (s.gpr.esp - BitVec.ofNat 32 w)

/-- The value of the stack slot of `w` bytes at offset `k` above ESP (40_privilege_checks.md R137). -/
def State.peek (s : State) (k : Word) (w : Nat) : Word := s.readLin (s.stackAddr (s.gpr.esp + k)) w

/-- The pushes of an inter-level delivery on the new stack, in order (43_interrupts.md R215). -/
def State.pushedFrame (s old : State) (err : Option Word) (ret : Word) : State :=
  let s :=
    if old.vm then
      (((s.pushed 4 (selWord old.seg.gs.sel)).pushed 4 (selWord old.seg.fs.sel)).pushed 4
        (selWord old.seg.ds.sel)).pushed 4 (selWord old.seg.es.sel)
    else s
  let s := (s.pushed 4 (selWord old.seg.ss.sel)).pushed 4 old.gpr.esp
  let s := ((s.pushed 4 old.eflags).pushed 4 (selWord old.seg.cs.sel)).pushed 4 ret
  match err with
  | some e => s.pushed 4 e
  | none => s

/-- The stack after the parameters of a gate call: the last first (42_control_transfer.md R189). -/
def State.pushedSlots (s : State) (w : Nat) : List Word → State
  | [] => s
  | v :: vs => (s.pushedSlots w vs).pushed w v

/-- The parameters on the caller's stack, the one at ESP first (42_control_transfer.md R189). -/
def State.params32 (s : State) (n : Nat) : List Word :=
  (List.range n).map fun i => s.peek (BitVec.ofNat 32 (4 * i)) 4

/-! ### Segment loads that succeed (41_segment_loading.md R151 to R154) -/

/-- The load of segment register `n` with selector `sel` succeeds in `s` and leaves the second state; the `Mmu` answers `Ok` to the
lookup. -/
inductive SegLoads (s : State) : SegName → Sel → State → Prop where
  /-- real and V86 mode: unchecked (R151) -/
  | unchecked (n : SegName) (sel : Sel) (h : s.unchecked = true) : SegLoads s n sel (s.loadSegReal n sel)
  /-- SS in protected mode (R153) -/
  | stack (sel : Sel) (d : Desc) (h : s.unchecked = false) (hnull : isNull sel = false) (hm : s.canLookup sel = true)
      (hd : s.lookup sel = some d) (hrpl : selRpl sel = s.cpl) (hk : d.kind.isWritableData = true) (hdpl : d.dpl = s.cpl)
      (hp : d.present = true) : SegLoads s .ss sel (s.installSeg .ss sel d)
  /-- a null DS, ES, FS or GS (R154) -/
  | null (n : SegName) (sel : Sel) (h : s.unchecked = false) (hn : n ≠ .ss) (hnull : isNull sel = true) :
      SegLoads s n sel (s.installNull n sel)
  /-- DS, ES, FS or GS (R154) -/
  | data (n : SegName) (sel : Sel) (d : Desc) (h : s.unchecked = false) (hn : n ≠ .ss) (hnull : isNull sel = false)
      (hm : s.canLookup sel = true) (hd : s.lookup sel = some d) (hk : d.kind.isLoadable = true)
      (hl : mayLoadDataSegment s.cpl sel d = true) (hp : d.present = true) : SegLoads s n sel (s.installSeg n sel d)

/-- The first check of a protected-mode segment load that fails, in the order of R153 (SS) and R154 (the others). -/
def State.segFault (s : State) (n : SegName) (sel : Sel) : Option FaultCode :=
  if n = .ss then
    if isNull sel then some (.gp 0)
    else
      match s.lookup sel with
      | none => some (.gp (errSel sel))
      | some d =>
        if selRpl sel ≠ s.cpl then some (.gp (errSel sel))
        else if !d.kind.isWritableData then some (.gp (errSel sel))
        else if d.dpl ≠ s.cpl then some (.gp (errSel sel))
        else if !d.present then some (.ss (errSel sel))
        else none
  else if isNull sel then none
  else
    match s.lookup sel with
    | none => some (.gp (errSel sel))
    | some d =>
      if !d.kind.isLoadable then some (.gp (errSel sel))
      else if !mayLoadDataSegment s.cpl sel d then some (.gp (errSel sel))
      else if !d.present then some (.np (errSel sel))
      else none

/-- The instruction loads segment register `n` with selector `sel`, and the `Mmu` answers `Ok` to the read of its operand
(41_segment_loading.md R152). -/
inductive LoadsSeg (s : State) : Instr → SegName → Sel → Prop where
  | movEs (p : List Pfx) (x : RmOp) (h : s.canReadRm p x = true) : LoadsSeg s (.movEs p x) .es (s.rm16 p x)
  | movSs (p : List Pfx) (x : RmOp) (h : s.canReadRm p x = true) : LoadsSeg s (.movSs p x) .ss (s.rm16 p x)
  | movDs (p : List Pfx) (x : RmOp) (h : s.canReadRm p x = true) : LoadsSeg s (.movDs p x) .ds (s.rm16 p x)
  | movFs (p : List Pfx) (x : RmOp) (h : s.canReadRm p x = true) : LoadsSeg s (.movFs p x) .fs (s.rm16 p x)
  | movGs (p : List Pfx) (x : RmOp) (h : s.canReadRm p x = true) : LoadsSeg s (.movGs p x) .gs (s.rm16 p x)
  | popEs (p : List Pfx) (h : s.canPeek 0#32 (widthBytes (s.opSize p)) = true) :
    LoadsSeg s (.popEs p) .es (low16 (s.peek 0#32 (widthBytes (s.opSize p))))
  | popSs (p : List Pfx) (h : s.canPeek 0#32 (widthBytes (s.opSize p)) = true) :
    LoadsSeg s (.popSs p) .ss (low16 (s.peek 0#32 (widthBytes (s.opSize p))))
  | popDs (p : List Pfx) (h : s.canPeek 0#32 (widthBytes (s.opSize p)) = true) :
    LoadsSeg s (.popDs p) .ds (low16 (s.peek 0#32 (widthBytes (s.opSize p))))
  | popFs (p : List Pfx) (h : s.canPeek 0#32 (widthBytes (s.opSize p)) = true) :
    LoadsSeg s (.popFs p) .fs (low16 (s.peek 0#32 (widthBytes (s.opSize p))))
  | popGs (p : List Pfx) (h : s.canPeek 0#32 (widthBytes (s.opSize p)) = true) :
    LoadsSeg s (.popGs p) .gs (low16 (s.peek 0#32 (widthBytes (s.opSize p))))
  | les (p : List Pfx) (r : Gpr) (m : MemOp) (h : s.canReadFar p m = true) :
    LoadsSeg s (.les p r m) .es (s.farPtr p m).2
  | lds (p : List Pfx) (r : Gpr) (m : MemOp) (h : s.canReadFar p m = true) :
    LoadsSeg s (.lds p r m) .ds (s.farPtr p m).2
  | lss (p : List Pfx) (r : Gpr) (m : MemOp) (h : s.canReadFar p m = true) :
    LoadsSeg s (.lss p r m) .ss (s.farPtr p m).2
  | lfs (p : List Pfx) (r : Gpr) (m : MemOp) (h : s.canReadFar p m = true) :
    LoadsSeg s (.lfs p r m) .fs (s.farPtr p m).2
  | lgs (p : List Pfx) (r : Gpr) (m : MemOp) (h : s.canReadFar p m = true) :
    LoadsSeg s (.lgs p r m) .gs (s.farPtr p m).2

/-- What a segment register holds that was loaded from the descriptor `lo`, `hi` with selector `sel`, read off the descriptor's bits
(30_encoding.md R81 to R83; 40_privilege_checks.md R140). -/
structure FromDescriptor (lo hi : Word) (sel : Sel) (r : SegReg) : Prop where
  selector : r.sel = sel
  base : r.base = hi.extractLsb' 24 8 ++ hi.extractLsb' 0 8 ++ lo.extractLsb' 16 16
  limit : r.limit.toNat =
    let l := (hi.extractLsb' 16 4 ++ lo.extractLsb' 0 16).toNat
    if hi.getLsbD 23 then l * 4096 + 4095 else l
  big : r.big = hi.getLsbD 22
  valid : r.valid = true
  dpl : r.dpl = hi.extractLsb' 13 2
  kind : r.kind =
    if hi.getLsbD 11 then .code (hi.getLsbD 10) (hi.getLsbD 9) else .data (hi.getLsbD 9) (hi.getLsbD 10)

/-- What the words `lo`, `hi` of a descriptor decode to, read off their bits (30_encoding.md R81 to R86). -/
structure DecodesTo (lo hi : Word) (d : Desc) : Prop where
  seg : hi.getLsbD 12 = true → d.kind = .seg
    (if hi.getLsbD 11 then .code (hi.getLsbD 10) (hi.getLsbD 9) else .data (hi.getLsbD 9) (hi.getLsbD 10))
  ldt : d.kind = .ldt ↔ hi.getLsbD 12 = false ∧ hi.extractLsb' 8 4 = 0x2
  tssAvailable : d.kind = .tss false ↔ hi.getLsbD 12 = false ∧ hi.extractLsb' 8 4 = 0x9
  tssBusy : d.kind = .tss true ↔ hi.getLsbD 12 = false ∧ hi.extractLsb' 8 4 = 0xB
  callGate : d.kind = .callGate ↔ hi.getLsbD 12 = false ∧ hi.extractLsb' 8 4 = 0xC
  taskGate : d.kind = .taskGate ↔ hi.getLsbD 12 = false ∧ hi.extractLsb' 8 4 = 0x5
  interruptGate : d.kind = .interruptGate ↔ hi.getLsbD 12 = false ∧ hi.extractLsb' 8 4 = 0xE
  trapGate : d.kind = .trapGate ↔ hi.getLsbD 12 = false ∧ hi.extractLsb' 8 4 = 0xF
  tss286 : d.kind = .tss286 ↔ hi.getLsbD 12 = false ∧ hi.extractLsb' 8 4 ∈ [0x1, 0x3]
  gate286 : d.kind = .gate286 ↔ hi.getLsbD 12 = false ∧ hi.extractLsb' 8 4 ∈ [0x4, 0x6, 0x7]
  invalid : d.kind = .invalid ↔ hi.getLsbD 12 = false ∧ hi.extractLsb' 8 4 ∈ [0x0, 0x8, 0xA, 0xD]
  dpl : d.dpl = hi.extractLsb' 13 2
  present : d.present = hi.getLsbD 15
  words : d.lo = lo ∧ d.hi = hi
  /-- code, data, LDT and TSS descriptors -/
  segment : (∃ k, d.kind = .seg k) ∨ d.kind = .ldt ∨ (∃ b, d.kind = .tss b) →
    d.base = hi.extractLsb' 24 8 ++ hi.extractLsb' 0 8 ++ lo.extractLsb' 16 16 ∧ d.big = hi.getLsbD 22 ∧
    d.limit.toNat =
      let l := (hi.extractLsb' 16 4 ++ lo.extractLsb' 0 16).toNat
      if hi.getLsbD 23 then l * 4096 + 4095 else l
  target : d.kind = .callGate ∨ d.kind = .interruptGate ∨ d.kind = .trapGate ∨ d.kind = .taskGate →
    d.gateSel = lo.extractLsb' 16 16
  offset : d.kind = .callGate ∨ d.kind = .interruptGate ∨ d.kind = .trapGate →
    d.gateOff = hi.extractLsb' 16 16 ++ lo.extractLsb' 0 16
  params : d.kind = .callGate → d.paramCount = hi.extractLsb' 0 5

/-- What an unchecked load of register `n` with selector `sel` leaves there, from register `old`: the selector and 16 times it; in
V86 mode also a 64K limit, 16 bits, level 3; in real mode the rest is kept (41_segment_loading.md R151). -/
structure FromParagraph (vm : Bool) (n : SegName) (sel : Sel) (old r : SegReg) : Prop where
  selector : r.sel = sel
  base : r.base.toNat = sel.toNat * 16
  real : vm = false → r.limit = old.limit ∧ r.big = old.big ∧ r.valid = old.valid ∧ r.dpl = old.dpl ∧ r.kind = old.kind
  v86 : vm = true → r.limit = 0xFFFF ∧ r.big = false ∧ r.valid = true ∧ r.dpl = 3 ∧
    r.kind = if n = .cs then .code false true else .data true false

/-- What a segment load leaves in the register: of a paragraph, of a null selector, or of the descriptor the selector names
(41_segment_loading.md R151 to R154; 40_privilege_checks.md R140, R141). -/
def State.Holds (s : State) (n : SegName) (sel : Sel) (r : SegReg) : Prop :=
  (s.unchecked = true → FromParagraph s.vm n sel (s.seg.get n) r) ∧
  (s.unchecked = false → isNull sel = true → r.sel = sel ∧ r.base = 0 ∧ r.limit = 0 ∧ r.big = false ∧ r.valid = false) ∧
  (s.unchecked = false → isNull sel = false →
    FromDescriptor (s.readLin (s.descAddr sel) 4) (s.readLin (s.descAddr sel + 4#32) 4) sel r)

/-! ### Target code and new stacks -/

/-- The stack pair of level `n` in the current TSS (40_privilege_checks.md R138). -/
def State.levelStack (s : State) (n : Level) : Sel × Word :=
  (low16 (s.readLin (s.tr.base + BitVec.ofNat 32 (8 * n.toNat + 8)) 2),
    s.readLin (s.tr.base + BitVec.ofNat 32 (8 * n.toNat + 4)) 4)

/-- The current TSS holds the stack pair of level `n` (R138). -/
def State.hasLevelStack (s : State) (n : Level) : Bool := s.tr.valid && decide (8 * n.toNat + 11 ≤ s.tr.limit.toNat)

/-- `sel` names a stack segment that level `n` may use, with descriptor `d` (R139). -/
structure GoodStack (s : State) (sel : Sel) (n : Level) (d : Desc) : Prop where
  nonNull : isNull sel = false
  found : s.lookup sel = some d
  rpl : selRpl sel = n
  kind : d.kind.isWritableData = true
  dpl : d.dpl = n
  present : d.present = true

/-- `sel` names a code segment that a gate may lead to from the level of `s`, with descriptor `d` (42_control_transfer.md
R188, 43_interrupts.md R214). -/
structure GoodTarget (s : State) (sel : Sel) (d : Desc) : Prop where
  nonNull : isNull sel = false
  found : s.lookup sel = some d
  kind : d.kind.isCode = true
  dpl : d.dpl ≤ s.cpl
  present : d.present = true

/-- `sel` names a code segment that a far RET or IRET may return to, with descriptor `d` (42_control_transfer.md R192). -/
structure GoodReturn (s : State) (sel : Sel) (d : Desc) : Prop where
  nonNull : isNull sel = false
  found : s.lookup sel = some d
  kind : d.kind.isCode = true
  may : mayReturn s.cpl sel d = true
  present : d.present = true

/-- The gate of vector `v` in the IDT (43_interrupts.md R211). -/
def State.idtGate (s : State) (v : BitVec 8) : Desc :=
  decodeDesc (s.readLin (s.idtr.base + (v.setWidth 32 <<< 3)) 4) (s.readLin (s.idtr.base + (v.setWidth 32 <<< 3) + 4#32) 4)

/-- The IDT holds the gate of vector `v` (43_interrupts.md R211). -/
def State.hasIdtGate (s : State) (v : BitVec 8) : Bool := decide (8 * v.toNat + 7 ≤ s.idtr.limit.toNat)

/-- The state after a delivery through the real-mode vector table (43_interrupts.md R210). -/
def State.realDelivered (s : State) (v : BitVec 8) (ret : Word) : State :=
  let a := s.idtr.base + (v.setWidth 32 <<< 2)
  let t := ((s.pushed 2 s.eflags).pushed 2 (selWord s.seg.cs.sel)).pushed 2 ret
  let t := t.withEflags (setBit (setBit s.eflags bitIF false) bitTF false)
  { t.loadSegReal .cs (low16 (s.readLin (a + 2#32) 2)) with eip := s.readLin a 2 }

/-! ### Far transfers (42_control_transfer.md) -/

/-- A far JMP to selector `sel` and offset `off` with this operand size; the `Mmu` answers `Ok` to the read of a far pointer in
memory (R180). -/
inductive JumpsTo (s : State) : Instr → Sel → Word → Bool → Prop where
  | ptr (p : List Pfx) (off : BitVec 32) (sel : BitVec 16) : JumpsTo s (.jmpFarPtr p off sel) sel off (s.opSize p)
  | mem (p : List Pfx) (m : MemOp) (h : s.canReadFar p m = true) :
    JumpsTo s (.jmpFarMem p m) (s.farPtr p m).2 (s.farPtr p m).1 (s.opSize p)

/-- A far CALL to selector `sel` and offset `off` with this operand size (R185). -/
inductive CallsTo (s : State) : Instr → Sel → Word → Bool → Prop where
  | ptr (p : List Pfx) (off : BitVec 32) (sel : BitVec 16) : CallsTo s (.callFarPtr p off sel) sel off (s.opSize p)
  | mem (p : List Pfx) (m : MemOp) (h : s.canReadFar p m = true) :
    CallsTo s (.callFarMem p m) (s.farPtr p m).2 (s.farPtr p m).1 (s.opSize p)

/-- A far RET that releases `imm` bytes, with this operand size (R192). -/
inductive Returns (s : State) : Instr → BitVec 16 → Bool → Prop where
  | plain (p : List Pfx) : Returns s (.retf p) 0 (s.opSize p)
  | imm (p : List Pfx) (imm : BitVec 16) : Returns s (.retfImm p imm) imm (s.opSize p)

/-- `sel` names a call gate that the level of `s` may use, with descriptor `g` (R183, R188). -/
structure GoodGate (s : State) (sel : Sel) (g : Desc) : Prop where
  prot : s.unchecked = false
  nonNull : isNull sel = false
  found : s.lookup sel = some g
  kind : g.kind = .callGate
  ok : gateOk s.cpl sel g = true
  present : g.present = true

/-- The state after an inter-level CALL to code `c` on the stack `pair` with descriptor `sd` and parameters `ps` (R189). -/
def State.interLevelCalled (s : State) (t : Sel) (c : Desc) (target : Word) (w : Nat) (pair : Sel × Word) (sd : Desc)
    (ps : List Word) (next : Word) : State :=
  let u := s.enterStack pair.1 sd pair.2 c.dpl
  let u := (u.pushed w (selWord s.seg.ss.sel)).pushed w s.gpr.esp
  let u := ((u.pushedSlots w ps).pushed w (selWord s.seg.cs.sel)).pushed w next
  { u.installCs t c c.dpl with eip := target }

/-- The state after a CALL that keeps the level (R187, R188). -/
def State.sameLevelCalled (s : State) (t : Sel) (c : Desc) (target : Word) (w : Nat) (next : Word) : State :=
  { (((s.pushed w (selWord s.seg.cs.sel)).pushed w next).installCs t c s.cpl) with eip := target }

/-- The first check of a far RET's or IRET's popped CS that fails (R192; 43_interrupts.md R222). -/
def State.returnFault (s : State) (cs : Sel) : Option FaultCode :=
  if isNull cs then some (.gp 0)
  else
    match s.lookup cs with
    | none => some (.gp (errSel cs))
    | some d =>
      if !d.kind.isCode then some (.gp (errSel cs))
      else if !mayReturn s.cpl cs d then some (.gp (errSel cs))
      else if !d.present then some (.np (errSel cs))
      else none

/-- The first check of `CheckNewSS(sel, n, F)` that fails (40_privilege_checks.md R139). -/
def State.newSsFault (s : State) (sel : Sel) (n : Level) (f : Word → FaultCode) : Option FaultCode :=
  if isNull sel then some (f 0)
  else
    match s.lookup sel with
    | none => some (f (errSel sel))
    | some d =>
      if selRpl sel ≠ n then some (f (errSel sel))
      else if !d.kind.isWritableData then some (f (errSel sel))
      else if d.dpl ≠ n then some (f (errSel sel))
      else if !d.present then some (.ss (errSel sel))
      else none

/-- What keeps the stack of level `n` from being entered: the first check of `ReadStackForLevel` or `CheckNewSS` that fails
(40_privilege_checks.md R138, R139). -/
def State.levelStackFault (s : State) (n : Level) : Option FaultCode :=
  if !s.tr.valid then some (.ts 0)
  else if !s.hasLevelStack n then some (.ts (errSel s.tr.sel))
  else s.newSsFault (s.levelStack n).1 n .ts

/-- The first check of the target of an interrupt or trap gate that fails (43_interrupts.md R214). -/
def State.gateTargetFault (s : State) (t : Sel) : Option FaultCode :=
  if isNull t then some (.gp 0)
  else
    match s.lookup t with
    | none => some (.gp (errSel t))
    | some c =>
      if !c.kind.isCode then some (.gp (errSel t))
      else if s.cpl < c.dpl then some (.gp (errSel t))
      else if !c.present then some (.np (errSel t))
      else none

/-- The first check of a far JMP's or CALL's target that fails, before any stack or task is looked at (R180, R182, R183, R185,
R187, R188, R190). `jump` is a JMP. -/
def State.transferFault (s : State) (jump : Bool) (sel : Sel) : Option FaultCode :=
  if isNull sel then some (.gp 0)
  else
    match s.lookup sel with
    | none => some (.gp (errSel sel))
    | some d =>
      match d.kind with
      | .seg (.code _ _) =>
        if !(if jump then mayJump s.cpl sel d else mayCall s.cpl sel d) then some (.gp (errSel sel))
        else if !d.present then some (.np (errSel sel))
        else none
      | .callGate =>
        if !gateOk s.cpl sel d then some (.gp (errSel sel))
        else if !d.present then some (.np (errSel sel))
        else if isNull d.gateSel then some (.gp 0)
        else
          match s.lookup d.gateSel with
          | none => some (.gp (errSel d.gateSel))
          | some c =>
            if !c.kind.isCode then some (.gp (errSel d.gateSel))
            else if s.cpl < c.dpl then some (.gp (errSel d.gateSel))
            else if jump && !c.kind.isConforming && c.dpl != s.cpl then some (.gp (errSel d.gateSel))
            else if !c.present then some (.np (errSel d.gateSel))
            else none
      | .taskGate =>
        if !gateOk s.cpl sel d then some (.gp (errSel sel))
        else if !d.present then some (.np (errSel sel))
        else none
      | .tss _ => if !gateOk s.cpl sel d then some (.gp (errSel sel)) else none
      | .tss286 | .gate286 => none
      | .seg (.data _ _) | .ldt | .interruptGate | .trapGate | .invalid => some (.gp (errSel sel))

/-! ### Interrupts (43_interrupts.md) -/

/-- The instruction takes `Interrupt(v, tag, .., err, ret)` from the second state (R212): a software interrupt, a hardware
interrupt, or the pending fault, which is emptied first (R216). -/
inductive Interrupts (s : State) : Instr → State → BitVec 8 → IntTag → Option Word → Word → Prop where
  | int3 (p : List Pfx) : Interrupts s (.int3 p) s 3 .software none (s.nextEip (.int3 p))
  | int (p : List Pfx) (v : BitVec 8) : Interrupts s (.intImm p v) s v .software none (s.nextEip (.intImm p v))
  | into (p : List Pfx) (h : s.ofl = true) : Interrupts s (.into p) s 4 .software none (s.nextEip (.into p))
  | hardware (v : BitVec 8) : Interrupts s (.hardwareInterrupt v) s v .hardware none s.eip
  | exception (f : PendingFault) (h : s.pendingFault = some f) :
    Interrupts s .exceptionDelivery { s with pendingFault := none } f.vector .exception f.err f.returnEip

/-- The first check of `Interrupt` that fails up to the gate's present bit, in protected and V86 mode (R211 to R213). -/
def State.idtFault (s : State) (v : BitVec 8) (tag : IntTag) : Option FaultCode :=
  if s.vm && tag == .software && s.iopl != 3 then some (.gp 0)
  else if !s.hasIdtGate v then some (.gp (idtErr v))
  else if (s.idtGate v).kind = .gate286 then none
  else if !(s.idtGate v).kind.isIdtGate then some (.gp (idtErr v))
  else if tag = .software ∧ (s.idtGate v).dpl < s.cpl then some (.gp (idtErr v))
  else if !(s.idtGate v).present then some (.np (idtErr v))
  else none

/-- Vector `v` leads through an interrupt or trap gate to code `c` (R212 to R214). -/
structure GateEntry (s : State) (v : BitVec 8) (tag : IntTag) (c : Desc) : Prop where
  pe : s.pe = true
  v86 : s.vm = true → tag = .software → s.iopl = 3
  inIdt : s.hasIdtGate v = true
  kind : (s.idtGate v).kind = .interruptGate ∨ (s.idtGate v).kind = .trapGate
  dpl : tag = .software → s.cpl ≤ (s.idtGate v).dpl
  present : (s.idtGate v).present = true
  target : GoodTarget s (s.idtGate v).gateSel c

/-- The pushes of a same-level delivery, in order (R214). -/
def State.pushedFlags (s : State) (err : Option Word) (ret : Word) : State :=
  let t := ((s.pushed 4 s.eflags).pushed 4 (selWord s.seg.cs.sel)).pushed 4 ret
  match err with
  | some e => t.pushed 4 e
  | none => t

/-- The end of a delivery through gate `g`: TF, NT, RF and VM cleared, IF too by an interrupt gate, and EIP (R214, R217). -/
def State.entered (s : State) (g : Desc) : State :=
  { s with
    eflags := eflagsWrite (s.eflags &&& ~~~(if g.kind = .interruptGate then 0x00034300#32 else 0x00034100#32))
    eip := g.gateOff }

/-! ### Task switches (44_task_switch.md) -/

/-- The writes of `FlushOutgoing`, in order: address, bytes, value (44_task_switch.md R246). -/
def State.flushWrites (s : State) (mode : SwitchMode) (ret : Word) : List (Word × Nat × Word) :=
  let b := s.tr.base
  [(b + 0x20#32, 4, ret), (b + 0x24#32, 4, savedEflags mode s.eflags), (b + 0x28#32, 4, s.gpr.eax),
    (b + 0x2C#32, 4, s.gpr.ecx), (b + 0x30#32, 4, s.gpr.edx), (b + 0x34#32, 4, s.gpr.ebx), (b + 0x38#32, 4, s.gpr.esp),
    (b + 0x3C#32, 4, s.gpr.ebp), (b + 0x40#32, 4, s.gpr.esi), (b + 0x44#32, 4, s.gpr.edi),
    (b + 0x48#32, 2, selWord s.seg.es.sel), (b + 0x4C#32, 2, selWord s.seg.cs.sel), (b + 0x50#32, 2, selWord s.seg.ss.sel),
    (b + 0x54#32, 2, selWord s.seg.ds.sel), (b + 0x58#32, 2, selWord s.seg.fs.sel), (b + 0x5C#32, 2, selWord s.seg.gs.sel)]

/-- The plan of a list of writes: their bytes, the latest first (20_memory.md R64). -/
def planOf (ws : List (Word × Nat × Word)) : List (Word × Byte) :=
  ws.foldl (fun acc w => (bytesLe w.1 w.2.1 w.2.2).reverse ++ acc) []

/-- The write of `SetBusy(sel, b)` after the writes `plan` of the same operation (40_privilege_checks.md R126, 20_memory.md
R64). -/
def State.busyWrite (s : State) (plan : List (Word × Byte)) (sel : Sel) (b : Bool) : Word × Nat × Word :=
  (s.busyAddr sel, 1,
    busyByte (readLe (fun a => (plan.lookup a).getD (s.readByte a)) (s.busyAddr sel) 1) b)

/-- The writes of a task switch, in order (44_task_switch.md R245 to R248). -/
def State.switchWrites (s : State) (sel : Sel) (d : Desc) (mode : SwitchMode) (ret : Word) : List (Word × Nat × Word) :=
  let w1 := (if mode = .jmp ∨ mode = .iret then [s.busyWrite [] s.tr.sel false] else []) ++ s.flushWrites mode ret
  let w2 := if mode = .iret then w1 else w1 ++ [s.busyWrite (planOf w1) sel true]
  if mode = .call ∨ mode = .callInt then w2 ++ [(d.base, 2, selWord s.tr.sel)] else w2

/-- `sel` names a TSS that a switch in this mode may enter from `s`, and there is a task to leave (44_task_switch.md R242,
R243). -/
structure SwitchTarget (s : State) (sel : Sel) (mode : SwitchMode) (d : Desc) : Prop where
  inGdt : selTi sel = false
  found : s.lookup sel = some d
  kind : d.kind = .tss (mode == .iret)
  present : d.present = true
  limit : 0x67 ≤ d.limit.toNat
  outgoing : s.tr.valid = true
  outgoingLimit : 0x67 ≤ s.tr.limit.toNat

/-- The switch has committed in `t`: the registers of the new task, TR, CR3 as the `Mmu` was told, CR0.TS, and a pending fault only
of the new task (44_task_switch.md R249, R250; 60_exceptions.md R303). -/
structure Switched (s t : State) (sel : Sel) (d : Desc) (mode : SwitchMode) (ret : Word) : Prop where
  tr : t.tr = { sel := sel, base := d.base, limit := d.limit, valid := true, iomap := (s.tssImage d.base).iomap }
  cr3 : t.cr3 = (s.tssImage d.base).cr3 ∧ t.mmu = { s.mmu with pdb := (s.tssImage d.base).cr3 }
  taskSwitched : t.cr0 = setBit s.cr0 bitTS true
  gpr : t.gpr = (s.tssImage d.base).gpr
  eip : t.eip = (s.tssImage d.base).eip
  eflags : t.eflags =
    eflagsWrite (if mode = .call ∨ mode = .callInt then setBit (s.tssImage d.base).eflags bitNT true
      else (s.tssImage d.base).eflags)
  cpl : t.cpl = if (s.tssImage d.base).eflags.getLsbD bitVM then 3 else selRpl (s.tssImage d.base).cs
  selectors : t.seg.cs.sel = (s.tssImage d.base).cs ∧ t.seg.ss.sel = (s.tssImage d.base).ss ∧
    t.seg.ds.sel = (s.tssImage d.base).ds ∧ t.seg.es.sel = (s.tssImage d.base).es ∧
    t.seg.fs.sel = (s.tssImage d.base).fs ∧ t.seg.gs.sel = (s.tssImage d.base).gs ∧ t.ldtr.sel = (s.tssImage d.base).ldt
  mem : t.mem = applyPlan s.mmu (planOf (s.switchWrites sel d mode ret)) s.mem
  others : t.gdtr = s.gdtr ∧ t.idtr = s.idtr ∧ t.cr2 = s.cr2 ∧ t.cr4 = s.cr4 ∧ t.dr = s.dr ∧ t.refused = s.refused ∧
    t.inputs = s.inputs ∧ t.params = s.params
  fault : t.pendingFault = none ∨ ∃ f, t.pendingFault = some f ∧ f.returnEip = (s.tssImage d.base).eip

/-- Selector `sel`, named by a far JMP or CALL, leads to the task of TSS selector `tss`: the TSS descriptor itself or a task
gate (42_control_transfer.md R190). -/
structure NamesTask (s : State) (sel tss : Sel) (d : Desc) : Prop where
  nonNull : isNull sel = false
  found : s.lookup sel = some d
  ok : gateOk s.cpl sel d = true
  leads : (d.kind.isTss = true ∧ tss = sel) ∨ (d.kind = .taskGate ∧ d.present = true ∧ tss = d.gateSel)

/-- The instruction runs `SwitchTask(tss, mode, ret)` without an error code (R241): a far JMP or CALL, or an IRET with NT set,
which follows the back-link (43_interrupts.md R229). -/
inductive Switches (s : State) : Instr → Sel → SwitchMode → Word → Prop where
  | jmp (i : Instr) (sel tss : Sel) (off : Word) (wide : Bool) (d : Desc) (h : JumpsTo s i sel off wide)
      (hu : s.unchecked = false) (ht : NamesTask s sel tss d) : Switches s i tss .jmp (s.nextEip i)
  | call (i : Instr) (sel tss : Sel) (off : Word) (wide : Bool) (d : Desc) (h : CallsTo s i sel off wide)
      (hu : s.unchecked = false) (ht : NamesTask s sel tss d) : Switches s i tss .call (s.nextEip i)
  | iret (p : List Pfx) (hu : s.unchecked = false) (hn : s.nt = true) (hv : s.tr.valid = true) :
    Switches s (.iret p) (low16 (s.readLin s.tr.base 2)) .iret (s.nextEip (.iret p))

/-- The first check of a task switch before its commit that fails (R242, R243). -/
def State.switchFault (s : State) (sel : Sel) (mode : SwitchMode) : Option FaultCode :=
  let f := fun e => if mode = .iret then FaultCode.ts e else FaultCode.gp e
  if selTi sel then some (f (errSel sel))
  else
    match s.lookup sel with
    | none => some (f (errSel sel))
    | some d =>
      if d.kind = .tss286 then none
      else if !d.kind.isTss then some (f (errSel sel))
      else if mode ≠ .iret ∧ d.kind = .tss true then some (.gp (errSel sel))
      else if mode = .iret ∧ d.kind = .tss false then some (.ts (errSel sel))
      else if !d.present then some (.np (errSel sel))
      else if d.limit.toNat < 0x67 then some (.ts (errSel sel))
      else if !s.tr.valid then some (.ts 0)
      else if s.tr.limit.toNat < 0x67 then some (.ts (errSel s.tr.sel))
      else none

/-- The delivery of the exception of vector `v` fails with this fault before anything is committed: a check of the IDT entry, of the
target code, of the stack of its level, of the task a task gate names; or the `Mmu` refuses the read of the IDT entry (R211 to R215,
44_task_switch.md R242, R243, 60_exceptions.md R304). -/
inductive DeliveryFault (s : State) (v : BitVec 8) : FaultCode → Prop where
  | entry (f : FaultCode) (hq : s.Quiet) (h : s.idtFault v .exception = some f) : DeliveryFault s v f
  | target (f : FaultCode) (hq : s.Quiet) (he : s.idtFault v .exception = none)
      (hk : (s.idtGate v).kind = .interruptGate ∨ (s.idtGate v).kind = .trapGate)
      (h : s.gateTargetFault (s.idtGate v).gateSel = some f) : DeliveryFault s v f
  | v86 (c : Desc) (hq : s.Quiet) (hg : GateEntry s v .exception c) (hv : s.vm = true)
      (h : c.kind.isConforming = true ∨ c.dpl ≠ 0) : DeliveryFault s v (.gp (errSel (s.idtGate v).gateSel))
  | stack (c : Desc) (f : FaultCode) (hq : s.Quiet) (hg : GateEntry s v .exception c) (hc : c.kind.isConforming = false)
      (hl : c.dpl < s.cpl) (hv : s.vm = true → c.dpl = 0) (h : s.levelStackFault c.dpl = some f) : DeliveryFault s v f
  | task (f : FaultCode) (hq : s.Quiet) (he : s.idtFault v .exception = none) (hk : (s.idtGate v).kind = .taskGate)
      (h : s.switchFault (s.idtGate v).gateSel .callInt = some f) : DeliveryFault s v f
  | mmu (f : MmuFault) (hi : s.hasIdtGate v = true)
      (h : s.checkFirst
        { addr := s.idtr.base + (v.setWidth 32 <<< 3), size := 4, write := false, user := false } = some f) :
    DeliveryFault s v f.code

/-- The committed state of a task switch, before `LoadTaskSegments` (R249). -/
def State.switchedTo (s : State) (sel : Sel) (d : Desc) (mode : SwitchMode) (ret : Word) : State :=
  ({ s with mem := applyPlan s.mmu (planOf (s.switchWrites sel d mode ret)) s.mem }).enterTask sel d
    (s.tssImage d.base) mode

/-- LDTR of the new task loads, from the first state to the second (R250). -/
inductive TaskLdtLoads (u : State) (l : Sel) : State → Prop where
  | null (h : isNull l = true) : TaskLdtLoads u l u
  | ldt (d : Desc) (h : isNull l = false) (ht : selTi l = false) (hd : u.lookup l = some d) (hk : d.kind = .ldt)
      (hp : d.present = true) :
    TaskLdtLoads u l { u with ldtr := { sel := l, base := d.base, limit := d.limit, valid := true } }

/-- Every load of `LoadTaskSegments` succeeds, from the first state to the second (R250). -/
inductive TaskLoads (u : State) (img : TssImage) : State → Prop where
  /-- a V86 task: unchecked loads -/
  | v86 (u1 : State) (hl : TaskLdtLoads u img.ldt u1) (hv : u.vm = true) :
    TaskLoads u img (u1.loadV86Segs img.cs img.ss img.ds img.es img.fs img.gs)
  /-- a protected-mode task -/
  | prot (u1 u2 u3 u4 u5 : State) (c sd : Desc) (hl : TaskLdtLoads u img.ldt u1) (hv : u.vm = false)
      (hnull : isNull img.cs = false) (hc : u1.lookup img.cs = some c) (hk : c.kind.isCode = true)
      (hdpl : if c.kind.isConforming then c.dpl ≤ selRpl img.cs else c.dpl = selRpl img.cs) (hp : c.present = true)
      (hs : GoodStack u1 img.ss (selRpl img.cs) sd)
      (hds : SegLoads ((u1.installCs img.cs c (selRpl img.cs)).installSeg .ss img.ss sd) .ds img.ds u2)
      (hes : SegLoads u2 .es img.es u3) (hfs : SegLoads u3 .fs img.fs u4) (hgs : SegLoads u4 .gs img.gs u5) :
    TaskLoads u img u5

/-- The first check of LDTR's load in a task switch that fails (R250). -/
def State.taskLdtFault (u : State) (l : Sel) : Option FaultCode :=
  if isNull l then none
  else if selTi l then some (.ts (errSel l))
  else
    match u.lookup l with
    | none => some (.ts (errSel l))
    | some d => if d.kind = .ldt ∧ d.present = true then none else some (.ts (errSel l))

/-- The first check of CS's load in a task switch that fails (R250). -/
def State.taskCsFault (u : State) (sel : Sel) : Option FaultCode :=
  if isNull sel then some (.ts 0)
  else
    match u.lookup sel with
    | none => some (.ts (errSel sel))
    | some c =>
      if !c.kind.isCode then some (.ts (errSel sel))
      else if (if c.kind.isConforming then c.dpl ≤ selRpl sel else c.dpl = selRpl sel) then
        if c.present then none else some (.np (errSel sel))
      else some (.ts (errSel sel))

/-- The first check of a data segment's load in a task switch that fails (R250: the checks of 41_segment_loading.md R154 as #TS). -/
def State.taskDataFault (u : State) (sel : Sel) : Option FaultCode :=
  if isNull sel then none
  else
    match u.lookup sel with
    | none => some (.ts (errSel sel))
    | some d =>
      if !d.kind.isLoadable then some (.ts (errSel sel))
      else if !mayLoadDataSegment u.cpl sel d then some (.ts (errSel sel))
      else if !d.present then some (.np (errSel sel))
      else none

/-- CS of a protected-mode task loads, from the first state to the second (R250). -/
inductive TaskCsLoads (u : State) (sel : Sel) : State → Prop where
  | code (c : Desc) (hnull : isNull sel = false) (hc : u.lookup sel = some c) (hf : u.taskCsFault sel = none) :
    TaskCsLoads u sel (u.installCs sel c (selRpl sel))

/-- These segment registers load one after the other, from the first state to the second. -/
inductive SegsLoad : State → List (SegName × Sel) → State → Prop where
  | nil (u : State) : SegsLoad u [] u
  | cons (u v w : State) (n : SegName) (sel : Sel) (rest : List (SegName × Sel)) (h : SegLoads u n sel v)
      (hr : SegsLoad v rest w) : SegsLoad u ((n, sel) :: rest) w

/-- A load of `LoadTaskSegments` from the committed state `u` fails with this fault, in the state of the loads before it; the last
argument names the segment registers that have not loaded (R250). -/
inductive TaskLoadFails (u : State) (img : TssImage) : FaultCode → State → List SegName → Prop where
  | ldt (f : FaultCode) (h : u.taskLdtFault img.ldt = some f) : TaskLoadFails u img f u [.cs, .ss, .ds, .es, .fs, .gs]
  | cs (u1 : State) (f : FaultCode) (hl : TaskLdtLoads u img.ldt u1) (hv : u.vm = false)
      (h : u1.taskCsFault img.cs = some f) : TaskLoadFails u img f u1 [.cs, .ss, .ds, .es, .fs, .gs]
  | ss (u1 u2 : State) (f : FaultCode) (hl : TaskLdtLoads u img.ldt u1) (hv : u.vm = false)
      (hc : TaskCsLoads u1 img.cs u2) (h : u2.newSsFault img.ss (selRpl img.cs) .ts = some f) :
    TaskLoadFails u img f u2 [.ss, .ds, .es, .fs, .gs]
  | data (u1 u2 t : State) (sd : Desc) (f : FaultCode) (done rest : List (SegName × Sel)) (n : SegName) (sel : Sel)
      (hl : TaskLdtLoads u img.ldt u1) (hv : u.vm = false) (hc : TaskCsLoads u1 img.cs u2)
      (hs : GoodStack u2 img.ss (selRpl img.cs) sd)
      (hn : [(SegName.ds, img.ds), (.es, img.es), (.fs, img.fs), (.gs, img.gs)] = done ++ (n, sel) :: rest)
      (hd : SegsLoad (u2.installSeg .ss img.ss sd) done t) (h : t.taskDataFault sel = some f) :
    TaskLoadFails u img f t (n :: rest.map Prod.fst)

end Sys2Proof.Machine

namespace Sys2Proof

open Machine

/-! ### Classes of instructions -/

/-- What a segment-loading instruction leaves, `t` being `s` with the segment register loaded: a pop also installs `esp_new`,
LES and its like write their general register (R152). -/
def Instr.afterLoad (i : Instr) (s t : State) : State :=
  match i with
  | .popEs p | .popSs p | .popDs p | .popFs p | .popGs p =>
    { t.loadEsp (s.espAfterPop (widthBytes (s.opSize p))) with eip := s.nextEip i }
  | .les p r m | .lds p r m | .lss p r m | .lfs p r m | .lgs p r m =>
    ({ t with eip := s.nextEip i }).setGpr r (s.opSize p) (s.farPtr p m).1
  | _ => { t with eip := s.nextEip i }

/-- Far transfers, interrupts and IRET: the operations that may load CS, change CPL or switch tasks. -/
def Instr.isTransfer : Instr → Bool
  | .jmpFarPtr _ _ _ | .jmpFarMem _ _ | .callFarPtr _ _ _ | .callFarMem _ _ | .retf _ | .retfImm _ _ => true
  | .iret _ | .int3 _ | .intImm _ _ | .into _ | .hardwareInterrupt _ | .exceptionDelivery => true
  | .movEs _ _ | .movSs _ _ | .movDs _ _ | .movFs _ _ | .movGs _ _ => false
  | .popEs _ | .popSs _ | .popDs _ | .popFs _ | .popGs _ => false
  | .les _ _ _ | .lds _ _ _ | .lss _ _ _ | .lfs _ _ _ | .lgs _ _ _ => false
  | .lldt _ _ | .ltr _ _ | .verr _ _ | .verw _ _ | .sgdt _ _ | .sidt _ _ | .lgdt _ _ | .lidt _ _ => false
  | .arpl _ _ _ | .lar _ _ _ | .lsl _ _ _ => false
  | .movFromCr _ _ _ | .movToCr _ _ _ | .movFromDr _ _ _ | .movToDr _ _ _ => false
  | .cli _ | .sti _ | .pushf _ | .popf _ => false

/-- The operations that may end in a task switch (44_task_switch.md): far JMP and CALL, interrupts, IRET. -/
def Instr.maySwitch : Instr → Bool
  | .jmpFarPtr _ _ _ | .jmpFarMem _ _ | .callFarPtr _ _ _ | .callFarMem _ _ => true
  | .iret _ | .int3 _ | .intImm _ _ | .into _ | .hardwareInterrupt _ | .exceptionDelivery => true
  | .retf _ | .retfImm _ _ => false
  | .movEs _ _ | .movSs _ _ | .movDs _ _ | .movFs _ _ | .movGs _ _ => false
  | .popEs _ | .popSs _ | .popDs _ | .popFs _ | .popGs _ => false
  | .les _ _ _ | .lds _ _ _ | .lss _ _ _ | .lfs _ _ _ | .lgs _ _ _ => false
  | .lldt _ _ | .ltr _ _ | .verr _ _ | .verw _ _ | .sgdt _ _ | .sidt _ _ | .lgdt _ _ | .lidt _ _ => false
  | .arpl _ _ _ | .lar _ _ _ | .lsl _ _ _ => false
  | .movFromCr _ _ _ | .movToCr _ _ _ | .movFromDr _ _ _ | .movToDr _ _ _ => false
  | .cli _ | .sti _ | .pushf _ | .popf _ => false

/-- The forms that may write memory: pushes, SGDT, SIDT, LTR (the Busy bit), ARPL to memory, task switches. -/
def Instr.mayStore : Instr → Bool
  | .jmpFarPtr _ _ _ | .jmpFarMem _ _ | .callFarPtr _ _ _ | .callFarMem _ _ => true
  | .iret _ | .int3 _ | .intImm _ _ | .into _ | .hardwareInterrupt _ | .exceptionDelivery => true
  | .ltr _ _ | .sgdt _ _ | .sidt _ _ | .pushf _ => true
  | .arpl _ (.mem _) _ => true
  | .arpl _ (.reg _) _ => false
  | .retf _ | .retfImm _ _ => false
  | .movEs _ _ | .movSs _ _ | .movDs _ _ | .movFs _ _ | .movGs _ _ => false
  | .popEs _ | .popSs _ | .popDs _ | .popFs _ | .popGs _ => false
  | .les _ _ _ | .lds _ _ _ | .lss _ _ _ | .lfs _ _ _ | .lgs _ _ _ => false
  | .lldt _ _ | .verr _ _ | .verw _ _ | .lgdt _ _ | .lidt _ _ => false
  | .lar _ _ _ | .lsl _ _ _ => false
  | .movFromCr _ _ _ | .movToCr _ _ _ | .movFromDr _ _ _ | .movToDr _ _ _ => false
  | .cli _ | .sti _ | .popf _ => false

/-- Where a storing form that is no transfer stores, as linear addresses and widths: the slot PUSHF pushes, the operand of SGDT
and SIDT, a memory destination of ARPL, the access byte of LTR's descriptor (the address from the operand as LTR read it, whatever
the `Mmu` answered). -/
def Instr.stores (s : State) : Instr → Option (List (Word × Nat))
  | .pushf p =>
    some [(s.stackAddr (s.gpr.esp - BitVec.ofNat 32 (widthBytes (s.opSize p))), widthBytes (s.opSize p))]
  | .sgdt p m | .sidt p m => some [(s.linear p m, 2), (s.linear p m + 2#32, 4)]
  | .arpl p (.mem m) _ => some [(s.linear p m, 2)]
  | .ltr p x => some [(s.busyAddr (s.rm16Asked p x), 1)]
  | _ => none

/-- The general registers an operation that is no transfer may write: a destination register, and ESP for a pop or push. -/
def Instr.writesGpr : Instr → Gpr → Bool
  | .jmpFarPtr _ _ _, _ | .jmpFarMem _ _, _ | .callFarPtr _ _ _, _ | .callFarMem _ _, _ => true
  | .retf _, _ | .retfImm _ _, _ | .iret _, _ | .int3 _, _ | .intImm _ _, _ | .into _, _ => true
  | .hardwareInterrupt _, _ | .exceptionDelivery, _ => true
  | .popEs _, r | .popSs _, r | .popDs _, r | .popFs _, r | .popGs _, r | .pushf _, r | .popf _, r => r == .esp
  | .les _ d _, r | .lds _ d _, r | .lss _ d _, r | .lfs _ d _, r | .lgs _ d _, r => r == d
  | .arpl _ (.reg d) _, r | .lar _ d _, r | .lsl _ d _, r | .movFromCr _ _ d, r | .movFromDr _ _ d, r => r == d
  | .arpl _ (.mem _) _, _ => false
  | .movEs _ _, _ | .movSs _ _, _ | .movDs _ _, _ | .movFs _ _, _ | .movGs _ _, _ => false
  | .lldt _ _, _ | .ltr _ _, _ | .verr _ _, _ | .verw _ _, _ => false
  | .sgdt _ _, _ | .sidt _ _, _ | .lgdt _ _, _ | .lidt _ _, _ => false
  | .movToCr _ _ _, _ | .movToDr _ _ _, _ | .cli _, _ | .sti _, _ => false

/-- The segment register an operation that is no transfer may write. -/
def Instr.writesSeg : Instr → SegName → Bool
  | .movEs _ _, n | .popEs _, n | .les _ _ _, n => n == .es
  | .movSs _ _, n | .popSs _, n | .lss _ _ _, n => n == .ss
  | .movDs _ _, n | .popDs _, n | .lds _ _ _, n => n == .ds
  | .movFs _ _, n | .popFs _, n | .lfs _ _ _, n => n == .fs
  | .movGs _ _, n | .popGs _, n | .lgs _ _ _, n => n == .gs
  | .jmpFarPtr _ _ _, _ | .jmpFarMem _ _, _ | .callFarPtr _ _ _, _ | .callFarMem _ _, _ => true
  | .retf _, _ | .retfImm _ _, _ | .iret _, _ | .int3 _, _ | .intImm _ _, _ | .into _, _ => true
  | .hardwareInterrupt _, _ | .exceptionDelivery, _ => true
  | .lldt _ _, _ | .ltr _ _, _ | .verr _ _, _ | .verw _ _, _ => false
  | .sgdt _ _, _ | .sidt _ _, _ | .lgdt _ _, _ | .lidt _ _, _ => false
  | .arpl _ _ _, _ | .lar _ _ _, _ | .lsl _ _ _, _ => false
  | .movFromCr _ _ _, _ | .movToCr _ _ _, _ | .movFromDr _ _ _, _ | .movToDr _ _ _, _ => false
  | .cli _, _ | .sti _, _ | .pushf _, _ | .popf _, _ => false

/-- The bits of EFLAGS an operation that is no transfer may write (10_state.md R25): ZF for the inspections and ARPL, IF for CLI and
STI, the merge mask for POPF. -/
def Instr.flagMask (s : State) : Instr → Word
  | .arpl _ _ _ | .lar _ _ _ | .lsl _ _ _ | .verr _ _ | .verw _ _ => 0x40
  | .cli _ | .sti _ => 0x200
  | .popf p => mergeMaskFor s.cpl s.iopl (s.opSize p)
  | .jmpFarPtr _ _ _ | .jmpFarMem _ _ | .callFarPtr _ _ _ | .callFarMem _ _ => 0xFFFFFFFF
  | .retf _ | .retfImm _ _ | .iret _ | .int3 _ | .intImm _ _ | .into _ => 0xFFFFFFFF
  | .hardwareInterrupt _ | .exceptionDelivery => 0xFFFFFFFF
  | .movEs _ _ | .movSs _ _ | .movDs _ _ | .movFs _ _ | .movGs _ _ => 0
  | .popEs _ | .popSs _ | .popDs _ | .popFs _ | .popGs _ => 0
  | .les _ _ _ | .lds _ _ _ | .lss _ _ _ | .lfs _ _ _ | .lgs _ _ _ => 0
  | .lldt _ _ | .ltr _ _ | .sgdt _ _ | .sidt _ _ | .lgdt _ _ | .lidt _ _ => 0
  | .movFromCr _ _ _ | .movToCr _ _ _ | .movFromDr _ _ _ | .movToDr _ _ _ | .pushf _ => 0

end Sys2Proof
end

