-- ==== Sys2Proof/Certificates/Slice0/Obligations.lean ====
section
/-! DEFINITION. The statements for the provers, from the numbered rules of spec/. A statement about an instruction's own effect
concludes `exec i s = .next ..` for the whole next state, so it is its frame as well. -/

open Sys2Proof Sys2Proof.Machine

/-! ## Encoding (30_encoding.md) -/

/-- Every well-formed instruction decodes from its encoding, whatever bytes follow it: no bit of an encoding is dropped. -/
def Obligations.DecodeOfEncode : Prop :=
  ∀ (big : Bool) (i : Instr) (rest : List Byte), WellFormed big i = true →
    decode big (encode big i ++ rest) = .ok (i, rest)

/-- Each byte sequence has at most one meaning: what decodes is a well-formed instruction, and its encoding is the bytes it was
decoded from. -/
def Obligations.EncodeOfDecode : Prop :=
  ∀ (big : Bool) (bs : List Byte) (i : Instr) (rest : List Byte), decode big bs = .ok (i, rest) →
    WellFormed big i = true ∧ encode big i ++ rest = bs

/-- Words written out from the opcode map of R92 decode to the instructions they stand for. The map is the spec's general
knowledge; the ModRM address forms are the model's (log 5). -/
def Obligations.MapWordsDecode : Prop :=
  -- EA 20 7C 08 00: jmp far 0x0008:0x7C20 in 16-bit code; 9A ..: call far 0x0038:0 in 32-bit code
  decode false [0xEA, 0x20, 0x7C, 0x08, 0x00] = .ok (.jmpFarPtr [] 0x7C20 0x0008, []) ∧
  decode true [0x9A, 0x00, 0x00, 0x00, 0x00, 0x38, 0x00] = .ok (.callFarPtr [] 0 0x0038, []) ∧
  -- CA 08 00: retf 8; CD 80: int 0x80; CF: iret
  decode true [0xCA, 0x08, 0x00] = .ok (.retfImm [] 8, []) ∧
  decode true [0xCD, 0x80] = .ok (.intImm [] 0x80, []) ∧
  decode true [0xCF] = .ok (.iret [], []) ∧
  -- 8E D3: mov ss, bx; 0F A1: pop fs; 0F B2 /r: lss esp, [eax]
  decode true [0x8E, 0xD3] = .ok (.movSs [] (.reg .ebx), []) ∧
  decode true [0x0F, 0xA1] = .ok (.popFs [], []) ∧
  decode true [0x0F, 0xB2, 0x20] = .ok (.lss [] .esp (.a32 .eax .none), []) ∧
  -- 0F 01 16 00 05: lgdt [0x500]; 0F 00 D8: ltr ax; 0F 02 C3: lar eax, bx
  decode false [0x0F, 0x01, 0x16, 0x00, 0x05] = .ok (.lgdt [] (.a16Abs 0x500), []) ∧
  decode true [0x0F, 0x00, 0xD8] = .ok (.ltr [] (.reg .eax), []) ∧
  decode true [0x0F, 0x02, 0xC3] = .ok (.lar [] .eax (.reg .ebx), []) ∧
  -- 0F 22 C0: mov cr0, eax; 0F 21 F0: mov eax, dr6; 66 9D: popf with the other operand size; FA: cli
  decode false [0x0F, 0x22, 0xC0] = .ok (.movToCr [] 0 .eax, []) ∧
  decode true [0x0F, 0x21, 0xF0] = .ok (.movFromDr [] 6 .eax, []) ∧
  decode false [0x66, 0x9D] = .ok (.popf [.opSize], []) ∧
  decode true [0xFA] = .ok (.cli [], [])

/-- The encodings R95 lists are rejected as undefined whatever their other bits are, in code of either size (MOV of a control
register that does not exist with mod 11 decodes, and the block itself raises #UD), and those it places outside the block are not
taken for one of its instructions. The list is the spec's general knowledge. -/
def Obligations.IllegalEncodingsAreUndefined : Prop :=
  ∀ (big : Bool) (mod : BitVec 2) (reg rm : BitVec 3) (rest : List Byte),
    (reg = 6 ∨ reg = 7 → decode big ([0x0F, 0x00, modrmByte mod reg rm] ++ rest) = .error .undefined) ∧
    (reg = 1 ∨ reg = 6 ∨ reg = 7 → decode big ([0x8E, modrmByte mod reg rm] ++ rest) = .error .undefined) ∧
    (reg = 3 ∨ reg = 5 → decode big ([0xFF, modrmByte 3 reg rm] ++ rest) = .error .undefined) ∧
    decode big ([0xC4, modrmByte 3 reg rm] ++ rest) = .error .undefined ∧
    decode big ([0xC5, modrmByte 3 reg rm] ++ rest) = .error .undefined ∧
    decode big ([0x0F, 0xB2, modrmByte 3 reg rm] ++ rest) = .error .undefined ∧
    decode big ([0x0F, 0xB4, modrmByte 3 reg rm] ++ rest) = .error .undefined ∧
    decode big ([0x0F, 0xB5, modrmByte 3 reg rm] ++ rest) = .error .undefined ∧
    (reg < 4 → decode big ([0x0F, 0x01, modrmByte 3 reg rm] ++ rest) = .error .undefined) ∧
    (reg = 1 ∨ reg = 5 ∨ reg = 6 ∨ reg = 7 → mod ≠ 3 →
      decode big ([0x0F, 0x20, modrmByte mod reg rm] ++ rest) = .error .undefined ∧
        decode big ([0x0F, 0x22, modrmByte mod reg rm] ++ rest) = .error .undefined) ∧
    (reg = 4 ∨ reg = 6 ∨ reg = 7 → decode big ([0x0F, 0x01, modrmByte mod reg rm] ++ rest) = .error .outside)

/-! ## A step (60_exceptions.md R308, 70_reset_and_hazards.md R341) -/

/-- When the bytes at CS:EIP, each of which the `Mmu` lets the core read, are the encoding of a well-formed instruction, and
nothing comes before it (no pending fault, no refusal, no interrupt that IF allows), the step is `exec` of that instruction at
that state. How the core fetches is the model's (log 5). -/
def Obligations.StepRunsTheInstructionAtEip : Prop :=
  ∀ (s : State) (i : Instr), WellFormed s.codeBig i = true → s.pendingFault = none → s.refused = false →
    (s.inputs = [] ∨ ∃ v rest, s.inputs = .interrupt v :: rest ∧ s.ifl = false) →
    (∀ k (h : k < (encode s.codeBig i).length),
      s.mmu.check { addr := s.fetchAddr + BitVec.ofNat 32 k, size := 1, write := false, user := s.user } = none ∧
        s.readByte (s.fetchAddr + BitVec.ofNat 32 k) = (encode s.codeBig i)[k]) →
    step s = exec i s

/-- A fetch that meets an encoding of R95 raises #UD; one that meets a byte the `Mmu` refuses, before the instruction is
complete, raises the `Mmu`'s fault; nothing else changes. How the core fetches is the model's (log 5), and so is how the fault is
raised, with EIP as return address and CR2 (log 15). -/
def Obligations.FetchFaults : Prop :=
  ∀ (s : State), s.pendingFault = none → s.refused = false → s.inputs = [] →
    (decode s.codeBig (s.fetchBytes 15 s.fetchAddr).1 = .error .undefined → step s = .next (s.takeFault .ud)) ∧
    (∀ f, decode s.codeBig (s.fetchBytes 15 s.fetchAddr).1 = .error .truncated →
      (s.fetchBytes 15 s.fetchAddr).2 = some f → step s = .next (s.takeFault f.code))

/-- Between operations a pending fault is delivered first, whatever the core has next; then a hardware interrupt that IF allows is
taken; an interrupt that IF masks waits while instructions run. -/
def Obligations.EventsComeInOrder : Prop :=
  ∀ (s : State) (v : BitVec 8) (rest : List Input), s.refused = false →
    (∀ f, s.pendingFault = some f →
      ((s.inputs = [] ∨ s.inputs = .interrupt v :: rest ∨ (∃ code, s.inputs = .exception v code :: rest) ∨
          s.inputs = .portAccess :: rest) → step s = exec .exceptionDelivery s) ∧
        (s.inputs = .idle :: rest → step s = exec .exceptionDelivery { s with inputs := rest })) ∧
    (s.pendingFault = none → s.inputs = .interrupt v :: rest → s.ifl = true →
      step s = exec (.hardwareInterrupt v) { s with inputs := rest }) ∧
    (s.pendingFault = none → s.inputs = .interrupt v :: rest → s.ifl = false → ∀ i, s.fetch = .instr i →
      step s = exec i s)

/-- A refused state has no step but what the outside does to it, and only reset clears the mark. -/
def Obligations.RefusedHasNoFurtherStep : Prop :=
  (∀ s : State, s.refused = true →
    (∀ rest, s.inputs ≠ .reset :: rest) → (∀ a b rest, s.inputs ≠ .store a b :: rest) →
    (∀ views answers rest, s.inputs ≠ .remap views answers :: rest) → step s = .refused .unsupported286) ∧
  (∀ s t : State, s.refused = true → step s = .next t → t.refused = true ∨ ∃ rest, s.inputs = .reset :: rest)

/-- What the outside does between two operations (the model's inputs, log 8): another owner's store, new answers of the `Mmu`, an
exception of the core, the check of a port access, and nothing. -/
def Obligations.OutsideInputsAct : Prop :=
  ∀ (s : State) (rest : List Input),
    (∀ a b, s.inputs = .store a b :: rest →
      step s = .next { s with mem := s.mem.write a b, inputs := rest }) ∧
    (∀ views answers, s.inputs = .remap views answers :: rest →
      step s = .next { s with mmu := { s.mmu with views := views, answers := answers }, inputs := rest }) ∧
    (s.refused = false → s.pendingFault = none →
      (∀ v code, s.inputs = .exception v code :: rest →
        step s = .next { s with
          inputs := rest
          pendingFault := some
            { vector := v, hasError := vectorHasError v, errorCode := if vectorHasError v then code else 0,
              returnEip := s.eip } }) ∧
      (s.inputs = .portAccess :: rest →
        step s = .next (if ioPermitted s.cpl s.iopl s.vm then { s with inputs := rest }
          else { s with
            inputs := rest
            pendingFault := some { vector := 13, hasError := true, errorCode := 0, returnEip := s.eip } })) ∧
      (s.inputs = .idle :: rest → ∀ i, ({ s with inputs := rest }).fetch = .instr i →
        step s = exec i { s with inputs := rest }))

/-! ## Reset and the invariant (70_reset_and_hazards.md R330, R331; 10_state.md) -/

/-- Reset leaves every value the spec gives, EDX left out (log 1). The last clause is the model's: a reset of a running machine is an
input (log 8) that keeps its memory, the implementation's parameters and the rest of the `Mmu` (log 18). -/
def Obligations.ResetLeavesTheSpecsValues : Prop :=
  State.reset.gpr.eax = 0 ∧ State.reset.gpr.ecx = 0 ∧ State.reset.gpr.ebx = 0 ∧ State.reset.gpr.esp = 0 ∧
  State.reset.gpr.ebp = 0 ∧ State.reset.gpr.esi = 0 ∧ State.reset.gpr.edi = 0 ∧
  State.reset.eip = 0x0000FFF0 ∧ State.reset.eflags = 0x00000002 ∧ State.reset.cpl = 0 ∧
  State.reset.realMode = true ∧ State.reset.vm = false ∧
  State.reset.stack = { mask := 0x0000FFFF, notmask := 0xFFFF0000, big := false } ∧
  State.reset.seg.cs =
    { sel := 0xF000, base := 0xFFFF0000, limit := 0xFFFF, big := false, valid := true, dpl := 0,
      kind := .code false true } ∧
  (∀ n, n ≠ .cs → State.reset.seg.get n =
    { sel := 0, base := 0, limit := 0xFFFF, big := false, valid := true, dpl := 0, kind := .data true false }) ∧
  State.reset.gdtr = { base := 0, limit := 0xFFFF } ∧ State.reset.idtr = { base := 0, limit := 0xFFFF } ∧
  State.reset.ldtr = { sel := 0, base := 0, limit := 0xFFFF, valid := false } ∧
  State.reset.tr = { sel := 0, base := 0, limit := 0xFFFF, valid := false, iomap := 0 } ∧
  State.reset.cr0 = 0x60000010 ∧ State.reset.cr2 = 0 ∧ State.reset.cr3 = 0 ∧ State.reset.cr4 = 0 ∧
  State.reset.dr = { dr0 := 0, dr1 := 0, dr2 := 0, dr3 := 0, dr6 := 0xFFFF0FF0, dr7 := 0x00000400 } ∧
  State.reset.pendingFault = none ∧ State.reset.refused = false ∧
  State.reset.mmu.paging = false ∧ State.reset.mmu.pdb = 0 ∧
  State.reset.fetchAddr = 0xFFFFFFF0 ∧
  (∀ (s : State) rest, s.inputs = .reset :: rest →
    step s = .next { State.reset with
      mem := s.mem, mmu := { s.mmu with paging := false, pdb := 0 }, inputs := rest, params := s.params })

/-- The reset state meets the invariant. -/
def Obligations.ResetMeetsTheInvariant : Prop := State.reset.Inv

/-- Every step keeps the invariant: canonical memory, the reserved bits of EFLAGS, the stack mask that follows SS, CPL 0 without
VM in real mode, CPL 3 in V86 mode, and a pending fault that returns to the instruction at EIP. -/
def Obligations.StepKeepsTheInvariant : Prop := ∀ s t : State, s.Inv → step s = .next t → t.Inv

/-! ## Rules of the whole machine -/

/-- Who writes the system registers: GDTR only LGDT and IDTR only LIDT; LDTR by LLDT, TR by LTR, CR0 and CR3 by MOV to CR, each also by a task switch; CR4 and
the debug registers by their MOV alone; CR2 by MOV to CR or with a pending fault; the implementation's parameters, the outside's
inputs and the `Mmu`'s answers by no instruction. -/
def Obligations.WhoWritesSystemRegisters : Prop :=
  ∀ (i : Instr) (s t : State), exec i s = .next t →
    (t.gdtr ≠ s.gdtr → ∃ p m, i = .lgdt p m) ∧ (t.idtr ≠ s.idtr → ∃ p m, i = .lidt p m) ∧
    (t.ldtr ≠ s.ldtr → i.maySwitch = true ∨ ∃ p x, i = .lldt p x) ∧
    (t.tr ≠ s.tr → i.maySwitch = true ∨ ∃ p x, i = .ltr p x) ∧
    (t.cr0 ≠ s.cr0 → i.maySwitch = true ∨ ∃ p r, i = .movToCr p 0 r) ∧
    (t.cr3 ≠ s.cr3 → i.maySwitch = true ∨ ∃ p r, i = .movToCr p 3 r) ∧
    (t.cr4 ≠ s.cr4 → ∃ p r, i = .movToCr p 4 r) ∧
    (t.dr ≠ s.dr → ∃ p n r, i = .movToDr p n r) ∧
    (t.cr2 ≠ s.cr2 → t.pendingFault.isSome = true ∨ ∃ p r, i = .movToCr p 2 r) ∧
    (t.mmu.paging ≠ s.mmu.paging → ∃ p r, i = .movToCr p 0 r) ∧
    (t.mmu.pdb ≠ s.mmu.pdb → i.maySwitch = true ∨ ∃ p r, i = .movToCr p 3 r) ∧
    t.params = s.params ∧ t.inputs = s.inputs ∧ t.mmu.views = s.mmu.views ∧ t.mmu.answers = s.mmu.answers

/-- In protected or V86 mode at a CPL other than 0, an operation that cannot switch tasks changes no privileged register. -/
def Obligations.PrivilegedRegistersNeedLevelZero : Prop :=
  ∀ (i : Instr) (s t : State), s.pe = true → s.cpl ≠ 0 → i.maySwitch = false → exec i s = .next t →
    t.gdtr = s.gdtr ∧ t.idtr = s.idtr ∧ t.ldtr = s.ldtr ∧ t.tr = s.tr ∧ t.cr0 = s.cr0 ∧ t.cr3 = s.cr3 ∧
    t.cr4 = s.cr4 ∧ t.dr = s.dr ∧ t.mmu = s.mmu ∧ t.iopl = s.iopl

/-- CPL changes only by a far transfer, an interrupt or IRET; a far RET never makes the level more privileged; and MOV to CR0
keeps it. -/
def Obligations.OnlyTransfersChangeLevel : Prop :=
  ∀ (i : Instr) (s t : State), exec i s = .next t →
    (i.isTransfer = false → t.cpl = s.cpl) ∧
    (∀ imm wide, Returns s i imm wide → s.cpl ≤ t.cpl)

/-- An operation that ends in a fault changes nothing but `pending_fault` and, for a page fault, CR2; the fault returns to the
instruction itself; only #UD has no error code, and then the code is 0. The exception is a fault after the commit of a task switch, which keeps the switch and returns to the new
task's EIP. -/
def Obligations.FaultChangesNothingElse : Prop :=
  ∀ (i : Instr) (s t : State) (f : PendingFault), s.pendingFault = none → exec i s = .next t → t.pendingFault = some f →
    (f.hasError = false → f.vector = 6 ∧ f.errorCode = 0) ∧
    ((t = { s with pendingFault := some f, cr2 := t.cr2 } ∧ f.returnEip = s.eip ∧ (f.vector ≠ 14 → t.cr2 = s.cr2)) ∨
    (i.maySwitch = true ∧ t.cr0.getLsbD bitTS = true ∧ t.tr.valid = true ∧ f.returnEip = t.eip))

/-- A refusal changes nothing but the mark; and the 286 descriptors are refused: a gate or a TSS as the target of a far JMP or CALL
(a TSS also behind a task gate, of the IDT too, or a back-link), a TSS as the operand of LTR, a gate in the IDT. -/
def Obligations.RefusalSetsOnlyTheMark : Prop :=
  (∀ (i : Instr) (s t : State), s.refused = false → exec i s = .next t → t.refused = true →
    t = { s with refused := true }) ∧
  (∀ (i : Instr) (s : State) (sel : Sel) (off : Word) (wide : Bool) (d : Desc),
    (JumpsTo s i sel off wide ∨ CallsTo s i sel off wide) → s.unchecked = false → isNull sel = false → s.Quiet →
    s.lookup sel = some d → d.kind.is286 = true → exec i s = .next { s with refused := true }) ∧
  (∀ (i : Instr) (s : State) (tss : Sel) (mode : SwitchMode) (ret : Word) (d : Desc), Switches s i tss mode ret → s.Quiet →
    selTi tss = false → s.lookup tss = some d → d.kind = .tss286 → exec i s = .next { s with refused := true }) ∧
  (∀ (s : State) (p : List Pfx) (x : RmOp) (d : Desc), s.unchecked = false → s.cpl = 0 → s.Quiet →
    isNull (s.rm16 p x) = false → selTi (s.rm16 p x) = false → s.lookup (s.rm16 p x) = some d → d.kind = .tss286 →
    exec (.ltr p x) s = .next { s with refused := true }) ∧
  (∀ (i : Instr) (s s0 : State) (v : BitVec 8) (tag : IntTag) (err : Option Word) (ret : Word),
    Interrupts s i s0 v tag err ret → s.Quiet → s.pe = true → (s.vm = true → tag = .software → s.iopl = 3) →
    s.hasIdtGate v = true →
    ((s.idtGate v).kind = .gate286 ∨
      ((s.idtGate v).kind = .taskGate ∧ (tag = .software → s.cpl ≤ (s.idtGate v).dpl) ∧ (s.idtGate v).present = true ∧
        selTi (s.idtGate v).gateSel = false ∧ ∃ d, s.lookup (s.idtGate v).gateSel = some d ∧ d.kind = .tss286)) →
    exec i s = .next { s with refused := true })

/-- The forms that store nothing leave every byte of memory as it was, and the storing forms that are no transfer every byte but
those they store to: PUSHF the stack slot, SGDT and SIDT the six bytes of the operand, ARPL its operand, LTR the access byte of
the TSS descriptor that the operand names as it read it. What a transfer that stores leaves stands in its own statement. -/
def Obligations.MemoryFrame : Prop :=
  ∀ (i : Instr) (s t : State), exec i s = .next t →
    (i.mayStore = false → ∀ a, t.mem.read a = s.mem.read a) ∧
    (∀ ws, i.stores s = some ws → ∀ a,
      (∀ w ∈ ws, ∀ k, k < w.2 → a ≠ s.mmu.translate (w.1 + BitVec.ofNat 32 k)) → t.mem.read a = s.mem.read a)

/-- The frame of the operations that are no transfer: every general register but the named destination, every segment register
but the loaded one, the flags outside the named ones, EIP at this or the next instruction, the active stack unless SS is loaded. -/
def Obligations.RegisterFrame : Prop :=
  ∀ (i : Instr) (s t : State), eflagsWrite s.eflags = s.eflags → i.isTransfer = false → exec i s = .next t →
    (∀ r, i.writesGpr r = false → t.gpr.get r = s.gpr.get r) ∧
    (∀ n, i.writesSeg n = false → t.seg.get n = s.seg.get n) ∧
    (i.writesSeg .ss = false → t.stack = s.stack) ∧
    t.eflags &&& ~~~i.flagMask s = s.eflags &&& ~~~i.flagMask s ∧
    t.cpl = s.cpl ∧ (t.eip = s.eip ∨ t.eip = s.nextEip i)

/-! ## Memory (20_memory.md) -/

/-- A write is read back, little-endian, and no byte it does not name changes. The addresses are linear, modulo 2^32; the `Mmu`
names different bytes for the different addresses written. -/
def Obligations.WritesReadBackAndKeepOtherBytes : Prop :=
  ∀ (s : State) (a : Word) (n : Nat) (v : Word), Memory.wf s.mem = true → n ≤ 4 →
    (∀ j k, j < n → k < n → s.mmu.translate (a + BitVec.ofNat 32 j) = s.mmu.translate (a + BitVec.ofNat 32 k) → j = k) →
    (∀ k, k < n → (s.writeLin a n v).readByte (a + BitVec.ofNat 32 k) = v.extractLsb' (8 * k) 8) ∧
    (s.writeLin a n v).readLin a n = v &&& BitVec.ofNat 32 (2 ^ (8 * n) - 1) ∧
    (∀ p, (∀ k, k < n → p ≠ s.mmu.translate (a + BitVec.ofNat 32 k)) →
      (s.writeLin a n v).mem.read p = s.mem.read p)

/-- An access the `Mmu` refuses, by its view or by its answer to this one access, ends the operation with the `Mmu`'s vector and
error code, and CR2 for vector 14: the push of PUSHF, the store of SGDT, the operand of LGDT and the descriptor of a data segment
load. -/
def Obligations.MmuFaultEndsTheOperation : Prop :=
  ∀ (s : State) (p : List Pfx) (m : MemOp) (r : Gpr) (f : MmuFault),
    (s.vm = false →
      s.checkFirst { addr := s.stackAddr (s.gpr.esp - BitVec.ofNat 32 (widthBytes (s.opSize p))),
                     size := widthBytes (s.opSize p), write := true, user := s.cpl == 3 } = some f →
      exec (.pushf p) s = .next (s.takeFault f.code)) ∧
    (s.checkFirst { addr := s.linear p m, size := 2, write := true, user := false } = some f →
      exec (.sgdt p m) s = .next (s.takeFault f.code)) ∧
    (s.cpl = 0 → s.checkFirst { addr := s.linear p m, size := 2, write := false, user := false } = some f →
      exec (.lgdt p m) s = .next (s.takeFault f.code)) ∧
    (s.unchecked = false → isNull (low16 (s.gpr.get r)) = false → s.beyondLimit (low16 (s.gpr.get r)) = false →
      s.checkFirst { addr := s.descAddr (low16 (s.gpr.get r)), size := 4, write := false, user := false } = some f →
      exec (.movDs p (.reg r)) s = .next (s.takeFault f.code))

/-! ## Segment loads (41_segment_loading.md) -/

/-- MOV, POP, LES, LDS, LSS, LFS and LGS of a segment register whose load succeeds complete: the register holds what its descriptor's
bits, its paragraph or the null selector give, the stack mask follows SS, a pop installs the new ESP with it, LES and its like write
their general register, and nothing else changes. That a pop forms the new ESP before the load and LES and its like write after it
is log 5, the upper half of a register under a 16-bit size log 23. -/
def Obligations.SegmentLoadCompletes : Prop :=
  ∀ (i : Instr) (s t : State) (n : SegName) (sel : Sel), LoadsSeg s i n sel → SegLoads s n sel t →
    exec i s = .next (i.afterLoad s t) ∧
    t = { s with seg := s.seg.set n (t.seg.get n), stack := t.stack } ∧
    s.Holds n sel (t.seg.get n) ∧
    (n ≠ .ss → t.stack = s.stack) ∧
    (n = .ss → t.stack =
      if t.seg.ss.big then { mask := 0xFFFFFFFF, notmask := 0, big := true }
      else { mask := 0x0000FFFF, notmask := 0xFFFF0000, big := false })

/-- In protected mode the checks of R153 (SS) and R154 (DS, ES, FS, GS) fail in their order, each with its own fault, and leave
the register, ESP and the stack mask as they were; and a load with no failing check succeeds. The privilege check of the others is
spelled out in CPL, RPL and DPL. -/
def Obligations.SegmentLoadFaults : Prop :=
  (∀ (n : Level) (sel : Sel) (d : Desc), mayLoadDataSegment n sel d = true ↔
    d.kind = .seg (.code true true) ∨
      (((∃ w e, d.kind = .seg (.data w e)) ∨ d.kind = .seg (.code false true)) ∧ n ≤ d.dpl ∧
        sel.extractLsb' 0 2 ≤ d.dpl)) ∧
  ∀ (i : Instr) (s : State) (n : SegName) (sel : Sel), LoadsSeg s i n sel → s.unchecked = false →
    s.canLookup sel = true →
    (∀ f, s.segFault n sel = some f → exec i s = .next (s.takeFault f)) ∧
    (s.segFault n sel = none → ∃ t, SegLoads s n sel t)

/-! ## Descriptor-table instructions (41_segment_loading.md) -/

/-- LLDT, LTR, LAR, LSL, VERR, VERW and ARPL raise #UD in real and V86 mode. -/
def Obligations.ProtectedModeOnlyInstructions : Prop :=
  ∀ (s : State) (p : List Pfx) (x : RmOp) (r : Gpr), s.unchecked = true →
    exec (.lldt p x) s = .next (s.takeFault .ud) ∧ exec (.ltr p x) s = .next (s.takeFault .ud) ∧
    exec (.lar p r x) s = .next (s.takeFault .ud) ∧ exec (.lsl p r x) s = .next (s.takeFault .ud) ∧
    exec (.verr p x) s = .next (s.takeFault .ud) ∧ exec (.verw p x) s = .next (s.takeFault .ud) ∧
    exec (.arpl p x r) s = .next (s.takeFault .ud)

/-- The privileged instructions raise `PrivFault` at CPL > 0, before any memory access: #UD or #GP(0) as the parameter says. In
V86 mode (CPL 3) LLDT and LTR have raised #UD already. -/
def Obligations.PrivilegeGate : Prop :=
  ∀ (s : State) (p : List Pfx) (x : RmOp) (m : MemOp) (n : BitVec 3) (r : Gpr), s.pe = true → s.cpl ≠ 0 →
    (s.privFault = match s.params.privAccessFault with | .ud => .ud | .gp0 => .gp 0) ∧
    (s.vm = false → exec (.lldt p x) s = .next (s.takeFault s.privFault) ∧
      exec (.ltr p x) s = .next (s.takeFault s.privFault)) ∧
    exec (.lgdt p m) s = .next (s.takeFault s.privFault) ∧ exec (.lidt p m) s = .next (s.takeFault s.privFault) ∧
    exec (.movFromDr p n r) s = .next (s.takeFault s.privFault) ∧
    exec (.movToDr p n r) s = .next (s.takeFault s.privFault) ∧
    (n = 0 ∨ n = 2 ∨ n = 3 ∨ n = 4 → exec (.movFromCr p n r) s = .next (s.takeFault s.privFault) ∧
      exec (.movToCr p n r) s = .next (s.takeFault s.privFault))

/-- LLDT: the mode and privilege gates; then the null selector, the checks in their order, and LDTR loaded. -/
def Obligations.LldtFollowsItsRule : Prop :=
  ∀ (s : State) (p : List Pfx) (x : RmOp) (sel : Sel),
    (s.unchecked = true → exec (.lldt p x) s = .next (s.takeFault .ud)) ∧
    (s.unchecked = false → s.cpl ≠ 0 → exec (.lldt p x) s = .next (s.takeFault s.privFault)) ∧
    (s.unchecked = false → s.cpl = 0 → s.canReadRm p x = true → s.rm16 p x = sel →
    (isNull sel = true → exec (.lldt p x) s = .next { s with
      ldtr := { sel := sel, base := 0, limit := 0, valid := false }, eip := s.nextEip (.lldt p x) }) ∧
    (isNull sel = false → selTi sel = true → exec (.lldt p x) s = .next (s.takeFault (.gp (errSel sel)))) ∧
    (isNull sel = false → selTi sel = false → s.canLookup sel = true →
      (s.lookup sel = none → exec (.lldt p x) s = .next (s.takeFault (.gp (errSel sel)))) ∧
      (∀ d, s.lookup sel = some d → d.kind ≠ .ldt → exec (.lldt p x) s = .next (s.takeFault (.gp (errSel sel)))) ∧
      (∀ d, s.lookup sel = some d → d.kind = .ldt → d.present = false →
        exec (.lldt p x) s = .next (s.takeFault (.np (errSel sel)))) ∧
      (∀ d, s.lookup sel = some d → d.kind = .ldt → d.present = true →
        exec (.lldt p x) s = .next { s with
          ldtr := { sel := sel, base := d.base, limit := d.limit, valid := true }, eip := s.nextEip (.lldt p x) })))

/-- LTR: the mode and privilege gates; then the checks in their order, the refusal of a 286 TSS, and TR loaded with the
descriptor's Busy bit set. -/
def Obligations.LtrFollowsItsRule : Prop :=
  ∀ (s : State) (p : List Pfx) (x : RmOp) (sel : Sel),
    (s.unchecked = true → exec (.ltr p x) s = .next (s.takeFault .ud)) ∧
    (s.unchecked = false → s.cpl ≠ 0 → exec (.ltr p x) s = .next (s.takeFault s.privFault)) ∧
    (s.unchecked = false → s.cpl = 0 → s.Quiet → s.rm16 p x = sel →
    (isNull sel = true → exec (.ltr p x) s = .next (s.takeFault (.gp 0))) ∧
    (isNull sel = false →
      (selTi sel = true → exec (.ltr p x) s = .next (s.takeFault (.gp (errSel sel)))) ∧
      (selTi sel = false →
        (s.lookup sel = none → exec (.ltr p x) s = .next (s.takeFault (.gp (errSel sel)))) ∧
        (∀ d, s.lookup sel = some d →
          (d.kind = .tss286 → exec (.ltr p x) s = .next { s with refused := true }) ∧
          (d.kind ≠ .tss286 → d.kind ≠ .tss false →
            exec (.ltr p x) s = .next (s.takeFault (.gp (errSel sel)))) ∧
          (d.kind = .tss false → d.present = false → exec (.ltr p x) s = .next (s.takeFault (.np (errSel sel)))) ∧
          (d.kind = .tss false → d.present = true →
            exec (.ltr p x) s = .next { s.writeLin (s.busyAddr sel) 1 (s.readLin (s.busyAddr sel) 1 ||| 2) with
              tr := { sel := sel, base := d.base, limit := d.limit, valid := true,
                      iomap := if 0x67 ≤ d.limit.toNat then low16 (s.readLin (d.base + 0x66#32) 2) else 0 }
              eip := s.nextEip (.ltr p x) })))))

/-- LGDT and LIDT: the privilege gate; in real mode and at CPL 0 the limit, then the base, with 24 bits of it under a 16-bit
operand size. -/
def Obligations.LgdtAndLidtLoad : Prop :=
  ∀ (s : State) (p : List Pfx) (m : MemOp),
    (s.pe = true → s.cpl ≠ 0 → exec (.lgdt p m) s = .next (s.takeFault s.privFault) ∧
      exec (.lidt p m) s = .next (s.takeFault s.privFault)) ∧
    ((s.pe = false ∨ s.cpl = 0) → s.canRead false (s.linear p m) 2 = true →
    s.canRead false (s.linear p m + 2#32) 4 = true →
    let base := s.readLin (s.linear p m + 2#32) 4
    let t : TableReg :=
      { base := if s.opSize p then base else base &&& 0x00FFFFFF, limit := low16 (s.readLin (s.linear p m) 2) }
    exec (.lgdt p m) s = .next { s with gdtr := t, eip := s.nextEip (.lgdt p m) } ∧
    exec (.lidt p m) s = .next { s with idtr := t, eip := s.nextEip (.lidt p m) })

/-- SGDT and SIDT store the limit and the full base, in every mode. -/
def Obligations.SgdtAndSidtStore : Prop :=
  ∀ (s : State) (p : List Pfx) (m : MemOp), s.canWrite false (s.linear p m) 2 = true →
    s.canWrite false (s.linear p m + 2#32) 4 = true →
    exec (.sgdt p m) s = .next
      { ((s.writeLin (s.linear p m) 2 (s.gdtr.limit.setWidth 32)).writeLin (s.linear p m + 2#32) 4 s.gdtr.base) with
        eip := s.nextEip (.sgdt p m) } ∧
    exec (.sidt p m) s = .next
      { ((s.writeLin (s.linear p m) 2 (s.idtr.limit.setWidth 32)).writeLin (s.linear p m + 2#32) 4 s.idtr.base) with
        eip := s.nextEip (.sidt p m) }

/-- ARPL raises the destination's RPL to the source's, in a register or in memory, and sets ZF exactly when it did. That a memory
destination is written back in both cases is the model's (log 5), and so is the kept upper half of a register (log 23). -/
def Obligations.ArplAdjustsRpl : Prop :=
  ∀ (s : State) (p : List Pfx) (r : Gpr), s.unchecked = false →
    (∀ d, let dst := low16 (s.gpr.get d); let src := low16 (s.gpr.get r)
      exec (.arpl p (.reg d) r) s = .next
        { ((s.setGpr d false
            ((if selRpl dst < selRpl src then (dst &&& 0xFFFC) ||| (selRpl src).setWidth 16 else dst).setWidth 32)).withFlag
              bitZF (decide (selRpl dst < selRpl src))) with eip := s.nextEip (.arpl p (.reg d) r) }) ∧
    (∀ m, s.canRead s.user (s.linear p m) 2 = true → s.canWrite s.user (s.linear p m) 2 = true →
      let dst := low16 (s.readLin (s.linear p m) 2); let src := low16 (s.gpr.get r)
      exec (.arpl p (.mem m) r) s = .next
        { ((s.writeLin (s.linear p m) 2
            ((if selRpl dst < selRpl src then (dst &&& 0xFFFC) ||| (selRpl src).setWidth 16 else dst).setWidth 32)).withFlag
              bitZF (decide (selRpl dst < selRpl src))) with eip := s.nextEip (.arpl p (.mem m) r) })

/-- LAR: the mode gate; then a visible descriptor of a reported type gives its access rights and ZF 1; anything else ZF 0 and the register kept. -/
def Obligations.LarReports : Prop :=
  ∀ (s : State) (p : List Pfx) (r : Gpr) (x : RmOp) (sel : Sel),
    (s.unchecked = true → exec (.lar p r x) s = .next (s.takeFault .ud)) ∧
    (s.unchecked = false → s.canReadRm p x = true → s.rm16 p x = sel → (isNull sel = true ∨ s.canLookup sel = true) →
    (∀ d, isNull sel = false → s.lookup sel = some d →
      (d.hi.getLsbD 12 = true ∨ typeField d.hi ∈ [0x1, 0x2, 0x3, 0x4, 0x5, 0x9, 0xB, 0xC]) →
      (d.kind.isConforming = true ∨ (s.cpl ≤ d.dpl ∧ sel.extractLsb' 0 2 ≤ d.dpl)) →
      exec (.lar p r x) s = .next
        { ((s.withFlag bitZF true).setGpr r (s.opSize p)
            (if s.opSize p then d.hi &&& 0x00FFFF00 else d.hi &&& 0x0000FF00)) with eip := s.nextEip (.lar p r x) }) ∧
    ((isNull sel = true ∨ s.lookup sel = none ∨ ∃ d, s.lookup sel = some d ∧
        ((d.hi.getLsbD 12 = false ∧ typeField d.hi ∉ [0x1, 0x2, 0x3, 0x4, 0x5, 0x9, 0xB, 0xC]) ∨
          (d.kind.isConforming = false ∧ (d.dpl < s.cpl ∨ d.dpl < sel.extractLsb' 0 2)))) →
      exec (.lar p r x) s = .next { s.withFlag bitZF false with eip := s.nextEip (.lar p r x) }))

/-- LSL: the mode gate; then a visible descriptor of a type with a limit gives the scaled limit and ZF 1; anything else ZF 0 and the register kept. -/
def Obligations.LslReports : Prop :=
  ∀ (s : State) (p : List Pfx) (r : Gpr) (x : RmOp) (sel : Sel),
    (s.unchecked = true → exec (.lsl p r x) s = .next (s.takeFault .ud)) ∧
    (s.unchecked = false → s.canReadRm p x = true → s.rm16 p x = sel → (isNull sel = true ∨ s.canLookup sel = true) →
    (∀ d, isNull sel = false → s.lookup sel = some d →
      (d.hi.getLsbD 12 = true ∨ typeField d.hi ∈ [0x1, 0x2, 0x3, 0x9, 0xB]) →
      (d.kind.isConforming = true ∨ (s.cpl ≤ d.dpl ∧ sel.extractLsb' 0 2 ≤ d.dpl)) →
      exec (.lsl p r x) s = .next
        { ((s.withFlag bitZF true).setGpr r (s.opSize p) d.limit) with eip := s.nextEip (.lsl p r x) }) ∧
    ((isNull sel = true ∨ s.lookup sel = none ∨ ∃ d, s.lookup sel = some d ∧
        ((d.hi.getLsbD 12 = false ∧ typeField d.hi ∉ [0x1, 0x2, 0x3, 0x9, 0xB]) ∨
          (d.kind.isConforming = false ∧ (d.dpl < s.cpl ∨ d.dpl < sel.extractLsb' 0 2)))) →
      exec (.lsl p r x) s = .next { s.withFlag bitZF false with eip := s.nextEip (.lsl p r x) }))

/-- VERR and VERW: the mode gate; then they set ZF exactly when the selector names a segment the level may read, or write, and
nothing else changes. -/
def Obligations.VerrAndVerwReport : Prop :=
  ∀ (s : State) (p : List Pfx) (x : RmOp) (sel : Sel),
    (s.unchecked = true → exec (.verr p x) s = .next (s.takeFault .ud) ∧ exec (.verw p x) s = .next (s.takeFault .ud)) ∧
    (s.unchecked = false → s.canReadRm p x = true → s.rm16 p x = sel → (isNull sel = true ∨ s.canLookup sel = true) →
    ∃ r w : Bool,
      exec (.verr p x) s = .next { s.withFlag bitZF r with eip := s.nextEip (.verr p x) } ∧
      exec (.verw p x) s = .next { s.withFlag bitZF w with eip := s.nextEip (.verw p x) } ∧
      (r = true ↔ isNull sel = false ∧ ∃ d, s.lookup sel = some d ∧
        (d.kind = .seg (.code true true) ∨
          ((d.kind = .seg (.code false true) ∨ ∃ wr e, d.kind = .seg (.data wr e)) ∧
            s.cpl ≤ d.dpl ∧ sel.extractLsb' 0 2 ≤ d.dpl))) ∧
      (w = true ↔ isNull sel = false ∧ ∃ d, s.lookup sel = some d ∧ (∃ e, d.kind = .seg (.data true e)) ∧
        s.cpl ≤ d.dpl ∧ sel.extractLsb' 0 2 ≤ d.dpl))

/-! ## System registers and flags (45_system_registers.md) -/

/-- MOV to and from CR: #UD for a register that does not exist, before any other check; then the privilege gate; #GP(0) for PG
without PE; else the register
written, the `Mmu` told of PG and of the page-directory base, or the whole register read; nothing else changes. -/
def Obligations.MovCrFollowsItsRules : Prop :=
  ∀ (s : State) (p : List Pfx) (n : BitVec 3) (r : Gpr) (v next : Word), s.gpr.get r = v →
    s.nextEip (.movToCr p n r) = next →
    (n = 1 ∨ n = 5 ∨ n = 6 ∨ n = 7 → exec (.movToCr p n r) s = .next (s.takeFault .ud) ∧
      exec (.movFromCr p n r) s = .next (s.takeFault .ud)) ∧
    (n = 0 ∨ n = 2 ∨ n = 3 ∨ n = 4 → (s.vm = true ∨ (s.pe = true ∧ s.cpl ≠ 0)) →
      exec (.movToCr p n r) s = .next (s.takeFault s.privFault) ∧
      exec (.movFromCr p n r) s = .next (s.takeFault s.privFault)) ∧
    (s.vm = false → (s.pe = false ∨ s.cpl = 0) →
      (n = 0 → v.getLsbD 31 = true → v.getLsbD 0 = false → exec (.movToCr p n r) s = .next (s.takeFault (.gp 0))) ∧
      (n = 0 → (v.getLsbD 31 = false ∨ v.getLsbD 0 = true) →
        exec (.movToCr p n r) s = .next { s with
          cr0 := v
          mmu := if v.getLsbD 31 = s.cr0.getLsbD 31 then s.mmu else { s.mmu with paging := v.getLsbD 31 }
          eip := next }) ∧
      (n = 2 → exec (.movToCr p n r) s = .next { s with cr2 := v, eip := next }) ∧
      (n = 3 → exec (.movToCr p n r) s = .next { s with cr3 := v, mmu := { s.mmu with pdb := v }, eip := next }) ∧
      (n = 4 → exec (.movToCr p n r) s = .next { s with cr4 := v, eip := next }) ∧
      (∀ u, (n = 0 ∧ u = s.cr0 ∨ n = 2 ∧ u = s.cr2 ∨ n = 3 ∧ u = s.cr3 ∨ n = 4 ∧ u = s.cr4) →
        exec (.movFromCr p n r) s = .next { s with gpr := s.gpr.set r u, eip := s.nextEip (.movFromCr p n r) }))

/-- MOV to and from DR: the privilege gate; then all 32 bits, DR4 and DR5 being DR6 and DR7; the other debug registers keep
their values, and nothing else changes. -/
def Obligations.MovDrMoves : Prop :=
  ∀ (s : State) (p : List Pfx) (n : BitVec 3) (r : Gpr),
    ((s.vm = true ∨ (s.pe = true ∧ s.cpl ≠ 0)) → exec (.movToDr p n r) s = .next (s.takeFault s.privFault) ∧
      exec (.movFromDr p n r) s = .next (s.takeFault s.privFault)) ∧
    (s.vm = false → (s.pe = false ∨ s.cpl = 0) →
    let k := if n = 4 then 6 else if n = 5 then 7 else n
    exec (.movToDr p n r) s = .next { s with dr := s.dr.set k (s.gpr.get r), eip := s.nextEip (.movToDr p n r) } ∧
    exec (.movFromDr p n r) s = .next
      { s with gpr := s.gpr.set r (s.dr.get k), eip := s.nextEip (.movFromDr p n r) } ∧
    (s.dr.set k (s.gpr.get r)).get n = s.gpr.get r ∧
    (∀ m, (if m = 4 then 6 else if m = 5 then 7 else m) ≠ k → (s.dr.set k (s.gpr.get r)).get m = s.dr.get m))

/-- CLI and STI: #GP(0) when I/O is not permitted; else IF alone is written. I/O is permitted in V86 mode at IOPL 3, and outside it at
a CPL no greater than IOPL. -/
def Obligations.CliAndSti : Prop :=
  (∀ (n iopl : Level) (vm : Bool), ioPermitted n iopl vm = true ↔ (vm = true ∧ iopl = 3) ∨ (vm = false ∧ n ≤ iopl)) ∧
  ∀ (s : State) (p : List Pfx),
    (ioPermitted s.cpl s.iopl s.vm = false →
      exec (.cli p) s = .next (s.takeFault (.gp 0)) ∧ exec (.sti p) s = .next (s.takeFault (.gp 0))) ∧
    (ioPermitted s.cpl s.iopl s.vm = true → eflagsWrite s.eflags = s.eflags →
      exec (.cli p) s = .next { s with eflags := s.eflags &&& ~~~0x200#32, eip := s.nextEip (.cli p) } ∧
      exec (.sti p) s = .next { s with eflags := s.eflags ||| 0x200#32, eip := s.nextEip (.sti p) })

/-- PUSHF: #GP(0) in V86 mode unless IOPL is 3; else the flags are pushed, VM and RF reading 0 in a 32-bit image. -/
def Obligations.PushfPushes : Prop :=
  ∀ (s : State) (p : List Pfx),
    (s.vm = true → s.iopl ≠ 3 → exec (.pushf p) s = .next (s.takeFault (.gp 0))) ∧
    ((s.vm = true → s.iopl = 3) →
      s.canWrite s.user (s.stackAddr (s.gpr.esp - BitVec.ofNat 32 (widthBytes (s.opSize p))))
        (widthBytes (s.opSize p)) = true →
      exec (.pushf p) s = .next
        { (if s.opSize p then s.pushed 4 (s.eflags &&& ~~~0x00030000#32) else s.pushed 2 s.eflags) with
          eip := s.nextEip (.pushf p) })

/-- POPF: #GP(0) in V86 mode unless IOPL is 3; else the popped value is merged by the CPL and IOPL before it, and VM and RF keep
their values, IOPL too but at CPL 0, IF too when IOPL < CPL. -/
def Obligations.PopfMerges : Prop :=
  ∀ (s : State) (p : List Pfx),
    (s.vm = true → s.iopl ≠ 3 → exec (.popf p) s = .next (s.takeFault (.gp 0))) ∧
    ((s.vm = true → s.iopl = 3) → s.canPeek 0#32 (widthBytes (s.opSize p)) = true →
      let t := { ((s.setEsp (s.gpr.esp + BitVec.ofNat 32 (widthBytes (s.opSize p)))).mergeFlags
            (s.peek 0#32 (widthBytes (s.opSize p))) (s.opSize p)) with eip := s.nextEip (.popf p) }
      exec (.popf p) s = .next t ∧ t.eflags &&& 0x00030000 = s.eflags &&& 0x00030000 ∧ (s.cpl ≠ 0 → t.iopl = s.iopl) ∧
        (s.iopl < s.cpl → t.ifl = s.ifl))

/-- `MergeFlags`: the table of R225 is `CPL ? NORMAL|NT : ALL` without IF when IOPL < CPL, and the reserved bits are normalised;
so VM, RF, VIF and VIP keep their values, IOPL changes only at CPL 0 and IF only when CPL ≤ IOPL. -/
def Obligations.MergeFlagsFollowsTheTable : Prop :=
  ∀ (s : State) (fl : Word) (wide : Bool),
    let mask := (if s.cpl = 0 then maskAll else maskNormal ||| 0x00004000) &&&
      ~~~(if s.iopl < s.cpl then 0x00000200#32 else 0) &&& (if wide then 0xFFFFFFFF else 0x0000FFFF)
    s.mergeFlags fl wide =
      { s with eflags := (((s.eflags &&& ~~~mask) ||| (fl &&& mask)) &&& 0x003F7FD5) ||| 0x00000002 } ∧
    (s.mergeFlags fl wide).eflags &&& 0x001B0000 = s.eflags &&& 0x001B0000 ∧
    (s.cpl ≠ 0 → (s.mergeFlags fl wide).iopl = s.iopl) ∧
    (s.iopl < s.cpl → (s.mergeFlags fl wide).ifl = s.ifl)

/-! ## Far transfers (42_control_transfer.md) -/

/-- In real and V86 mode far JMP, CALL and RET are unchecked: the selector times 16 becomes the CS base, CPL stays, CALL pushes CS
and the next EIP, RET pops them and releases its operand. What the unchecked load leaves in each register is spelled out. -/
def Obligations.UncheckedTransfers : Prop :=
  ∀ (i : Instr) (s : State), s.unchecked = true →
    (∀ n sel, FromParagraph s.vm n sel (s.seg.get n) ((s.loadSegReal n sel).seg.get n)) ∧
    (∀ sel off wide, JumpsTo s i sel off wide →
      exec i s = .next { s.loadSegReal .cs sel with eip := if wide then off else off &&& 0xFFFF }) ∧
    (∀ sel off wide, CallsTo s i sel off wide → s.Quiet →
      let w := if wide then 4 else 2
      exec i s = .next { (((s.pushed w (selWord s.seg.cs.sel)).pushed w (s.nextEip i)).loadSegReal .cs sel) with
        eip := if wide then off else off &&& 0xFFFF }) ∧
    (∀ imm wide, Returns s i imm wide → s.Quiet →
      let w := if wide then 4 else 2
      let s1 := s.setEsp (s.gpr.esp + BitVec.ofNat 32 w)
      let s2 := s1.setEsp (s1.gpr.esp + BitVec.ofNat 32 w)
      let s3 := s2.setEsp (s2.gpr.esp + imm.setWidth 32)
      let eip := s.peek 0#32 w
      exec i s = .next { s3.loadSegReal .cs (low16 (s1.peek 0#32 w)) with
        eip := if wide then eip else eip &&& 0xFFFF })

/-- A far JMP to code that `may_jump` allows, directly or through a call gate, loads CS and EIP and keeps the level and the stack;
through a gate the offset is the gate's. Code that it does not allow is #GP, code that is not present #NP. CS then holds what the
descriptor's bits give, with the RPL of the level. What two words of a descriptor decode to, of every kind, and where a lookup finds
them, is spelled out. -/
def Obligations.JumpCompletes : Prop :=
  (∀ lo hi : Word, DecodesTo lo hi (decodeDesc lo hi)) ∧
  (∀ (s : State) (sel : Sel),
    let a := (if sel.getLsbD 2 then s.ldtr.base else s.gdtr.base) + BitVec.ofNat 32 ((sel.extractLsb' 3 13).toNat * 8)
    s.descAddr sel = a ∧
    s.lookup sel =
      if (if sel.getLsbD 2 then s.ldtr.valid = true ∧ (sel.extractLsb' 3 13).toNat * 8 + 7 ≤ s.ldtr.limit.toNat
        else (sel.extractLsb' 3 13).toNat * 8 + 7 ≤ s.gdtr.limit.toNat)
      then some (decodeDesc (s.readLin a 4) (s.readLin (a + 4#32) 4)) else none) ∧
  ∀ (i : Instr) (s : State) (sel : Sel) (off : Word) (wide : Bool), JumpsTo s i sel off wide → s.unchecked = false →
    isNull sel = false → s.canLookup sel = true →
    (∀ d, s.lookup sel = some d → d.kind.isCode = true →
      (mayJump s.cpl sel d = false → exec i s = .next (s.takeFault (.gp (errSel sel)))) ∧
      (mayJump s.cpl sel d = true → d.present = false → exec i s = .next (s.takeFault (.np (errSel sel)))) ∧
      (mayJump s.cpl sel d = true → d.present = true →
        exec i s = .next { s.installCs sel d s.cpl with eip := if wide then off else off &&& 0xFFFF })) ∧
    (∀ g c, GoodGate s sel g → s.canLookup g.gateSel = true → GoodTarget s g.gateSel c →
      (c.kind.isConforming = true ∨ c.dpl = s.cpl) →
      exec i s = .next { s.installCs g.gateSel c s.cpl with eip := g.gateOff }) ∧
    (∀ cs d, s.lookup cs = some d →
      d.kind.isCode = true → FromDescriptor (s.readLin (s.descAddr cs) 4) (s.readLin (s.descAddr cs + 4#32) 4)
        ((cs &&& 0xFFFC) ||| s.cpl.setWidth 16) (s.installCs cs d s.cpl).seg.cs)

/-- A far CALL to conforming code or to code of the same level, directly or through a call gate, pushes CS and the next EIP on the
current stack and keeps the level. -/
def Obligations.SameLevelCallCompletes : Prop :=
  ∀ (i : Instr) (s : State) (sel : Sel) (off : Word) (wide : Bool), CallsTo s i sel off wide → s.unchecked = false →
    s.Quiet → isNull sel = false →
    (∀ d, s.lookup sel = some d → d.kind.isCode = true → mayCall s.cpl sel d = true → d.present = true →
      (d.kind.isConforming = true ∨ d.dpl = s.cpl) →
      exec i s = .next
        (s.sameLevelCalled sel d (if wide then off else off &&& 0xFFFF) (if wide then 4 else 2) (s.nextEip i))) ∧
    (∀ g c, GoodGate s sel g → GoodTarget s g.gateSel c → (c.kind.isConforming = true ∨ c.dpl = s.cpl) →
      exec i s = .next (s.sameLevelCalled g.gateSel c g.gateOff 4 (s.nextEip i)))

/-- A far CALL to more privileged non-conforming code, directly or through a call gate, moves to the stack of the new level in the
TSS: old SS and ESP, the gate's parameters in their order, old CS and the next EIP are pushed there, and CPL is the target's
DPL. -/
def Obligations.InterLevelCallCompletes : Prop :=
  ∀ (i : Instr) (s : State) (sel : Sel) (off : Word) (wide : Bool), CallsTo s i sel off wide → s.unchecked = false →
    s.Quiet → isNull sel = false →
    (∀ d sd, s.lookup sel = some d → d.kind.isCode = true → mayCall s.cpl sel d = true → d.present = true →
      d.kind.isConforming = false → d.dpl < s.cpl → s.hasLevelStack d.dpl = true →
      GoodStack s (s.levelStack d.dpl).1 d.dpl sd →
      exec i s = .next (s.interLevelCalled sel d (if wide then off else off &&& 0xFFFF) (if wide then 4 else 2)
        (s.levelStack d.dpl) sd [] (s.nextEip i))) ∧
    (∀ g c sd, GoodGate s sel g → GoodTarget s g.gateSel c → c.kind.isConforming = false → c.dpl < s.cpl →
      s.hasLevelStack c.dpl = true → GoodStack s (s.levelStack c.dpl).1 c.dpl sd →
      exec i s = .next (s.interLevelCalled g.gateSel c g.gateOff 4 (s.levelStack c.dpl) sd
        (s.params32 g.paramCount.toNat) (s.nextEip i)))

/-- A far RET in protected mode: the checks of the popped CS fail in their order; a return to the same level releases the two slots
and the operand; one to an outer level checks the popped SS, as #GP (#SS for one not present), also loads SS and ESP, releases
the operand on both stacks, and makes null the data segments the new level may not keep: the loaded data or non-conforming code
of a lower DPL. The privilege check of CS is spelled out in CPL, RPL and DPL. -/
def Obligations.FarReturnFollowsItsRule : Prop :=
  (∀ (n : Level) (sel : Sel) (d : Desc) (conforming readable : Bool), d.kind = .seg (.code conforming readable) →
    (mayReturn n sel d = true ↔ n ≤ sel.extractLsb' 0 2 ∧
      if conforming then d.dpl ≤ sel.extractLsb' 0 2 else d.dpl = sel.extractLsb' 0 2)) ∧
  ∀ (i : Instr) (s : State) (imm : BitVec 16) (wide : Bool) (cs nss : Sel), Returns s i imm wide →
    s.unchecked = false → s.Quiet →
    let w := if wide then 4 else 2
    let eip := if wide then s.peek 0#32 4 else s.peek 0#32 2 &&& 0xFFFF
    cs = low16 (s.peek (BitVec.ofNat 32 w) w) → nss = low16 (s.peek (BitVec.ofNat 32 (3 * w) + imm.setWidth 32) w) →
    (∀ f, s.returnFault cs = some f → exec i s = .next (s.takeFault f)) ∧
    (∀ d, GoodReturn s cs d →
      (selRpl cs = s.cpl →
        exec i s = .next
          { ((s.setEsp (s.gpr.esp + BitVec.ofNat 32 (2 * w) + imm.setWidth 32)).installCs cs d s.cpl) with eip := eip }) ∧
      (s.cpl < selRpl cs → ∀ f, s.newSsFault nss (selRpl cs) .gp = some f → exec i s = .next (s.takeFault f)) ∧
      (s.cpl < selRpl cs → ∀ sd, GoodStack s nss (selRpl cs) sd →
        let nesp := s.peek (BitVec.ofNat 32 (2 * w) + imm.setWidth 32) w
        let t := ((s.installCs cs d (selRpl cs)).installSeg .ss nss sd).loadEsp (if wide then nesp else nesp &&& 0xFFFF)
        exec i s = .next
          (({ (t.setEsp (t.gpr.esp + imm.setWidth 32)) with eip := eip }).invalidateDataSegs (selRpl cs)))) ∧
    (∀ (u : State) (k : Level) (n : SegName), n = .es ∨ n = .fs ∨ n = .gs ∨ n = .ds →
      let old := u.seg.get n
      (u.invalidateDataSegs k).seg.get n =
        if old.valid = true ∧ (∀ rd, old.kind ≠ .code true rd) ∧ old.dpl < k then
          { sel := 0, base := 0, limit := 0, big := false, valid := false, dpl := 0, kind := .data false false }
        else old)

/-- The checks of a far JMP's or CALL's target fail in their order, each with the fault keyed to the failing selector. The privilege
checks of a JMP, of a CALL, and of a gate or TSS are spelled out in CPL, RPL and DPL. -/
def Obligations.TransferFaults : Prop :=
  (∀ (n : Level) (sel : Sel) (d : Desc),
    (∀ conforming readable, d.kind = .seg (.code conforming readable) →
      (mayJump n sel d = true ↔ if conforming then d.dpl ≤ n else sel.extractLsb' 0 2 ≤ n ∧ d.dpl = n) ∧
      (mayCall n sel d = true ↔ if conforming then d.dpl ≤ n else sel.extractLsb' 0 2 ≤ n ∧ d.dpl ≤ n)) ∧
    (gateOk n sel d = true ↔ n ≤ d.dpl ∧ sel.extractLsb' 0 2 ≤ d.dpl)) ∧
  ∀ (i : Instr) (s : State) (sel : Sel) (off : Word) (wide : Bool) (f : FaultCode), s.unchecked = false → s.Quiet →
    (JumpsTo s i sel off wide → s.transferFault true sel = some f → exec i s = .next (s.takeFault f)) ∧
    (CallsTo s i sel off wide → s.transferFault false sel = some f → exec i s = .next (s.takeFault f))

/-- The checks of the CS popped by IRET in protected mode fail in their order; with a good CS of an outer level, the checks of the
popped SS, as #GP, or #SS for one not present. -/
def Obligations.IretFaults : Prop :=
  ∀ (s : State) (f : FaultCode) (p : List Pfx), s.unchecked = false → s.Quiet → s.nt = false →
    let wide := s.opSize p
    let w := if wide then 4 else 2
    let cs := low16 (s.peek (BitVec.ofNat 32 w) w)
    ¬ (wide = true ∧ (s.peek 8#32 4).getLsbD bitVM = true ∧ s.cpl = 0) →
    (s.returnFault cs = some f → exec (.iret p) s = .next (s.takeFault f)) ∧
    (s.returnFault cs = none → selRpl cs ≠ s.cpl →
      s.newSsFault (low16 (s.peek (BitVec.ofNat 32 (4 * w)) w)) (selRpl cs) .gp = some f →
      exec (.iret p) s = .next (s.takeFault f))

/-- A transfer to a more privileged level for which the TSS gives no good stack raises #TS, or #SS for a stack segment that is not
present: the direct far CALL, the call gate, the interrupt gate. -/
def Obligations.NoStackForTheLevel : Prop :=
  ∀ (i : Instr) (s : State) (c : Desc) (f : FaultCode), s.Quiet → s.levelStackFault c.dpl = some f →
    c.kind.isConforming = false → c.dpl < s.cpl →
    (∀ sel off wide, CallsTo s i sel off wide → s.unchecked = false → isNull sel = false →
      ((s.lookup sel = some c ∧ c.kind.isCode = true ∧ mayCall s.cpl sel c = true ∧ c.present = true) ∨
        ∃ g, GoodGate s sel g ∧ GoodTarget s g.gateSel c) →
      exec i s = .next (s.takeFault f)) ∧
    (∀ v tag err ret, Interrupts s i s v tag err ret → tag ≠ .exception → GateEntry s v tag c →
      (s.vm = true → c.dpl = 0) → exec i s = .next (s.takeFault f))

/-! ## Interrupts and IRET (43_interrupts.md) -/

/-- In real mode every interrupt and exception goes through the vector table: FLAGS, CS and IP pushed as 16-bit slots, no error
code, IF and TF cleared. -/
def Obligations.RealModeInterrupt : Prop :=
  ∀ (i : Instr) (s s0 : State) (v : BitVec 8) (tag : IntTag) (err : Option Word) (ret : Word),
    Interrupts s i s0 v tag err ret → s.pe = false → s.Quiet → exec i s = .next (s0.realDelivered v ret)

/-- Through an interrupt or trap gate to conforming code or code of the same level: EFLAGS, CS, the return EIP and the error code
are pushed on the current stack; then TF, NT, RF and VM are cleared, and IF by an interrupt gate only. -/
def Obligations.SameLevelInterrupt : Prop :=
  ∀ (i : Instr) (s s0 : State) (v : BitVec 8) (tag : IntTag) (err : Option Word) (ret : Word) (c : Desc),
    Interrupts s i s0 v tag err ret → s.Quiet → GateEntry s v tag c → s.vm = false →
    (c.kind.isConforming = true ∨ c.dpl = s.cpl) →
    exec i s = .next (((s0.pushedFlags err ret).installCs (s.idtGate v).gateSel c s.cpl).entered (s.idtGate v))

/-- Through an interrupt or trap gate to more privileged non-conforming code: the stack of the new level from the TSS, with (from
V86 mode) GS, FS, DS and ES, then SS, ESP, EFLAGS, CS, EIP and the error code pushed there, and from V86 mode the data segments
made null. -/
def Obligations.InterLevelInterrupt : Prop :=
  ∀ (i : Instr) (s s0 : State) (v : BitVec 8) (tag : IntTag) (err : Option Word) (ret : Word) (c sd : Desc),
    Interrupts s i s0 v tag err ret → s.Quiet → GateEntry s v tag c → c.kind.isConforming = false → c.dpl < s.cpl →
    (s.vm = true → c.dpl = 0) → s.hasLevelStack c.dpl = true → GoodStack s (s.levelStack c.dpl).1 c.dpl sd →
    let t := (s0.enterStack (s.levelStack c.dpl).1 sd (s.levelStack c.dpl).2 c.dpl).pushedFrame s0 err ret
    let t := if s.vm then t.nullDataSegs else t
    exec i s = .next ((t.installCs (s.idtGate v).gateSel c c.dpl).entered (s.idtGate v))

/-- Outside real mode the checks of an interrupt that is no exception's delivery fail in their order: IOPL in V86 mode, the IDT limit,
the gate's kind, its DPL for a software interrupt, its present bit, then the target. That INT3 and INTO meet the IOPL check as INT
does is the model's reading (log 11). -/
def Obligations.InterruptFaults : Prop :=
  ∀ (i : Instr) (s : State) (v : BitVec 8) (tag : IntTag) (err : Option Word) (ret : Word) (f : FaultCode),
    Interrupts s i s v tag err ret → tag ≠ .exception → s.pe = true → s.Quiet →
    (s.idtFault v tag = some f → exec i s = .next (s.takeFault f)) ∧
    (s.idtFault v tag = none → ((s.idtGate v).kind = .interruptGate ∨ (s.idtGate v).kind = .trapGate) →
      (s.gateTargetFault (s.idtGate v).gateSel = some f → exec i s = .next (s.takeFault f)) ∧
      (∀ c, GoodTarget s (s.idtGate v).gateSel c → s.vm = true →
        (c.kind.isConforming = true ∨ c.dpl ≠ 0) →
        exec i s = .next (s.takeFault (.gp (errSel (s.idtGate v).gateSel)))))

/-- Outside real mode a fault raised while a fault is delivered, before a task switch of the delivery commits, is handled as
`NESTED_FAULT_POLICY` says: one of a check of the IDT entry, of the target code, of the stack of its level, of the task behind a task
gate, or the `Mmu`'s on the read of the IDT entry. That the new fault returns where the first one did, and that the `Mmu`'s address
still goes to CR2, is the model's reading (log 10). -/
def Obligations.NestedFaultFollowsThePolicy : Prop :=
  ∀ (s : State) (f : PendingFault) (f2 : FaultCode), s.pendingFault = some f → s.pe = true →
    DeliveryFault s f.vector f2 →
    (s.params.nestedFaultPolicy = .redeliver →
      exec .exceptionDelivery s = .next { s with
        pendingFault := some
          { vector := f2.vector, hasError := f2.hasError, errorCode := f2.errorCode, returnEip := f.returnEip }
        cr2 := f2.cr2.getD s.cr2 }) ∧
    (s.params.nestedFaultPolicy = .doubleFault → f.vector ≠ 8 →
      exec .exceptionDelivery s = .next { s with
        pendingFault := some { vector := 8, hasError := true, errorCode := 0, returnEip := f.returnEip }
        cr2 := f2.cr2.getD s.cr2 }) ∧
    (s.params.nestedFaultPolicy = .doubleFault → f.vector = 8 →
      exec .exceptionDelivery s = .fault .nestedFaultStop) ∧
    (s.params.nestedFaultPolicy = .stop → exec .exceptionDelivery s = .fault .nestedFaultStop)

/-- INTO with OF 0 only advances EIP: the model's, since no rule says what it does (log 24). IRET in real mode, and in V86 mode with
IOPL 3, pops EIP, CS and the flags; in V86 mode with another IOPL it raises #GP(0). -/
def Obligations.UncheckedIretAndInto : Prop :=
  (∀ (s : State) (p : List Pfx), s.ofl = false → exec (.into p) s = .next { s with eip := s.nextEip (.into p) }) ∧
  ∀ (s : State) (p : List Pfx), s.unchecked = true →
    (s.pe = true → s.iopl ≠ 3 → exec (.iret p) s = .next (s.takeFault (.gp 0))) ∧
    ((s.pe = true → s.iopl = 3) → s.Quiet →
      let wide := s.opSize p
      let w := if wide then 4 else 2
      let s1 := s.setEsp (s.gpr.esp + BitVec.ofNat 32 w)
      let s2 := s1.setEsp (s1.gpr.esp + BitVec.ofNat 32 w)
      let s3 := s2.setEsp (s2.gpr.esp + BitVec.ofNat 32 w)
      let eip := s.peek 0#32 w
      exec (.iret p) s = .next
        (({ s3.loadSegReal .cs (low16 (s1.peek 0#32 w)) with eip := if wide then eip else eip &&& 0xFFFF }).mergeFlags
          (s2.peek 0#32 w) wide))

/-- IRET in protected mode with NT 0: to the same level it releases the three slots; to an outer level it also loads SS and ESP and
makes null the data segments the new level may not keep. The flags are merged by the old CPL and IOPL. -/
def Obligations.IretCompletes : Prop :=
  ∀ (s : State) (p : List Pfx) (cs : Sel) (d : Desc), s.unchecked = false → s.nt = false → s.Quiet →
    let wide := s.opSize p
    let w := if wide then 4 else 2
    let eip := if wide then s.peek 0#32 4 else s.peek 0#32 2 &&& 0xFFFF
    let fl := s.peek (BitVec.ofNat 32 (2 * w)) w
    ¬ (wide = true ∧ fl.getLsbD bitVM = true ∧ s.cpl = 0) → cs = low16 (s.peek (BitVec.ofNat 32 w) w) →
    GoodReturn s cs d →
    (selRpl cs = s.cpl →
      exec (.iret p) s = .next
        (({ ((s.setEsp (s.gpr.esp + BitVec.ofNat 32 (3 * w))).installCs cs d s.cpl) with eip := eip }).mergeFlags fl wide)) ∧
    (∀ nss sd, s.cpl < selRpl cs → nss = low16 (s.peek (BitVec.ofNat 32 (4 * w)) w) → GoodStack s nss (selRpl cs) sd →
      let nesp := s.peek (BitVec.ofNat 32 (3 * w)) w
      exec (.iret p) s = .next
        (({ (((s.mergeFlags fl wide).installCs cs d (selRpl cs)).installSeg .ss nss sd).loadEsp
            (if wide then nesp else nesp &&& 0xFFFF) with eip := eip }).invalidateDataSegs (selRpl cs)))

/-- A 32-bit IRET at CPL 0 whose popped EFLAGS has VM set goes to V86 mode: all of EFLAGS but the reserved bits, the six segment
registers unchecked, ESP, a 16-bit EIP and CPL 3. -/
def Obligations.IretToV86Completes : Prop :=
  ∀ (s : State) (p : List Pfx), s.unchecked = false → s.nt = false → s.cpl = 0 → s.opSize p = true → s.Quiet →
    (s.peek 8#32 4).getLsbD bitVM = true →
    exec (.iret p) s = .next
      { (((s.withEflags (s.peek 8#32 4)).loadV86Segs (low16 (s.peek 4#32 4)) (low16 (s.peek 16#32 4))
          (low16 (s.peek 24#32 4)) (low16 (s.peek 20#32 4)) (low16 (s.peek 28#32 4)) (low16 (s.peek 32#32 4))).loadEsp
            (s.peek 12#32 4)) with
        eip := s.peek 0#32 4 &&& 0xFFFF
        cpl := 3 }

/-! ## Task switches (44_task_switch.md) -/

/-- A far JMP or CALL to a TSS or a task gate, and an IRET with NT set, that meet the checks switch tasks: the old task is saved in
its TSS, Busy bits and back-link are written, the registers are the new task's, and a fault after that is the new task's: which one
is the next statement's. That JMP and IRET write the Busy byte of TR.sel with no lookup, beyond the GDT's limit too, is the model's
(log 22). -/
def Obligations.TaskSwitchEnters : Prop :=
  ∀ (i : Instr) (s : State) (tss : Sel) (mode : SwitchMode) (ret : Word) (d : Desc), Switches s i tss mode ret →
    SwitchTarget s tss mode d → s.Quiet → s.pendingFault = none →
    ∃ t, exec i s = .next t ∧ Switched s t tss d mode ret

/-- When every segment load of the new task succeeds, LDTR first, then CS, SS, DS, ES, FS and GS, the switch ends in exactly that
state. When one fails, the fault is the new task's, #TS, #NP or #SS as its first failing check says, the loads before it are kept,
and the segment registers it leaves unloaded are not valid. The state holds the write of TR.sel's Busy byte by JMP and IRET with no
lookup (the model's, log 22). -/
def Obligations.TaskSegmentsLoad : Prop :=
  ∀ (i : Instr) (s t : State) (tss : Sel) (mode : SwitchMode) (ret : Word) (d : Desc), Switches s i tss mode ret →
    SwitchTarget s tss mode d → s.Quiet →
    (TaskLoads (s.switchedTo tss d mode ret) (s.tssImage d.base) t → exec i s = .next t) ∧
    (∀ f left, TaskLoadFails (s.switchedTo tss d mode ret) (s.tssImage d.base) f t left →
      exec i s = .next (t.takeFault f) ∧ (∀ n ∈ left, (t.seg.get n).valid = false) ∧
        (f.vector = 10 ∨ f.vector = 11 ∨ f.vector = 12))

/-- The checks of a task switch before its commit fail in their order and change nothing, for a far JMP or CALL, IRET, and an
interrupt through a task gate; an IRET with NT set and no current TSS raises #TS(0). -/
def Obligations.SwitchFaults : Prop :=
  (∀ (i : Instr) (s : State) (tss : Sel) (mode : SwitchMode) (ret : Word) (f : FaultCode), Switches s i tss mode ret →
    s.Quiet → s.switchFault tss mode = some f → exec i s = .next (s.takeFault f)) ∧
  (∀ (i : Instr) (s : State) (v : BitVec 8) (tag : IntTag) (err : Option Word) (ret : Word) (f : FaultCode),
    Interrupts s i s v tag err ret → tag ≠ .exception → s.Quiet → s.pe = true → s.idtFault v tag = none →
    (s.idtGate v).kind = .taskGate → s.switchFault (s.idtGate v).gateSel .callInt = some f →
    exec i s = .next (s.takeFault f)) ∧
  (∀ (s : State) (p : List Pfx), s.unchecked = false → s.nt = true → s.tr.valid = false →
    exec (.iret p) s = .next (s.takeFault (.ts 0)))

/-- An interrupt, exception or software interrupt through a task gate switches tasks, saving the return address in the old TSS; the
error code, if there is one, is then pushed as a 32-bit slot on the new task's stack. When every load of the new task succeeds no
fault is pending and that push is made, or ends in the `Mmu`'s fault (the `Mmu` may refuse the writes of CPL 3). A fault after the commit, of a load of the new task or of that
push, is taken as the new task's own, for an exception too, whatever `NESTED_FAULT_POLICY` says: the model's reading (log 9). -/
def Obligations.TaskGateInterrupt : Prop :=
  ∀ (i : Instr) (s s0 : State) (v : BitVec 8) (tag : IntTag) (err : Option Word) (ret : Word) (d : Desc),
    Interrupts s i s0 v tag err ret → s0.pendingFault = none → s.SystemQuiet → s.pe = true →
    (s.vm = true → tag = .software → s.iopl = 3) → s.hasIdtGate v = true → (s.idtGate v).kind = .taskGate →
    (tag = .software → s.cpl ≤ (s.idtGate v).dpl) → (s.idtGate v).present = true →
    SwitchTarget s (s.idtGate v).gateSel .callInt d →
    ∃ t, Switched s0 t (s.idtGate v).gateSel d .callInt ret ∧
      exec i s = .next (match err, t.pendingFault with
        | some e, none =>
          match t.pushCheck 4 with
          | none => t.pushed 4 e
          | some f => t.takeFault f.code
        | _, _ => t) ∧
      (∀ u, TaskLoads (s0.switchedTo (s.idtGate v).gateSel d .callInt ret) (s0.tssImage d.base) u →
        t = u ∧ u.pendingFault = none) ∧
      ∀ f u left, TaskLoadFails (s0.switchedTo (s.idtGate v).gateSel d .callInt ret) (s0.tssImage d.base) f u left →
        t = u.takeFault f

/-- Busy bits and back-link after a switch, when the two descriptors, the saved part of the old TSS and the new back-link do not
overlap (the `Mmu` being the identity): JMP frees the old task and takes the new; CALL keeps the old busy and links back to it with NT
set; IRET frees the old and leaves the new busy. That the old task's byte is written also where TR.sel lies beyond the GDT's limit is the
model's (log 22). -/
def Obligations.BusyBitsAndBackLink : Prop :=
  ∀ (i : Instr) (s : State) (tss : Sel) (mode : SwitchMode) (ret : Word) (d : Desc), Switches s i tss mode ret →
    SwitchTarget s tss mode d → s.mmu.views = [] → s.mmu.answers = [] → s.pendingFault = none →
    let a := s.busyAddr s.tr.sel
    let b := s.busyAddr tss
    a ≠ b →
    (∀ k, k < 64 → a ≠ s.tr.base + 0x20#32 + BitVec.ofNat 32 k ∧ b ≠ s.tr.base + 0x20#32 + BitVec.ofNat 32 k) →
    (∀ j k, j < 2 → k < 64 → d.base + BitVec.ofNat 32 j ≠ s.tr.base + 0x20#32 + BitVec.ofNat 32 k) →
    (∀ j, j < 2 → a ≠ d.base + BitVec.ofNat 32 j ∧ b ≠ d.base + BitVec.ofNat 32 j) →
    Memory.wf s.mem = true →
    ∃ t, exec i s = .next t ∧
      t.readByte a = (if mode = .jmp ∨ mode = .iret then s.readByte a &&& ~~~0x02#8 else s.readByte a) ∧
      t.readByte b = (if mode = .iret then s.readByte b else s.readByte b ||| 0x02#8) ∧
      (mode = .call → low16 (t.readLin d.base 2) = s.tr.sel ∧ t.nt = true) ∧
      (mode ≠ .call → t.readLin d.base 2 = s.readLin d.base 2)
end

