-- ==== Sys2Proof/Laws/Memory.lean ====
section
/-! SUPPORT. The laws of guest memory: the canonical form is kept, a read after a write, and what a plan of writes does. -/

namespace Sys2Proof.Machine

/-! ### One byte -/

@[simp] theorem Memory.read_nil (a : Nat) : Memory.read [] a = Config.unlistedByte := rfl

theorem Memory.read_write_same (m : Memory) (a : Nat) (v : Byte) (h : Memory.wf m = true) :
    Memory.read (Memory.write m a v) a = v := by
  induction m with
  | nil => by_cases hv : v = Config.unlistedByte <;> simp [Memory.write, Memory.read, hv]
  | cons c m ih =>
    obtain ⟨k, b⟩ := c
    have htail : Memory.wf m = true := by
      cases m with
      | nil => rfl
      | cons c' m' => simp only [Memory.wf, Bool.and_eq_true] at h; exact h.2
    have habove : ∀ x, x ≤ k → Memory.read m x = Config.unlistedByte := by
      intro x hx
      clear ih htail
      induction m generalizing k b with
      | nil => rfl
      | cons c' m' ih' =>
        obtain ⟨k', b'⟩ := c'
        simp only [Memory.wf, Bool.and_eq_true, decide_eq_true_eq] at h
        have hne : ¬k' = x := by omega
        rw [Memory.read, if_neg hne]
        exact ih' k' b' h.2 (by omega)
    by_cases h1 : a < k
    · by_cases hv : v = Config.unlistedByte
      · have hne : ¬k = a := by omega
        simp only [Memory.write, h1, hv, if_true, Memory.read, hne, if_false]
        exact habove a (by omega)
      · simp [Memory.write, h1, hv, Memory.read]
    · by_cases h2 : a = k
      · subst h2
        by_cases hv : v = Config.unlistedByte
        · simp only [Memory.write, h1, hv, if_true, if_false]
          exact habove a (by omega)
        · simp [Memory.write, hv, Memory.read]
      · have hne : ¬k = a := by omega
        simp only [Memory.write, h1, h2, if_false, Memory.read, hne]
        exact ih htail

theorem Memory.read_write_other (m : Memory) (a b : Nat) (v : Byte) (h : b ≠ a) :
    Memory.read (Memory.write m a v) b = Memory.read m b := by
  induction m with
  | nil =>
    have hne : ¬a = b := fun e => h e.symm
    by_cases hv : v = Config.unlistedByte <;> simp [Memory.write, Memory.read, hv, hne]
  | cons c m ih =>
    obtain ⟨k, x⟩ := c
    have hne : ¬a = b := fun e => h e.symm
    by_cases h1 : a < k
    · by_cases hv : v = Config.unlistedByte <;> simp [Memory.write, h1, hv, Memory.read, hne]
    · by_cases h2 : a = k
      · subst h2
        by_cases hv : v = Config.unlistedByte <;> simp [Memory.write, hv, Memory.read, hne]
      · simp only [Memory.write, h1, h2, if_false, Memory.read, ih]

/-- The entries of a memory all lie above `k`, with the canonical form below. -/
theorem Memory.wf_cons (k : Nat) (b : Byte) (m : Memory) :
    Memory.wf ((k, b) :: m) = true ↔
      b ≠ Config.unlistedByte ∧ (∀ c ∈ m.head?, k < c.1) ∧ Memory.wf m = true := by
  cases m with
  | nil => simp [Memory.wf]
  | cons c m =>
    obtain ⟨k', b'⟩ := c
    simp only [Memory.wf, Bool.and_eq_true, bne_iff_ne, ne_eq, decide_eq_true_eq, List.head?_cons, Option.mem_def,
      Option.some.injEq, forall_eq']
    tauto

theorem Memory.head_write (m : Memory) (a : Nat) (v : Byte) (k : Nat) (hk : k < a) (hm : ∀ c ∈ m.head?, k < c.1)
    (hwf : Memory.wf m = true) : ∀ c ∈ (Memory.write m a v).head?, k < c.1 := by
  cases m with
  | nil =>
    by_cases hv : v = Config.unlistedByte <;> simp [Memory.write, hv, hk]
  | cons c m =>
    obtain ⟨k', b'⟩ := c
    have hk' : k < k' := hm (k', b') rfl
    by_cases h1 : a < k'
    · by_cases hv : v = Config.unlistedByte <;> simp [Memory.write, h1, hv, hk, hk']
    · by_cases h2 : a = k'
      · subst h2
        by_cases hv : v = Config.unlistedByte
        · simp only [Memory.write, h1, hv, if_true, if_false]
          intro c hc
          have := ((Memory.wf_cons a b' m).1 hwf).2.1 c hc
          omega
        · simp [Memory.write, hv, hk]
      · simp [Memory.write, h1, h2, hk']

/-- A write keeps the canonical form. -/
theorem Memory.wf_write (m : Memory) (a : Nat) (v : Byte) (h : Memory.wf m = true) :
    Memory.wf (Memory.write m a v) = true := by
  induction m with
  | nil => by_cases hv : v = Config.unlistedByte <;> simp [Memory.write, Memory.wf, hv]
  | cons c m ih =>
    obtain ⟨k, b⟩ := c
    obtain ⟨hb, hlt, hm⟩ := (Memory.wf_cons k b m).1 h
    by_cases h1 : a < k
    · by_cases hv : v = Config.unlistedByte
      · simp only [Memory.write, h1, hv, if_true]; exact h
      · simp only [Memory.write, h1, hv, if_true, if_false]
        exact (Memory.wf_cons a v _).2 ⟨hv, by simp [h1], h⟩
    · by_cases h2 : a = k
      · subst h2
        by_cases hv : v = Config.unlistedByte
        · simp only [Memory.write, h1, hv, if_true, if_false]; exact hm
        · simp only [Memory.write, h1, hv, if_true, if_false]
          exact (Memory.wf_cons a v m).2 ⟨hv, hlt, hm⟩
      · simp only [Memory.write, h1, h2, if_false]
        exact (Memory.wf_cons k b _).2 ⟨hb, Memory.head_write m a v k (by omega) hlt hm, ih hm⟩

/-- A plan of writes keeps the canonical form. -/
theorem applyPlan_wf (mmu : Mmu) (plan : List (Word × Byte)) (m : Memory) (h : Memory.wf m = true) :
    Memory.wf (applyPlan mmu plan m) = true := by
  induction plan with
  | nil => exact h
  | cons w plan ih => exact Memory.wf_write _ _ _ ih

@[simp] theorem applyPlan_nil (mmu : Mmu) (m : Memory) : applyPlan mmu [] m = m := rfl

/-- The latest writes are performed last. -/
theorem applyPlan_append (mmu : Mmu) (new old : List (Word × Byte)) (m : Memory) :
    applyPlan mmu (new ++ old) m = applyPlan mmu new (applyPlan mmu old m) := by
  simp [applyPlan, List.foldr_append]

/-- A plan changes no byte but those its addresses name. -/
theorem applyPlan_read_other (mmu : Mmu) (plan : List (Word × Byte)) (m : Memory) (a : Nat)
    (h : ∀ w ∈ plan, a ≠ mmu.translate w.1) : Memory.read (applyPlan mmu plan m) a = Memory.read m a := by
  induction plan with
  | nil => rfl
  | cons w plan ih =>
    have hw := h w (by simp)
    exact (Memory.read_write_other _ _ _ _ hw).trans (ih fun x hx => h x (by simp [hx]))

/-- The addresses of a little-endian write. -/
theorem mem_bytesLe (a : Word) (n : Nat) (v : Word) (w : Word × Byte) (h : w ∈ bytesLe a n v) :
    ∃ i, i < n ∧ w.1 = a + BitVec.ofNat 32 i := by
  induction n generalizing a v with
  | zero => simp [bytesLe] at h
  | succ n above =>
    have step (i : Nat) : a + BitVec.ofNat 32 (i + 1) = a + 1#32 + BitVec.ofNat 32 i := by
      rw [BitVec.add_assoc, ← BitVec.ofNat_add, Nat.add_comm]
    rcases List.mem_cons.1 h with first | later
    · exact ⟨0, n.succ_pos, by simp [first]⟩
    · obtain ⟨i, hi, e⟩ := above (a + 1#32) (v >>> 8) later
      exact ⟨i + 1, Nat.succ_lt_succ hi, by rw [step, e]⟩

theorem writeLin_read_other (s : State) (a : Word) (n : Nat) (v : Word) (p : Nat)
    (h : ∀ i, i < n → p ≠ s.mmu.translate (a + BitVec.ofNat 32 i)) :
    Memory.read (s.writeLin a n v).mem p = Memory.read s.mem p := by
  apply applyPlan_read_other
  intro w hw
  obtain ⟨i, hi, e⟩ := mem_bytesLe a n v w (by simpa using hw)
  rw [e]
  exact h i hi

theorem writeLin_wf (s : State) (a : Word) (n : Nat) (v : Word) (h : Memory.wf s.mem = true) :
    Memory.wf (s.writeLin a n v).mem = true := applyPlan_wf _ _ _ h

theorem placeBytes_wf (s : State) (bs : List Byte) (a : Word) (h : Memory.wf s.mem = true) :
    Memory.wf (s.placeBytes bs a).mem = true := by
  induction bs generalizing s a with
  | nil => exact h
  | cons b bs ih => exact ih _ _ (Memory.wf_write _ _ _ h)

theorem reset_mem_wf : Memory.wf State.reset.mem = true := rfl

/-! ### A plan read back, the `Mmu` being the identity -/

theorem lookup_none_of {l : List (Word × Byte)} {a : Word} (h : ∀ w ∈ l, w.1 ≠ a) : l.lookup a = none := by
  rw [List.lookup_eq_none_iff]
  exact fun w hw => by simpa using (h w hw).symm

theorem applyPlan_read_id (m : Mmu) (hm : m.views = []) (plan : List (Word × Byte)) (mem : Memory)
    (h : Memory.wf mem = true) (a : Word) :
    Memory.read (applyPlan m plan mem) a.toNat = (plan.lookup a).getD (Memory.read mem a.toNat) := by
  have ht : ∀ x, m.translate x = x.toNat := by intro x; simp [Mmu.translate, Mmu.view, hm]
  induction plan with
  | nil => rfl
  | cons w plan ih =>
    obtain ⟨k, b⟩ := w
    show Memory.read (Memory.write (applyPlan m plan mem) (m.translate k) b) a.toNat = _
    rw [ht, List.lookup_cons]
    by_cases e : a = k
    · subst e
      rw [Memory.read_write_same _ _ _ (applyPlan_wf m plan mem h)]; simp
    · rw [Memory.read_write_other _ _ _ _ (by intro h; exact e (BitVec.eq_of_toNat_eq h)), ih, beq_false_of_ne e]

end Sys2Proof.Machine
end

