-- ==== Sys2Proof/Laws/State.lean ====
section
/-! SUPPORT. One lemma per field per update of the state: what each update leaves alone, and what it writes. -/

namespace Sys2Proof.Machine

/-! ### `State.setEsp` leaves alone -/

@[simp] theorem State.setEsp_eip (s : State) (v : Word) : (s.setEsp v).eip = s.eip := rfl
@[simp] theorem State.setEsp_eflags (s : State) (v : Word) : (s.setEsp v).eflags = s.eflags := rfl
@[simp] theorem State.setEsp_cpl (s : State) (v : Word) : (s.setEsp v).cpl = s.cpl := rfl
@[simp] theorem State.setEsp_stack (s : State) (v : Word) : (s.setEsp v).stack = s.stack := rfl
@[simp] theorem State.setEsp_seg (s : State) (v : Word) : (s.setEsp v).seg = s.seg := rfl
@[simp] theorem State.setEsp_gdtr (s : State) (v : Word) : (s.setEsp v).gdtr = s.gdtr := rfl
@[simp] theorem State.setEsp_idtr (s : State) (v : Word) : (s.setEsp v).idtr = s.idtr := rfl
@[simp] theorem State.setEsp_ldtr (s : State) (v : Word) : (s.setEsp v).ldtr = s.ldtr := rfl
@[simp] theorem State.setEsp_tr (s : State) (v : Word) : (s.setEsp v).tr = s.tr := rfl
@[simp] theorem State.setEsp_cr0 (s : State) (v : Word) : (s.setEsp v).cr0 = s.cr0 := rfl
@[simp] theorem State.setEsp_cr2 (s : State) (v : Word) : (s.setEsp v).cr2 = s.cr2 := rfl
@[simp] theorem State.setEsp_cr3 (s : State) (v : Word) : (s.setEsp v).cr3 = s.cr3 := rfl
@[simp] theorem State.setEsp_cr4 (s : State) (v : Word) : (s.setEsp v).cr4 = s.cr4 := rfl
@[simp] theorem State.setEsp_dr (s : State) (v : Word) : (s.setEsp v).dr = s.dr := rfl
@[simp] theorem State.setEsp_pendingFault (s : State) (v : Word) : (s.setEsp v).pendingFault = s.pendingFault := rfl
@[simp] theorem State.setEsp_refused (s : State) (v : Word) : (s.setEsp v).refused = s.refused := rfl
@[simp] theorem State.setEsp_mem (s : State) (v : Word) : (s.setEsp v).mem = s.mem := rfl
@[simp] theorem State.setEsp_mmu (s : State) (v : Word) : (s.setEsp v).mmu = s.mmu := rfl
@[simp] theorem State.setEsp_inputs (s : State) (v : Word) : (s.setEsp v).inputs = s.inputs := rfl
@[simp] theorem State.setEsp_params (s : State) (v : Word) : (s.setEsp v).params = s.params := rfl

/-! ### `State.loadEsp` leaves alone -/

@[simp] theorem State.loadEsp_eip (s : State) (v : Word) : (s.loadEsp v).eip = s.eip := rfl
@[simp] theorem State.loadEsp_eflags (s : State) (v : Word) : (s.loadEsp v).eflags = s.eflags := rfl
@[simp] theorem State.loadEsp_cpl (s : State) (v : Word) : (s.loadEsp v).cpl = s.cpl := rfl
@[simp] theorem State.loadEsp_stack (s : State) (v : Word) : (s.loadEsp v).stack = s.stack := rfl
@[simp] theorem State.loadEsp_seg (s : State) (v : Word) : (s.loadEsp v).seg = s.seg := rfl
@[simp] theorem State.loadEsp_gdtr (s : State) (v : Word) : (s.loadEsp v).gdtr = s.gdtr := rfl
@[simp] theorem State.loadEsp_idtr (s : State) (v : Word) : (s.loadEsp v).idtr = s.idtr := rfl
@[simp] theorem State.loadEsp_ldtr (s : State) (v : Word) : (s.loadEsp v).ldtr = s.ldtr := rfl
@[simp] theorem State.loadEsp_tr (s : State) (v : Word) : (s.loadEsp v).tr = s.tr := rfl
@[simp] theorem State.loadEsp_cr0 (s : State) (v : Word) : (s.loadEsp v).cr0 = s.cr0 := rfl
@[simp] theorem State.loadEsp_cr2 (s : State) (v : Word) : (s.loadEsp v).cr2 = s.cr2 := rfl
@[simp] theorem State.loadEsp_cr3 (s : State) (v : Word) : (s.loadEsp v).cr3 = s.cr3 := rfl
@[simp] theorem State.loadEsp_cr4 (s : State) (v : Word) : (s.loadEsp v).cr4 = s.cr4 := rfl
@[simp] theorem State.loadEsp_dr (s : State) (v : Word) : (s.loadEsp v).dr = s.dr := rfl
@[simp] theorem State.loadEsp_pendingFault (s : State) (v : Word) : (s.loadEsp v).pendingFault = s.pendingFault := rfl
@[simp] theorem State.loadEsp_refused (s : State) (v : Word) : (s.loadEsp v).refused = s.refused := rfl
@[simp] theorem State.loadEsp_mem (s : State) (v : Word) : (s.loadEsp v).mem = s.mem := rfl
@[simp] theorem State.loadEsp_mmu (s : State) (v : Word) : (s.loadEsp v).mmu = s.mmu := rfl
@[simp] theorem State.loadEsp_inputs (s : State) (v : Word) : (s.loadEsp v).inputs = s.inputs := rfl
@[simp] theorem State.loadEsp_params (s : State) (v : Word) : (s.loadEsp v).params = s.params := rfl

/-! ### `State.withEflags` leaves alone -/

@[simp] theorem State.withEflags_gpr (s : State) (v : Word) : (s.withEflags v).gpr = s.gpr := rfl
@[simp] theorem State.withEflags_eip (s : State) (v : Word) : (s.withEflags v).eip = s.eip := rfl
@[simp] theorem State.withEflags_cpl (s : State) (v : Word) : (s.withEflags v).cpl = s.cpl := rfl
@[simp] theorem State.withEflags_stack (s : State) (v : Word) : (s.withEflags v).stack = s.stack := rfl
@[simp] theorem State.withEflags_seg (s : State) (v : Word) : (s.withEflags v).seg = s.seg := rfl
@[simp] theorem State.withEflags_gdtr (s : State) (v : Word) : (s.withEflags v).gdtr = s.gdtr := rfl
@[simp] theorem State.withEflags_idtr (s : State) (v : Word) : (s.withEflags v).idtr = s.idtr := rfl
@[simp] theorem State.withEflags_ldtr (s : State) (v : Word) : (s.withEflags v).ldtr = s.ldtr := rfl
@[simp] theorem State.withEflags_tr (s : State) (v : Word) : (s.withEflags v).tr = s.tr := rfl
@[simp] theorem State.withEflags_cr0 (s : State) (v : Word) : (s.withEflags v).cr0 = s.cr0 := rfl
@[simp] theorem State.withEflags_cr2 (s : State) (v : Word) : (s.withEflags v).cr2 = s.cr2 := rfl
@[simp] theorem State.withEflags_cr3 (s : State) (v : Word) : (s.withEflags v).cr3 = s.cr3 := rfl
@[simp] theorem State.withEflags_cr4 (s : State) (v : Word) : (s.withEflags v).cr4 = s.cr4 := rfl
@[simp] theorem State.withEflags_dr (s : State) (v : Word) : (s.withEflags v).dr = s.dr := rfl
@[simp] theorem State.withEflags_pendingFault (s : State) (v : Word) : (s.withEflags v).pendingFault = s.pendingFault := rfl
@[simp] theorem State.withEflags_refused (s : State) (v : Word) : (s.withEflags v).refused = s.refused := rfl
@[simp] theorem State.withEflags_mem (s : State) (v : Word) : (s.withEflags v).mem = s.mem := rfl
@[simp] theorem State.withEflags_mmu (s : State) (v : Word) : (s.withEflags v).mmu = s.mmu := rfl
@[simp] theorem State.withEflags_inputs (s : State) (v : Word) : (s.withEflags v).inputs = s.inputs := rfl
@[simp] theorem State.withEflags_params (s : State) (v : Word) : (s.withEflags v).params = s.params := rfl

/-! ### `State.withFlag` leaves alone -/

@[simp] theorem State.withFlag_gpr (s : State) (n : Nat) (b : Bool) : (s.withFlag n b).gpr = s.gpr := rfl
@[simp] theorem State.withFlag_eip (s : State) (n : Nat) (b : Bool) : (s.withFlag n b).eip = s.eip := rfl
@[simp] theorem State.withFlag_cpl (s : State) (n : Nat) (b : Bool) : (s.withFlag n b).cpl = s.cpl := rfl
@[simp] theorem State.withFlag_stack (s : State) (n : Nat) (b : Bool) : (s.withFlag n b).stack = s.stack := rfl
@[simp] theorem State.withFlag_seg (s : State) (n : Nat) (b : Bool) : (s.withFlag n b).seg = s.seg := rfl
@[simp] theorem State.withFlag_gdtr (s : State) (n : Nat) (b : Bool) : (s.withFlag n b).gdtr = s.gdtr := rfl
@[simp] theorem State.withFlag_idtr (s : State) (n : Nat) (b : Bool) : (s.withFlag n b).idtr = s.idtr := rfl
@[simp] theorem State.withFlag_ldtr (s : State) (n : Nat) (b : Bool) : (s.withFlag n b).ldtr = s.ldtr := rfl
@[simp] theorem State.withFlag_tr (s : State) (n : Nat) (b : Bool) : (s.withFlag n b).tr = s.tr := rfl
@[simp] theorem State.withFlag_cr0 (s : State) (n : Nat) (b : Bool) : (s.withFlag n b).cr0 = s.cr0 := rfl
@[simp] theorem State.withFlag_cr2 (s : State) (n : Nat) (b : Bool) : (s.withFlag n b).cr2 = s.cr2 := rfl
@[simp] theorem State.withFlag_cr3 (s : State) (n : Nat) (b : Bool) : (s.withFlag n b).cr3 = s.cr3 := rfl
@[simp] theorem State.withFlag_cr4 (s : State) (n : Nat) (b : Bool) : (s.withFlag n b).cr4 = s.cr4 := rfl
@[simp] theorem State.withFlag_dr (s : State) (n : Nat) (b : Bool) : (s.withFlag n b).dr = s.dr := rfl
@[simp] theorem State.withFlag_pendingFault (s : State) (n : Nat) (b : Bool) : (s.withFlag n b).pendingFault = s.pendingFault := rfl
@[simp] theorem State.withFlag_refused (s : State) (n : Nat) (b : Bool) : (s.withFlag n b).refused = s.refused := rfl
@[simp] theorem State.withFlag_mem (s : State) (n : Nat) (b : Bool) : (s.withFlag n b).mem = s.mem := rfl
@[simp] theorem State.withFlag_mmu (s : State) (n : Nat) (b : Bool) : (s.withFlag n b).mmu = s.mmu := rfl
@[simp] theorem State.withFlag_inputs (s : State) (n : Nat) (b : Bool) : (s.withFlag n b).inputs = s.inputs := rfl
@[simp] theorem State.withFlag_params (s : State) (n : Nat) (b : Bool) : (s.withFlag n b).params = s.params := rfl

/-! ### `State.mergeFlags` leaves alone -/

@[simp] theorem State.mergeFlags_gpr (s : State) (fl : Word) (w : Bool) : (s.mergeFlags fl w).gpr = s.gpr := rfl
@[simp] theorem State.mergeFlags_eip (s : State) (fl : Word) (w : Bool) : (s.mergeFlags fl w).eip = s.eip := rfl
@[simp] theorem State.mergeFlags_cpl (s : State) (fl : Word) (w : Bool) : (s.mergeFlags fl w).cpl = s.cpl := rfl
@[simp] theorem State.mergeFlags_stack (s : State) (fl : Word) (w : Bool) : (s.mergeFlags fl w).stack = s.stack := rfl
@[simp] theorem State.mergeFlags_seg (s : State) (fl : Word) (w : Bool) : (s.mergeFlags fl w).seg = s.seg := rfl
@[simp] theorem State.mergeFlags_gdtr (s : State) (fl : Word) (w : Bool) : (s.mergeFlags fl w).gdtr = s.gdtr := rfl
@[simp] theorem State.mergeFlags_idtr (s : State) (fl : Word) (w : Bool) : (s.mergeFlags fl w).idtr = s.idtr := rfl
@[simp] theorem State.mergeFlags_ldtr (s : State) (fl : Word) (w : Bool) : (s.mergeFlags fl w).ldtr = s.ldtr := rfl
@[simp] theorem State.mergeFlags_tr (s : State) (fl : Word) (w : Bool) : (s.mergeFlags fl w).tr = s.tr := rfl
@[simp] theorem State.mergeFlags_cr0 (s : State) (fl : Word) (w : Bool) : (s.mergeFlags fl w).cr0 = s.cr0 := rfl
@[simp] theorem State.mergeFlags_cr2 (s : State) (fl : Word) (w : Bool) : (s.mergeFlags fl w).cr2 = s.cr2 := rfl
@[simp] theorem State.mergeFlags_cr3 (s : State) (fl : Word) (w : Bool) : (s.mergeFlags fl w).cr3 = s.cr3 := rfl
@[simp] theorem State.mergeFlags_cr4 (s : State) (fl : Word) (w : Bool) : (s.mergeFlags fl w).cr4 = s.cr4 := rfl
@[simp] theorem State.mergeFlags_dr (s : State) (fl : Word) (w : Bool) : (s.mergeFlags fl w).dr = s.dr := rfl
@[simp] theorem State.mergeFlags_pendingFault (s : State) (fl : Word) (w : Bool) : (s.mergeFlags fl w).pendingFault = s.pendingFault := rfl
@[simp] theorem State.mergeFlags_refused (s : State) (fl : Word) (w : Bool) : (s.mergeFlags fl w).refused = s.refused := rfl
@[simp] theorem State.mergeFlags_mem (s : State) (fl : Word) (w : Bool) : (s.mergeFlags fl w).mem = s.mem := rfl
@[simp] theorem State.mergeFlags_mmu (s : State) (fl : Word) (w : Bool) : (s.mergeFlags fl w).mmu = s.mmu := rfl
@[simp] theorem State.mergeFlags_inputs (s : State) (fl : Word) (w : Bool) : (s.mergeFlags fl w).inputs = s.inputs := rfl
@[simp] theorem State.mergeFlags_params (s : State) (fl : Word) (w : Bool) : (s.mergeFlags fl w).params = s.params := rfl

/-! ### `State.clearOnDelivery` leaves alone -/

@[simp] theorem State.clearOnDelivery_gpr (s : State) (g : Bool) : (s.clearOnDelivery g).gpr = s.gpr := rfl
@[simp] theorem State.clearOnDelivery_eip (s : State) (g : Bool) : (s.clearOnDelivery g).eip = s.eip := rfl
@[simp] theorem State.clearOnDelivery_cpl (s : State) (g : Bool) : (s.clearOnDelivery g).cpl = s.cpl := rfl
@[simp] theorem State.clearOnDelivery_stack (s : State) (g : Bool) : (s.clearOnDelivery g).stack = s.stack := rfl
@[simp] theorem State.clearOnDelivery_seg (s : State) (g : Bool) : (s.clearOnDelivery g).seg = s.seg := rfl
@[simp] theorem State.clearOnDelivery_gdtr (s : State) (g : Bool) : (s.clearOnDelivery g).gdtr = s.gdtr := rfl
@[simp] theorem State.clearOnDelivery_idtr (s : State) (g : Bool) : (s.clearOnDelivery g).idtr = s.idtr := rfl
@[simp] theorem State.clearOnDelivery_ldtr (s : State) (g : Bool) : (s.clearOnDelivery g).ldtr = s.ldtr := rfl
@[simp] theorem State.clearOnDelivery_tr (s : State) (g : Bool) : (s.clearOnDelivery g).tr = s.tr := rfl
@[simp] theorem State.clearOnDelivery_cr0 (s : State) (g : Bool) : (s.clearOnDelivery g).cr0 = s.cr0 := rfl
@[simp] theorem State.clearOnDelivery_cr2 (s : State) (g : Bool) : (s.clearOnDelivery g).cr2 = s.cr2 := rfl
@[simp] theorem State.clearOnDelivery_cr3 (s : State) (g : Bool) : (s.clearOnDelivery g).cr3 = s.cr3 := rfl
@[simp] theorem State.clearOnDelivery_cr4 (s : State) (g : Bool) : (s.clearOnDelivery g).cr4 = s.cr4 := rfl
@[simp] theorem State.clearOnDelivery_dr (s : State) (g : Bool) : (s.clearOnDelivery g).dr = s.dr := rfl
@[simp] theorem State.clearOnDelivery_pendingFault (s : State) (g : Bool) : (s.clearOnDelivery g).pendingFault = s.pendingFault := rfl
@[simp] theorem State.clearOnDelivery_refused (s : State) (g : Bool) : (s.clearOnDelivery g).refused = s.refused := rfl
@[simp] theorem State.clearOnDelivery_mem (s : State) (g : Bool) : (s.clearOnDelivery g).mem = s.mem := rfl
@[simp] theorem State.clearOnDelivery_mmu (s : State) (g : Bool) : (s.clearOnDelivery g).mmu = s.mmu := rfl
@[simp] theorem State.clearOnDelivery_inputs (s : State) (g : Bool) : (s.clearOnDelivery g).inputs = s.inputs := rfl
@[simp] theorem State.clearOnDelivery_params (s : State) (g : Bool) : (s.clearOnDelivery g).params = s.params := rfl

/-! ### `State.setGpr` leaves alone -/

@[simp] theorem State.setGpr_eip (s : State) (r : Gpr) (w : Bool) (v : Word) : (s.setGpr r w v).eip = s.eip := rfl
@[simp] theorem State.setGpr_eflags (s : State) (r : Gpr) (w : Bool) (v : Word) : (s.setGpr r w v).eflags = s.eflags := rfl
@[simp] theorem State.setGpr_cpl (s : State) (r : Gpr) (w : Bool) (v : Word) : (s.setGpr r w v).cpl = s.cpl := rfl
@[simp] theorem State.setGpr_stack (s : State) (r : Gpr) (w : Bool) (v : Word) : (s.setGpr r w v).stack = s.stack := rfl
@[simp] theorem State.setGpr_seg (s : State) (r : Gpr) (w : Bool) (v : Word) : (s.setGpr r w v).seg = s.seg := rfl
@[simp] theorem State.setGpr_gdtr (s : State) (r : Gpr) (w : Bool) (v : Word) : (s.setGpr r w v).gdtr = s.gdtr := rfl
@[simp] theorem State.setGpr_idtr (s : State) (r : Gpr) (w : Bool) (v : Word) : (s.setGpr r w v).idtr = s.idtr := rfl
@[simp] theorem State.setGpr_ldtr (s : State) (r : Gpr) (w : Bool) (v : Word) : (s.setGpr r w v).ldtr = s.ldtr := rfl
@[simp] theorem State.setGpr_tr (s : State) (r : Gpr) (w : Bool) (v : Word) : (s.setGpr r w v).tr = s.tr := rfl
@[simp] theorem State.setGpr_cr0 (s : State) (r : Gpr) (w : Bool) (v : Word) : (s.setGpr r w v).cr0 = s.cr0 := rfl
@[simp] theorem State.setGpr_cr2 (s : State) (r : Gpr) (w : Bool) (v : Word) : (s.setGpr r w v).cr2 = s.cr2 := rfl
@[simp] theorem State.setGpr_cr3 (s : State) (r : Gpr) (w : Bool) (v : Word) : (s.setGpr r w v).cr3 = s.cr3 := rfl
@[simp] theorem State.setGpr_cr4 (s : State) (r : Gpr) (w : Bool) (v : Word) : (s.setGpr r w v).cr4 = s.cr4 := rfl
@[simp] theorem State.setGpr_dr (s : State) (r : Gpr) (w : Bool) (v : Word) : (s.setGpr r w v).dr = s.dr := rfl
@[simp] theorem State.setGpr_pendingFault (s : State) (r : Gpr) (w : Bool) (v : Word) : (s.setGpr r w v).pendingFault = s.pendingFault := rfl
@[simp] theorem State.setGpr_refused (s : State) (r : Gpr) (w : Bool) (v : Word) : (s.setGpr r w v).refused = s.refused := rfl
@[simp] theorem State.setGpr_mem (s : State) (r : Gpr) (w : Bool) (v : Word) : (s.setGpr r w v).mem = s.mem := rfl
@[simp] theorem State.setGpr_mmu (s : State) (r : Gpr) (w : Bool) (v : Word) : (s.setGpr r w v).mmu = s.mmu := rfl
@[simp] theorem State.setGpr_inputs (s : State) (r : Gpr) (w : Bool) (v : Word) : (s.setGpr r w v).inputs = s.inputs := rfl
@[simp] theorem State.setGpr_params (s : State) (r : Gpr) (w : Bool) (v : Word) : (s.setGpr r w v).params = s.params := rfl

/-! ### `State.setSeg` leaves alone -/

@[simp] theorem State.setSeg_gpr (s : State) (n : SegName) (r : SegReg) : (s.setSeg n r).gpr = s.gpr := by cases n <;> rfl
@[simp] theorem State.setSeg_eip (s : State) (n : SegName) (r : SegReg) : (s.setSeg n r).eip = s.eip := by cases n <;> rfl
@[simp] theorem State.setSeg_eflags (s : State) (n : SegName) (r : SegReg) : (s.setSeg n r).eflags = s.eflags := by cases n <;> rfl
@[simp] theorem State.setSeg_cpl (s : State) (n : SegName) (r : SegReg) : (s.setSeg n r).cpl = s.cpl := by cases n <;> rfl
@[simp] theorem State.setSeg_gdtr (s : State) (n : SegName) (r : SegReg) : (s.setSeg n r).gdtr = s.gdtr := by cases n <;> rfl
@[simp] theorem State.setSeg_idtr (s : State) (n : SegName) (r : SegReg) : (s.setSeg n r).idtr = s.idtr := by cases n <;> rfl
@[simp] theorem State.setSeg_ldtr (s : State) (n : SegName) (r : SegReg) : (s.setSeg n r).ldtr = s.ldtr := by cases n <;> rfl
@[simp] theorem State.setSeg_tr (s : State) (n : SegName) (r : SegReg) : (s.setSeg n r).tr = s.tr := by cases n <;> rfl
@[simp] theorem State.setSeg_cr0 (s : State) (n : SegName) (r : SegReg) : (s.setSeg n r).cr0 = s.cr0 := by cases n <;> rfl
@[simp] theorem State.setSeg_cr2 (s : State) (n : SegName) (r : SegReg) : (s.setSeg n r).cr2 = s.cr2 := by cases n <;> rfl
@[simp] theorem State.setSeg_cr3 (s : State) (n : SegName) (r : SegReg) : (s.setSeg n r).cr3 = s.cr3 := by cases n <;> rfl
@[simp] theorem State.setSeg_cr4 (s : State) (n : SegName) (r : SegReg) : (s.setSeg n r).cr4 = s.cr4 := by cases n <;> rfl
@[simp] theorem State.setSeg_dr (s : State) (n : SegName) (r : SegReg) : (s.setSeg n r).dr = s.dr := by cases n <;> rfl
@[simp] theorem State.setSeg_pendingFault (s : State) (n : SegName) (r : SegReg) : (s.setSeg n r).pendingFault = s.pendingFault := by cases n <;> rfl
@[simp] theorem State.setSeg_refused (s : State) (n : SegName) (r : SegReg) : (s.setSeg n r).refused = s.refused := by cases n <;> rfl
@[simp] theorem State.setSeg_mem (s : State) (n : SegName) (r : SegReg) : (s.setSeg n r).mem = s.mem := by cases n <;> rfl
@[simp] theorem State.setSeg_mmu (s : State) (n : SegName) (r : SegReg) : (s.setSeg n r).mmu = s.mmu := by cases n <;> rfl
@[simp] theorem State.setSeg_inputs (s : State) (n : SegName) (r : SegReg) : (s.setSeg n r).inputs = s.inputs := by cases n <;> rfl
@[simp] theorem State.setSeg_params (s : State) (n : SegName) (r : SegReg) : (s.setSeg n r).params = s.params := by cases n <;> rfl

/-! ### `State.installSeg` leaves alone -/

@[simp] theorem State.installSeg_gpr (s : State) (n : SegName) (sel : Sel) (d : Desc) : (s.installSeg n sel d).gpr = s.gpr := by cases n <;> rfl
@[simp] theorem State.installSeg_eip (s : State) (n : SegName) (sel : Sel) (d : Desc) : (s.installSeg n sel d).eip = s.eip := by cases n <;> rfl
@[simp] theorem State.installSeg_eflags (s : State) (n : SegName) (sel : Sel) (d : Desc) : (s.installSeg n sel d).eflags = s.eflags := by cases n <;> rfl
@[simp] theorem State.installSeg_cpl (s : State) (n : SegName) (sel : Sel) (d : Desc) : (s.installSeg n sel d).cpl = s.cpl := by cases n <;> rfl
@[simp] theorem State.installSeg_gdtr (s : State) (n : SegName) (sel : Sel) (d : Desc) : (s.installSeg n sel d).gdtr = s.gdtr := by cases n <;> rfl
@[simp] theorem State.installSeg_idtr (s : State) (n : SegName) (sel : Sel) (d : Desc) : (s.installSeg n sel d).idtr = s.idtr := by cases n <;> rfl
@[simp] theorem State.installSeg_ldtr (s : State) (n : SegName) (sel : Sel) (d : Desc) : (s.installSeg n sel d).ldtr = s.ldtr := by cases n <;> rfl
@[simp] theorem State.installSeg_tr (s : State) (n : SegName) (sel : Sel) (d : Desc) : (s.installSeg n sel d).tr = s.tr := by cases n <;> rfl
@[simp] theorem State.installSeg_cr0 (s : State) (n : SegName) (sel : Sel) (d : Desc) : (s.installSeg n sel d).cr0 = s.cr0 := by cases n <;> rfl
@[simp] theorem State.installSeg_cr2 (s : State) (n : SegName) (sel : Sel) (d : Desc) : (s.installSeg n sel d).cr2 = s.cr2 := by cases n <;> rfl
@[simp] theorem State.installSeg_cr3 (s : State) (n : SegName) (sel : Sel) (d : Desc) : (s.installSeg n sel d).cr3 = s.cr3 := by cases n <;> rfl
@[simp] theorem State.installSeg_cr4 (s : State) (n : SegName) (sel : Sel) (d : Desc) : (s.installSeg n sel d).cr4 = s.cr4 := by cases n <;> rfl
@[simp] theorem State.installSeg_dr (s : State) (n : SegName) (sel : Sel) (d : Desc) : (s.installSeg n sel d).dr = s.dr := by cases n <;> rfl
@[simp] theorem State.installSeg_pendingFault (s : State) (n : SegName) (sel : Sel) (d : Desc) : (s.installSeg n sel d).pendingFault = s.pendingFault := by cases n <;> rfl
@[simp] theorem State.installSeg_refused (s : State) (n : SegName) (sel : Sel) (d : Desc) : (s.installSeg n sel d).refused = s.refused := by cases n <;> rfl
@[simp] theorem State.installSeg_mem (s : State) (n : SegName) (sel : Sel) (d : Desc) : (s.installSeg n sel d).mem = s.mem := by cases n <;> rfl
@[simp] theorem State.installSeg_mmu (s : State) (n : SegName) (sel : Sel) (d : Desc) : (s.installSeg n sel d).mmu = s.mmu := by cases n <;> rfl
@[simp] theorem State.installSeg_inputs (s : State) (n : SegName) (sel : Sel) (d : Desc) : (s.installSeg n sel d).inputs = s.inputs := by cases n <;> rfl
@[simp] theorem State.installSeg_params (s : State) (n : SegName) (sel : Sel) (d : Desc) : (s.installSeg n sel d).params = s.params := by cases n <;> rfl

/-! ### `State.installNull` leaves alone -/

@[simp] theorem State.installNull_gpr (s : State) (n : SegName) (sel : Sel) : (s.installNull n sel).gpr = s.gpr := rfl
@[simp] theorem State.installNull_eip (s : State) (n : SegName) (sel : Sel) : (s.installNull n sel).eip = s.eip := rfl
@[simp] theorem State.installNull_eflags (s : State) (n : SegName) (sel : Sel) : (s.installNull n sel).eflags = s.eflags := rfl
@[simp] theorem State.installNull_cpl (s : State) (n : SegName) (sel : Sel) : (s.installNull n sel).cpl = s.cpl := rfl
@[simp] theorem State.installNull_stack (s : State) (n : SegName) (sel : Sel) : (s.installNull n sel).stack = s.stack := rfl
@[simp] theorem State.installNull_gdtr (s : State) (n : SegName) (sel : Sel) : (s.installNull n sel).gdtr = s.gdtr := rfl
@[simp] theorem State.installNull_idtr (s : State) (n : SegName) (sel : Sel) : (s.installNull n sel).idtr = s.idtr := rfl
@[simp] theorem State.installNull_ldtr (s : State) (n : SegName) (sel : Sel) : (s.installNull n sel).ldtr = s.ldtr := rfl
@[simp] theorem State.installNull_tr (s : State) (n : SegName) (sel : Sel) : (s.installNull n sel).tr = s.tr := rfl
@[simp] theorem State.installNull_cr0 (s : State) (n : SegName) (sel : Sel) : (s.installNull n sel).cr0 = s.cr0 := rfl
@[simp] theorem State.installNull_cr2 (s : State) (n : SegName) (sel : Sel) : (s.installNull n sel).cr2 = s.cr2 := rfl
@[simp] theorem State.installNull_cr3 (s : State) (n : SegName) (sel : Sel) : (s.installNull n sel).cr3 = s.cr3 := rfl
@[simp] theorem State.installNull_cr4 (s : State) (n : SegName) (sel : Sel) : (s.installNull n sel).cr4 = s.cr4 := rfl
@[simp] theorem State.installNull_dr (s : State) (n : SegName) (sel : Sel) : (s.installNull n sel).dr = s.dr := rfl
@[simp] theorem State.installNull_pendingFault (s : State) (n : SegName) (sel : Sel) : (s.installNull n sel).pendingFault = s.pendingFault := rfl
@[simp] theorem State.installNull_refused (s : State) (n : SegName) (sel : Sel) : (s.installNull n sel).refused = s.refused := rfl
@[simp] theorem State.installNull_mem (s : State) (n : SegName) (sel : Sel) : (s.installNull n sel).mem = s.mem := rfl
@[simp] theorem State.installNull_mmu (s : State) (n : SegName) (sel : Sel) : (s.installNull n sel).mmu = s.mmu := rfl
@[simp] theorem State.installNull_inputs (s : State) (n : SegName) (sel : Sel) : (s.installNull n sel).inputs = s.inputs := rfl
@[simp] theorem State.installNull_params (s : State) (n : SegName) (sel : Sel) : (s.installNull n sel).params = s.params := rfl

/-! ### `State.installCs` leaves alone -/

@[simp] theorem State.installCs_gpr (s : State) (sel : Sel) (d : Desc) (n : Level) : (s.installCs sel d n).gpr = s.gpr := rfl
@[simp] theorem State.installCs_eip (s : State) (sel : Sel) (d : Desc) (n : Level) : (s.installCs sel d n).eip = s.eip := rfl
@[simp] theorem State.installCs_eflags (s : State) (sel : Sel) (d : Desc) (n : Level) : (s.installCs sel d n).eflags = s.eflags := rfl
@[simp] theorem State.installCs_stack (s : State) (sel : Sel) (d : Desc) (n : Level) : (s.installCs sel d n).stack = s.stack := rfl
@[simp] theorem State.installCs_gdtr (s : State) (sel : Sel) (d : Desc) (n : Level) : (s.installCs sel d n).gdtr = s.gdtr := rfl
@[simp] theorem State.installCs_idtr (s : State) (sel : Sel) (d : Desc) (n : Level) : (s.installCs sel d n).idtr = s.idtr := rfl
@[simp] theorem State.installCs_ldtr (s : State) (sel : Sel) (d : Desc) (n : Level) : (s.installCs sel d n).ldtr = s.ldtr := rfl
@[simp] theorem State.installCs_tr (s : State) (sel : Sel) (d : Desc) (n : Level) : (s.installCs sel d n).tr = s.tr := rfl
@[simp] theorem State.installCs_cr0 (s : State) (sel : Sel) (d : Desc) (n : Level) : (s.installCs sel d n).cr0 = s.cr0 := rfl
@[simp] theorem State.installCs_cr2 (s : State) (sel : Sel) (d : Desc) (n : Level) : (s.installCs sel d n).cr2 = s.cr2 := rfl
@[simp] theorem State.installCs_cr3 (s : State) (sel : Sel) (d : Desc) (n : Level) : (s.installCs sel d n).cr3 = s.cr3 := rfl
@[simp] theorem State.installCs_cr4 (s : State) (sel : Sel) (d : Desc) (n : Level) : (s.installCs sel d n).cr4 = s.cr4 := rfl
@[simp] theorem State.installCs_dr (s : State) (sel : Sel) (d : Desc) (n : Level) : (s.installCs sel d n).dr = s.dr := rfl
@[simp] theorem State.installCs_pendingFault (s : State) (sel : Sel) (d : Desc) (n : Level) : (s.installCs sel d n).pendingFault = s.pendingFault := rfl
@[simp] theorem State.installCs_refused (s : State) (sel : Sel) (d : Desc) (n : Level) : (s.installCs sel d n).refused = s.refused := rfl
@[simp] theorem State.installCs_mem (s : State) (sel : Sel) (d : Desc) (n : Level) : (s.installCs sel d n).mem = s.mem := rfl
@[simp] theorem State.installCs_mmu (s : State) (sel : Sel) (d : Desc) (n : Level) : (s.installCs sel d n).mmu = s.mmu := rfl
@[simp] theorem State.installCs_inputs (s : State) (sel : Sel) (d : Desc) (n : Level) : (s.installCs sel d n).inputs = s.inputs := rfl
@[simp] theorem State.installCs_params (s : State) (sel : Sel) (d : Desc) (n : Level) : (s.installCs sel d n).params = s.params := rfl

/-! ### `State.loadSegReal` leaves alone -/

@[simp] theorem State.loadSegReal_gpr (s : State) (n : SegName) (sel : Sel) : (s.loadSegReal n sel).gpr = s.gpr := by cases n <;> rfl
@[simp] theorem State.loadSegReal_eip (s : State) (n : SegName) (sel : Sel) : (s.loadSegReal n sel).eip = s.eip := by cases n <;> rfl
@[simp] theorem State.loadSegReal_eflags (s : State) (n : SegName) (sel : Sel) : (s.loadSegReal n sel).eflags = s.eflags := by cases n <;> rfl
@[simp] theorem State.loadSegReal_cpl (s : State) (n : SegName) (sel : Sel) : (s.loadSegReal n sel).cpl = s.cpl := by cases n <;> rfl
@[simp] theorem State.loadSegReal_gdtr (s : State) (n : SegName) (sel : Sel) : (s.loadSegReal n sel).gdtr = s.gdtr := by cases n <;> rfl
@[simp] theorem State.loadSegReal_idtr (s : State) (n : SegName) (sel : Sel) : (s.loadSegReal n sel).idtr = s.idtr := by cases n <;> rfl
@[simp] theorem State.loadSegReal_ldtr (s : State) (n : SegName) (sel : Sel) : (s.loadSegReal n sel).ldtr = s.ldtr := by cases n <;> rfl
@[simp] theorem State.loadSegReal_tr (s : State) (n : SegName) (sel : Sel) : (s.loadSegReal n sel).tr = s.tr := by cases n <;> rfl
@[simp] theorem State.loadSegReal_cr0 (s : State) (n : SegName) (sel : Sel) : (s.loadSegReal n sel).cr0 = s.cr0 := by cases n <;> rfl
@[simp] theorem State.loadSegReal_cr2 (s : State) (n : SegName) (sel : Sel) : (s.loadSegReal n sel).cr2 = s.cr2 := by cases n <;> rfl
@[simp] theorem State.loadSegReal_cr3 (s : State) (n : SegName) (sel : Sel) : (s.loadSegReal n sel).cr3 = s.cr3 := by cases n <;> rfl
@[simp] theorem State.loadSegReal_cr4 (s : State) (n : SegName) (sel : Sel) : (s.loadSegReal n sel).cr4 = s.cr4 := by cases n <;> rfl
@[simp] theorem State.loadSegReal_dr (s : State) (n : SegName) (sel : Sel) : (s.loadSegReal n sel).dr = s.dr := by cases n <;> rfl
@[simp] theorem State.loadSegReal_pendingFault (s : State) (n : SegName) (sel : Sel) : (s.loadSegReal n sel).pendingFault = s.pendingFault := by cases n <;> rfl
@[simp] theorem State.loadSegReal_refused (s : State) (n : SegName) (sel : Sel) : (s.loadSegReal n sel).refused = s.refused := by cases n <;> rfl
@[simp] theorem State.loadSegReal_mem (s : State) (n : SegName) (sel : Sel) : (s.loadSegReal n sel).mem = s.mem := by cases n <;> rfl
@[simp] theorem State.loadSegReal_mmu (s : State) (n : SegName) (sel : Sel) : (s.loadSegReal n sel).mmu = s.mmu := by cases n <;> rfl
@[simp] theorem State.loadSegReal_inputs (s : State) (n : SegName) (sel : Sel) : (s.loadSegReal n sel).inputs = s.inputs := by cases n <;> rfl
@[simp] theorem State.loadSegReal_params (s : State) (n : SegName) (sel : Sel) : (s.loadSegReal n sel).params = s.params := by cases n <;> rfl

/-! ### `State.enterStack` leaves alone -/

@[simp] theorem State.enterStack_eip (s : State) (sel : Sel) (d : Desc) (esp : Word) (n : Level) : (s.enterStack sel d esp n).eip = s.eip := rfl
@[simp] theorem State.enterStack_eflags (s : State) (sel : Sel) (d : Desc) (esp : Word) (n : Level) : (s.enterStack sel d esp n).eflags = s.eflags := rfl
@[simp] theorem State.enterStack_gdtr (s : State) (sel : Sel) (d : Desc) (esp : Word) (n : Level) : (s.enterStack sel d esp n).gdtr = s.gdtr := rfl
@[simp] theorem State.enterStack_idtr (s : State) (sel : Sel) (d : Desc) (esp : Word) (n : Level) : (s.enterStack sel d esp n).idtr = s.idtr := rfl
@[simp] theorem State.enterStack_ldtr (s : State) (sel : Sel) (d : Desc) (esp : Word) (n : Level) : (s.enterStack sel d esp n).ldtr = s.ldtr := rfl
@[simp] theorem State.enterStack_tr (s : State) (sel : Sel) (d : Desc) (esp : Word) (n : Level) : (s.enterStack sel d esp n).tr = s.tr := rfl
@[simp] theorem State.enterStack_cr0 (s : State) (sel : Sel) (d : Desc) (esp : Word) (n : Level) : (s.enterStack sel d esp n).cr0 = s.cr0 := rfl
@[simp] theorem State.enterStack_cr2 (s : State) (sel : Sel) (d : Desc) (esp : Word) (n : Level) : (s.enterStack sel d esp n).cr2 = s.cr2 := rfl
@[simp] theorem State.enterStack_cr3 (s : State) (sel : Sel) (d : Desc) (esp : Word) (n : Level) : (s.enterStack sel d esp n).cr3 = s.cr3 := rfl
@[simp] theorem State.enterStack_cr4 (s : State) (sel : Sel) (d : Desc) (esp : Word) (n : Level) : (s.enterStack sel d esp n).cr4 = s.cr4 := rfl
@[simp] theorem State.enterStack_dr (s : State) (sel : Sel) (d : Desc) (esp : Word) (n : Level) : (s.enterStack sel d esp n).dr = s.dr := rfl
@[simp] theorem State.enterStack_pendingFault (s : State) (sel : Sel) (d : Desc) (esp : Word) (n : Level) : (s.enterStack sel d esp n).pendingFault = s.pendingFault := rfl
@[simp] theorem State.enterStack_refused (s : State) (sel : Sel) (d : Desc) (esp : Word) (n : Level) : (s.enterStack sel d esp n).refused = s.refused := rfl
@[simp] theorem State.enterStack_mem (s : State) (sel : Sel) (d : Desc) (esp : Word) (n : Level) : (s.enterStack sel d esp n).mem = s.mem := rfl
@[simp] theorem State.enterStack_mmu (s : State) (sel : Sel) (d : Desc) (esp : Word) (n : Level) : (s.enterStack sel d esp n).mmu = s.mmu := rfl
@[simp] theorem State.enterStack_inputs (s : State) (sel : Sel) (d : Desc) (esp : Word) (n : Level) : (s.enterStack sel d esp n).inputs = s.inputs := rfl
@[simp] theorem State.enterStack_params (s : State) (sel : Sel) (d : Desc) (esp : Word) (n : Level) : (s.enterStack sel d esp n).params = s.params := rfl

/-! ### `State.nullDataSegs` leaves alone -/

@[simp] theorem State.nullDataSegs_gpr (s : State) : (s.nullDataSegs).gpr = s.gpr := by simp [State.nullDataSegs]
@[simp] theorem State.nullDataSegs_eip (s : State) : (s.nullDataSegs).eip = s.eip := by simp [State.nullDataSegs]
@[simp] theorem State.nullDataSegs_eflags (s : State) : (s.nullDataSegs).eflags = s.eflags := by simp [State.nullDataSegs]
@[simp] theorem State.nullDataSegs_cpl (s : State) : (s.nullDataSegs).cpl = s.cpl := by simp [State.nullDataSegs]
@[simp] theorem State.nullDataSegs_stack (s : State) : (s.nullDataSegs).stack = s.stack := by simp [State.nullDataSegs]
@[simp] theorem State.nullDataSegs_gdtr (s : State) : (s.nullDataSegs).gdtr = s.gdtr := by simp [State.nullDataSegs]
@[simp] theorem State.nullDataSegs_idtr (s : State) : (s.nullDataSegs).idtr = s.idtr := by simp [State.nullDataSegs]
@[simp] theorem State.nullDataSegs_ldtr (s : State) : (s.nullDataSegs).ldtr = s.ldtr := by simp [State.nullDataSegs]
@[simp] theorem State.nullDataSegs_tr (s : State) : (s.nullDataSegs).tr = s.tr := by simp [State.nullDataSegs]
@[simp] theorem State.nullDataSegs_cr0 (s : State) : (s.nullDataSegs).cr0 = s.cr0 := by simp [State.nullDataSegs]
@[simp] theorem State.nullDataSegs_cr2 (s : State) : (s.nullDataSegs).cr2 = s.cr2 := by simp [State.nullDataSegs]
@[simp] theorem State.nullDataSegs_cr3 (s : State) : (s.nullDataSegs).cr3 = s.cr3 := by simp [State.nullDataSegs]
@[simp] theorem State.nullDataSegs_cr4 (s : State) : (s.nullDataSegs).cr4 = s.cr4 := by simp [State.nullDataSegs]
@[simp] theorem State.nullDataSegs_dr (s : State) : (s.nullDataSegs).dr = s.dr := by simp [State.nullDataSegs]
@[simp] theorem State.nullDataSegs_pendingFault (s : State) : (s.nullDataSegs).pendingFault = s.pendingFault := by simp [State.nullDataSegs]
@[simp] theorem State.nullDataSegs_refused (s : State) : (s.nullDataSegs).refused = s.refused := by simp [State.nullDataSegs]
@[simp] theorem State.nullDataSegs_mem (s : State) : (s.nullDataSegs).mem = s.mem := by simp [State.nullDataSegs]
@[simp] theorem State.nullDataSegs_mmu (s : State) : (s.nullDataSegs).mmu = s.mmu := by simp [State.nullDataSegs]
@[simp] theorem State.nullDataSegs_inputs (s : State) : (s.nullDataSegs).inputs = s.inputs := by simp [State.nullDataSegs]
@[simp] theorem State.nullDataSegs_params (s : State) : (s.nullDataSegs).params = s.params := by simp [State.nullDataSegs]

/-! ### `State.invalidateOne` leaves alone -/

@[simp] theorem State.invalidateOne_gpr (s : State) (n : Level) (r : SegName) : (s.invalidateOne n r).gpr = s.gpr := by unfold State.invalidateOne; split <;> rfl
@[simp] theorem State.invalidateOne_eip (s : State) (n : Level) (r : SegName) : (s.invalidateOne n r).eip = s.eip := by unfold State.invalidateOne; split <;> rfl
@[simp] theorem State.invalidateOne_eflags (s : State) (n : Level) (r : SegName) : (s.invalidateOne n r).eflags = s.eflags := by unfold State.invalidateOne; split <;> rfl
@[simp] theorem State.invalidateOne_cpl (s : State) (n : Level) (r : SegName) : (s.invalidateOne n r).cpl = s.cpl := by unfold State.invalidateOne; split <;> rfl
@[simp] theorem State.invalidateOne_stack (s : State) (n : Level) (r : SegName) : (s.invalidateOne n r).stack = s.stack := by unfold State.invalidateOne; split <;> rfl
@[simp] theorem State.invalidateOne_gdtr (s : State) (n : Level) (r : SegName) : (s.invalidateOne n r).gdtr = s.gdtr := by unfold State.invalidateOne; split <;> rfl
@[simp] theorem State.invalidateOne_idtr (s : State) (n : Level) (r : SegName) : (s.invalidateOne n r).idtr = s.idtr := by unfold State.invalidateOne; split <;> rfl
@[simp] theorem State.invalidateOne_ldtr (s : State) (n : Level) (r : SegName) : (s.invalidateOne n r).ldtr = s.ldtr := by unfold State.invalidateOne; split <;> rfl
@[simp] theorem State.invalidateOne_tr (s : State) (n : Level) (r : SegName) : (s.invalidateOne n r).tr = s.tr := by unfold State.invalidateOne; split <;> rfl
@[simp] theorem State.invalidateOne_cr0 (s : State) (n : Level) (r : SegName) : (s.invalidateOne n r).cr0 = s.cr0 := by unfold State.invalidateOne; split <;> rfl
@[simp] theorem State.invalidateOne_cr2 (s : State) (n : Level) (r : SegName) : (s.invalidateOne n r).cr2 = s.cr2 := by unfold State.invalidateOne; split <;> rfl
@[simp] theorem State.invalidateOne_cr3 (s : State) (n : Level) (r : SegName) : (s.invalidateOne n r).cr3 = s.cr3 := by unfold State.invalidateOne; split <;> rfl
@[simp] theorem State.invalidateOne_cr4 (s : State) (n : Level) (r : SegName) : (s.invalidateOne n r).cr4 = s.cr4 := by unfold State.invalidateOne; split <;> rfl
@[simp] theorem State.invalidateOne_dr (s : State) (n : Level) (r : SegName) : (s.invalidateOne n r).dr = s.dr := by unfold State.invalidateOne; split <;> rfl
@[simp] theorem State.invalidateOne_pendingFault (s : State) (n : Level) (r : SegName) : (s.invalidateOne n r).pendingFault = s.pendingFault := by unfold State.invalidateOne; split <;> rfl
@[simp] theorem State.invalidateOne_refused (s : State) (n : Level) (r : SegName) : (s.invalidateOne n r).refused = s.refused := by unfold State.invalidateOne; split <;> rfl
@[simp] theorem State.invalidateOne_mem (s : State) (n : Level) (r : SegName) : (s.invalidateOne n r).mem = s.mem := by unfold State.invalidateOne; split <;> rfl
@[simp] theorem State.invalidateOne_mmu (s : State) (n : Level) (r : SegName) : (s.invalidateOne n r).mmu = s.mmu := by unfold State.invalidateOne; split <;> rfl
@[simp] theorem State.invalidateOne_inputs (s : State) (n : Level) (r : SegName) : (s.invalidateOne n r).inputs = s.inputs := by unfold State.invalidateOne; split <;> rfl
@[simp] theorem State.invalidateOne_params (s : State) (n : Level) (r : SegName) : (s.invalidateOne n r).params = s.params := by unfold State.invalidateOne; split <;> rfl

/-! ### `State.invalidateDataSegs` leaves alone -/

@[simp] theorem State.invalidateDataSegs_gpr (s : State) (n : Level) : (s.invalidateDataSegs n).gpr = s.gpr := by simp [State.invalidateDataSegs]
@[simp] theorem State.invalidateDataSegs_eip (s : State) (n : Level) : (s.invalidateDataSegs n).eip = s.eip := by simp [State.invalidateDataSegs]
@[simp] theorem State.invalidateDataSegs_eflags (s : State) (n : Level) : (s.invalidateDataSegs n).eflags = s.eflags := by simp [State.invalidateDataSegs]
@[simp] theorem State.invalidateDataSegs_cpl (s : State) (n : Level) : (s.invalidateDataSegs n).cpl = s.cpl := by simp [State.invalidateDataSegs]
@[simp] theorem State.invalidateDataSegs_stack (s : State) (n : Level) : (s.invalidateDataSegs n).stack = s.stack := by simp [State.invalidateDataSegs]
@[simp] theorem State.invalidateDataSegs_gdtr (s : State) (n : Level) : (s.invalidateDataSegs n).gdtr = s.gdtr := by simp [State.invalidateDataSegs]
@[simp] theorem State.invalidateDataSegs_idtr (s : State) (n : Level) : (s.invalidateDataSegs n).idtr = s.idtr := by simp [State.invalidateDataSegs]
@[simp] theorem State.invalidateDataSegs_ldtr (s : State) (n : Level) : (s.invalidateDataSegs n).ldtr = s.ldtr := by simp [State.invalidateDataSegs]
@[simp] theorem State.invalidateDataSegs_tr (s : State) (n : Level) : (s.invalidateDataSegs n).tr = s.tr := by simp [State.invalidateDataSegs]
@[simp] theorem State.invalidateDataSegs_cr0 (s : State) (n : Level) : (s.invalidateDataSegs n).cr0 = s.cr0 := by simp [State.invalidateDataSegs]
@[simp] theorem State.invalidateDataSegs_cr2 (s : State) (n : Level) : (s.invalidateDataSegs n).cr2 = s.cr2 := by simp [State.invalidateDataSegs]
@[simp] theorem State.invalidateDataSegs_cr3 (s : State) (n : Level) : (s.invalidateDataSegs n).cr3 = s.cr3 := by simp [State.invalidateDataSegs]
@[simp] theorem State.invalidateDataSegs_cr4 (s : State) (n : Level) : (s.invalidateDataSegs n).cr4 = s.cr4 := by simp [State.invalidateDataSegs]
@[simp] theorem State.invalidateDataSegs_dr (s : State) (n : Level) : (s.invalidateDataSegs n).dr = s.dr := by simp [State.invalidateDataSegs]
@[simp] theorem State.invalidateDataSegs_pendingFault (s : State) (n : Level) : (s.invalidateDataSegs n).pendingFault = s.pendingFault := by simp [State.invalidateDataSegs]
@[simp] theorem State.invalidateDataSegs_refused (s : State) (n : Level) : (s.invalidateDataSegs n).refused = s.refused := by simp [State.invalidateDataSegs]
@[simp] theorem State.invalidateDataSegs_mem (s : State) (n : Level) : (s.invalidateDataSegs n).mem = s.mem := by simp [State.invalidateDataSegs]
@[simp] theorem State.invalidateDataSegs_mmu (s : State) (n : Level) : (s.invalidateDataSegs n).mmu = s.mmu := by simp [State.invalidateDataSegs]
@[simp] theorem State.invalidateDataSegs_inputs (s : State) (n : Level) : (s.invalidateDataSegs n).inputs = s.inputs := by simp [State.invalidateDataSegs]
@[simp] theorem State.invalidateDataSegs_params (s : State) (n : Level) : (s.invalidateDataSegs n).params = s.params := by simp [State.invalidateDataSegs]

/-! ### `State.loadV86Segs` leaves alone -/

@[simp] theorem State.loadV86Segs_gpr (s : State) (a b c d e f : Sel) : (s.loadV86Segs a b c d e f).gpr = s.gpr := by simp [State.loadV86Segs]
@[simp] theorem State.loadV86Segs_eip (s : State) (a b c d e f : Sel) : (s.loadV86Segs a b c d e f).eip = s.eip := by simp [State.loadV86Segs]
@[simp] theorem State.loadV86Segs_eflags (s : State) (a b c d e f : Sel) : (s.loadV86Segs a b c d e f).eflags = s.eflags := by simp [State.loadV86Segs]
@[simp] theorem State.loadV86Segs_cpl (s : State) (a b c d e f : Sel) : (s.loadV86Segs a b c d e f).cpl = s.cpl := by simp [State.loadV86Segs]
@[simp] theorem State.loadV86Segs_gdtr (s : State) (a b c d e f : Sel) : (s.loadV86Segs a b c d e f).gdtr = s.gdtr := by simp [State.loadV86Segs]
@[simp] theorem State.loadV86Segs_idtr (s : State) (a b c d e f : Sel) : (s.loadV86Segs a b c d e f).idtr = s.idtr := by simp [State.loadV86Segs]
@[simp] theorem State.loadV86Segs_ldtr (s : State) (a b c d e f : Sel) : (s.loadV86Segs a b c d e f).ldtr = s.ldtr := by simp [State.loadV86Segs]
@[simp] theorem State.loadV86Segs_tr (s : State) (a b c d e f : Sel) : (s.loadV86Segs a b c d e f).tr = s.tr := by simp [State.loadV86Segs]
@[simp] theorem State.loadV86Segs_cr0 (s : State) (a b c d e f : Sel) : (s.loadV86Segs a b c d e f).cr0 = s.cr0 := by simp [State.loadV86Segs]
@[simp] theorem State.loadV86Segs_cr2 (s : State) (a b c d e f : Sel) : (s.loadV86Segs a b c d e f).cr2 = s.cr2 := by simp [State.loadV86Segs]
@[simp] theorem State.loadV86Segs_cr3 (s : State) (a b c d e f : Sel) : (s.loadV86Segs a b c d e f).cr3 = s.cr3 := by simp [State.loadV86Segs]
@[simp] theorem State.loadV86Segs_cr4 (s : State) (a b c d e f : Sel) : (s.loadV86Segs a b c d e f).cr4 = s.cr4 := by simp [State.loadV86Segs]
@[simp] theorem State.loadV86Segs_dr (s : State) (a b c d e f : Sel) : (s.loadV86Segs a b c d e f).dr = s.dr := by simp [State.loadV86Segs]
@[simp] theorem State.loadV86Segs_pendingFault (s : State) (a b c d e f : Sel) : (s.loadV86Segs a b c d e f).pendingFault = s.pendingFault := by simp [State.loadV86Segs]
@[simp] theorem State.loadV86Segs_refused (s : State) (a b c d e f : Sel) : (s.loadV86Segs a b c d e f).refused = s.refused := by simp [State.loadV86Segs]
@[simp] theorem State.loadV86Segs_mem (s : State) (a b c d e f : Sel) : (s.loadV86Segs a b c d e f).mem = s.mem := by simp [State.loadV86Segs]
@[simp] theorem State.loadV86Segs_mmu (s : State) (a b c d e f : Sel) : (s.loadV86Segs a b c d e f).mmu = s.mmu := by simp [State.loadV86Segs]
@[simp] theorem State.loadV86Segs_inputs (s : State) (a b c d e f : Sel) : (s.loadV86Segs a b c d e f).inputs = s.inputs := by simp [State.loadV86Segs]
@[simp] theorem State.loadV86Segs_params (s : State) (a b c d e f : Sel) : (s.loadV86Segs a b c d e f).params = s.params := by simp [State.loadV86Segs]

/-! ### `State.writeLin` leaves alone -/

@[simp] theorem State.writeLin_gpr (s : State) (a : Word) (n : Nat) (v : Word) : (s.writeLin a n v).gpr = s.gpr := rfl
@[simp] theorem State.writeLin_eip (s : State) (a : Word) (n : Nat) (v : Word) : (s.writeLin a n v).eip = s.eip := rfl
@[simp] theorem State.writeLin_eflags (s : State) (a : Word) (n : Nat) (v : Word) : (s.writeLin a n v).eflags = s.eflags := rfl
@[simp] theorem State.writeLin_cpl (s : State) (a : Word) (n : Nat) (v : Word) : (s.writeLin a n v).cpl = s.cpl := rfl
@[simp] theorem State.writeLin_stack (s : State) (a : Word) (n : Nat) (v : Word) : (s.writeLin a n v).stack = s.stack := rfl
@[simp] theorem State.writeLin_seg (s : State) (a : Word) (n : Nat) (v : Word) : (s.writeLin a n v).seg = s.seg := rfl
@[simp] theorem State.writeLin_gdtr (s : State) (a : Word) (n : Nat) (v : Word) : (s.writeLin a n v).gdtr = s.gdtr := rfl
@[simp] theorem State.writeLin_idtr (s : State) (a : Word) (n : Nat) (v : Word) : (s.writeLin a n v).idtr = s.idtr := rfl
@[simp] theorem State.writeLin_ldtr (s : State) (a : Word) (n : Nat) (v : Word) : (s.writeLin a n v).ldtr = s.ldtr := rfl
@[simp] theorem State.writeLin_tr (s : State) (a : Word) (n : Nat) (v : Word) : (s.writeLin a n v).tr = s.tr := rfl
@[simp] theorem State.writeLin_cr0 (s : State) (a : Word) (n : Nat) (v : Word) : (s.writeLin a n v).cr0 = s.cr0 := rfl
@[simp] theorem State.writeLin_cr2 (s : State) (a : Word) (n : Nat) (v : Word) : (s.writeLin a n v).cr2 = s.cr2 := rfl
@[simp] theorem State.writeLin_cr3 (s : State) (a : Word) (n : Nat) (v : Word) : (s.writeLin a n v).cr3 = s.cr3 := rfl
@[simp] theorem State.writeLin_cr4 (s : State) (a : Word) (n : Nat) (v : Word) : (s.writeLin a n v).cr4 = s.cr4 := rfl
@[simp] theorem State.writeLin_dr (s : State) (a : Word) (n : Nat) (v : Word) : (s.writeLin a n v).dr = s.dr := rfl
@[simp] theorem State.writeLin_pendingFault (s : State) (a : Word) (n : Nat) (v : Word) : (s.writeLin a n v).pendingFault = s.pendingFault := rfl
@[simp] theorem State.writeLin_refused (s : State) (a : Word) (n : Nat) (v : Word) : (s.writeLin a n v).refused = s.refused := rfl
@[simp] theorem State.writeLin_mmu (s : State) (a : Word) (n : Nat) (v : Word) : (s.writeLin a n v).mmu = s.mmu := rfl
@[simp] theorem State.writeLin_inputs (s : State) (a : Word) (n : Nat) (v : Word) : (s.writeLin a n v).inputs = s.inputs := rfl
@[simp] theorem State.writeLin_params (s : State) (a : Word) (n : Nat) (v : Word) : (s.writeLin a n v).params = s.params := rfl

/-! ### `State.takeFault` leaves alone -/

@[simp] theorem State.takeFault_gpr (s : State) (f : FaultCode) : (s.takeFault f).gpr = s.gpr := rfl
@[simp] theorem State.takeFault_eip (s : State) (f : FaultCode) : (s.takeFault f).eip = s.eip := rfl
@[simp] theorem State.takeFault_eflags (s : State) (f : FaultCode) : (s.takeFault f).eflags = s.eflags := rfl
@[simp] theorem State.takeFault_cpl (s : State) (f : FaultCode) : (s.takeFault f).cpl = s.cpl := rfl
@[simp] theorem State.takeFault_stack (s : State) (f : FaultCode) : (s.takeFault f).stack = s.stack := rfl
@[simp] theorem State.takeFault_seg (s : State) (f : FaultCode) : (s.takeFault f).seg = s.seg := rfl
@[simp] theorem State.takeFault_gdtr (s : State) (f : FaultCode) : (s.takeFault f).gdtr = s.gdtr := rfl
@[simp] theorem State.takeFault_idtr (s : State) (f : FaultCode) : (s.takeFault f).idtr = s.idtr := rfl
@[simp] theorem State.takeFault_ldtr (s : State) (f : FaultCode) : (s.takeFault f).ldtr = s.ldtr := rfl
@[simp] theorem State.takeFault_tr (s : State) (f : FaultCode) : (s.takeFault f).tr = s.tr := rfl
@[simp] theorem State.takeFault_cr0 (s : State) (f : FaultCode) : (s.takeFault f).cr0 = s.cr0 := rfl
@[simp] theorem State.takeFault_cr3 (s : State) (f : FaultCode) : (s.takeFault f).cr3 = s.cr3 := rfl
@[simp] theorem State.takeFault_cr4 (s : State) (f : FaultCode) : (s.takeFault f).cr4 = s.cr4 := rfl
@[simp] theorem State.takeFault_dr (s : State) (f : FaultCode) : (s.takeFault f).dr = s.dr := rfl
@[simp] theorem State.takeFault_refused (s : State) (f : FaultCode) : (s.takeFault f).refused = s.refused := rfl
@[simp] theorem State.takeFault_mem (s : State) (f : FaultCode) : (s.takeFault f).mem = s.mem := rfl
@[simp] theorem State.takeFault_mmu (s : State) (f : FaultCode) : (s.takeFault f).mmu = s.mmu := rfl
@[simp] theorem State.takeFault_inputs (s : State) (f : FaultCode) : (s.takeFault f).inputs = s.inputs := rfl
@[simp] theorem State.takeFault_params (s : State) (f : FaultCode) : (s.takeFault f).params = s.params := rfl

/-! ### `State.enterTask` leaves alone -/

@[simp] theorem State.enterTask_stack (s : State) (sel : Sel) (d : Desc) (img : TssImage) (m : SwitchMode) : (s.enterTask sel d img m).stack = s.stack := rfl
@[simp] theorem State.enterTask_gdtr (s : State) (sel : Sel) (d : Desc) (img : TssImage) (m : SwitchMode) : (s.enterTask sel d img m).gdtr = s.gdtr := rfl
@[simp] theorem State.enterTask_idtr (s : State) (sel : Sel) (d : Desc) (img : TssImage) (m : SwitchMode) : (s.enterTask sel d img m).idtr = s.idtr := rfl
@[simp] theorem State.enterTask_cr2 (s : State) (sel : Sel) (d : Desc) (img : TssImage) (m : SwitchMode) : (s.enterTask sel d img m).cr2 = s.cr2 := rfl
@[simp] theorem State.enterTask_cr4 (s : State) (sel : Sel) (d : Desc) (img : TssImage) (m : SwitchMode) : (s.enterTask sel d img m).cr4 = s.cr4 := rfl
@[simp] theorem State.enterTask_dr (s : State) (sel : Sel) (d : Desc) (img : TssImage) (m : SwitchMode) : (s.enterTask sel d img m).dr = s.dr := rfl
@[simp] theorem State.enterTask_pendingFault (s : State) (sel : Sel) (d : Desc) (img : TssImage) (m : SwitchMode) : (s.enterTask sel d img m).pendingFault = s.pendingFault := rfl
@[simp] theorem State.enterTask_refused (s : State) (sel : Sel) (d : Desc) (img : TssImage) (m : SwitchMode) : (s.enterTask sel d img m).refused = s.refused := rfl
@[simp] theorem State.enterTask_mem (s : State) (sel : Sel) (d : Desc) (img : TssImage) (m : SwitchMode) : (s.enterTask sel d img m).mem = s.mem := rfl
@[simp] theorem State.enterTask_inputs (s : State) (sel : Sel) (d : Desc) (img : TssImage) (m : SwitchMode) : (s.enterTask sel d img m).inputs = s.inputs := rfl
@[simp] theorem State.enterTask_params (s : State) (sel : Sel) (d : Desc) (img : TssImage) (m : SwitchMode) : (s.enterTask sel d img m).params = s.params := rfl

/-! ### `State.writeCr0` leaves alone -/

@[simp] theorem State.writeCr0_gpr (s : State) (v : Word) : (s.writeCr0 v).gpr = s.gpr := rfl
@[simp] theorem State.writeCr0_eip (s : State) (v : Word) : (s.writeCr0 v).eip = s.eip := rfl
@[simp] theorem State.writeCr0_eflags (s : State) (v : Word) : (s.writeCr0 v).eflags = s.eflags := rfl
@[simp] theorem State.writeCr0_cpl (s : State) (v : Word) : (s.writeCr0 v).cpl = s.cpl := rfl
@[simp] theorem State.writeCr0_stack (s : State) (v : Word) : (s.writeCr0 v).stack = s.stack := rfl
@[simp] theorem State.writeCr0_seg (s : State) (v : Word) : (s.writeCr0 v).seg = s.seg := rfl
@[simp] theorem State.writeCr0_gdtr (s : State) (v : Word) : (s.writeCr0 v).gdtr = s.gdtr := rfl
@[simp] theorem State.writeCr0_idtr (s : State) (v : Word) : (s.writeCr0 v).idtr = s.idtr := rfl
@[simp] theorem State.writeCr0_ldtr (s : State) (v : Word) : (s.writeCr0 v).ldtr = s.ldtr := rfl
@[simp] theorem State.writeCr0_tr (s : State) (v : Word) : (s.writeCr0 v).tr = s.tr := rfl
@[simp] theorem State.writeCr0_cr2 (s : State) (v : Word) : (s.writeCr0 v).cr2 = s.cr2 := rfl
@[simp] theorem State.writeCr0_cr3 (s : State) (v : Word) : (s.writeCr0 v).cr3 = s.cr3 := rfl
@[simp] theorem State.writeCr0_cr4 (s : State) (v : Word) : (s.writeCr0 v).cr4 = s.cr4 := rfl
@[simp] theorem State.writeCr0_dr (s : State) (v : Word) : (s.writeCr0 v).dr = s.dr := rfl
@[simp] theorem State.writeCr0_pendingFault (s : State) (v : Word) : (s.writeCr0 v).pendingFault = s.pendingFault := rfl
@[simp] theorem State.writeCr0_refused (s : State) (v : Word) : (s.writeCr0 v).refused = s.refused := rfl
@[simp] theorem State.writeCr0_mem (s : State) (v : Word) : (s.writeCr0 v).mem = s.mem := rfl
@[simp] theorem State.writeCr0_inputs (s : State) (v : Word) : (s.writeCr0 v).inputs = s.inputs := rfl
@[simp] theorem State.writeCr0_params (s : State) (v : Word) : (s.writeCr0 v).params = s.params := rfl

/-! ### `State.writeCr` leaves alone -/

@[simp] theorem State.writeCr_gpr (s : State) (n : BitVec 3) (v : Word) : (s.writeCr n v).gpr = s.gpr := by unfold State.writeCr; split <;> rfl
@[simp] theorem State.writeCr_eip (s : State) (n : BitVec 3) (v : Word) : (s.writeCr n v).eip = s.eip := by unfold State.writeCr; split <;> rfl
@[simp] theorem State.writeCr_eflags (s : State) (n : BitVec 3) (v : Word) : (s.writeCr n v).eflags = s.eflags := by unfold State.writeCr; split <;> rfl
@[simp] theorem State.writeCr_cpl (s : State) (n : BitVec 3) (v : Word) : (s.writeCr n v).cpl = s.cpl := by unfold State.writeCr; split <;> rfl
@[simp] theorem State.writeCr_stack (s : State) (n : BitVec 3) (v : Word) : (s.writeCr n v).stack = s.stack := by unfold State.writeCr; split <;> rfl
@[simp] theorem State.writeCr_seg (s : State) (n : BitVec 3) (v : Word) : (s.writeCr n v).seg = s.seg := by unfold State.writeCr; split <;> rfl
@[simp] theorem State.writeCr_gdtr (s : State) (n : BitVec 3) (v : Word) : (s.writeCr n v).gdtr = s.gdtr := by unfold State.writeCr; split <;> rfl
@[simp] theorem State.writeCr_idtr (s : State) (n : BitVec 3) (v : Word) : (s.writeCr n v).idtr = s.idtr := by unfold State.writeCr; split <;> rfl
@[simp] theorem State.writeCr_ldtr (s : State) (n : BitVec 3) (v : Word) : (s.writeCr n v).ldtr = s.ldtr := by unfold State.writeCr; split <;> rfl
@[simp] theorem State.writeCr_tr (s : State) (n : BitVec 3) (v : Word) : (s.writeCr n v).tr = s.tr := by unfold State.writeCr; split <;> rfl
@[simp] theorem State.writeCr_dr (s : State) (n : BitVec 3) (v : Word) : (s.writeCr n v).dr = s.dr := by unfold State.writeCr; split <;> rfl
@[simp] theorem State.writeCr_pendingFault (s : State) (n : BitVec 3) (v : Word) : (s.writeCr n v).pendingFault = s.pendingFault := by unfold State.writeCr; split <;> rfl
@[simp] theorem State.writeCr_refused (s : State) (n : BitVec 3) (v : Word) : (s.writeCr n v).refused = s.refused := by unfold State.writeCr; split <;> rfl
@[simp] theorem State.writeCr_mem (s : State) (n : BitVec 3) (v : Word) : (s.writeCr n v).mem = s.mem := by unfold State.writeCr; split <;> rfl
@[simp] theorem State.writeCr_inputs (s : State) (n : BitVec 3) (v : Word) : (s.writeCr n v).inputs = s.inputs := by unfold State.writeCr; split <;> rfl
@[simp] theorem State.writeCr_params (s : State) (n : BitVec 3) (v : Word) : (s.writeCr n v).params = s.params := by unfold State.writeCr; split <;> rfl

/-! ### `State.report` leaves alone -/

@[simp] theorem State.report_eip (s : State) (r : Gpr) (w : Bool) (v : Option Word) : (s.report r w v).eip = s.eip := by cases v <;> rfl
@[simp] theorem State.report_cpl (s : State) (r : Gpr) (w : Bool) (v : Option Word) : (s.report r w v).cpl = s.cpl := by cases v <;> rfl
@[simp] theorem State.report_stack (s : State) (r : Gpr) (w : Bool) (v : Option Word) : (s.report r w v).stack = s.stack := by cases v <;> rfl
@[simp] theorem State.report_seg (s : State) (r : Gpr) (w : Bool) (v : Option Word) : (s.report r w v).seg = s.seg := by cases v <;> rfl
@[simp] theorem State.report_gdtr (s : State) (r : Gpr) (w : Bool) (v : Option Word) : (s.report r w v).gdtr = s.gdtr := by cases v <;> rfl
@[simp] theorem State.report_idtr (s : State) (r : Gpr) (w : Bool) (v : Option Word) : (s.report r w v).idtr = s.idtr := by cases v <;> rfl
@[simp] theorem State.report_ldtr (s : State) (r : Gpr) (w : Bool) (v : Option Word) : (s.report r w v).ldtr = s.ldtr := by cases v <;> rfl
@[simp] theorem State.report_tr (s : State) (r : Gpr) (w : Bool) (v : Option Word) : (s.report r w v).tr = s.tr := by cases v <;> rfl
@[simp] theorem State.report_cr0 (s : State) (r : Gpr) (w : Bool) (v : Option Word) : (s.report r w v).cr0 = s.cr0 := by cases v <;> rfl
@[simp] theorem State.report_cr2 (s : State) (r : Gpr) (w : Bool) (v : Option Word) : (s.report r w v).cr2 = s.cr2 := by cases v <;> rfl
@[simp] theorem State.report_cr3 (s : State) (r : Gpr) (w : Bool) (v : Option Word) : (s.report r w v).cr3 = s.cr3 := by cases v <;> rfl
@[simp] theorem State.report_cr4 (s : State) (r : Gpr) (w : Bool) (v : Option Word) : (s.report r w v).cr4 = s.cr4 := by cases v <;> rfl
@[simp] theorem State.report_dr (s : State) (r : Gpr) (w : Bool) (v : Option Word) : (s.report r w v).dr = s.dr := by cases v <;> rfl
@[simp] theorem State.report_pendingFault (s : State) (r : Gpr) (w : Bool) (v : Option Word) : (s.report r w v).pendingFault = s.pendingFault := by cases v <;> rfl
@[simp] theorem State.report_refused (s : State) (r : Gpr) (w : Bool) (v : Option Word) : (s.report r w v).refused = s.refused := by cases v <;> rfl
@[simp] theorem State.report_mem (s : State) (r : Gpr) (w : Bool) (v : Option Word) : (s.report r w v).mem = s.mem := by cases v <;> rfl
@[simp] theorem State.report_mmu (s : State) (r : Gpr) (w : Bool) (v : Option Word) : (s.report r w v).mmu = s.mmu := by cases v <;> rfl
@[simp] theorem State.report_inputs (s : State) (r : Gpr) (w : Bool) (v : Option Word) : (s.report r w v).inputs = s.inputs := by cases v <;> rfl
@[simp] theorem State.report_params (s : State) (r : Gpr) (w : Bool) (v : Option Word) : (s.report r w v).params = s.params := by cases v <;> rfl

/-! ### `State.coreException` leaves alone -/

@[simp] theorem State.coreException_gpr (s : State) (v : BitVec 8) (c : Word) : (s.coreException v c).gpr = s.gpr := rfl
@[simp] theorem State.coreException_eip (s : State) (v : BitVec 8) (c : Word) : (s.coreException v c).eip = s.eip := rfl
@[simp] theorem State.coreException_eflags (s : State) (v : BitVec 8) (c : Word) : (s.coreException v c).eflags = s.eflags := rfl
@[simp] theorem State.coreException_cpl (s : State) (v : BitVec 8) (c : Word) : (s.coreException v c).cpl = s.cpl := rfl
@[simp] theorem State.coreException_stack (s : State) (v : BitVec 8) (c : Word) : (s.coreException v c).stack = s.stack := rfl
@[simp] theorem State.coreException_seg (s : State) (v : BitVec 8) (c : Word) : (s.coreException v c).seg = s.seg := rfl
@[simp] theorem State.coreException_gdtr (s : State) (v : BitVec 8) (c : Word) : (s.coreException v c).gdtr = s.gdtr := rfl
@[simp] theorem State.coreException_idtr (s : State) (v : BitVec 8) (c : Word) : (s.coreException v c).idtr = s.idtr := rfl
@[simp] theorem State.coreException_ldtr (s : State) (v : BitVec 8) (c : Word) : (s.coreException v c).ldtr = s.ldtr := rfl
@[simp] theorem State.coreException_tr (s : State) (v : BitVec 8) (c : Word) : (s.coreException v c).tr = s.tr := rfl
@[simp] theorem State.coreException_cr0 (s : State) (v : BitVec 8) (c : Word) : (s.coreException v c).cr0 = s.cr0 := rfl
@[simp] theorem State.coreException_cr3 (s : State) (v : BitVec 8) (c : Word) : (s.coreException v c).cr3 = s.cr3 := rfl
@[simp] theorem State.coreException_cr4 (s : State) (v : BitVec 8) (c : Word) : (s.coreException v c).cr4 = s.cr4 := rfl
@[simp] theorem State.coreException_dr (s : State) (v : BitVec 8) (c : Word) : (s.coreException v c).dr = s.dr := rfl
@[simp] theorem State.coreException_refused (s : State) (v : BitVec 8) (c : Word) : (s.coreException v c).refused = s.refused := rfl
@[simp] theorem State.coreException_mem (s : State) (v : BitVec 8) (c : Word) : (s.coreException v c).mem = s.mem := rfl
@[simp] theorem State.coreException_mmu (s : State) (v : BitVec 8) (c : Word) : (s.coreException v c).mmu = s.mmu := rfl
@[simp] theorem State.coreException_inputs (s : State) (v : BitVec 8) (c : Word) : (s.coreException v c).inputs = s.inputs := rfl
@[simp] theorem State.coreException_params (s : State) (v : BitVec 8) (c : Word) : (s.coreException v c).params = s.params := rfl

/-! ### `State.iretOuterRegs` leaves alone -/

@[simp] theorem State.iretOuterRegs_gdtr (s : State) (cs : Sel) (d : Desc) (nss : Sel) (sd : Desc) (nesp eip fl : Word) (w : Bool) : (s.iretOuterRegs cs d nss sd nesp eip fl w).gdtr = s.gdtr := by simp [State.iretOuterRegs]
@[simp] theorem State.iretOuterRegs_idtr (s : State) (cs : Sel) (d : Desc) (nss : Sel) (sd : Desc) (nesp eip fl : Word) (w : Bool) : (s.iretOuterRegs cs d nss sd nesp eip fl w).idtr = s.idtr := by simp [State.iretOuterRegs]
@[simp] theorem State.iretOuterRegs_ldtr (s : State) (cs : Sel) (d : Desc) (nss : Sel) (sd : Desc) (nesp eip fl : Word) (w : Bool) : (s.iretOuterRegs cs d nss sd nesp eip fl w).ldtr = s.ldtr := by simp [State.iretOuterRegs]
@[simp] theorem State.iretOuterRegs_tr (s : State) (cs : Sel) (d : Desc) (nss : Sel) (sd : Desc) (nesp eip fl : Word) (w : Bool) : (s.iretOuterRegs cs d nss sd nesp eip fl w).tr = s.tr := by simp [State.iretOuterRegs]
@[simp] theorem State.iretOuterRegs_cr0 (s : State) (cs : Sel) (d : Desc) (nss : Sel) (sd : Desc) (nesp eip fl : Word) (w : Bool) : (s.iretOuterRegs cs d nss sd nesp eip fl w).cr0 = s.cr0 := by simp [State.iretOuterRegs]
@[simp] theorem State.iretOuterRegs_cr2 (s : State) (cs : Sel) (d : Desc) (nss : Sel) (sd : Desc) (nesp eip fl : Word) (w : Bool) : (s.iretOuterRegs cs d nss sd nesp eip fl w).cr2 = s.cr2 := by simp [State.iretOuterRegs]
@[simp] theorem State.iretOuterRegs_cr3 (s : State) (cs : Sel) (d : Desc) (nss : Sel) (sd : Desc) (nesp eip fl : Word) (w : Bool) : (s.iretOuterRegs cs d nss sd nesp eip fl w).cr3 = s.cr3 := by simp [State.iretOuterRegs]
@[simp] theorem State.iretOuterRegs_cr4 (s : State) (cs : Sel) (d : Desc) (nss : Sel) (sd : Desc) (nesp eip fl : Word) (w : Bool) : (s.iretOuterRegs cs d nss sd nesp eip fl w).cr4 = s.cr4 := by simp [State.iretOuterRegs]
@[simp] theorem State.iretOuterRegs_dr (s : State) (cs : Sel) (d : Desc) (nss : Sel) (sd : Desc) (nesp eip fl : Word) (w : Bool) : (s.iretOuterRegs cs d nss sd nesp eip fl w).dr = s.dr := by simp [State.iretOuterRegs]
@[simp] theorem State.iretOuterRegs_pendingFault (s : State) (cs : Sel) (d : Desc) (nss : Sel) (sd : Desc) (nesp eip fl : Word) (w : Bool) : (s.iretOuterRegs cs d nss sd nesp eip fl w).pendingFault = s.pendingFault := by simp [State.iretOuterRegs]
@[simp] theorem State.iretOuterRegs_refused (s : State) (cs : Sel) (d : Desc) (nss : Sel) (sd : Desc) (nesp eip fl : Word) (w : Bool) : (s.iretOuterRegs cs d nss sd nesp eip fl w).refused = s.refused := by simp [State.iretOuterRegs]
@[simp] theorem State.iretOuterRegs_mem (s : State) (cs : Sel) (d : Desc) (nss : Sel) (sd : Desc) (nesp eip fl : Word) (w : Bool) : (s.iretOuterRegs cs d nss sd nesp eip fl w).mem = s.mem := by simp [State.iretOuterRegs]
@[simp] theorem State.iretOuterRegs_mmu (s : State) (cs : Sel) (d : Desc) (nss : Sel) (sd : Desc) (nesp eip fl : Word) (w : Bool) : (s.iretOuterRegs cs d nss sd nesp eip fl w).mmu = s.mmu := by simp [State.iretOuterRegs]
@[simp] theorem State.iretOuterRegs_inputs (s : State) (cs : Sel) (d : Desc) (nss : Sel) (sd : Desc) (nesp eip fl : Word) (w : Bool) : (s.iretOuterRegs cs d nss sd nesp eip fl w).inputs = s.inputs := by simp [State.iretOuterRegs]
@[simp] theorem State.iretOuterRegs_params (s : State) (cs : Sel) (d : Desc) (nss : Sel) (sd : Desc) (nesp eip fl : Word) (w : Bool) : (s.iretOuterRegs cs d nss sd nesp eip fl w).params = s.params := by simp [State.iretOuterRegs]

/-! ### `State.returnOuterRegs` leaves alone -/

@[simp] theorem State.returnOuterRegs_eflags (s : State) (cs : Sel) (d : Desc) (nss : Sel) (sd : Desc) (nesp eip : Word) (imm : BitVec 16) (w : Bool) : (s.returnOuterRegs cs d nss sd nesp eip imm w).eflags = s.eflags := by simp [State.returnOuterRegs]
@[simp] theorem State.returnOuterRegs_gdtr (s : State) (cs : Sel) (d : Desc) (nss : Sel) (sd : Desc) (nesp eip : Word) (imm : BitVec 16) (w : Bool) : (s.returnOuterRegs cs d nss sd nesp eip imm w).gdtr = s.gdtr := by simp [State.returnOuterRegs]
@[simp] theorem State.returnOuterRegs_idtr (s : State) (cs : Sel) (d : Desc) (nss : Sel) (sd : Desc) (nesp eip : Word) (imm : BitVec 16) (w : Bool) : (s.returnOuterRegs cs d nss sd nesp eip imm w).idtr = s.idtr := by simp [State.returnOuterRegs]
@[simp] theorem State.returnOuterRegs_ldtr (s : State) (cs : Sel) (d : Desc) (nss : Sel) (sd : Desc) (nesp eip : Word) (imm : BitVec 16) (w : Bool) : (s.returnOuterRegs cs d nss sd nesp eip imm w).ldtr = s.ldtr := by simp [State.returnOuterRegs]
@[simp] theorem State.returnOuterRegs_tr (s : State) (cs : Sel) (d : Desc) (nss : Sel) (sd : Desc) (nesp eip : Word) (imm : BitVec 16) (w : Bool) : (s.returnOuterRegs cs d nss sd nesp eip imm w).tr = s.tr := by simp [State.returnOuterRegs]
@[simp] theorem State.returnOuterRegs_cr0 (s : State) (cs : Sel) (d : Desc) (nss : Sel) (sd : Desc) (nesp eip : Word) (imm : BitVec 16) (w : Bool) : (s.returnOuterRegs cs d nss sd nesp eip imm w).cr0 = s.cr0 := by simp [State.returnOuterRegs]
@[simp] theorem State.returnOuterRegs_cr2 (s : State) (cs : Sel) (d : Desc) (nss : Sel) (sd : Desc) (nesp eip : Word) (imm : BitVec 16) (w : Bool) : (s.returnOuterRegs cs d nss sd nesp eip imm w).cr2 = s.cr2 := by simp [State.returnOuterRegs]
@[simp] theorem State.returnOuterRegs_cr3 (s : State) (cs : Sel) (d : Desc) (nss : Sel) (sd : Desc) (nesp eip : Word) (imm : BitVec 16) (w : Bool) : (s.returnOuterRegs cs d nss sd nesp eip imm w).cr3 = s.cr3 := by simp [State.returnOuterRegs]
@[simp] theorem State.returnOuterRegs_cr4 (s : State) (cs : Sel) (d : Desc) (nss : Sel) (sd : Desc) (nesp eip : Word) (imm : BitVec 16) (w : Bool) : (s.returnOuterRegs cs d nss sd nesp eip imm w).cr4 = s.cr4 := by simp [State.returnOuterRegs]
@[simp] theorem State.returnOuterRegs_dr (s : State) (cs : Sel) (d : Desc) (nss : Sel) (sd : Desc) (nesp eip : Word) (imm : BitVec 16) (w : Bool) : (s.returnOuterRegs cs d nss sd nesp eip imm w).dr = s.dr := by simp [State.returnOuterRegs]
@[simp] theorem State.returnOuterRegs_pendingFault (s : State) (cs : Sel) (d : Desc) (nss : Sel) (sd : Desc) (nesp eip : Word) (imm : BitVec 16) (w : Bool) : (s.returnOuterRegs cs d nss sd nesp eip imm w).pendingFault = s.pendingFault := by simp [State.returnOuterRegs]
@[simp] theorem State.returnOuterRegs_refused (s : State) (cs : Sel) (d : Desc) (nss : Sel) (sd : Desc) (nesp eip : Word) (imm : BitVec 16) (w : Bool) : (s.returnOuterRegs cs d nss sd nesp eip imm w).refused = s.refused := by simp [State.returnOuterRegs]
@[simp] theorem State.returnOuterRegs_mem (s : State) (cs : Sel) (d : Desc) (nss : Sel) (sd : Desc) (nesp eip : Word) (imm : BitVec 16) (w : Bool) : (s.returnOuterRegs cs d nss sd nesp eip imm w).mem = s.mem := by simp [State.returnOuterRegs]
@[simp] theorem State.returnOuterRegs_mmu (s : State) (cs : Sel) (d : Desc) (nss : Sel) (sd : Desc) (nesp eip : Word) (imm : BitVec 16) (w : Bool) : (s.returnOuterRegs cs d nss sd nesp eip imm w).mmu = s.mmu := by simp [State.returnOuterRegs]
@[simp] theorem State.returnOuterRegs_inputs (s : State) (cs : Sel) (d : Desc) (nss : Sel) (sd : Desc) (nesp eip : Word) (imm : BitVec 16) (w : Bool) : (s.returnOuterRegs cs d nss sd nesp eip imm w).inputs = s.inputs := by simp [State.returnOuterRegs]
@[simp] theorem State.returnOuterRegs_params (s : State) (cs : Sel) (d : Desc) (nss : Sel) (sd : Desc) (nesp eip : Word) (imm : BitVec 16) (w : Bool) : (s.returnOuterRegs cs d nss sd nesp eip imm w).params = s.params := by simp [State.returnOuterRegs]

/-! ### What each update writes -/

@[simp] theorem State.setEsp_gpr (s : State) (v : Word) :
    (s.setEsp v).gpr = { s.gpr with esp := s.stack.merge s.gpr.esp v } := rfl
@[simp] theorem State.loadEsp_gpr (s : State) (v : Word) : (s.loadEsp v).gpr = { s.gpr with esp := v } := rfl
@[simp] theorem State.withEflags_eflags (s : State) (v : Word) : (s.withEflags v).eflags = eflagsWrite v := rfl
@[simp] theorem State.withFlag_eflags (s : State) (n : Nat) (b : Bool) :
    (s.withFlag n b).eflags = eflagsWrite (setBit s.eflags n b) := rfl
@[simp] theorem State.setGpr_gpr (s : State) (r : Gpr) (w : Bool) (v : Word) :
    (s.setGpr r w v).gpr = s.gpr.set r (mergeSize w (s.gpr.get r) v) := rfl
@[simp] theorem State.setSeg_seg (s : State) (n : SegName) (r : SegReg) : (s.setSeg n r).seg = s.seg.set n r := by
  cases n <;> rfl
@[simp] theorem State.setSeg_stack_ss (s : State) (r : SegReg) : (s.setSeg .ss r).stack = .ofBig r.big := rfl
theorem State.setSeg_stack (s : State) (n : SegName) (r : SegReg) (h : n ≠ .ss) : (s.setSeg n r).stack = s.stack := by
  cases n <;> first | rfl | exact absurd rfl h
@[simp] theorem State.installSeg_seg (s : State) (n : SegName) (sel : Sel) (d : Desc) :
    (s.installSeg n sel d).seg = s.seg.set n (d.toSeg sel) := by cases n <;> rfl
@[simp] theorem State.installNull_seg (s : State) (n : SegName) (sel : Sel) :
    (s.installNull n sel).seg = s.seg.set n (.null sel) := rfl
@[simp] theorem State.installCs_seg (s : State) (sel : Sel) (d : Desc) (n : Level) :
    (s.installCs sel d n).seg = s.seg.set .cs (d.toSeg (withRpl sel n)) := rfl
@[simp] theorem State.installCs_cpl (s : State) (sel : Sel) (d : Desc) (n : Level) : (s.installCs sel d n).cpl = n := rfl
@[simp] theorem State.enterStack_cpl (s : State) (sel : Sel) (d : Desc) (esp : Word) (n : Level) :
    (s.enterStack sel d esp n).cpl = n := rfl
@[simp] theorem State.enterStack_esp (s : State) (sel : Sel) (d : Desc) (esp : Word) (n : Level) :
    (s.enterStack sel d esp n).gpr = { s.gpr with esp := esp } := rfl
@[simp] theorem State.takeFault_pendingFault (s : State) (f : FaultCode) :
    (s.takeFault f).pendingFault =
      some { vector := f.vector, hasError := f.hasError, errorCode := f.errorCode, returnEip := s.eip } := rfl
@[simp] theorem State.takeFault_cr2 (s : State) (f : FaultCode) : (s.takeFault f).cr2 = f.cr2.getD s.cr2 := rfl
@[simp] theorem Gprs.get_set_same (g : Gprs) (r : Gpr) (v : Word) : (g.set r v).get r = v := by cases r <;> rfl
theorem Gprs.get_set_other (g : Gprs) (r q : Gpr) (v : Word) (h : q ≠ r) : (g.set r v).get q = g.get q := by
  cases r <;> cases q <;> first | rfl | exact absurd rfl h
@[simp] theorem Segs.get_set_same (g : Segs) (n : SegName) (r : SegReg) : (g.set n r).get n = r := by cases n <;> rfl
theorem Segs.get_set_other (g : Segs) (n q : SegName) (r : SegReg) (h : q ≠ n) : (g.set n r).get q = g.get q := by
  cases n <;> cases q <;> first | rfl | exact absurd rfl h

/-! ### Writing back what is there -/

@[simp] theorem State.loadEsp_self (s : State) : s.loadEsp s.gpr.esp = s := rfl

end Sys2Proof.Machine
end

