-- ==== Sys2Proof/Laws/Op.lean ====
section
/-! SUPPORT. What each shared piece of an operation answers: the equations that run an operation symbolically, and one lemma for
each shared read, check and push, under the condition that the `Mmu` allows it. -/

namespace Sys2Proof.Machine

variable {α β : Type}

/-! ### Running -/

@[simp] theorem bind_apply (x : Op α) (f : α → Op β) (c : Ctx) :
    (x >>= f) c = match x c with
      | .ok a c' => f a c'
      | .error e c' => .error e c' := by
  show EStateM.bind x f c = _
  unfold EStateM.bind
  cases x c <;> rfl
@[simp] theorem map_apply (f : α → β) (x : Op α) (c : Ctx) :
    (f <$> x) c = match x c with
      | .ok a c' => .ok (f a) c'
      | .error e c' => .error e c' := by
  show EStateM.map f x c = _
  unfold EStateM.map
  cases x c <;> rfl
@[simp] theorem pure_apply (a : α) (c : Ctx) : (pure a : Op α) c = .ok a c := rfl
@[simp] theorem work_apply (c : Ctx) : work c = .ok c.work c := rfl
@[simp] theorem modifyWork_apply (f : State → State) (c : Ctx) : modifyWork f c = .ok () { c with work := f c.work } := rfl
@[simp] theorem raiseFault_apply (f : FaultCode) (c : Ctx) : (raiseFault f : Op α) c = .error (.raise f) c := rfl
@[simp] theorem raiseIf_false (f : FaultCode) : raiseIf false f = pure () := rfl
@[simp] theorem raiseIf_true (f : FaultCode) : raiseIf true f = raiseFault f := rfl
@[simp] theorem refuseIf_false (c : Ctx) : refuseIf false c = .ok () c := rfl
@[simp] theorem refuseIf_true (c : Ctx) : refuseIf true c = .error .refuse c := rfl
@[simp] theorem whenOp_false (op : Op Unit) : whenOp false op = pure () := rfl
@[simp] theorem whenOp_true (op : Op Unit) : whenOp true op = op := rfl
@[simp] theorem keepWork_apply (c : Ctx) : keepWork c = .ok () { c with base := c.work } := rfl
@[simp] theorem advance_apply (next : Word) (c : Ctx) :
    advance next c = .ok () { c with work := { c.work with eip := next } } := rfl
@[simp] theorem finish_ok (u : Unit) (c : Ctx) : finish (.ok u c) = .next c.commit := rfl
@[simp] theorem finish_raise (f : FaultCode) (c : Ctx) : finish (.error (.raise f) c) = .next (c.base.takeFault f) := rfl
@[simp] theorem finish_refuse (c : Ctx) : finish (.error .refuse c) = .next { c.base with refused := true } := rfl
@[simp] theorem start_work (s : State) : (Ctx.start s).work = s := rfl
@[simp] theorem start_base (s : State) : (Ctx.start s).base = s := rfl
@[simp] theorem start_plan (s : State) : (Ctx.start s).plan = [] := rfl
@[simp] theorem start_switched (s : State) : (Ctx.start s).switched = false := rfl
@[simp] theorem start_answers (s : State) : (Ctx.start s).answers = s.mmu.answers := rfl
@[simp] theorem raiseIf_ne {γ : Type} [BEq γ] [LawfulBEq γ] {a b : γ} (h : a ≠ b) (f : FaultCode) :
    raiseIf (a != b) f = raiseFault f := by rw [show (a != b) = true from by simpa using h]; rfl
@[simp] theorem raiseIf_same {γ : Type} [BEq γ] [LawfulBEq γ] (a : γ) (f : FaultCode) : raiseIf (a != a) f = pure () := by
  rw [show (a != a) = false from by simp]; rfl
@[simp] theorem refuseIf_ne {γ : Type} [BEq γ] [LawfulBEq γ] {a b : γ} (h : a ≠ b) (c : Ctx) :
    refuseIf (a == b) c = .ok () c := by rw [show (a == b) = false from by simpa using h]; rfl
@[simp] theorem refuseIf_same {γ : Type} [BEq γ] [LawfulBEq γ] (a : γ) (c : Ctx) :
    refuseIf (a == a) c = .error .refuse c := by rw [show (a == a) = true from by simp]; rfl
theorem raiseIf_of {b : Bool} (h : b = true) (f : FaultCode) : raiseIf b f = raiseFault f := by rw [h]; rfl
theorem raiseIf_not {b : Bool} (h : b = false) (f : FaultCode) : raiseIf b f = pure () := by rw [h]; rfl

/-- The base of a protected-mode operation. -/
theorem State.prot_of_checked {s : State} (h : s.unchecked = false) : s.pe = true ∧ s.vm = false := by
  simpa [State.unchecked] using h

theorem State.checked_of_prot {s : State} (h : s.pe = true) (hv : s.vm = false) : s.unchecked = false := by
  simp [State.unchecked, h, hv]

/-- An operation that plans no write commits its working copy. -/
theorem commit_of_no_writes (c : Ctx) (h : c.plan = []) (hm : c.work.mem = c.base.mem) : c.commit = c.work := by
  simp [Ctx.commit, h, ← hm]

/-- The access byte of a TSS made busy, or available (40_privilege_checks.md R126). -/
theorem busyByte_true (v : Word) : busyByte v true = v ||| 2#32 := by
  have cover : ∀ i : Fin 32, (~~~2#32)[i.val] = true ∨ (2#32)[i.val] = true := by decide
  ext i hi
  have := cover ⟨i, hi⟩
  simp at this
  rcases this with h | h <;> simp [busyByte, h]

theorem busyByte_false (v : Word) : busyByte v false = v &&& ~~~2#32 := by simp [busyByte]

/-! ### Reads before any write -/

/-- Nothing is planned yet, no access has been answered, and the working copy has the memory and the `Mmu` of the committed
state. -/
structure Ctx.Fresh (c : Ctx) : Prop where
  plan : c.plan = []
  mem : c.work.mem = c.base.mem
  mmu : c.work.mmu = c.base.mmu
  answers : c.answers = c.work.mmu.answers

theorem fresh_start (s : State) : (Ctx.start s).Fresh := ⟨rfl, rfl, rfl, rfl⟩

/-! An access that the `Mmu` answers by its view. -/

theorem Ctx.check_plain {c : Ctx} (h : c.answers = []) (x : Access) : c.check x = c.base.mmu.check x := by
  simp [Ctx.check, h]

theorem Ctx.asked_plain {c : Ctx} (h : c.answers = []) : c.asked = c := by
  rw [Ctx.asked, h, List.tail_nil, ← h]

theorem Ctx.readByte_plain {c : Ctx} (h : c.answers = []) (a x : Word) :
    c.readByte a x = (c.plan.lookup x).getD (c.base.readByte x) := by
  simp [Ctx.readByte, Ctx.mmuByte, h]

theorem memRead_plain {c : Ctx} (h : c.answers = []) (user : Bool) (a : Word) (n : Nat) :
    memRead user a n c = match c.base.mmu.check { addr := a, size := n, write := false, user := user } with
      | some f => .error (.raise f.code) c
      | none => .ok (readLe (fun x => (c.plan.lookup x).getD (c.base.readByte x)) a n) c := by
  have hb : c.readByte a = fun x => (c.plan.lookup x).getD (c.base.readByte x) := funext (Ctx.readByte_plain h a)
  cases hx : c.base.mmu.check { addr := a, size := n, write := false, user := user } <;>
    simp [memRead, Ctx.check_plain h, Ctx.asked_plain h, hb, hx]

theorem memWrite_plain {c : Ctx} (h : c.answers = []) (user : Bool) (a : Word) (n : Nat) (v : Word) :
    memWrite user a n v c = match c.base.mmu.check { addr := a, size := n, write := true, user := user } with
      | some f => .error (.raise f.code) c
      | none => .ok () { c with plan := (bytesLe a n v).reverse ++ c.plan } := by
  cases hx : c.base.mmu.check { addr := a, size := n, write := true, user := user } <;>
    simp [memWrite, Ctx.check_plain h, Ctx.asked_plain h, hx]

theorem State.canRead_iff {s : State} {user : Bool} {a : Word} {n : Nat} : s.canRead user a n = true ↔
    s.mmu.answers = [] ∧ s.mmu.check { addr := a, size := n, write := false, user := user } = none := by
  simp [State.canRead]

theorem State.canWrite_iff {s : State} {user : Bool} {a : Word} {n : Nat} : s.canWrite user a n = true ↔
    s.mmu.answers = [] ∧ s.mmu.check { addr := a, size := n, write := true, user := user } = none := by
  simp [State.canWrite]

theorem memRead_fresh {c : Ctx} (h : c.Fresh) (user : Bool) (a : Word) (n : Nat) (hr : c.work.canRead user a n = true) :
    memRead user a n c = .ok (c.work.readLin a n) c := by
  obtain ⟨ha, hr⟩ := State.canRead_iff.1 hr
  have hb : c.base.readByte = c.work.readByte := by funext x; simp [State.readByte, h.mem, h.mmu]
  rw [h.mmu] at hr
  simp [memRead_plain (h.answers.trans ha), hr, State.readLin, h.plan, hb]

/-- The first access of an operation is refused: by the answer the `Mmu` gives to it, or by its view. -/
theorem memRead_faults {s : State} (user : Bool) (a : Word) (n : Nat) (f : MmuFault)
    (hf : s.checkFirst { addr := a, size := n, write := false, user := user } = some f) :
    memRead user a n (Ctx.start s) = .error (.raise f.code) (Ctx.start s).asked := by
  have : (Ctx.start s).check { addr := a, size := n, write := false, user := user } = some f := hf
  simp [memRead, this]

theorem lookupDesc_fresh {c : Ctx} (h : c.Fresh) (sel : Sel) (hm : c.work.canLookup sel = true) :
    lookupDesc sel c = .ok (c.work.lookup sel) c := by
  by_cases hb : c.work.beyondLimit sel = true
  · simp [lookupDesc, State.lookup, hb]
  · simp only [Bool.not_eq_true] at hb
    simp only [State.canLookup, hb, Bool.false_or, Bool.and_eq_true] at hm
    simp [lookupDesc, State.lookup, hb, memRead_fresh h _ _ _ hm.1, memRead_fresh h _ _ _ hm.2]

theorem requireDesc_some {c : Ctx} (h : c.Fresh) (sel : Sel) (f : FaultCode) (d : Desc)
    (hm : c.work.canLookup sel = true) (hd : c.work.lookup sel = some d) : requireDesc sel f c = .ok d c := by
  simp [requireDesc, lookupDesc_fresh h sel hm, hd]

theorem requireDesc_none {c : Ctx} (h : c.Fresh) (sel : Sel) (f : FaultCode)
    (hm : c.work.canLookup sel = true) (hd : c.work.lookup sel = none) : requireDesc sel f c = .error (.raise f) c := by
  simp [requireDesc, lookupDesc_fresh h sel hm, hd]

theorem peekStack_fresh {c : Ctx} (h : c.Fresh) (k : Word) (w : Nat) (hr : c.work.canPeek k w = true) :
    peekStack k w c = .ok (c.work.peek k w) c := by
  simp [peekStack, State.peek, memRead_fresh h _ _ _ hr]

theorem readRm16_fresh {c : Ctx} (h : c.Fresh) (p : List Pfx) (x : RmOp) (hr : c.work.canReadRm p x = true) :
    readRm16 p x c = .ok (c.work.rm16 p x) c := by
  cases x with
  | reg r => rfl
  | mem m => simp [readRm16, State.rm16, memRead_fresh h _ _ _ hr]

/-- The first access of an operation reads an r/m16 operand as the `Mmu` answers it, or faults. -/
theorem readRm16_asked (s : State) (p : List Pfx) (x : RmOp) :
    (∃ c, readRm16 p x (Ctx.start s) = .ok (s.rm16Asked p x) c ∧ c.base = s ∧ c.plan = [] ∧ c.work = s) ∨
    ∃ f c, readRm16 p x (Ctx.start s) = .error (.raise f) c ∧ c.base = s := by
  cases x with
  | reg r => exact .inl ⟨_, rfl, rfl, rfl, rfl⟩
  | mem m =>
    simp only [readRm16, memRead, bind_apply, work_apply]
    cases (Ctx.start s).check
        { addr := (Ctx.start s).work.linear p m, size := 2, write := false, user := (Ctx.start s).work.user } with
    | some f => exact .inr ⟨_, _, rfl, rfl⟩
    | none => exact .inl ⟨_, rfl, rfl, rfl, rfl⟩

/-- With no answers of the `Mmu` to come, the operand is memory's. -/
theorem State.rm16Asked_plain {s : State} (h : s.mmu.answers = []) (p : List Pfx) (x : RmOp) :
    s.rm16Asked p x = s.rm16 p x := by
  cases x with
  | reg r => rfl
  | mem m =>
    have hb : (Ctx.start s).readByte (s.linear p m) = s.readByte :=
      funext fun a => (Ctx.readByte_plain (c := Ctx.start s) h _ a).trans rfl
    simp [State.rm16Asked, State.rm16, State.readLin, hb]

theorem readFarPtr_fresh {c : Ctx} (h : c.Fresh) (p : List Pfx) (m : MemOp) (hr : c.work.canReadFar p m = true) :
    readFarPtr p m c = .ok (c.work.farPtr p m) c := by
  simp only [State.canReadFar, Bool.and_eq_true] at hr
  simp [readFarPtr, State.farPtr, memRead_fresh h _ _ _ hr.1, memRead_fresh h _ _ _ hr.2]

/-! ### A quiet `Mmu` -/

theorem Mmu.check_quiet (m : Mmu) (h : ∀ v ∈ m.views, v.2.faults = []) (a : Access) : m.check a = none := by
  cases hl : m.views.lookup (m.paging, m.pdb) with
  | none => simp [Mmu.check, Mmu.view, hl]
  | some v =>
    obtain ⟨before, after, e, -⟩ := List.lookup_eq_some_iff.1 hl
    have hv : v.faults = [] := h ((m.paging, m.pdb), v) (by simp [e])
    simp [Mmu.check, Mmu.view, hl, hv]

/-- An `Mmu` that may refuse only writes to the stack of CPL 3 answers `Ok` to every other access. -/
theorem Mmu.check_systemQuiet (m : Mmu) (h : ∀ v ∈ m.views, ∀ x ∈ v.2.faults, x.1.write = true ∧ x.1.user = true) (a : Access)
    (ha : a.write = false ∨ a.user = false) : m.check a = none := by
  cases hl : m.views.lookup (m.paging, m.pdb) with
  | none => simp [Mmu.check, Mmu.view, hl]
  | some v =>
    obtain ⟨before, after, e, -⟩ := List.lookup_eq_some_iff.1 hl
    have hv := h ((m.paging, m.pdb), v) (by simp [e])
    simp only [Mmu.check, Mmu.view, hl, Option.getD_some, List.lookup_eq_none_iff]
    intro x hx
    have := hv x hx
    rw [bne_iff_ne]
    rintro rfl
    simp_all

theorem State.SystemQuiet.canRead {s : State} (h : s.SystemQuiet) (u : Bool) (a : Word) (n : Nat) : s.canRead u a n = true :=
  State.canRead_iff.2 ⟨h.answers, Mmu.check_systemQuiet _ h.views _ (.inl rfl)⟩

theorem State.SystemQuiet.canWrite {s : State} (h : s.SystemQuiet) (a : Word) (n : Nat) : s.canWrite false a n = true :=
  State.canWrite_iff.2 ⟨h.answers, Mmu.check_systemQuiet _ h.views _ (.inr rfl)⟩

theorem State.SystemQuiet.canLookup {s : State} (h : s.SystemQuiet) (sel : Sel) : s.canLookup sel = true := by
  simp [State.canLookup, h.canRead]

theorem State.Quiet.system {s : State} (h : s.Quiet) : s.SystemQuiet := ⟨fun v hv => by simp [h.views v hv], h.answers⟩

theorem State.Quiet.canRead {s : State} (h : s.Quiet) (u : Bool) (a : Word) (n : Nat) : s.canRead u a n = true :=
  State.canRead_iff.2 ⟨h.answers, Mmu.check_quiet _ h.views _⟩

theorem State.Quiet.canWrite {s : State} (h : s.Quiet) (u : Bool) (a : Word) (n : Nat) : s.canWrite u a n = true :=
  State.canWrite_iff.2 ⟨h.answers, Mmu.check_quiet _ h.views _⟩

theorem State.Quiet.canLookup {s : State} (h : s.Quiet) (sel : Sel) : s.canLookup sel = true := by
  simp [State.canLookup, h.canRead]

/-- The less privileged of two levels. -/
theorem levelMax_le {a b c : Level} : levelMax a b ≤ c ↔ a ≤ c ∧ b ≤ c := by
  unfold levelMax
  split <;> bv_omega

/-! ### Writes and pushes -/

theorem memWrite_ok (c : Ctx) (ha : c.answers = []) (user : Bool) (a : Word) (n : Nat) (v : Word)
    (h : c.base.canWrite user a n = true) :
    memWrite user a n v c = .ok () { c with plan := (bytesLe a n v).reverse ++ c.plan } := by
  simp [memWrite_plain ha, (State.canWrite_iff.1 h).2]

/-- A planned write shows at commit. -/
theorem commit_write (c : Ctx) (hm : c.work.mmu = c.base.mmu) (a : Word) (n : Nat) (v : Word) :
    ({ c with plan := (bytesLe a n v).reverse ++ c.plan } : Ctx).commit = c.commit.writeLin a n v := by
  simp [Ctx.commit, State.writeLin, applyPlan_append, hm]

theorem push_ok (c : Ctx) (ha : c.answers = []) (w : Nat) (v : Word)
    (h : c.base.canWrite c.work.user (c.work.stackAddr (c.work.gpr.esp - BitVec.ofNat 32 w)) w = true) :
    push w v c = .ok ()
      { c with
        work := c.work.setEsp (c.work.gpr.esp - BitVec.ofNat 32 w)
        plan := (bytesLe (c.work.stackAddr (c.work.gpr.esp - BitVec.ofNat 32 w)) w v).reverse ++ c.plan } := by
  simp [push, memWrite_ok _ ha _ _ _ _ h]

/-- A push shows at commit as `pushed`. -/
theorem push_commit (c : Ctx) (hm : c.work.mmu = c.base.mmu) (w : Nat) (v : Word) :
    ({ c with
        work := c.work.setEsp (c.work.gpr.esp - BitVec.ofNat 32 w)
        plan := (bytesLe (c.work.stackAddr (c.work.gpr.esp - BitVec.ofNat 32 w)) w v).reverse ++ c.plan } : Ctx).commit =
      c.commit.pushed w v := by
  simp [Ctx.commit, State.pushed, State.writeLin, State.setEsp, State.stackAddr, applyPlan_append, hm]

end Sys2Proof.Machine
end

