-- ==== Sys2Proof/Laws/Descriptor.lean ====
section
/-! SUPPORT. What a descriptor's bits give (30_encoding.md R81 to R86): the decoder's fields as slices of its two words, and what a
segment register loaded from a descriptor or from a paragraph holds. -/

namespace Sys2Proof.Machine

/-- The bits of the masks that take a field out of a descriptor word. -/
theorem mask_bits (i : Fin 32) :
    (0x000F0000#32)[i.val] = (decide (16 ≤ i.val) && decide (i.val < 20)) ∧ (0x0000FFFF#32)[i.val] = decide (i.val < 16) ∧
    (0xFFFF0000#32)[i.val] = decide (16 ≤ i.val) ∧ (0xFF000000#32)[i.val] = decide (24 ≤ i.val) ∧
    (0x000000FF#32)[i.val] = decide (i.val < 8) ∧ (0x00000FFF#32)[i.val] = decide (i.val < 12) := by
  revert i; decide

/-- The limit of a descriptor (R81). -/
theorem limit_field (lo hi : Word) : (hi &&& 0x000F0000#32) ||| (lo &&& 0x0000FFFF#32) =
    (hi.extractLsb' 16 4 ++ lo.extractLsb' 0 16).setWidth 32 := by
  ext i hi'
  obtain ⟨m1, m2, -⟩ := mask_bits ⟨i, hi'⟩
  simp only at m1 m2
  simp only [BitVec.getElem_or, BitVec.getElem_and, m1, m2, BitVec.getElem_setWidth, BitVec.getLsbD_append,
    BitVec.getLsbD_extractLsb']
  by_cases a : i < 16
  · have : ¬ 16 ≤ i := by omega
    simp [a, this, BitVec.getLsbD_eq_getElem hi']
  · by_cases b : i < 20
    · simp [a, b, show 16 ≤ i by omega, show i - 16 < 4 by omega, show 16 + (i - 16) = i by omega,
        BitVec.getLsbD_eq_getElem hi']
    · simp [a, b, show ¬ i - 16 < 4 by omega]

/-- The base of a descriptor (R81). -/
theorem base_field (lo hi : Word) : (hi &&& 0xFF000000#32) ||| ((hi &&& 0xFF#32) <<< 16) ||| (lo >>> 16) =
    ((hi.extractLsb' 24 8 ++ hi.extractLsb' 0 8 ++ lo.extractLsb' 16 16).setWidth 32) := by
  ext i hi'
  obtain ⟨-, -, -, m1, m2, -⟩ := mask_bits ⟨i, hi'⟩
  obtain ⟨-, -, -, -, m3, -⟩ := mask_bits ⟨i - 16, by omega⟩
  simp only at m1 m2 m3
  simp only [BitVec.getElem_or, BitVec.getElem_and, BitVec.getElem_shiftLeft, BitVec.getElem_ushiftRight, m1, m3,
    BitVec.getElem_setWidth, BitVec.getLsbD_append, BitVec.getLsbD_extractLsb']
  by_cases a : i < 16
  · have : ¬ 24 ≤ i := by omega
    simp [a, this]
  · have h16 : ¬ lo.getLsbD (16 + i) = true := by simp [BitVec.getLsbD_of_ge lo (16 + i) (by omega)]
    by_cases b : i < 24
    · simp [a, h16, show ¬ 24 ≤ i by omega, show i - 16 < 8 by omega,
        BitVec.getLsbD_eq_getElem (show i - 16 < 32 by omega)]
    · simp [a, h16, show 24 ≤ i by omega, show ¬ i - 16 < 8 by omega, show i - 16 - 8 < 8 by omega,
        show 24 + (i - 16 - 8) = i by omega, BitVec.getLsbD_eq_getElem hi']

/-- The offset of a gate (R85). -/
theorem offset_field (lo hi : Word) : (hi &&& 0xFFFF0000#32) ||| (lo &&& 0x0000FFFF#32) =
    (hi.extractLsb' 16 16 ++ lo.extractLsb' 0 16).setWidth 32 := by
  ext i hi'
  obtain ⟨-, m2, m1, -⟩ := mask_bits ⟨i, hi'⟩
  simp only at m1 m2
  simp only [BitVec.getElem_or, BitVec.getElem_and, m1, m2, BitVec.getElem_setWidth, BitVec.getLsbD_append,
    BitVec.getLsbD_extractLsb']
  by_cases a : i < 16
  · have : ¬ 16 ≤ i := by omega
    simp [a, this, BitVec.getLsbD_eq_getElem hi']
  · simp [a, show 16 ≤ i by omega, show i - 16 < 16 by omega, show 16 + (i - 16) = i by omega,
        BitVec.getLsbD_eq_getElem hi']

/-- The effective limit as a number (30_encoding.md R82). -/
theorem limitEff_toNat (lo hi : Word) : (limitEff lo hi).toNat =
    let l := (hi.extractLsb' 16 4 ++ lo.extractLsb' 0 16).toNat
    if hi.getLsbD 23 then l * 4096 + 4095 else l := by
  have low := (hi.extractLsb' 16 4 ++ lo.extractLsb' 0 16).isLt
  have e : limitEff lo hi = if hi.getLsbD 23 then
      ((hi.extractLsb' 16 4 ++ lo.extractLsb' 0 16).setWidth 32 <<< 12) ||| 0xFFF#32
      else (hi.extractLsb' 16 4 ++ lo.extractLsb' 0 16).setWidth 32 := by rw [← limit_field]; rfl
  rw [e]
  generalize hi.extractLsb' 16 4 ++ lo.extractLsb' 0 16 = l at low ⊢
  split
  · have shift : (l.setWidth 32 <<< 12 : Word).toNat = 2 ^ 12 * l.toNat := by
      rw [BitVec.toNat_shiftLeft, BitVec.toNat_setWidth, Nat.shiftLeft_eq, Nat.mod_eq_of_lt (by omega), Nat.mul_comm,
        Nat.mod_eq_of_lt (by omega)]
    rw [BitVec.toNat_or, shift]
    show 2 ^ 12 * l.toNat ||| 4095 = _
    rw [← Nat.two_pow_add_eq_or_of_lt (by decide), Nat.mul_comm]
  · exact (BitVec.toNat_setWidth ..).trans (Nat.mod_eq_of_lt (by omega))

/-- What a code or data descriptor decodes to (R83, R86). -/
theorem decodeKind_seg {hi : Word} (h : hi.getLsbD 12 = true) : decodeKind hi =
    .seg (if hi.getLsbD 11 then .code (hi.getLsbD 10) (hi.getLsbD 9) else .data (hi.getLsbD 9) (hi.getLsbD 10)) := by
  simp only [decodeKind, h, if_true]
  split <;> rfl

/-- No system descriptor is code or data (R84). -/
theorem systemKind_ne_seg (t : BitVec 4) (k : SegKind) : systemKind t ≠ .seg k := by
  have system : ∀ t, (match systemKind t with | .seg _ => false | _ => true) = true := by decide
  intro h
  have := system t
  rw [h] at this
  cases this

/-- Only a descriptor with S = 1 is code or data (R84, R86). -/
theorem seg_of_decodeKind {hi : Word} {k : SegKind} (h : decodeKind hi = .seg k) : hi.getLsbD 12 = true := by
  by_contra system
  simp only [decodeKind, system, if_false] at h
  exact systemKind_ne_seg _ k h

/-- The kinds of a descriptor that no code or data descriptor has, as its type field (R84, R86). -/
theorem decodeKind_iff {hi : Word} {k : DescKind} {ts : List (BitVec 4)} (table : ∀ t, systemKind t = k ↔ t ∈ ts)
    (hk : ∀ x, k ≠ .seg x) : decodeKind hi = k ↔ hi.getLsbD 12 = false ∧ hi.extractLsb' 8 4 ∈ ts := by
  by_cases s : hi.getLsbD 12 = true
  · simp [decodeKind_seg s, s, (hk _).symm]
  · simp only [Bool.not_eq_true] at s
    simp only [decodeKind, s, Bool.false_eq_true, if_false, table, true_and, typeField]

/-- The same of a kind that one type has. -/
theorem decodeKind_single {hi : Word} {k : DescKind} {t : BitVec 4} (table : ∀ u, systemKind u = k ↔ u = t)
    (hk : ∀ x, k ≠ .seg x) : decodeKind hi = k ↔ hi.getLsbD 12 = false ∧ hi.extractLsb' 8 4 = t := by
  rw [decodeKind_iff (ts := [t]) (by simpa using table) hk, List.mem_singleton]

/-- What the two words of a descriptor decode to. -/
theorem decodesTo (lo hi : Word) : DecodesTo lo hi (decodeDesc lo hi) where
  seg := decodeKind_seg
  ldt := decodeKind_single (by decide) nofun
  tssAvailable := decodeKind_single (by decide) nofun
  tssBusy := decodeKind_single (by decide) nofun
  callGate := decodeKind_single (by decide) nofun
  taskGate := decodeKind_single (by decide) nofun
  interruptGate := decodeKind_single (by decide) nofun
  trapGate := decodeKind_single (by decide) nofun
  tss286 := decodeKind_iff (by decide) nofun
  gate286 := decodeKind_iff (by decide) nofun
  invalid := decodeKind_iff (by decide) nofun
  dpl := rfl
  present := rfl
  words := ⟨rfl, rfl⟩
  segment h := by
    have seg : (decodeKind hi).isSegment = true := by
      obtain ⟨k, h⟩ | h | ⟨b, h⟩ := h <;> rw [show decodeKind hi = _ from h] <;> rfl
    simp only [decodeDesc, seg, if_true, Bool.true_and]
    exact ⟨(base_field lo hi).trans (BitVec.setWidth_eq _), trivial, limitEff_toNat lo hi⟩
  target h := by
    have gate : (decodeKind hi).isGate = true := by
      obtain h | h | h | h := h <;> rw [show decodeKind hi = _ from h] <;> rfl
    simp only [decodeDesc, gate, if_true]
  offset h := by
    have gate : ((decodeKind hi).isGate && decodeKind hi != .taskGate) = true := by
      obtain h | h | h := h <;> rw [show decodeKind hi = _ from h] <;> rfl
    simp only [decodeDesc, gate, if_true]
    exact (offset_field lo hi).trans (BitVec.setWidth_eq _)
  params h := by simp only [decodeDesc, show decodeKind hi = _ from h, if_true]

/-- The kinds a segment register loads are code and data. -/
theorem DescKind.seg_of_loads {k : DescKind} (h : k.isWritableData = true ∨ k.isLoadable = true ∨ k.isCode = true) :
    ∃ x, k = .seg x := by
  cases k <;> simp_all [DescKind.isWritableData, DescKind.isLoadable, DescKind.isCode]

/-- What a lookup finds is what its two words decode to (40_privilege_checks.md R125). -/
theorem State.lookup_eq {s : State} {sel : Sel} {d : Desc} (h : s.lookup sel = some d) :
    d = decodeDesc (s.readLin (s.descAddr sel) 4) (s.readLin (s.descAddr sel + 4#32) 4) := by
  unfold State.lookup at h
  split at h
  · cases h
  · exact (Option.some.inj h).symm

/-- A segment register installed from a code or data descriptor (40_privilege_checks.md R140). -/
theorem fromDescriptor_toSeg (lo hi : Word) (sel : Sel) (h : hi.getLsbD 12 = true) :
    FromDescriptor lo hi sel ((decodeDesc lo hi).toSeg sel) := by
  have kind := decodeKind_seg h
  have seg : (decodeKind hi).isSegment = true := by rw [kind]; rfl
  constructor
  · rfl
  · simp only [Desc.toSeg, decodeDesc, seg, if_true]
    exact (base_field lo hi).trans (BitVec.setWidth_eq _)
  · simp only [Desc.toSeg, decodeDesc, seg, if_true, limitEff_toNat]
  · simp only [Desc.toSeg, decodeDesc, seg, Bool.true_and]
  · rfl
  · rfl
  · simp only [Desc.toSeg, decodeDesc, kind, DescKind.cached]

/-- The same from a lookup. -/
theorem State.fromDescriptor_lookup {s : State} {sel : Sel} {d : Desc} (h : s.lookup sel = some d)
    (hk : d.kind.isWritableData = true ∨ d.kind.isLoadable = true ∨ d.kind.isCode = true) (shown : Sel) :
    FromDescriptor (s.readLin (s.descAddr sel) 4) (s.readLin (s.descAddr sel + 4#32) 4) shown (d.toSeg shown) := by
  obtain ⟨x, hx⟩ := DescKind.seg_of_loads hk
  have e := State.lookup_eq h
  subst e
  exact fromDescriptor_toSeg _ _ _ (seg_of_decodeKind hx)

/-- A segment register loaded unchecked (41_segment_loading.md R151). -/
theorem State.fromParagraph_loadSegReal (s : State) (n : SegName) (sel : Sel) :
    FromParagraph s.vm n sel (s.seg.get n) ((s.loadSegReal n sel).seg.get n) := by
  have times16 : (selWord sel <<< 4).toNat = sel.toNat * 16 := by
    have := sel.isLt
    simp [selWord, Nat.shiftLeft_eq]
    omega
  simp only [State.loadSegReal, State.setSeg_seg, Segs.get_set_same]
  constructor
  · split <;> rfl
  · split <;> exact times16
  · intro real; simp [real]
  · intro v86; simp [v86]

/-- What a load that succeeds leaves in its register. -/
theorem SegLoads.holds {s t : State} {n : SegName} {sel : Sel} (h : SegLoads s n sel t) : s.Holds n sel (t.seg.get n) := by
  cases h with
  | unchecked n sel h =>
    exact ⟨fun _ => s.fromParagraph_loadSegReal n sel, fun no => by simp [h] at no, fun no => by simp [h] at no⟩
  | stack sel d h hnull hm hd hrpl hk hdpl hp =>
    exact ⟨fun no => by simp [h] at no, fun _ no => by simp [hnull] at no,
      fun _ _ => State.fromDescriptor_lookup hd (.inl hk) sel⟩
  | null n sel h hn hnull =>
    exact ⟨fun no => by simp [h] at no, fun _ _ => by simp [State.installNull, SegReg.null],
      fun _ no => by simp [hnull] at no⟩
  | data n sel d h hn hnull hm hd hk hl hp =>
    refine ⟨fun no => by simp [h] at no, fun _ no => by simp [hnull] at no, fun _ _ => ?_⟩
    simp only [State.installSeg, State.setSeg_seg, Segs.get_set_same]
    exact State.fromDescriptor_lookup hd (.inr (.inl hk)) sel

end Sys2Proof.Machine
end

