-- ==== Sys2Proof/Laws/Encoding.lean ====
section
/-! SUPPORT. The field-by-field laws of the decoder and the encoder: ModRM fields, register numbers, immediates, displacements,
memory operands; each direction once. -/

namespace Sys2Proof

/-! ### Fields -/

@[simp] theorem modOf_modrmByte (m : BitVec 2) (r x : BitVec 3) : modOf (modrmByte m r x) = m := by
  revert m r x; decide
@[simp] theorem regOf_modrmByte (m : BitVec 2) (r x : BitVec 3) : regOf (modrmByte m r x) = r := by
  revert m r x; decide
@[simp] theorem rmOf_modrmByte (m : BitVec 2) (r x : BitVec 3) : rmOf (modrmByte m r x) = x := by
  revert m r x; decide
@[simp] theorem modrmByte_fields (b : Byte) : modrmByte (modOf b) (regOf b) (rmOf b) = b := by revert b; decide
@[simp] theorem Gpr.ofCode_code (r : Gpr) : Gpr.ofCode r.code = r := by cases r <;> rfl
@[simp] theorem Gpr.code_ofCode (c : BitVec 3) : (Gpr.ofCode c).code = c := by revert c; decide
@[simp] theorem Base16.ofCode_code (r : Base16) : Base16.ofCode r.code = r := by cases r <;> rfl
@[simp] theorem Base16.code_ofCode (c : BitVec 3) : (Base16.ofCode c).code = c := by revert c; decide
@[simp] theorem Pfx.ofByte_byte (p : Pfx) : Pfx.ofByte p.byte = some p := by
  cases p with
  | segment s => cases s <;> rfl
  | _ => rfl
theorem Pfx.byte_ofByte (b : Byte) (p : Pfx) (h : Pfx.ofByte b = some p) : p.byte = b := by
  revert b p; decide +kernel

/-- The prefixes of an encoding are split off again when no prefix byte follows them. -/
theorem splitPfxs_map_byte (p : List Pfx) (b : Byte) (bs : List Byte) (h : Pfx.ofByte b = none) :
    splitPfxs (p.map Pfx.byte ++ b :: bs) = (p, b :: bs) := by
  induction p with
  | nil => simp [splitPfxs, h]
  | cons x p ih => simp [splitPfxs, ih]

/-- What was split is what the bytes were. -/
theorem splitPfxs_append (bs : List Byte) : (splitPfxs bs).1.map Pfx.byte ++ (splitPfxs bs).2 = bs := by
  induction bs with
  | nil => rfl
  | cons b bs ih =>
    simp only [splitPfxs]
    split
    · rfl
    · next x hx => simp [ih, Pfx.byte_ofByte b x hx]

/-! ### Immediates -/

/-- The value of a concatenation. -/
theorem append_toNat {m n : Nat} (x : BitVec m) (y : BitVec n) : (x ++ y).toNat = x.toNat * 2 ^ n + y.toNat := by
  rw [BitVec.toNat_append, ← Nat.shiftLeft_add_eq_or_of_lt y.isLt, Nat.shiftLeft_eq]

/-- A 16-bit immediate is read back. -/
@[simp] theorem take16_le16 (v : BitVec 16) (bs : List Byte) : take16 (le16 v ++ bs) = .ok (v, bs) := by
  have h : (v.extractLsb' 8 8 ++ v.extractLsb' 0 8 : BitVec 16) = v := by
    apply BitVec.eq_of_toNat_eq
    rw [append_toNat]
    simp only [BitVec.extractLsb'_toNat, Nat.shiftRight_eq_div_pow]
    have := v.isLt
    omega
  simp only [le16, List.cons_append, List.nil_append, take16, h]

/-- A 32-bit immediate is read back. -/
@[simp] theorem take32_le32 (v : BitVec 32) (bs : List Byte) : take32 (le32 v ++ bs) = .ok (v, bs) := by
  have h : (v.extractLsb' 24 8 ++ v.extractLsb' 16 8 ++ v.extractLsb' 8 8 ++ v.extractLsb' 0 8 : BitVec 32) = v := by
    apply BitVec.eq_of_toNat_eq
    rw [append_toNat, append_toNat, append_toNat]
    simp only [BitVec.extractLsb'_toNat, Nat.shiftRight_eq_div_pow]
    have := v.isLt
    omega
  simp only [le32, List.cons_append, List.nil_append, take32, h]

/-- Two bytes are written back as they were read. -/
theorem le16_take16 (b0 b1 : Byte) : le16 (b1 ++ b0) = [b0, b1] := by
  simp only [le16, List.cons.injEq, and_true]
  constructor <;> apply BitVec.eq_of_toNat_eq <;> rw [BitVec.extractLsb'_toNat, append_toNat, Nat.shiftRight_eq_div_pow] <;>
    have := b0.isLt <;> have := b1.isLt <;> omega

/-- Four bytes are written back as they were read. -/
theorem le32_take32 (b0 b1 b2 b3 : Byte) : le32 (b3 ++ b2 ++ b1 ++ b0) = [b0, b1, b2, b3] := by
  simp only [le32, List.cons.injEq, and_true]
  refine ⟨?_, ?_, ?_, ?_⟩ <;> apply BitVec.eq_of_toNat_eq <;>
    rw [BitVec.extractLsb'_toNat, append_toNat, append_toNat, append_toNat, Nat.shiftRight_eq_div_pow] <;>
    have := b0.isLt <;> have := b1.isLt <;> have := b2.isLt <;> have := b3.isLt <;> omega

/-! ### Displacements, operands, far pointers -/

/-- A 16-bit displacement is read back. -/
theorem takeDisp16_enc (d : Disp 16) (bs : List Byte) : takeDisp16 d.mod (d.bytes16 ++ bs) = .ok (d, bs) := by
  cases d
  · rfl
  · rfl
  · have := take16_le16 (by assumption) bs
    simp [takeDisp16, Disp.mod, Disp.bytes16, this]; rfl

/-- A 32-bit displacement is read back. -/
theorem takeDisp32_enc (d : Disp 32) (bs : List Byte) : takeDisp32 d.mod (d.bytes32 ++ bs) = .ok (d, bs) := by
  cases d
  · rfl
  · rfl
  · have := take32_le32 (by assumption) bs
    simp [takeDisp32, Disp.mod, Disp.bytes32, this]; rfl

/-- A memory operand that the address size can encode is read back, its ModRM byte naming memory and the reg field. -/
theorem takeMem_enc (wide : Bool) (m : MemOp) (h : m.wf wide = true) (reg : BitVec 3) (bs : List Byte) :
    ∃ b t, encodeMem reg m ++ bs = b :: t ∧ regOf b = reg ∧ modOf b ≠ 3 ∧ takeMem wide (modOf b) (rmOf b) t = .ok (m, bs) := by
  cases m with
  | a16 b d =>
    simp [MemOp.wf] at h
    obtain ⟨rfl, h⟩ := h
    refine ⟨_, _, rfl, by simp, by cases d <;> simp [Disp.mod], ?_⟩
    have : ¬ (b.code = 6#3 ∧ d.mod = 0#2) := by
      rintro ⟨h1, h2⟩
      cases b <;> simp [Base16.code] at h1
      cases d <;> simp [Disp.mod] at h2
      simp at h
    simp [takeMem, this, takeDisp16_enc]; rfl
  | a16Abs d =>
    simp [MemOp.wf] at h; subst h
    refine ⟨_, _, rfl, by simp, by simp, ?_⟩
    simp [takeMem]; rfl
  | a32 b d =>
    simp [MemOp.wf] at h
    obtain ⟨⟨rfl, h1⟩, h⟩ := h
    refine ⟨_, _, rfl, by simp, by cases d <;> simp [Disp.mod], ?_⟩
    have a1 : ¬ (b.code = 4#3) := by cases b <;> simp [Gpr.code] at h1 ⊢
    have : ¬ (b.code = 5#3 ∧ d.mod = 0#2) := by
      rintro ⟨h1, h2⟩
      cases b <;> simp [Gpr.code] at h1
      cases d <;> simp [Disp.mod] at h2
      simp at h
    simp [takeMem, a1, this, takeDisp32_enc]; rfl
  | a32Abs d =>
    simp [MemOp.wf] at h; subst h
    refine ⟨_, _, rfl, by simp, by simp, ?_⟩
    simp [takeMem]; rfl
  | sib sc ix b d =>
    simp [MemOp.wf] at h
    obtain ⟨rfl, h⟩ := h
    refine ⟨_, _, rfl, by simp, by cases d <;> simp [Disp.mod], ?_⟩
    have : ¬ (b.code = 5#3 ∧ d.mod = 0#2) := by
      rintro ⟨h1, h2⟩
      cases b <;> simp [Gpr.code] at h1
      cases d <;> simp [Disp.mod] at h2
      simp at h
    simp [takeMem, takeSib, take8, this, takeDisp32_enc]; rfl
  | sibAbs sc ix d =>
    simp [MemOp.wf] at h; subst h
    refine ⟨_, _, rfl, by simp, by simp, ?_⟩
    simp [takeMem, takeSib, take8]; rfl

/-- An instruction whose operand must be memory is read back. -/
theorem withMem_enc (wide : Bool) (why : BitVec 3 → Reject) (m : MemOp) (h : m.wf wide = true) (reg : BitVec 3)
    (bs : List Byte) (k : BitVec 3 → Option (MemOp → Instr)) (f : MemOp → Instr) (hk : k reg = some f) :
    withMem wide why (encodeMem reg m ++ bs) k = .ok (f m, bs) := by
  obtain ⟨b, t, e, h1, h2, h3⟩ := takeMem_enc wide m h reg bs
  have h2' : ¬ modOf b = 3#2 := h2
  simp [withMem, e, take8, h1, hk, h2', h3]; rfl

/-- An instruction with an r/m operand is read back. -/
theorem withRm_enc (wide : Bool) (why : BitVec 3 → Reject) (m : RmOp) (h : m.wf wide = true) (reg : BitVec 3)
    (bs : List Byte) (k : BitVec 3 → Option (RmOp → Instr)) (f : RmOp → Instr) (hk : k reg = some f) :
    withRm wide why (encodeRm reg m ++ bs) k = .ok (f m, bs) := by
  cases m with
  | reg r => simp [withRm, encodeRm, take8, hk, takeRm]; rfl
  | mem m =>
    obtain ⟨b, t, e, h1, h2, h3⟩ := takeMem_enc wide m h reg bs
    have h2' : ¬ modOf b = 3#2 := h2
    simp [withRm, encodeRm, e, take8, h1, hk, takeRm, h2', h3]; rfl

/-- An instruction with an immediate far pointer is read back. -/
theorem withFarPtr_enc (wide : Bool) (off : BitVec 32) (sel : BitVec 16) (h : offWf wide off = true) (bs : List Byte)
    (k : BitVec 32 → BitVec 16 → Instr) :
    withFarPtr wide (encodeOff wide off ++ le16 sel ++ bs) k = .ok (k off sel, bs) := by
  cases wide
  · have : (off.setWidth 16).setWidth 32 = off := by
      simp [offWf] at h
      apply BitVec.eq_of_toNat_eq; simp; omega
    simp [withFarPtr, encodeOff, Except.map, this]
  · simp [withFarPtr, encodeOff, Except.map]

end Sys2Proof
end

