-- ==== Sys2Proof/Laws/Flags.lean ====
section
/-! SUPPORT. EFLAGS: a normalised value (10_state.md R25) stays normalised when bits the block owns are cleared, set or merged, and
the merge table of 43_interrupts.md R225 as a formula. -/

namespace Sys2Proof.Machine

/-- `ClearOnDelivery` in one mask. -/
theorem State.clearOnDelivery_eq (s : State) (b : Bool) :
    s.clearOnDelivery b =
      { s with eflags := eflagsWrite (s.eflags &&& ~~~(if b = true then 0x00034300#32 else 0x00034100#32)) } := by
  have h : ∀ (v a m k : Word), a &&& m = k → v &&& a &&& m = v &&& k := by
    intro v a m k h; rw [BitVec.and_assoc, h]
  cases b <;>
    simp only [State.clearOnDelivery, setBit, State.withEflags, Bool.false_eq_true, if_false, if_true, BitVec.and_assoc] <;>
    rfl

/-- A value every write of EFLAGS leaves as it is. -/
abbrev Normal (v : Word) : Prop := eflagsWrite v = v

/-- Each bit after a write of EFLAGS. -/
theorem eflagsWrite_bit (v : Word) (i : Nat) (hi : i < 32) :
    (eflagsWrite v)[i] = (v[i] && maskV86All[i] || (2#32)[i]) := by
  simp only [eflagsWrite, BitVec.getElem_or, BitVec.getElem_and]
  rfl

/-- What is normal, bit by bit: a bit that does not exist is 0, bit 1 is 1. -/
theorem normal_iff (v : Word) : Normal v ↔ ∀ i (hi : i < 32), (v[i] = true → maskV86All[i] = true ∨ (2#32)[i] = true) ∧
    ((2#32)[i] = true → v[i] = true) := by
  constructor
  · intro h i hi
    have e := congrArg (fun x : Word => x[i]) h
    simp only [eflagsWrite_bit] at e
    rw [← e]
    grind
  · intro h
    ext i hi
    rw [eflagsWrite_bit]
    grind

/-- A mask of bits that exist, bit by bit. -/
theorem mask_bit {m M : Word} (h : m &&& M = m) (i : Nat) (hi : i < 32) (hm : m[i] = true) : M[i] = true := by
  rw [← h] at hm
  simp at hm
  exact hm.2

/-- Masks that share no bit, bit by bit. -/
theorem disjoint_bit {m t : Word} (h : m &&& t = 0) (i : Nat) (hi : i < 32) (hm : m[i] = true) : t[i] = false := by
  have := congrArg (fun x : Word => x[i]) h
  simpa [hm] using this

theorem eflagsWrite_normal (v : Word) : Normal (eflagsWrite v) := by
  rw [normal_iff]
  intro i hi
  rw [eflagsWrite_bit]
  grind

/-- A bit set after a write, and written again. -/
theorem eflagsWrite_setBit (v : Word) (n : Nat) :
    eflagsWrite (setBit (eflagsWrite v) n true) = eflagsWrite (setBit v n true) := by
  ext i hi
  simp only [setBit, if_true, eflagsWrite_bit, BitVec.getElem_or]
  grind

/-- Clearing bits other than bit 1. -/
theorem Normal.clear {v : Word} (h : Normal v) {m : Word} (hm : m &&& 0x2 = 0) : Normal (v &&& ~~~m) := by
  rw [normal_iff] at *
  intro i hi
  have := disjoint_bit hm i hi
  simp only [BitVec.getElem_and, BitVec.getElem_not]
  grind

/-- Setting bits of EFLAGS that exist. -/
theorem Normal.set {v : Word} (h : Normal v) {m : Word} (hm : m &&& maskV86All = m) : Normal (v ||| m) := by
  rw [normal_iff] at *
  intro i hi
  have := mask_bit hm i hi
  rw [BitVec.getElem_or]
  grind

/-- Merging a popped value under a mask of bits that exist. -/
theorem Normal.merge {v : Word} (h : Normal v) (fl : Word) {m : Word} (hm : m &&& maskV86All = m) (ht : m &&& 0x2 = 0) :
    eflagsWrite ((v &&& ~~~m) ||| (fl &&& m)) = (v &&& ~~~m) ||| (fl &&& m) := by
  refine (normal_iff _).2 fun i hi => ?_
  have hv := (normal_iff v).1 h i hi
  have := mask_bit hm i hi
  have := disjoint_bit ht i hi
  simp only [BitVec.getElem_or, BitVec.getElem_and, BitVec.getElem_not]
  grind

/-- A bit of EFLAGS that is not written in a merge keeps its value. -/
theorem merge_bit_kept (v fl m : Word) (i : Nat) (hi : i < 32) (hm : m[i] = false) (hM : maskV86All[i] = true)
    (h2 : (2#32)[i] = false) : (eflagsWrite ((v &&& ~~~m) ||| (fl &&& m)))[i] = v[i] := by
  simp [eflagsWrite_bit, hm, hM, h2]

/-- The table of R225 is `CPL ? NORMAL|NT : ALL`, less IF when IOPL < CPL; 16 bits of it for a 16-bit pop. -/
theorem mergeMaskFor_formula (cpl iopl : Level) (wide : Bool) :
    mergeMaskFor cpl iopl wide =
      (if cpl = 0 then maskAll else maskNormal ||| 0x00004000) &&&
        ~~~(if iopl < cpl then 0x00000200#32 else 0) &&& (if wide then 0xFFFFFFFF else 0x0000FFFF) := by
  revert cpl iopl wide
  decide

theorem mergeMaskFor_exists (cpl iopl : Level) (wide : Bool) :
    mergeMaskFor cpl iopl wide &&& maskV86All = mergeMaskFor cpl iopl wide ∧ mergeMaskFor cpl iopl wide &&& 0x2 = 0 := by
  revert cpl iopl wide
  decide

/-- What `MergeFlags` leaves of a normalised EFLAGS. -/
theorem mergeFlags_eq (s : State) (fl : Word) (wide : Bool) (h : Normal s.eflags) :
    s.mergeFlags fl wide =
      { s with
        eflags := (s.eflags &&& ~~~mergeMaskFor s.cpl s.iopl wide) ||| (fl &&& mergeMaskFor s.cpl s.iopl wide) } := by
  have hm := mergeMaskFor_exists s.cpl s.iopl wide
  simp only [State.mergeFlags, State.withEflags, h.merge fl hm.1 hm.2]

theorem mergeFlags_vm (s : State) (fl : Word) (wide : Bool) : (s.mergeFlags fl wide).vm = s.vm := by
  have hv : (mergeMaskFor s.cpl s.iopl wide)[17] = false := by
    generalize s.cpl = a
    generalize s.iopl = b
    revert a b wide
    decide
  have := merge_bit_kept s.eflags fl (mergeMaskFor s.cpl s.iopl wide) 17 (by omega) hv rfl rfl
  simpa [State.vm, State.mergeFlags, State.withEflags, bitVM] using this

end Sys2Proof.Machine
end

