-- ==== Sys2Proof/Laws/Transfer.lean ====
section
/-! SUPPORT. What the shared checks and pushes of far transfers, interrupts and IRET answer: one lemma for each that says when it
passes and one that says which fault it raises, and how a context that has pushed commits. -/

namespace Sys2Proof.Machine

/-! ### The reads and checks of a transfer -/

theorem readStackForLevel_fresh {c : Ctx} (h : c.Fresh) (n : Level) (hq : c.work.Quiet) (hs : c.work.hasLevelStack n = true) :
    readStackForLevel n c = .ok (c.work.levelStack n) c := by
  simp only [State.hasLevelStack, Bool.and_eq_true, decide_eq_true_eq] at hs
  have h2 : decide (8 * n.toNat + 11 > c.work.tr.limit.toNat) = false := by simp; omega
  simp [readStackForLevel, hs.1, raiseIf_not h2, memRead_fresh h, hq.canRead, State.levelStack]

theorem checkNewSs_fresh {c : Ctx} (h : c.Fresh) (sel : Sel) (n : Level) (f : Word → FaultCode) (d : Desc)
    (hm : c.work.canLookup sel = true) (hg : GoodStack c.work sel n d) : checkNewSs sel n f c = .ok d c := by
  obtain ⟨h1, h2, h3, h4, h5, h6⟩ := hg
  simp [checkNewSs, h1, requireDesc_some h sel _ d hm h2, h3, h4, h5, h6]

theorem checkNewSs_fault {c : Ctx} (h : c.Fresh) (sel : Sel) (n : Level) (f : Word → FaultCode) (e : FaultCode)
    (hm : c.work.canLookup sel = true) (hf : c.work.newSsFault sel n f = some e) :
    checkNewSs sel n f c = .error (.raise e) c := by
  simp only [State.newSsFault] at hf
  split at hf
  · rename_i h1; simp at hf; simp [checkNewSs, h1, hf]
  rename_i h1
  split at hf
  · rename_i hd; simp at hf; simp [checkNewSs, h1, requireDesc_none h sel _ hm hd, hf]
  rename_i d hd
  simp only [checkNewSs, bind_apply, raiseIf_not (Bool.eq_false_iff.2 h1), pure_apply,
    requireDesc_some h sel _ d hm hd]
  (repeat' split at hf) <;> simp_all

theorem gateTarget_fresh {c : Ctx} (h : c.Fresh) (t : Sel) (d : Desc) (hm : c.work.canLookup t = true)
    (hg : GoodTarget c.work t d) : gateTarget t c = .ok d c := by
  obtain ⟨h1, h2, h3, h4, h5⟩ := hg
  have h6 : decide (c.work.cpl < d.dpl) = false := by simpa using h4
  simp [gateTarget, h1, requireDesc_some h t _ d hm h2, h3, raiseIf_not h6, h5]

theorem gateTarget_fault {c : Ctx} (h : c.Fresh) (t : Sel) (e : FaultCode) (hm : c.work.canLookup t = true)
    (hf : c.work.gateTargetFault t = some e) : gateTarget t c = .error (.raise e) c := by
  simp only [State.gateTargetFault] at hf
  split at hf
  · rename_i h1; simp at hf; simp [gateTarget, h1, hf]
  rename_i h1
  split at hf
  · rename_i hd; simp at hf; simp [gateTarget, h1, requireDesc_none h t _ hm hd, hf]
  rename_i d hd
  simp only [gateTarget, bind_apply, work_apply, raiseIf_not (Bool.eq_false_iff.2 h1), pure_apply,
    requireDesc_some h t _ d hm hd]
  by_cases hl : c.work.cpl < d.dpl
  · (repeat' split at hf) <;> simp_all
  · have hl' : decide (c.work.cpl < d.dpl) = false := by simpa using hl
    simp only [raiseIf_not hl']
    (repeat' split at hf) <;> simp_all

theorem checkReturnCs_fresh {c : Ctx} (h : c.Fresh) (cs : Sel) (d : Desc) (hm : c.work.canLookup cs = true)
    (hg : GoodReturn c.work cs d) : checkReturnCs cs c = .ok d c := by
  obtain ⟨h1, h2, h3, h4, h5⟩ := hg
  simp [checkReturnCs, h1, requireDesc_some h cs _ d hm h2, h3, h4, h5]

theorem checkReturnCs_fault {c : Ctx} (h : c.Fresh) (cs : Sel) (e : FaultCode) (hm : c.work.canLookup cs = true)
    (hf : c.work.returnFault cs = some e) : checkReturnCs cs c = .error (.raise e) c := by
  simp only [State.returnFault] at hf
  split at hf
  · rename_i h1; simp at hf; simp [checkReturnCs, h1, hf]
  rename_i h1
  split at hf
  · rename_i hd; simp at hf; simp [checkReturnCs, h1, requireDesc_none h cs _ hm hd, hf]
  rename_i d hd
  simp only [checkReturnCs, bind_apply, work_apply, raiseIf_not (Bool.eq_false_iff.2 h1), pure_apply,
    requireDesc_some h cs _ d hm hd]
  (repeat' split at hf) <;> simp_all

/-! ### Operations that push -/

/-- A context whose operation has pushed from state `t`: nothing faults, the view answers, and its commit is `t`. -/
structure Ctx.Stands (c : Ctx) (t : State) : Prop where
  commit : c.commit = t
  mmu : c.work.mmu = c.base.mmu
  quiet : c.base.Quiet
  plain : c.answers = []

theorem Ctx.Stands.push {c : Ctx} {t : State} (h : c.Stands t) (w : Nat) (v : Word) :
    ∃ c', push w v c = .ok () c' ∧ c'.Stands (t.pushed w v) ∧ c'.switched = c.switched := by
  refine ⟨_, push_ok c h.plain w v (h.quiet.canWrite _ _ _), ⟨?_, by simp [h.mmu], h.quiet, h.plain⟩, rfl⟩
  rw [push_commit c h.mmu w v, h.commit]

/-- What a context stands at reads as its working copy, memory apart. -/
theorem Ctx.Stands.work {c : Ctx} {t : State} (h : c.Stands t) : t = { c.work with mem := t.mem } := by
  rw [← h.commit]; rfl

theorem Ctx.Stands.modify {c : Ctx} {t : State} (h : c.Stands t) (f : State → State)
    (hf : ∀ (s : State) (m : Memory), f { s with mem := m } = { f s with mem := m }) (hm : ∀ s, (f s).mmu = s.mmu) :
    ({ c with work := f c.work } : Ctx).Stands (f t) := by
  refine ⟨?_, by simp [hm, h.mmu], h.quiet, h.plain⟩
  have : f t = { f c.work with mem := t.mem } := by rw [h.work, hf]
  rw [this, ← h.commit]
  rfl

theorem fresh_stands (s : State) (hq : s.Quiet) : (Ctx.start s).Stands s := ⟨rfl, rfl, hq, hq.answers⟩

theorem pushSlots_stands {c : Ctx} {t : State} (h : c.Stands t) (w : Nat) (vs : List Word) :
    ∃ c', pushSlots w vs c = .ok () c' ∧ c'.Stands (t.pushedSlots w vs) ∧ c'.switched = c.switched := by
  induction vs generalizing c t with
  | nil => exact ⟨c, rfl, h, rfl⟩
  | cons v vs ih =>
    obtain ⟨c1, e1, h1, hs1⟩ := ih h
    obtain ⟨c2, e2, h2, hs2⟩ := h1.push w v
    exact ⟨c2, by simp [pushSlots, e1, e2], h2, by rw [hs2, hs1]⟩

theorem peekSlots_fresh {c : Ctx} (h : c.Fresh) (hq : c.work.Quiet) (w i n : Nat) :
    peekSlots w i n c = .ok ((List.range' i n).map fun k => c.work.peek (BitVec.ofNat 32 (w * k)) w) c := by
  induction n generalizing i with
  | zero => rfl
  | succ n ih => simp [peekSlots, peekStack_fresh h, State.canPeek, hq.canRead, ih, List.range'_succ]

theorem stands_next {c : Ctx} {t : State} (h : c.Stands t) : finish (.ok () c) = .next t := by simp [h.commit]

/-- The return address of a far CALL. -/
theorem pushReturn_stands {c : Ctx} {t : State} (h : c.Stands t) (w : Nat) (next : Word) :
    ∃ c', pushReturn w next c = .ok () c' ∧ c'.Stands ((t.pushed w (selWord c.work.seg.cs.sel)).pushed w next) ∧
      c'.switched = c.switched := by
  obtain ⟨c1, e1, h1, hs1⟩ := h.push w (selWord c.work.seg.cs.sel)
  obtain ⟨c2, e2, h2, hs2⟩ := h1.push w next
  exact ⟨c2, by simp [pushReturn, e1, e2], h2, by rw [hs2, hs1]⟩

/-! ### Far transfers as one operation each -/

theorem jump_run {s : State} {i : Instr} {sel : Sel} {off : Word} {wide : Bool} (h : JumpsTo s i sel off wide) :
    exec i s = s.run (farJump sel off wide (s.nextEip i)) := by
  cases h with
  | ptr p off sel => rfl
  | mem p m h => simp [exec, execJmpFarMem, State.run, readFarPtr_fresh (fresh_start s), h]

theorem call_run {s : State} {i : Instr} {sel : Sel} {off : Word} {wide : Bool} (h : CallsTo s i sel off wide) :
    exec i s = s.run (farCall sel off wide (s.nextEip i)) := by
  cases h with
  | ptr p off sel => rfl
  | mem p m h => simp [exec, execCallFarMem, State.run, readFarPtr_fresh (fresh_start s), h]

theorem return_run {s : State} {i : Instr} {imm : BitVec 16} {wide : Bool} (h : Returns s i imm wide) :
    exec i s = s.run (farReturn imm wide) := by cases h <;> rfl

/-- A code descriptor is a code segment of some kind. -/
theorem DescKind.isCode_cases {k : DescKind} (h : k.isCode = true) : ∃ a b, k = .seg (.code a b) := by
  rcases k with (⟨a, b⟩ | _) | _ | _ | _ | _ | _ | _ | _ | _ | _ <;> simp_all [DescKind.isCode]

theorem isInterLevel_not {s : State} {c : Desc} (h : c.kind.isConforming = true ∨ c.dpl = s.cpl) :
    s.isInterLevel c = false := by
  rcases h with h | h <;> simp [State.isInterLevel, h]

theorem isInterLevel_of {s : State} {c : Desc} (h : c.kind.isConforming = false) (h2 : c.dpl < s.cpl) :
    s.isInterLevel c = true := by
  simp [State.isInterLevel, h, h2]

/-- The stack of level `n` cannot be entered: `ReadStackForLevel` or `CheckNewSS` raises the fault. -/
theorem levelStack_faults {c : Ctx} (h : c.Fresh) (hq : c.work.Quiet) (n : Level) (e : FaultCode)
    (hf : c.work.levelStackFault n = some e) :
    readStackForLevel n c = .error (.raise e) c ∨
      ∃ p, readStackForLevel n c = .ok p c ∧ checkNewSs p.1 n .ts c = .error (.raise e) c := by
  simp only [State.levelStackFault] at hf
  by_cases hv : c.work.tr.valid = true
  case neg =>
    simp only [Bool.not_eq_true] at hv
    simp [hv] at hf
    left
    simp [readStackForLevel, hv, hf]
  by_cases hs : c.work.hasLevelStack n = true
  case neg =>
    simp only [Bool.not_eq_true] at hs
    simp [hv, hs] at hf
    left
    have hl : decide (8 * n.toNat + 11 > c.work.tr.limit.toNat) = true := by
      simp [State.hasLevelStack, hv] at hs; simp; omega
    simp [readStackForLevel, hv, raiseIf_of hl, hf]
  right
  simp [hv, hs] at hf
  exact ⟨_, readStackForLevel_fresh h n hq hs, checkNewSs_fault h _ _ _ _ (hq.canLookup _) hf⟩

/-- A CALL that keeps the level. -/
theorem sameLevelCall_runs (s : State) (hq : s.Quiet) (t : Sel) (c : Desc) (target : Word) (w : Nat) (next : Word) :
    finish (sameLevelCall t c target w next (Ctx.start s)) = .next (s.sameLevelCalled t c target w next) := by
  obtain ⟨c1, e1, h1, -⟩ := pushReturn_stands (fresh_stands s hq) w next
  have h2 := h1.modify (fun s => { s.installCs t c s.cpl with eip := target }) (by intros; rfl) (by intros; rfl)
  simp only [sameLevelCall, bind_apply, e1, modifyWork_apply]
  exact stands_next h2

/-- A CALL to a more privileged level. -/
theorem interLevelCall_runs (s : State) (hq : s.Quiet) (t : Sel) (c : Desc) (target : Word) (w pc : Nat) (next : Word)
    (sd : Desc) (hs : s.hasLevelStack c.dpl = true) (hg : GoodStack s (s.levelStack c.dpl).1 c.dpl sd) :
    finish (interLevelCall t c target w pc next (Ctx.start s)) = .next
      (s.interLevelCalled t c target w (s.levelStack c.dpl) sd
        ((List.range' 0 pc).map fun k => s.peek (BitVec.ofNat 32 (w * k)) w) next) := by
  have hf := fresh_start s
  have h0 := (fresh_stands s hq).modify
    (fun u => u.enterStack (s.levelStack c.dpl).1 sd (s.levelStack c.dpl).2 c.dpl) (by intros; rfl) (by intros; rfl)
  simp only [start_work] at h0
  obtain ⟨c1, e1, h1, -⟩ := h0.push w (selWord s.seg.ss.sel)
  obtain ⟨c2, e2, h2, -⟩ := h1.push w s.gpr.esp
  obtain ⟨c3, e3, h3, -⟩ :=
    pushSlots_stands h2 w ((List.range' 0 pc).map fun k => s.peek (BitVec.ofNat 32 (w * k)) w)
  obtain ⟨c4, e4, h4, -⟩ := h3.push w (selWord s.seg.cs.sel)
  obtain ⟨c5, e5, h5, -⟩ := h4.push w next
  have h6 := h5.modify (fun s => { s.installCs t c c.dpl with eip := target }) (by intros; rfl) (by intros; rfl)
  have r1 := readStackForLevel_fresh hf c.dpl hq hs
  have r2 := checkNewSs_fresh hf (s.levelStack c.dpl).1 c.dpl FaultCode.ts sd (hq.canLookup _) hg
  have r3 := peekSlots_fresh hf hq w 0 pc
  simp only [start_work] at r1 r3
  simp only [interLevelCall, bind_apply, work_apply, start_work, r1, r2, r3, modifyWork_apply, e1, e2, e3, e4, e5]
  exact stands_next h6

end Sys2Proof.Machine
end

