-- ==== Sys2Proof/Laws/Interrupts.lean ====
section
/-! SUPPORT. What taking an interrupt or exception answers: how each operation that takes one ends, the checks of the IDT entry
in their order, and the protected-mode IRET as one operation. -/

namespace Sys2Proof.Machine

section Endings
variable {s s0 : State} {i : Instr} {v : BitVec 8} {tag : IntTag} {err : Option Word} {ret : Word}

/-- An interrupt that completes: the state is the commit of its operation. -/
theorem interrupts_ok (h : Interrupts s i s0 v tag err ret) {c : Ctx}
    (e : ∀ b, (tag = .software → b = false) → interrupt v tag b err ret (Ctx.start s0) = .ok () c) :
    exec i s = .next c.commit := by
  cases h with
  | int3 p =>
    show finish (interrupt 3 .software false none _ (Ctx.start s)) = _
    rw [e false (fun _ => rfl)]; rfl
  | int p v => simp [exec, execIntImm, State.run, e false]
  | into p h =>
    show finish ((bif s.ofl then interrupt 4 .software false none _ else _ : Op Unit) (Ctx.start s)) = _
    rw [h, cond_true, e false (fun _ => rfl)]; rfl
  | hardware v => simp [exec, execHardwareInterrupt, State.run, e false]
  | exception f h => simp [exec, execExceptionDelivery, h, deliver, e true]

/-- An interrupt that is no delivery of an exception and faults before anything is committed. -/
theorem interrupts_raise (h : Interrupts s i s0 v tag err ret) (ht : tag ≠ .exception) (f : FaultCode)
    (e : ∀ b, (tag = .software → b = false) →
      interrupt v tag b err ret (Ctx.start s) = .error (.raise f) (Ctx.start s)) :
    exec i s = .next (s.takeFault f) := by
  cases h with
  | int3 p =>
    show finish (interrupt 3 .software false none _ (Ctx.start s)) = _
    rw [e false (fun _ => rfl)]; rfl
  | int p v => simp [exec, execIntImm, State.run, e false]
  | into p h =>
    show finish ((bif s.ofl then interrupt 4 .software false none _ else _ : Op Unit) (Ctx.start s)) = _
    rw [h, cond_true, e false (fun _ => rfl)]; rfl
  | hardware v => simp [exec, execHardwareInterrupt, State.run, e false]
  | exception f h => simp at ht

/-- An interrupt that meets a 286 descriptor. -/
theorem interrupts_refuse (h : Interrupts s i s0 v tag err ret) (c : Ctx) (hb : c.base = s0)
    (e : ∀ b, (tag = .software → b = false) → interrupt v tag b err ret (Ctx.start s0) = .error .refuse c) :
    exec i s = .next { s with refused := true } := by
  cases h with
  | int3 p =>
    show finish (interrupt 3 .software false none _ (Ctx.start s)) = _
    rw [e false (fun _ => rfl)]; simp [hb]
  | int p v => simp [exec, execIntImm, State.run, e false, hb]
  | into p h =>
    show finish ((bif s.ofl then interrupt 4 .software false none _ else _ : Op Unit) (Ctx.start s)) = _
    rw [h, cond_true, e false (fun _ => rfl)]; simp [hb]
  | hardware v => simp [exec, execHardwareInterrupt, State.run, e false, hb]
  | exception f h => simp [exec, execExceptionDelivery, h, deliver, e true]

/-- The state an interrupt starts from: the state itself, or with its pending fault emptied. -/
theorem Interrupts.start_state (h : Interrupts s i s0 v tag err ret) :
    s0 = s ∨ s0 = { s with pendingFault := none } := by cases h <;> simp

theorem GateEntry.of_pending {c : Desc} (h : GateEntry s v tag c) :
    GateEntry { s with pendingFault := none } v tag c :=
  ⟨h.pe, h.v86, h.inIdt, h.kind, h.dpl, h.present,
    ⟨h.target.1, h.target.2, h.target.3, h.target.4, h.target.5⟩⟩

theorem Interrupts.gateEntry (h : Interrupts s i s0 v tag err ret) {c : Desc} (hg : GateEntry s v tag c) :
    GateEntry s0 v tag c := by
  cases h <;> first | exact hg | exact hg.of_pending

end Endings

/-! ### The IDT entry -/

theorem readIdtGate_fresh (s : State) (hq : s.SystemQuiet) (v : BitVec 8) (h : s.hasIdtGate v = true) :
    readIdtGate v (Ctx.start s) = .ok (s.idtGate v) (Ctx.start s) := by
  simp only [State.hasIdtGate, decide_eq_true_eq] at h
  have h2 : decide (8 * v.toNat + 7 > s.idtr.limit.toNat) = false := by simp; omega
  simp [readIdtGate, raiseIf_not h2, memRead_fresh (fresh_start s), hq.canRead, State.idtGate]

/-- `Interrupt` outside real mode, past the IOPL check and the read of the gate. -/
theorem interrupt_gate (s : State) (hq : s.SystemQuiet) (v : BitVec 8) (tag : IntTag) (b : Bool) (err : Option Word) (ret : Word)
    (hpe : s.pe = true) (hv : s.vm = true → tag = .software → s.iopl = 3) (hi : s.hasIdtGate v = true) :
    interrupt v tag b err ret (Ctx.start s) = (do
      let g : Desc := s.idtGate v
      refuseIf (g.kind == .gate286)
      raiseIf (!g.kind.isIdtGate) (.gp (idtErr v))
      raiseIf (tag == .software && decide (g.dpl < s.cpl)) (.gp (idtErr v))
      raiseIf (!g.present) (.np (idtErr v))
      if g.kind = .taskGate then switchTask g.gateSel .callInt ret err
      else gateDelivery g err ret : Op Unit) (Ctx.start s) := by
  have h1 : (s.vm && tag == .software && !b && s.iopl != 3) = false := by
    by_cases h1 : s.vm = true
    · by_cases h2 : tag = .software
      · simp [h1, h2]; intro _; simpa using hv h1 h2
      · simp [h2]
    · simp [h1]
  simp only [interrupt, bind_apply, work_apply, start_work, hpe, Bool.not_true, Bool.false_eq_true, if_false,
    raiseIf_not h1, pure_apply, readIdtGate_fresh s hq v hi]

/-- The first failing check of the IDT entry is the fault `Interrupt` raises. -/
theorem interrupt_idtFault (s : State) (hpe : s.pe = true) (hq : s.SystemQuiet) (v : BitVec 8) (tag : IntTag) (b : Bool)
    (err : Option Word) (ret : Word) (f : FaultCode) (hb : tag = .software → b = false)
    (hi : s.idtFault v tag = some f) :
    interrupt v tag b err ret (Ctx.start s) = .error (.raise f) (Ctx.start s) := by
  simp only [State.idtFault] at hi
  by_cases h1 : (s.vm && tag == .software && s.iopl != 3) = true
  · rw [if_pos h1] at hi
    have h1' : (s.vm && tag == .software && !b && s.iopl != 3) = true := by simp at h1 ⊢; simp [h1, hb h1.1.2]
    simp only [interrupt, bind_apply, work_apply, start_work, hpe, Bool.not_true, Bool.false_eq_true, if_false,
      raiseIf_of h1', raiseFault_apply, Option.some.inj hi]
  rw [if_neg h1] at hi
  have h1' : s.vm = true → tag = .software → s.iopl = 3 := by intro a b; simp at h1; exact h1 a b
  by_cases h2 : s.hasIdtGate v = true
  case neg =>
    rw [if_pos (by simp [h2])] at hi
    have hn : (s.vm && tag == .software && !b && s.iopl != 3) = false := by simp; intro a b' _; exact h1' a b'
    have : decide (8 * v.toNat + 7 > s.idtr.limit.toNat) = true := by simp [State.hasIdtGate] at h2; simp; omega
    simp only [interrupt, bind_apply, work_apply, start_work, hpe, Bool.not_true, Bool.false_eq_true, if_false,
      raiseIf_not hn, pure_apply, readIdtGate, raiseIf_of this, raiseFault_apply, Option.some.inj hi]
  rw [if_neg (by simp [h2])] at hi
  rw [interrupt_gate s hq v tag b err ret hpe h1' h2]
  generalize s.idtGate v = g at hi ⊢
  split at hi
  · simp at hi
  rename_i h3
  simp only [bind_apply, refuseIf_ne h3]
  by_cases h4 : g.kind.isIdtGate = true
  case neg => simp [h4] at hi; simp [h4, hi]
  simp only [h4, Bool.not_true, raiseIf_false, pure_apply]
  by_cases h5 : tag = .software ∧ g.dpl < s.cpl
  · have h5' : (tag == .software && decide (g.dpl < s.cpl)) = true := by simpa using h5
    simp [h4, h5] at hi
    simp [raiseIf_of h5', hi]
  have h5' : (tag == .software && decide (g.dpl < s.cpl)) = false := by simpa using h5
  simp [h4] at hi
  rw [if_neg h5] at hi
  simp only [raiseIf_not h5', pure_apply]
  by_cases h6 : g.present = true
  · simp [h6] at hi
  · simp [h6] at hi; simp [h6, hi]

/-- Past the IDT entry, an interrupt or trap gate is delivered. -/
theorem interrupt_entry (s : State) (hq : s.SystemQuiet) (v : BitVec 8) (tag : IntTag) (b : Bool) (err : Option Word) (ret : Word)
    (c : Desc) (hg : GateEntry s v tag c) :
    interrupt v tag b err ret (Ctx.start s) = gateDelivery (s.idtGate v) err ret (Ctx.start s) := by
  have h1 : (tag == .software && decide ((s.idtGate v).dpl < s.cpl)) = false := by
    by_cases h2 : tag = .software
    · simp [h2]; simpa using hg.dpl h2
    · simp [h2]
  rw [interrupt_gate s hq v tag b err ret hg.pe hg.v86 hg.inIdt]
  rcases hg.kind with hk | hk <;> simp [hk, DescKind.isIdtGate, raiseIf_not h1, hg.present]

/-- The error code, if there is one, is pushed. -/
theorem pushError_stands {c : Ctx} {t : State} (h : c.Stands t) (err : Option Word) :
    ∃ c', pushError err c = .ok () c' ∧ c'.Stands (match err with | some e => t.pushed 4 e | none => t) ∧
      c'.switched = c.switched := by
  cases err with
  | none => exact ⟨c, rfl, h, rfl⟩
  | some e => exact h.push 4 e

/-! ### IRET -/

/-- IRET in protected mode with NT 0. -/
theorem iretProt_runs (s : State) (p : List Pfx) (hu : s.unchecked = false) (hnt : s.nt = false) :
    exec (.iret p) s = finish (iretProt (s.opSize p) (Ctx.start s)) := by
  obtain ⟨hpe, hv⟩ := State.prot_of_checked hu
  simp [exec, execIret, State.run, iretOp, hpe, hv, hnt]

end Sys2Proof.Machine
end

