-- ==== Sys2Proof/Laws/TaskSwitch.lean ====
section
/-! SUPPORT. What the pieces of a task switch answer: the checks before the commit, the reads and writes of the two TSSs, and that
every load after the commit either succeeds or faults, and changes only the segment caches, LDTR's cache and the stack mask. -/

namespace Sys2Proof.Machine

/-! ### The checks -/

theorem checkTarget_fresh {c : Ctx} (h : c.Fresh) (sel : Sel) (mode : SwitchMode) (d : Desc)
    (hm : c.work.canLookup sel = true) (hg : SwitchTarget c.work sel mode d) : checkTarget sel mode c = .ok d c := by
  obtain ⟨h1, h2, h3, h4, h5, -, -⟩ := hg
  have h6 : decide (d.limit.toNat < 0x67) = false := by simpa using h5
  have h7 : d.kind.isTss = true := by rw [h3]; rfl
  have h8 : (mode != .iret && d.kind == .tss true) = false := by rw [h3]; cases mode <;> rfl
  have h9 : (mode == .iret && d.kind == .tss false) = false := by rw [h3]; cases mode <;> rfl
  have h10 : (d.kind == .tss286) = false := by rw [h3]; rfl
  simp only [checkTarget, bind_apply, h1, raiseIf_false, pure_apply, requireDesc_some h sel _ d hm h2, h4, h7,
    Bool.not_true, raiseIf_not h6, raiseIf_not h8, raiseIf_not h9, h10, refuseIf_false]

theorem checkOutgoing_fresh {c : Ctx} (h1 : c.work.tr.valid = true) (h2 : 0x67 ≤ c.work.tr.limit.toNat) :
    checkOutgoing c = .ok () c := by
  have h3 : decide (c.work.tr.limit.toNat < 0x67) = false := by simpa using h2
  simp only [checkOutgoing, bind_apply, work_apply, h1, Bool.not_true, raiseIf_false, pure_apply, raiseIf_not h3]

/-- The first failing check before the commit is the fault the switch raises; nothing has changed. -/
theorem switchTask_fault {c : Ctx} (h : c.Fresh) (hq : c.work.SystemQuiet) (sel : Sel) (mode : SwitchMode) (ret : Word)
    (err : Option Word) (f : FaultCode) (hf : c.work.switchFault sel mode = some f) :
    switchTask sel mode ret err c = .error (.raise f) c := by
  simp only [State.switchFault] at hf
  have hm := hq.canLookup sel
  by_cases h1 : selTi sel = true
  · simp [h1] at hf; simp [switchTask, checkTarget, h1, hf]
  simp only [Bool.not_eq_true] at h1
  simp only [h1, Bool.false_eq_true, if_false] at hf
  cases hd : c.work.lookup sel with
  | none => simp only [hd] at hf; simp [switchTask, checkTarget, h1, requireDesc_none h sel _ hm hd]; simpa using hf
  | some d =>
    simp only [hd] at hf
    by_cases h2 : d.kind = .tss286
    · simp [h2] at hf
    simp only [h2, if_false] at hf
    have hcheck : checkTarget sel mode c = (do
        raiseIf (!d.kind.isTss) ((fun e => if mode = .iret then FaultCode.ts e else FaultCode.gp e) (errSel sel))
        raiseIf (mode != .iret && d.kind == .tss true) (.gp (errSel sel))
        raiseIf (mode == .iret && d.kind == .tss false) (.ts (errSel sel))
        raiseIf (!d.present) (.np (errSel sel))
        raiseIf (decide (d.limit.toNat < 0x67)) (.ts (errSel sel))
        pure d : Op Desc) c := by
      simp only [checkTarget, bind_apply, h1, raiseIf_false, pure_apply, requireDesc_some h sel _ d hm hd, refuseIf_ne h2]
    simp only [switchTask, bind_apply, hcheck]
    by_cases h3 : d.kind.isTss = true
    case neg => simp [h3] at hf; simp [h3, hf]
    simp only [h3, Bool.not_true, Bool.false_eq_true, if_false, raiseIf_false, pure_apply] at hf ⊢
    by_cases h4 : mode ≠ .iret ∧ d.kind = .tss true
    · simp [h4] at hf; simp [h4, hf]
    have h4' : (mode != .iret && d.kind == .tss true) = false := by simpa using h4
    rw [if_neg h4] at hf
    simp only [raiseIf_not h4', pure_apply]
    by_cases h5 : mode = .iret ∧ d.kind = .tss false
    · simp [h5] at hf; simp [h5, hf]
    have h5' : (mode == .iret && d.kind == .tss false) = false := by simpa using h5
    rw [if_neg h5] at hf
    simp only [raiseIf_not h5', pure_apply]
    by_cases h6 : d.present = true
    case neg => simp [h6] at hf; simp [h6, hf]
    simp only [h6, Bool.not_true, Bool.false_eq_true, if_false, raiseIf_false, pure_apply] at hf ⊢
    by_cases h7 : d.limit.toNat < 0x67
    · have h7' : decide (d.limit.toNat < 0x67) = true := by simpa using h7
      rw [if_pos h7] at hf
      simp only [raiseIf_of h7', raiseFault_apply, Option.some.inj hf]
    have h7' : decide (d.limit.toNat < 0x67) = false := by simpa using h7
    rw [if_neg h7] at hf
    simp only [raiseIf_not h7', pure_apply, checkOutgoing, bind_apply, work_apply]
    by_cases h8 : c.work.tr.valid = true
    case neg => simp [h8] at hf; simp [h8, hf]
    simp only [h8, Bool.not_true, Bool.false_eq_true, if_false, raiseIf_false, pure_apply] at hf ⊢
    by_cases h9 : c.work.tr.limit.toNat < 0x67
    · have h9' : decide (c.work.tr.limit.toNat < 0x67) = true := by simpa using h9
      rw [if_pos h9] at hf
      simp only [raiseIf_of h9', raiseFault_apply, Option.some.inj hf]
    · simp [h9] at hf

/-- A 286 TSS is refused. -/
theorem switchTask_refuses {c : Ctx} (h : c.Fresh) (hq : c.work.SystemQuiet) (sel : Sel) (mode : SwitchMode) (ret : Word)
    (err : Option Word) (d : Desc) (h1 : selTi sel = false) (hd : c.work.lookup sel = some d) (hk : d.kind = .tss286) :
    switchTask sel mode ret err c = .error .refuse c := by
  simp [switchTask, checkTarget, h1, requireDesc_some h sel _ d (hq.canLookup sel) hd, hk]

/-! ### Reads and writes before the commit -/

theorem memRead16_fresh {c : Ctx} (h : c.Fresh) (a : Word) (hr : c.work.canRead false a 2 = true) :
    memRead16 a c = .ok (low16 (c.work.readLin a 2)) c := by
  simp [memRead16, memRead_fresh h _ _ _ hr]

theorem readImage_fresh {c : Ctx} (h : c.Fresh) (hq : c.work.SystemQuiet) (b : Word) :
    readImage b c = .ok (c.work.tssImage b) c := by
  have r : ∀ a n, memRead false a n c = .ok (c.work.readLin a n) c := fun a n => memRead_fresh h _ a n (hq.canRead _ _ _)
  have r16 : ∀ a, memRead16 a c = .ok (low16 (c.work.readLin a 2)) c := fun a => memRead16_fresh h a (hq.canRead _ _ _)
  have step : ∀ {α : Type} {x : Op α} {a : α} (f : α → Op TssImage), x c = .ok a c → (x >>= f) c = f a c := by
    intro α x a f e; simp only [bind_apply, e]
  unfold readImage
  repeat first | refine (step _ (r _ _)).trans ?_ | refine (step _ (r16 _)).trans ?_
  rfl

/-- A context whose planned writes are `ws`, in order, over state `s`, which no access faults in. -/
structure Ctx.Writes (c : Ctx) (s : State) (ws : List (Word × Nat × Word)) : Prop where
  base : c.base = s
  work : c.work = s
  plan : c.plan = planOf ws
  switched : c.switched = false
  answers : c.answers = []

theorem planOf_append (ws vs : List (Word × Nat × Word)) :
    planOf (ws ++ vs) = planOf vs ++ planOf ws := by
  have h : ∀ (vs : List (Word × Nat × Word)) (acc : List (Word × Byte)),
      vs.foldl (fun acc w => (bytesLe w.1 w.2.1 w.2.2).reverse ++ acc) acc = planOf vs ++ acc := by
    intro vs
    induction vs with
    | nil => intro acc; rfl
    | cons v vs ih =>
      intro acc
      rw [List.foldl_cons, ih, show planOf (v :: vs) = _ from ih _]
      simp
  rw [planOf, List.foldl_append, h]
  rfl

theorem writes_start (s : State) (hq : s.SystemQuiet) : (Ctx.start s).Writes s [] := ⟨rfl, rfl, rfl, rfl, hq.answers⟩

theorem Ctx.Writes.memWrite {c : Ctx} {s : State} {ws : List (Word × Nat × Word)} (h : c.Writes s ws) (hq : s.SystemQuiet)
    (a : Word) (n : Nat) (v : Word) :
    ∃ c', memWrite false a n v c = .ok () c' ∧ c'.Writes s (ws ++ [(a, n, v)]) := by
  refine ⟨_, memWrite_ok c h.answers false a n v (by rw [h.base]; exact hq.canWrite _ _), h.base, h.work, ?_, h.switched,
    h.answers⟩
  rw [planOf_append, ← h.plan]
  simp [planOf]

theorem Ctx.Writes.setBusy {c : Ctx} {s : State} {ws : List (Word × Nat × Word)} (h : c.Writes s ws) (hq : s.SystemQuiet)
    (sel : Sel) (b : Bool) :
    ∃ c', setBusy sel b c = .ok () c' ∧ c'.Writes s (ws ++ [s.busyWrite (planOf ws) sel b]) := by
  have hr : memRead false (s.busyAddr sel) 1 c =
      .ok (readLe (fun a => ((planOf ws).lookup a).getD (s.readByte a)) (s.busyAddr sel) 1) c := by
    simp only [memRead_plain h.answers, h.base, h.plan, (State.canRead_iff.1 (hq.canRead false (s.busyAddr sel) 1)).2]
  obtain ⟨c', e, h'⟩ := h.memWrite hq (s.busyAddr sel) 1
    (busyByte (readLe (fun a => ((planOf ws).lookup a).getD (s.readByte a)) (s.busyAddr sel) 1) b)
  exact ⟨c', by simp only [Machine.setBusy, bind_apply, work_apply, h.work, hr, e], h'⟩

theorem Ctx.Writes.flushOutgoing {c : Ctx} {s : State} {ws : List (Word × Nat × Word)} (h : c.Writes s ws) (hq : s.SystemQuiet)
    (mode : SwitchMode) (ret : Word) :
    ∃ c', flushOutgoing mode ret c = .ok () c' ∧ c'.Writes s (ws ++ s.flushWrites mode ret) := by
  obtain ⟨c1, e1, h1⟩ := h.memWrite hq (s.tr.base + 0x20#32) 4 ret
  obtain ⟨c2, e2, h2⟩ := h1.memWrite hq (s.tr.base + 0x24#32) 4 (savedEflags mode s.eflags)
  obtain ⟨c3, e3, h3⟩ := h2.memWrite hq (s.tr.base + 0x28#32) 4 s.gpr.eax
  obtain ⟨c4, e4, h4⟩ := h3.memWrite hq (s.tr.base + 0x2C#32) 4 s.gpr.ecx
  obtain ⟨c5, e5, h5⟩ := h4.memWrite hq (s.tr.base + 0x30#32) 4 s.gpr.edx
  obtain ⟨c6, e6, h6⟩ := h5.memWrite hq (s.tr.base + 0x34#32) 4 s.gpr.ebx
  obtain ⟨c7, e7, h7⟩ := h6.memWrite hq (s.tr.base + 0x38#32) 4 s.gpr.esp
  obtain ⟨c8, e8, h8⟩ := h7.memWrite hq (s.tr.base + 0x3C#32) 4 s.gpr.ebp
  obtain ⟨c9, e9, h9⟩ := h8.memWrite hq (s.tr.base + 0x40#32) 4 s.gpr.esi
  obtain ⟨c10, e10, h10⟩ := h9.memWrite hq (s.tr.base + 0x44#32) 4 s.gpr.edi
  obtain ⟨c11, e11, h11⟩ := h10.memWrite hq (s.tr.base + 0x48#32) 2 (selWord s.seg.es.sel)
  obtain ⟨c12, e12, h12⟩ := h11.memWrite hq (s.tr.base + 0x4C#32) 2 (selWord s.seg.cs.sel)
  obtain ⟨c13, e13, h13⟩ := h12.memWrite hq (s.tr.base + 0x50#32) 2 (selWord s.seg.ss.sel)
  obtain ⟨c14, e14, h14⟩ := h13.memWrite hq (s.tr.base + 0x54#32) 2 (selWord s.seg.ds.sel)
  obtain ⟨c15, e15, h15⟩ := h14.memWrite hq (s.tr.base + 0x58#32) 2 (selWord s.seg.fs.sel)
  obtain ⟨c16, e16, h16⟩ := h15.memWrite hq (s.tr.base + 0x5C#32) 2 (selWord s.seg.gs.sel)
  refine ⟨c16, ?_, ?_⟩
  · simp only [Machine.flushOutgoing, bind_apply, work_apply, h.work, e1, e2, e3, e4, e5, e6, e7, e8, e9, e10, e11, e12,
      e13, e14, e15, e16]
  · simpa only [State.flushWrites, List.append_assoc, List.cons_append, List.nil_append] using h16

/-- Up to its commit a switch whose checks pass plans exactly `switchWrites`; after it, it is the loads of the new task. -/
theorem switchTask_commits (s : State) (hq : s.SystemQuiet) (sel : Sel) (mode : SwitchMode) (ret : Word) (err : Option Word)
    (d : Desc) (hg : SwitchTarget s sel mode d) :
    switchTask sel mode ret err (Ctx.start s) = (do
      loadTaskSegments (s.tssImage d.base)
      pushError err : Op Unit)
      { base := s.switchedTo sel d mode ret
        work := s.switchedTo sel d mode ret
        plan := []
        switched := true
        answers := [] } := by
  have hf := fresh_start s
  have first : ∃ c1, whenOp (mode == .jmp || mode == .iret) (setBusy s.tr.sel false) (Ctx.start s) = .ok () c1 ∧
      c1.Writes s (if mode = .jmp ∨ mode = .iret then [s.busyWrite [] s.tr.sel false] else []) := by
    by_cases h : mode = .jmp ∨ mode = .iret
    · obtain ⟨c1, e1, h1⟩ := (writes_start s hq).setBusy hq s.tr.sel false
      exact ⟨c1, by rw [show (mode == .jmp || mode == .iret) = true by simpa using h]; exact e1, by rw [if_pos h]; exact h1⟩
    · exact ⟨_, by rw [show (mode == .jmp || mode == .iret) = false by simpa using h]; rfl,
        by rw [if_neg h]; exact writes_start s hq⟩
  obtain ⟨c1, e1, h1⟩ := first
  obtain ⟨c2, e2, h2⟩ := h1.flushOutgoing hq mode ret
  have third : ∀ ws, c2.Writes s ws → ∃ c3, whenOp (mode != .iret) (setBusy sel true) c2 = .ok () c3 ∧
      c3.Writes s (if mode = .iret then ws else ws ++ [s.busyWrite (planOf ws) sel true]) := by
    intro ws h2
    by_cases h : mode = .iret
    · exact ⟨_, by rw [show (mode != .iret) = false by simpa using h]; rfl, by rw [if_pos h]; exact h2⟩
    · obtain ⟨c3, e3, h3⟩ := h2.setBusy hq sel true
      exact ⟨c3, by rw [show (mode != .iret) = true by simpa using h]; exact e3, by rw [if_neg h]; exact h3⟩
  obtain ⟨c3, e3, h3⟩ := third _ h2
  have fourth : ∀ ws, c3.Writes s ws → ∃ c4, whenOp (mode == .call || mode == .callInt)
      (memWrite false d.base 2 (selWord s.tr.sel)) c3 = .ok () c4 ∧
      c4.Writes s (if mode = .call ∨ mode = .callInt then ws ++ [(d.base, 2, selWord s.tr.sel)] else ws) := by
    intro ws h3
    by_cases h : mode = .call ∨ mode = .callInt
    · obtain ⟨c4, e4, h4⟩ := h3.memWrite hq d.base 2 (selWord s.tr.sel)
      exact ⟨c4, by rw [show (mode == .call || mode == .callInt) = true by simpa using h]; exact e4,
        by rw [if_pos h]; exact h4⟩
    · exact ⟨_, by rw [show (mode == .call || mode == .callInt) = false by simpa using h]; rfl,
        by rw [if_neg h]; exact h3⟩
  obtain ⟨c4, e4, h4⟩ := fourth _ h3
  have hcommit : c4.commit.enterTask sel d (s.tssImage d.base) mode = s.switchedTo sel d mode ret := by
    simp only [Ctx.commit, h4.base, h4.work, h4.plan, State.switchedTo, State.switchWrites]
  simp only [switchTask, bind_apply, checkTarget_fresh hf sel mode d (hq.canLookup sel) hg, work_apply, start_work,
    checkOutgoing_fresh (c := Ctx.start s) hg.outgoing hg.outgoingLimit, readImage_fresh hf hq, e1, e2, e3, e4,
    commitSwitch, hcommit, h4.answers]

/-! ### The loads after the commit -/

/-- `t` is the committed state `u` but for segment caches, LDTR's cache and the stack mask. -/
structure LoadsOnly (u t : State) : Prop where
  same : t = { u with seg := t.seg, stack := t.stack, ldtr := t.ldtr }
  sels : ∀ n, (t.seg.get n).sel = (u.seg.get n).sel
  ldt : t.ldtr.sel = u.ldtr.sel

theorem LoadsOnly.refl (u : State) : LoadsOnly u u where
  same := rfl
  sels _ := rfl
  ldt := rfl

theorem LoadsOnly.trans {u v w : State} (h : LoadsOnly u v) (k : LoadsOnly v w) : LoadsOnly u w where
  same := by
    have hk := k.same
    rw [h.same] at hk
    exact hk
  sels n := (k.sels n).trans (h.sels n)
  ldt := k.ldt.trans h.ldt

theorem LoadsOnly.eflags {u t : State} (h : LoadsOnly u t) : t.eflags = u.eflags := by rw [h.same]

theorem LoadsOnly.mmu {u t : State} (h : LoadsOnly u t) : t.mmu = u.mmu := by rw [h.same]

theorem LoadsOnly.cpl {u t : State} (h : LoadsOnly u t) : t.cpl = u.cpl := by rw [h.same]

/-- A segment register written with the selector it already shows. -/
theorem loadsOnly_setSeg (u : State) (n : SegName) (r : SegReg) (h : r.sel = (u.seg.get n).sel) :
    LoadsOnly u (u.setSeg n r) where
  same := by cases n <;> rfl
  sels m := by
    rw [State.setSeg_seg]
    by_cases e : m = n
    · rw [e, Segs.get_set_same, h]
    · rw [Segs.get_set_other _ _ _ _ e]
  ldt := by cases n <;> rfl

theorem withRpl_self (s : Sel) : withRpl s (selRpl s) = s := by
  have mask : ∀ i : Fin 16, (0xFFFC#16)[i.val] = decide (2 ≤ i.val) := by decide
  ext i hi
  have := mask ⟨i, hi⟩
  simp only at this
  by_cases h : 2 ≤ i
  · simp [withRpl, selRpl, this, h]
  · have low : i < 2 := by omega
    simp [withRpl, selRpl, this, h, low, BitVec.getLsbD_eq_getElem hi]

theorem State.SystemQuiet.of_mmu {s t : State} (h : s.SystemQuiet) (e : t.mmu = s.mmu) : t.SystemQuiet :=
  ⟨by rw [e]; exact h.views, by rw [e]; exact h.answers⟩

/-- A read answers a value or raises the `Mmu`'s fault, and changes nothing. -/
theorem memRead_cases (user : Bool) (a : Word) (n : Nat) (c : Ctx) (ha : c.answers = []) :
    (∃ v, memRead user a n c = .ok v c) ∨ ¬ c.base.SystemQuiet ∧ ∃ f, memRead user a n c = .error (.raise f) c := by
  rw [memRead_plain ha]
  cases h : c.base.mmu.check { addr := a, size := n, write := false, user := user } with
  | none => exact .inl ⟨_, rfl⟩
  | some f => exact .inr ⟨fun hq => by simp [Mmu.check_systemQuiet _ hq.views] at h, _, rfl⟩

theorem lookupDesc_cases (sel : Sel) (c : Ctx) (ha : c.answers = []) :
    (∃ v, lookupDesc sel c = .ok v c) ∨ ¬ c.base.SystemQuiet ∧ ∃ f, lookupDesc sel c = .error (.raise f) c := by
  simp only [lookupDesc, bind_apply, work_apply]
  split
  · exact .inl ⟨_, rfl⟩
  · obtain ⟨v, h⟩ | ⟨q, f, h⟩ := memRead_cases false (c.work.descAddr sel) 4 c ha
    · obtain ⟨w, k⟩ | ⟨q, f, k⟩ := memRead_cases false (c.work.descAddr sel + 4#32) 4 c ha
      · exact .inl ⟨_, by simp only [bind_apply, h, k, pure_apply]; rfl⟩
      · exact .inr ⟨q, f, by simp only [bind_apply, h, k]⟩
    · exact .inr ⟨q, f, by simp only [bind_apply, h]⟩

theorem requireDesc_cases (sel : Sel) (e : FaultCode) (c : Ctx) (ha : c.answers = []) :
    (∃ d, requireDesc sel e c = .ok d c) ∨
      ∃ f, requireDesc sel e c = .error (.raise f) c ∧ (c.base.SystemQuiet → f = e) := by
  obtain ⟨v, h⟩ | ⟨q, f, h⟩ := lookupDesc_cases sel c ha
  · cases v with
    | none => exact .inr ⟨e, by simp [requireDesc, h], fun _ => rfl⟩
    | some d => exact .inl ⟨d, by simp [requireDesc, h]⟩
  · exact .inr ⟨f, by simp [requireDesc, h], fun hq => absurd hq q⟩

/-- An operation that raises with nothing changed, or writes the working copy alone and keeps `LoadsOnly u`; its own faults do not
touch CR2. -/
def LoadStep (u : State) (op : Op Unit) : Prop :=
  ∀ c : Ctx, c.answers = [] → LoadsOnly u c.work →
    (∃ t, op c = .ok () { c with work := t } ∧ LoadsOnly u t) ∨
      ∃ f, op c = .error (.raise f) c ∧ (c.base.SystemQuiet → f.cr2 = none)

theorem loadStep_modify (u : State) (f : State → State) (h : ∀ s, LoadsOnly u s → LoadsOnly u (f s)) :
    LoadStep u (modifyWork f) := fun c _ hc => .inl ⟨f c.work, rfl, h _ hc⟩

theorem loadStep_raiseIf (u : State) (b : Bool) (e : FaultCode) (he : e.cr2 = none) (op : Op Unit)
    (h : b = false → LoadStep u op) : LoadStep u (do raiseIf b e; op) := by
  intro c ha hc
  cases b with
  | true => exact .inr ⟨e, by simp, fun _ => he⟩
  | false => simpa using h rfl c ha hc

theorem loadStep_require (u : State) (sel : Sel) (e : FaultCode) (he : e.cr2 = none) (k : Desc → Op Unit)
    (h : ∀ d, LoadStep u (k d)) : LoadStep u (do let d ← requireDesc sel e; k d) := by
  intro c ha hc
  obtain ⟨d, hd⟩ | ⟨f, hf, hq⟩ := requireDesc_cases sel e c ha
  · simpa [hd] using h d c ha hc
  · exact .inr ⟨f, by simp [hf], fun q => by rw [hq q]; exact he⟩

theorem loadStep_ldt (u : State) (l : Sel) (hl : u.ldtr.sel = l) : LoadStep u (loadTaskLdt l) := by
  unfold loadTaskLdt
  split
  · exact fun c _ hc => .inl ⟨c.work, rfl, hc⟩
  · refine loadStep_raiseIf u _ _ rfl _ fun _ => loadStep_require u _ _ rfl _ fun d => loadStep_raiseIf u _ _ rfl _ fun _ =>
      loadStep_raiseIf u _ _ rfl _ fun _ => loadStep_modify u _ fun s hs => hs.trans ?_
    exact { same := rfl, sels := fun _ => rfl, ldt := (hs.ldt.trans hl).symm }

theorem loadStep_cs (u : State) (sel : Sel) (hsel : u.seg.cs.sel = sel) (hcpl : u.cpl = selRpl sel) :
    LoadStep u (loadTaskCs sel) := by
  unfold loadTaskCs
  refine loadStep_raiseIf u _ _ rfl _ fun _ => loadStep_require u _ _ rfl _ fun d => loadStep_raiseIf u _ _ rfl _ fun _ =>
    loadStep_raiseIf u _ _ rfl _ fun _ => loadStep_raiseIf u _ _ rfl _ fun _ => loadStep_raiseIf u _ _ rfl _ fun _ =>
    loadStep_modify u _ fun s hs => hs.trans ?_
  have h := loadsOnly_setSeg s .cs (d.toSeg (withRpl sel (selRpl sel)))
    (by rw [withRpl_self]; exact hsel.symm.trans (hs.sels .cs).symm)
  have hn : selRpl sel = s.cpl := hcpl.symm.trans hs.cpl.symm
  exact { same := by rw [hn]; rfl, sels := h.sels, ldt := h.ldt }

theorem loadStep_ss (u : State) (sel : Sel) (n : Level) (hsel : u.seg.ss.sel = sel) : LoadStep u (loadTaskSs sel n) := by
  have h : LoadStep u (do
      raiseIf (isNull sel) (.ts 0)
      let d ← requireDesc sel (.ts (errSel sel))
      raiseIf (selRpl sel != n) (.ts (errSel sel))
      raiseIf (!d.kind.isWritableData) (.ts (errSel sel))
      raiseIf (d.dpl != n) (.ts (errSel sel))
      raiseIf (!d.present) (.ss (errSel sel))
      modifyWork fun s => s.installSeg .ss sel d) := by
    refine loadStep_raiseIf u _ _ rfl _ fun _ => loadStep_require u _ _ rfl _ fun d => loadStep_raiseIf u _ _ rfl _ fun _ =>
      loadStep_raiseIf u _ _ rfl _ fun _ => loadStep_raiseIf u _ _ rfl _ fun _ => loadStep_raiseIf u _ _ rfl _ fun _ =>
      loadStep_modify u _ fun s hs => hs.trans (loadsOnly_setSeg s .ss _ (hsel.symm.trans (hs.sels .ss).symm))
  simpa only [loadTaskSs, checkNewSs, bind_assoc, pure_bind] using h

theorem loadStep_data (u : State) (f : Word → FaultCode) (hf : ∀ e, (f e).cr2 = none) (n : SegName) (sel : Sel) (hsel : (u.seg.get n).sel = sel)
    (hn : n ≠ .ss) : LoadStep u (loadDataSegProt f n sel) := by
  unfold loadDataSegProt
  split
  · refine loadStep_modify u _ fun s hs => hs.trans ?_
    have h := loadsOnly_setSeg s n (.null sel) (hsel.symm.trans (hs.sels n).symm)
    cases n <;> first | exact h | exact absurd rfl hn
  · intro c ha hc
    refine loadStep_require u _ _ (hf _) _ (fun d => ?_) c ha hc
    exact loadStep_raiseIf u _ _ (hf _) _ fun _ => loadStep_raiseIf u _ _ (hf _) _ fun _ =>
      loadStep_raiseIf u _ _ rfl _ fun _ => loadStep_modify u _ fun s hs => hs.trans (loadsOnly_setSeg s n _ (hsel.symm.trans (hs.sels n).symm))

theorem loadsOnly_v86 (u : State) (cs ss ds es fs gs : Sel) (h1 : u.seg.cs.sel = cs) (h2 : u.seg.ss.sel = ss)
    (h3 : u.seg.ds.sel = ds) (h4 : u.seg.es.sel = es) (h5 : u.seg.fs.sel = fs) (h6 : u.seg.gs.sel = gs) :
    LoadsOnly u (u.loadV86Segs cs ss ds es fs gs) := by
  have one : ∀ (s : State) (n : SegName) (sel : Sel), (s.seg.get n).sel = sel → LoadsOnly s (s.loadSegReal n sel) := by
    intro s n sel h
    refine loadsOnly_setSeg s n _ ?_
    split <;> exact h.symm
  have k1 := one u .cs cs h1
  have k2 := k1.trans (one _ .ss ss ((k1.sels .ss).trans h2))
  have k3 := k2.trans (one _ .ds ds ((k2.sels .ds).trans h3))
  have k4 := k3.trans (one _ .es es ((k3.sels .es).trans h4))
  have k5 := k4.trans (one _ .fs fs ((k4.sels .fs).trans h5))
  exact k5.trans (one _ .gs gs ((k5.sels .gs).trans h6))

/-- `LoadTaskSegments` from the committed state `u`: done, or ended by a fault of the new task, and in both cases only the segment
caches, LDTR's cache and the stack mask have changed. -/
theorem loadTaskSegments_cases (u : State) (img : TssImage) (hl : u.ldtr.sel = img.ldt) (h1 : u.seg.cs.sel = img.cs)
    (h2 : u.seg.ss.sel = img.ss) (h3 : u.seg.ds.sel = img.ds) (h4 : u.seg.es.sel = img.es) (h5 : u.seg.fs.sel = img.fs)
    (h6 : u.seg.gs.sel = img.gs) (hcpl : u.vm = false → u.cpl = selRpl img.cs) (c : Ctx) (hb : c.base = u) (hw : c.work = u)
    (hp : c.plan = []) (ha : c.answers = []) :
    (∃ t, loadTaskSegments img c = .ok () { c with base := t, work := t } ∧ LoadsOnly u t) ∨
      ∃ f t w, loadTaskSegments img c = .error (.raise f) { c with base := t, work := w } ∧ LoadsOnly u t ∧
        (u.SystemQuiet → f.cr2 = none) := by
  -- one load, then `keepWork`
  have run : ∀ (op k : Op Unit) (t : State), LoadStep u op → LoadsOnly u t →
      (∀ t', LoadsOnly u t' →
        (∃ t2, k { c with base := t', work := t' } = .ok () { c with base := t2, work := t2 } ∧ LoadsOnly u t2) ∨
          ∃ f t2 w, k { c with base := t', work := t' } = .error (.raise f) { c with base := t2, work := w } ∧
            LoadsOnly u t2 ∧ (u.SystemQuiet → f.cr2 = none)) →
      (∃ t2, (do op; keepWork; k : Op Unit) { c with base := t, work := t } =
          .ok () { c with base := t2, work := t2 } ∧ LoadsOnly u t2) ∨
        ∃ f t2 w, (do op; keepWork; k : Op Unit) { c with base := t, work := t } =
          .error (.raise f) { c with base := t2, work := w } ∧ LoadsOnly u t2 ∧ (u.SystemQuiet → f.cr2 = none) := by
    intro op k t hs ht hk
    obtain ⟨t', e, h'⟩ | ⟨f, e, hf⟩ := hs { c with base := t, work := t } ha ht
    · have := hk t' h'
      simpa only [bind_apply, e, keepWork_apply] using this
    · exact .inr ⟨f, t, t, by simp only [bind_apply, e], ht,
        fun hq => hf (hq.of_mmu ht.mmu)⟩
  have hc : c = { c with base := u, work := u } := by cases c; simp_all
  rw [hc]
  unfold loadTaskSegments
  refine run _ _ u (loadStep_ldt u _ hl) (.refl u) fun t1 k1 => ?_
  by_cases hv : u.vm = true
  · have hv1 : t1.vm = true := by simpa only [State.vm, k1.eflags] using hv
    left
    exact ⟨t1.loadV86Segs img.cs img.ss img.ds img.es img.fs img.gs,
      by simp only [bind_apply, work_apply, hv1, if_true, modifyWork_apply, keepWork_apply],
      k1.trans (loadsOnly_v86 t1 _ _ _ _ _ _ ((k1.sels .cs).trans h1) ((k1.sels .ss).trans h2) ((k1.sels .ds).trans h3)
        ((k1.sels .es).trans h4) ((k1.sels .fs).trans h5) ((k1.sels .gs).trans h6))⟩
  · simp only [Bool.not_eq_true] at hv
    have hv1 : t1.vm = false := by simpa only [State.vm, k1.eflags] using hv
    rw [bind_apply, work_apply]
    simp only [hv1, Bool.false_eq_true, if_false]
    refine run _ _ t1 (loadStep_cs u _ h1 (hcpl hv)) k1 fun t2 k2 => ?_
    refine run _ _ t2 (loadStep_ss u _ _ h2) k2 fun t3 k3 => ?_
    refine run _ _ t3 (loadStep_data u .ts (fun _ => rfl) .ds _ h3 (by decide)) k3 fun t4 k4 => ?_
    refine run _ _ t4 (loadStep_data u .ts (fun _ => rfl) .es _ h4 (by decide)) k4 fun t5 k5 => ?_
    refine run _ _ t5 (loadStep_data u .ts (fun _ => rfl) .fs _ h5 (by decide)) k5 fun t6 k6 => ?_
    exact run (loadDataSegProt .ts .gs img.gs) (pure ()) t6 (loadStep_data u .ts (fun _ => rfl) .gs _ h6 (by decide)) k6
      fun t7 k7 => .inl ⟨t7, rfl, k7⟩

/-! ### The committed state, and the plan of a switch byte by byte -/

/-- A state that differs from the committed one in loads only is a switched state. -/
theorem switched_of (s : State) (sel : Sel) (mode : SwitchMode) (ret : Word) (d : Desc) (hp : s.pendingFault = none) (t : State)
    (h : LoadsOnly (s.switchedTo sel d mode ret) t) : Switched s t sel d mode ret := by
  have fl : (s.switchedTo sel d mode ret).eflags =
      eflagsWrite (if mode = .call ∨ mode = .callInt then setBit (s.tssImage d.base).eflags bitNT true
        else (s.tssImage d.base).eflags) := by
    simp only [State.switchedTo, State.enterTask]
    split
    · exact eflagsWrite_setBit _ _
    · rfl
  have vm : (s.switchedTo sel d mode ret).cpl =
      if (s.tssImage d.base).eflags.getLsbD bitVM then 3 else selRpl (s.tssImage d.base).cs := by
    have : (s.switchedTo sel d mode ret).eflags.getLsbD bitVM = (s.tssImage d.base).eflags.getLsbD bitVM := by
      rw [fl]
      split <;> simp [eflagsWrite, setBit, maskV86All, bitVM, bitNT]
    rw [← this]
    rfl
  exact {
    tr := by rw [h.same]; rfl
    cr3 := ⟨by rw [h.same]; rfl, h.mmu⟩
    taskSwitched := by rw [h.same]; rfl
    gpr := by rw [h.same]; rfl
    eip := by rw [h.same]; rfl
    eflags := h.eflags.trans fl
    cpl := h.cpl.trans vm
    selectors := ⟨h.sels .cs, h.sels .ss, h.sels .ds, h.sels .es, h.sels .fs, h.sels .gs, h.ldt⟩
    mem := by rw [h.same]; rfl
    others := by rw [h.same]; simp [State.switchedTo, State.enterTask]
    fault := .inl (by rw [h.same]; exact hp) }

theorem lookup_planOf_append (ws vs : List (Word × Nat × Word)) (a : Word) :
    (planOf (ws ++ vs)).lookup a = ((planOf vs).lookup a).or ((planOf ws).lookup a) := by
  rw [planOf_append, List.lookup_append]

theorem mem_planOf (ws : List (Word × Nat × Word)) (w : Word × Byte) (h : w ∈ planOf ws) :
    ∃ x ∈ ws, ∃ j, j < x.2.1 ∧ w.1 = x.1 + BitVec.ofNat 32 j := by
  induction ws with
  | nil => simp [planOf] at h
  | cons x ws ih =>
    rw [show x :: ws = [x] ++ ws from rfl, planOf_append, List.mem_append] at h
    rcases h with h | h
    · obtain ⟨y, hy, j, hj, e⟩ := ih h
      exact ⟨y, by simp [hy], j, hj, e⟩
    · simp [planOf] at h
      obtain ⟨j, hj, e⟩ := mem_bytesLe _ _ _ _ h
      exact ⟨x, by simp, j, hj, e⟩

/-- A byte no write of the plan names is not in it. -/
theorem lookup_planOf_none (ws : List (Word × Nat × Word)) (a : Word)
    (h : ∀ x ∈ ws, ∀ j, j < x.2.1 → a ≠ x.1 + BitVec.ofNat 32 j) : (planOf ws).lookup a = none := by
  apply lookup_none_of
  intro w hw e
  obtain ⟨x, hx, j, hj, e'⟩ := mem_planOf ws w hw
  exact h x hx j hj (e ▸ e')

/-- The instructions that switch tasks without an error code, as the switch itself. -/
theorem switches_run {s : State} {i : Instr} {tss : Sel} {mode : SwitchMode} {ret : Word} (h : Switches s i tss mode ret)
    (hq : s.SystemQuiet) : exec i s = s.run (switchTask tss mode ret none) := by
  have hf := fresh_start s
  have tssKind : ∀ k : DescKind, k.isTss = true → ∃ b, k = .tss b := by
    intro k hk
    cases k with
    | tss busy => exact ⟨busy, rfl⟩
    | _ => simp [DescKind.isTss] at hk
  cases h with
  | jmp i sel tss off wide d h hu ht =>
    obtain ⟨h1, h2, h3, h4⟩ := ht
    rcases h4 with ⟨h4, rfl⟩ | ⟨h4, h5, rfl⟩
    · obtain ⟨b, hk⟩ := tssKind _ h4
      simp only [jump_run h, State.run, farJump, bind_apply, work_apply, start_work, hu, h1, Bool.false_eq_true, if_false,
        raiseIf_false, pure_apply, requireDesc_some hf tss _ d (hq.canLookup _) h2, jumpDispatch, hk, taskViaTss, h3,
        Bool.not_true]
    · simp only [jump_run h, State.run, farJump, bind_apply, work_apply, start_work, hu, h1, Bool.false_eq_true, if_false,
        raiseIf_false, pure_apply, requireDesc_some hf sel _ d (hq.canLookup _) h2, jumpDispatch, h4, taskViaGate, h3, h5,
        Bool.not_true]
  | call i sel tss off wide d h hu ht =>
    obtain ⟨h1, h2, h3, h4⟩ := ht
    rcases h4 with ⟨h4, rfl⟩ | ⟨h4, h5, rfl⟩
    · obtain ⟨b, hk⟩ := tssKind _ h4
      simp only [call_run h, State.run, farCall, bind_apply, work_apply, start_work, hu, h1, Bool.false_eq_true, if_false,
        raiseIf_false, pure_apply, requireDesc_some hf tss _ d (hq.canLookup _) h2, callDispatch, hk, taskViaTss, h3,
        Bool.not_true]
    · simp only [call_run h, State.run, farCall, bind_apply, work_apply, start_work, hu, h1, Bool.false_eq_true, if_false,
        raiseIf_false, pure_apply, requireDesc_some hf sel _ d (hq.canLookup _) h2, callDispatch, h4, taskViaGate, h3, h5,
        Bool.not_true]
  | iret p hu hn hv =>
    obtain ⟨hpe, hvm⟩ := State.prot_of_checked hu
    simp only [exec, execIret, State.run, iretOp, bind_apply, work_apply, start_work, hpe, hvm, hn, Bool.not_true,
      Bool.false_eq_true, if_false, if_true, iretTask, hv, raiseIf_false, pure_apply,
      memRead16_fresh hf _ (hq.canRead _ _ _)]

end Sys2Proof.Machine
end

