-- ==== Sys2Proof/Laws/Frame.lean ====
section
/-! SUPPORT. What whole operations keep. `Spec P op Q E`: from `P` the operation ends in `Q` or halts in `E`; `Keeps` is the
case Q = P. Reads and checks keep every `P` whose faults halt with `E` (`Reads`); operations that plan writes need `P` to ignore
the plan (`Stable`), those that write the registers of a transfer need it to ignore these (`Regs`), and transfers up to a task
switch need both (`Loose`). -/

namespace Sys2Proof.Machine

variable {α β : Type}

/-- Only a page fault gives CR2 an address, and only #UD has no error code (60_exceptions.md R301, R304). -/
def FaultCode.Proper (f : FaultCode) : Prop :=
  (f.vector ≠ 14 → f.cr2 = none) ∧ (f.hasError = false → f.vector = 6 ∧ f.errorCode = 0)

@[simp] theorem proper_ud : FaultCode.ud.Proper := ⟨fun _ => rfl, fun _ => ⟨rfl, rfl⟩⟩
@[simp] theorem proper_ts (e : Word) : (FaultCode.ts e).Proper := ⟨fun _ => rfl, nofun⟩
@[simp] theorem proper_np (e : Word) : (FaultCode.np e).Proper := ⟨fun _ => rfl, nofun⟩
@[simp] theorem proper_ss (e : Word) : (FaultCode.ss e).Proper := ⟨fun _ => rfl, nofun⟩
@[simp] theorem proper_gp (e : Word) : (FaultCode.gp e).Proper := ⟨fun _ => rfl, nofun⟩
@[simp] theorem proper_mmu (f : MmuFault) : f.code.Proper := ⟨fun h => if_neg h, nofun⟩
@[simp] theorem proper_priv (s : State) : s.privFault.Proper := by unfold State.privFault; split <;> simp
@[simp] theorem proper_ite (p : Prop) [Decidable p] (f g : FaultCode) (hf : f.Proper) (hg : g.Proper) :
    (if p then f else g).Proper := by split <;> assumption

/-- From every context that meets `P`, the operation ends with `Q`, or halts with `E`. -/
def Spec (P : Ctx → Prop) (op : Op α) (Q : α → Ctx → Prop) (E : Halt → Ctx → Prop) : Prop :=
  ∀ c, P c → match op c with
    | .ok a c' => Q a c'
    | .error e c' => E e c'

variable {P R : Ctx → Prop} {Q : α → Ctx → Prop} {E : Halt → Ctx → Prop}

theorem Spec.bind {x : Op α} {f : α → Op β} {R : α → Ctx → Prop} {Q : β → Ctx → Prop} (h : Spec P x R E)
    (k : ∀ a, Spec (R a) (f a) Q E) : Spec P (x >>= f) Q E := by
  intro c hc
  have := h c hc
  rw [bind_apply]
  cases hx : x c with
  | ok a c' => rw [hx] at this; exact k a c' this
  | error e c' => rw [hx] at this; exact this

theorem Spec.pure (a : α) (h : ∀ c, P c → Q a c) : Spec P (pure a : Op α) Q E := h

/-- The operation keeps `P`. -/
abbrev Keeps (P : Ctx → Prop) (E : Halt → Ctx → Prop) (op : Op α) : Prop := Spec P op (fun _ => P) E

theorem Spec.seq {x : Op α} {f : α → Op β} {Q : β → Ctx → Prop} (h : Keeps P E x) (k : ∀ a, Spec P (f a) Q E) : Spec
  P (x >>= f) Q E :=
  h.bind k

theorem keeps_pure (a : α) : Keeps P E (pure a : Op α) := fun _ h => h

theorem keeps_work : Keeps P E work := fun _ h => h

theorem spec_work {f : State → Op α} (h : ∀ s, Spec (fun c => P c ∧ c.work = s) (f s) Q E) : Spec P (work >>= f) Q E :=
  fun c hc => h c.work c ⟨hc, rfl⟩

theorem keeps_raise {f : FaultCode} {Q : α → Ctx → Prop} (h : ∀ c, P c → E (.raise f) c) : Spec P (raiseFault f : Op
  α) Q E := h

theorem keeps_raiseIf {b : Bool} {f : FaultCode} (h : ∀ c, P c → E (.raise f) c) : Keeps P E (raiseIf b f) := by
  cases b
  · exact keeps_pure ()
  · exact keeps_raise h

theorem keeps_refuseIf {b : Bool} (h : ∀ c, P c → E .refuse c) : Keeps P E (refuseIf b) := by
  cases b
  · exact fun _ h => h
  · exact h

theorem keeps_when {b : Bool} {op : Op Unit} (h : Keeps P E op) : Keeps P E (whenOp b op) := by
  cases b
  · exact keeps_pure ()
  · exact h

theorem keeps_memRead {u : Bool} {a : Word} {n : Nat} (h : ∀ f : MmuFault, ∀ c, P c → E (.raise f.code) c)
    (ha : ∀ c as, P c → P { c with answers := as }) : Keeps P E (memRead u a n) := by
  intro c hc
  simp only [memRead]
  cases c.check { addr := a, size := n, write := false, user := u } with
  | none => exact ha c _ hc
  | some f => exact h _ _ (ha c _ hc)

theorem keeps_memWrite {u : Bool} {a : Word} {n : Nat} {v : Word} (h : ∀ f : MmuFault, ∀ c, P c → E (.raise f.code) c)
    (ha : ∀ c as, P c → P { c with answers := as }) (hp : ∀ c pl, P c → P { c with plan := pl }) :
    Keeps P E (memWrite u a n v) := by
  intro c hc
  simp only [memWrite]
  cases c.check { addr := a, size := n, write := true, user := u } with
  | none => exact hp _ _ (ha c _ hc)
  | some f => exact h _ _ (ha c _ hc)

theorem keeps_modify {f : State → State} (h : ∀ c, P c → P { c with work := f c.work }) : Keeps P E (modifyWork f) := h

/-- Faults from `P` halt with `E`, and `P` ignores what the `Mmu` will say: what reads and checks need. -/
structure Reads (P : Ctx → Prop) (E : Halt → Ctx → Prop) : Prop where
  raise : ∀ f c, f.Proper → P c → E (.raise f) c
  asked : ∀ c as, P c → P { c with answers := as }

/-- `P` ignores the planned writes. -/
structure Stable (P : Ctx → Prop) (E : Halt → Ctx → Prop) : Prop extends Reads P E where
  plan : ∀ c pl, P c → P { c with plan := pl }

/-- `P` ignores the registers a transfer writes. -/
structure Regs (P : Ctx → Prop) (E : Halt → Ctx → Prop) : Prop extends Reads P E where
  set : ∀ c g e fl k st sg, P c →
    P { c with work := { c.work with gpr := g, eip := e, eflags := fl, cpl := k, stack := st, seg := sg } }

/-- Both. -/
structure Loose (P : Ctx → Prop) (E : Halt → Ctx → Prop) : Prop extends Stable P E, Regs P E

section
variable (S : Reads P E)
include S

theorem Reads.raiseIf' (b f) (hf : f.Proper := by simp) : Keeps P E (Machine.raiseIf b f) :=
  keeps_raiseIf fun c hc => S.raise f c hf hc

theorem Reads.memRead (u a n) : Keeps P E (Machine.memRead u a n) :=
  keeps_memRead (fun f c hc => S.raise _ c (proper_mmu f) hc) S.asked

theorem Reads.lookupDesc (sel) : Keeps P E (lookupDesc sel) := by
  refine keeps_work.seq fun s => ?_
  split
  · exact keeps_pure _
  · exact (S.memRead _ _ _).seq fun _ => (S.memRead _ _ _).seq fun _ => keeps_pure _

theorem Reads.requireDesc (sel f) (hf : f.Proper := by simp) : Keeps P E (requireDesc sel f) := by
  refine (S.lookupDesc sel).seq fun d => ?_
  cases d
  · exact keeps_raise fun c hc => S.raise f c hf hc
  · exact keeps_pure _

theorem Reads.peekStack (k w) : Keeps P E (peekStack k w) := keeps_work.seq fun _ => S.memRead _ _ _

theorem Reads.readStackForLevel (n) : Keeps P E (readStackForLevel n) :=
  keeps_work.seq fun _ => (S.raiseIf' _ _).seq fun _ => (S.raiseIf' _ _).seq fun _ => (S.memRead _ _ _).seq fun _ =>
    (S.memRead _ _ _).seq fun _ => keeps_pure _

theorem Reads.checkNewSs (sel n f) (hf : ∀ e, (f e).Proper := by simp) : Keeps P E (checkNewSs sel n f) :=
  (S.raiseIf' _ _ (hf _)).seq fun _ => (S.requireDesc _ _ (hf _)).seq fun _ => (S.raiseIf' _ _ (hf _)).seq fun _ =>
    (S.raiseIf' _ _ (hf _)).seq fun _ => (S.raiseIf' _ _ (hf _)).seq fun _ => (S.raiseIf' _ _).seq fun _ => keeps_pure _

theorem Reads.gateTarget (t) : Keeps P E (gateTarget t) :=
  keeps_work.seq fun _ => (S.raiseIf' _ _).seq fun _ => (S.requireDesc _ _).seq fun _ => (S.raiseIf' _ _).seq fun _ =>
    (S.raiseIf' _ _).seq fun _ => (S.raiseIf' _ _).seq fun _ => keeps_pure _

theorem Reads.checkReturnCs (t) : Keeps P E (checkReturnCs t) :=
  keeps_work.seq fun _ => (S.raiseIf' _ _).seq fun _ => (S.requireDesc _ _).seq fun _ => (S.raiseIf' _ _).seq fun _ =>
    (S.raiseIf' _ _).seq fun _ => (S.raiseIf' _ _).seq fun _ => keeps_pure _

theorem Reads.memRead16 (a) : Keeps P E (memRead16 a) := (S.memRead _ _ _).seq fun _ => keeps_pure _

theorem Reads.readImage (b) : Keeps P E (readImage b) := by
  unfold Machine.readImage
  repeat' first | exact keeps_pure _ | refine (S.memRead _ _ _).seq fun _ => ?_ | refine (S.memRead16 _).seq fun _ => ?_

theorem Reads.checkOutgoing : Keeps P E checkOutgoing :=
  keeps_work.seq fun _ => (S.raiseIf' _ _).seq fun _ => S.raiseIf' _ _

theorem Reads.checkTarget (sel m) (hr : ∀ c, P c → E .refuse c) : Keeps P E (checkTarget sel m) :=
  (S.raiseIf' _ _).seq fun _ => (S.requireDesc _ _).seq fun _ => (keeps_refuseIf hr).seq fun _ =>
    (S.raiseIf' _ _).seq fun _ =>
    (S.raiseIf' _ _).seq fun _ => (S.raiseIf' _ _).seq fun _ => (S.raiseIf' _ _).seq fun _ =>
      (S.raiseIf' _ _).seq fun _ => keeps_pure _

theorem Reads.readIdtGate (v) : Keeps P E (readIdtGate v) :=
  keeps_work.seq fun _ => (S.raiseIf' _ _).seq fun _ => (S.memRead _ _ _).seq fun _ =>
    (S.memRead _ _ _).seq fun _ => keeps_pure _

theorem Reads.peekSlots (w i n) : Keeps P E (peekSlots w i n) := by
  induction n generalizing i with
  | zero => exact keeps_pure _
  | succ n ih => exact (S.peekStack _ _).seq fun _ => (ih _).seq fun _ => keeps_pure _

theorem Reads.readRm16 (p x) : Keeps P E (readRm16 p x) := by
  cases x
  · exact keeps_work.seq fun _ => keeps_pure _
  · exact keeps_work.seq fun _ => (S.memRead _ _ _).seq fun _ => keeps_pure _

theorem Reads.readFarPtr (p x) : Keeps P E (readFarPtr p x) :=
  keeps_work.seq fun _ => (S.memRead _ _ _).seq fun _ => (S.memRead _ _ _).seq fun _ => keeps_pure _

theorem Reads.inspect (sel ok) : Keeps P E (inspect sel ok) := by
  refine keeps_work.seq fun _ => ?_
  split
  · exact keeps_pure _
  · exact (S.lookupDesc _).seq fun _ => keeps_pure _

theorem Reads.modeGate : Keeps P E modeGate := keeps_work.seq fun _ => S.raiseIf' _ _

theorem Reads.privGate : Keeps P E privGate := keeps_work.seq fun _ => S.raiseIf' _ _

theorem Reads.crGate : Keeps P E crGate := keeps_work.seq fun _ => S.raiseIf' _ _

theorem Reads.ioGate : Keeps P E ioGate := keeps_work.seq fun _ => S.raiseIf' _ _

theorem Reads.v86IoplGate : Keeps P E v86IoplGate := keeps_work.seq fun _ => S.raiseIf' _ _
end

section
variable (S : Stable P E)
include S

theorem Stable.memWrite (u a n v) : Keeps P E (Machine.memWrite u a n v) := 
  keeps_memWrite (fun f c hc => S.raise _ c (proper_mmu f) hc) S.asked S.plan

theorem Stable.setBusy (sel b) : Keeps P E (setBusy sel b) :=
  keeps_work.seq fun _ => (S.memRead _ _ _).seq fun _ => S.memWrite _ _ _ _

theorem Stable.flushOutgoing (m r) : Keeps P E (flushOutgoing m r) := by
  unfold Machine.flushOutgoing
  refine keeps_work.seq fun _ => ?_
  repeat' first | exact S.memWrite _ _ _ _ | refine (S.memWrite _ _ _ _).seq fun _ => ?_
end

/-- `t` is `s` with registers a transfer may write. -/
def RegsOnly (s t : State) : Prop :=
  t = { s with gpr := t.gpr, eip := t.eip, eflags := t.eflags, cpl := t.cpl, stack := t.stack, seg := t.seg }

theorem RegsOnly.trans {s t u : State} (h : RegsOnly s t) (k : RegsOnly t u) : RegsOnly s u := by
  unfold RegsOnly at *
  rw [k, h]

theorem RegsOnly.refl (s : State) : RegsOnly s s := rfl

theorem regs_setEsp (s v) : RegsOnly s (s.setEsp v) := rfl

theorem regs_loadEsp (s v) : RegsOnly s (s.loadEsp v) := rfl

theorem regs_setSeg (s n r) : RegsOnly s (s.setSeg n r) := by cases n <;> rfl

theorem regs_installSeg (s n sel d) : RegsOnly s (s.installSeg n sel d) := regs_setSeg _ _ _

theorem regs_installNull (s n sel) : RegsOnly s (s.installNull n sel) := rfl

theorem regs_installCs (s sel d n) : RegsOnly s (s.installCs sel d n) := rfl

theorem regs_loadSegReal (s n sel) : RegsOnly s (s.loadSegReal n sel) := regs_setSeg _ _ _

theorem regs_eip (s e) : RegsOnly s { s with eip := e } := rfl

theorem regs_cpl (s e) : RegsOnly s { s with cpl := e } := rfl

theorem regs_withEflags (s v) : RegsOnly s (s.withEflags v) := rfl

theorem regs_mergeFlags (s v w) : RegsOnly s (s.mergeFlags v w) := rfl

theorem regs_clear (s b) : RegsOnly s (s.clearOnDelivery b) := rfl

theorem regs_invalidateOne (s n r) : RegsOnly s (s.invalidateOne n r) := by
  unfold State.invalidateOne
  split
  · rfl
  · rfl

theorem regs_invalidate (s n) : RegsOnly s (s.invalidateDataSegs n) :=
  (((regs_invalidateOne _ _ _).trans (regs_invalidateOne _ _ _)).trans (regs_invalidateOne _ _ _)).trans
    (regs_invalidateOne _ _ _)

theorem regs_enterStack (s sel d esp n) : RegsOnly s (s.enterStack sel d esp n) := rfl

theorem regs_nullDataSegs (s) : RegsOnly s s.nullDataSegs := rfl

theorem regs_v86 (s a b c d e f) : RegsOnly s (s.loadV86Segs a b c d e f) :=
  (((((regs_loadSegReal _ _ _).trans (regs_loadSegReal _ _ _)).trans (regs_loadSegReal _ _ _)).trans
    (regs_loadSegReal _ _ _)).trans
    (regs_loadSegReal _ _ _)).trans (regs_loadSegReal _ _ _)

theorem keeps_regs (L : Regs P E) (f : State → State) (h : ∀ s, RegsOnly s (f s)) : Keeps P E (modifyWork f) := by
  intro c hc
  show P { c with work := f c.work }
  rw [h c.work]
  exact L.set c _ _ _ _ _ _ hc

section
variable (L : Regs P E)
include L

theorem Regs.pop (w) : Keeps P E (pop w) :=
  (L.peekStack _ _).seq fun _ => (keeps_regs L _ fun s => regs_setEsp s _).seq fun _ => keeps_pure _

theorem Regs.jumpReal (sel off w) : Keeps P E (jumpReal sel off w) :=
  keeps_regs L _ fun s => (regs_loadSegReal s _ _).trans (regs_eip _ _)

theorem Regs.jumpToCode (sel d off w) : Keeps P E (jumpToCode sel d off w) :=
  keeps_work.seq fun _ => (L.raiseIf' _ _).seq fun _ => (L.raiseIf' _ _).seq fun _ => keeps_regs L _ fun _ => rfl

theorem Regs.jumpViaCallGate (sel g) : Keeps P E (jumpViaCallGate sel g) :=
  keeps_work.seq fun _ => (L.raiseIf' _ _).seq fun _ => (L.raiseIf' _ _).seq fun _ =>
    (L.raiseIf' _ _).seq fun _ => (L.requireDesc _ _).seq fun _ =>
   (L.raiseIf' _ _).seq fun _ => (L.raiseIf' _ _).seq fun _ => (L.raiseIf' _ _).seq fun _ =>
     (L.raiseIf' _ _).seq fun _ => keeps_regs L _ fun _ => rfl

theorem Regs.returnReal (imm w) : Keeps P E (returnReal imm w) :=
  (L.pop _).seq fun _ => (L.pop _).seq fun _ =>
    keeps_regs L _ fun s => ((regs_setEsp s _).trans (regs_loadSegReal _ _ _)).trans (regs_eip _ _)

theorem Regs.returnSame (cs d eip imm w) : Keeps P E (returnSame cs d eip imm w) := keeps_regs L _ fun _ => rfl

theorem Regs.returnOuter (cs d eip imm w) : Keeps P E (returnOuter cs d eip imm w) :=
  (L.peekStack _ _).seq fun _ => (L.peekStack _ _).seq fun _ => (L.checkNewSs _ _ _).seq fun _ => keeps_regs L _ fun s => by
    unfold State.returnOuterRegs
    refine RegsOnly.trans ?_ (regs_invalidate _ _)
    rfl

theorem Regs.farReturn (imm w) : Keeps P E (farReturn imm w) := by
  refine keeps_work.seq fun s => ?_
  split
  · exact L.returnReal _ _
  · refine (L.peekStack _ _).seq fun _ => (L.peekStack _ _).seq fun _ => (L.checkReturnCs _).seq fun _ => ?_
    split
    · exact L.returnSame _ _ _ _ _
    · exact L.returnOuter _ _ _ _ _

theorem Regs.iretReal (w) : Keeps P E (iretReal w) :=
  (L.pop _).seq fun _ => (L.pop _).seq fun _ => (L.pop _).seq fun _ =>
    keeps_regs L _ fun s => ((regs_loadSegReal s _ _).trans (regs_eip _ _)).trans (regs_mergeFlags _ _ _)

theorem Regs.iretProt (w) : Keeps P E (iretProt w) := by
  refine keeps_work.seq fun s => (L.peekStack _ _).seq fun _ => (L.peekStack _ _).seq fun _ =>
    (L.peekStack _ _).seq fun _ => ?_
  split
  · exact (L.peekStack _ _).seq fun _ => (L.peekStack _ _).seq fun _ => (L.peekStack _ _).seq fun _ =>
      (L.peekStack _ _).seq fun _ => (L.peekStack _ _).seq fun _ => (L.peekStack _ _).seq fun _ =>
      keeps_regs L _ fun s => (((regs_withEflags s _).trans (regs_v86 _ _ _ _ _ _ _)).trans (regs_loadEsp _ _)).trans rfl
  · refine (L.checkReturnCs _).seq fun _ => ?_
    split
    · exact keeps_regs L _ fun s => (((regs_setEsp s _).trans (regs_installCs _ _ _ _)).trans (regs_eip _ _)).trans
        (regs_mergeFlags _ _ _)
    · exact (L.peekStack _ _).seq fun _ => (L.peekStack _ _).seq fun _ => (L.checkNewSs _ _ _).seq fun _ =>
        keeps_regs L _ fun s => by
        unfold State.iretOuterRegs
        refine RegsOnly.trans ?_ (regs_invalidate _ _)
        rfl
end

variable (L : Loose P E)
include L

theorem Loose.push (w v) : Keeps P E (push w v) :=
  keeps_work.seq fun _ => (L.memWrite _ _ _ _).seq fun _ => keeps_regs L.toRegs _ fun s => regs_setEsp s _

theorem Loose.pushReturn (w v) : Keeps P E (pushReturn w v) :=
  keeps_work.seq fun _ => (L.push _ _).seq fun _ => L.push _ _

theorem Loose.callReal (sel off w n) : Keeps P E (callReal sel off w n) :=
  (L.pushReturn _ _).seq fun _ => keeps_regs L.toRegs _ fun s => (regs_loadSegReal s _ _).trans (regs_eip _ _)

theorem Loose.pushSlots (w vs) : Keeps P E (pushSlots w vs) := by
  induction vs with
  | nil => exact keeps_pure _
  | cons v vs ih => exact ih.seq fun _ => L.push _ _

theorem Loose.interLevelCall (t c tg w pc n) : Keeps P E (interLevelCall t c tg w pc n) :=
  keeps_work.seq fun _ => (L.readStackForLevel _).seq fun _ => (L.checkNewSs _ _ _).seq fun _ =>
    (L.peekSlots _ _ _).seq fun _ =>
    (keeps_regs L.toRegs _ fun s => regs_enterStack s _ _ _ _).seq fun _ => (L.push _ _).seq fun _ =>
      (L.push _ _).seq fun _ => (L.pushSlots _ _).seq fun _ =>
    (L.push _ _).seq fun _ => (L.push _ _).seq fun _ => keeps_regs L.toRegs _ fun _ => rfl

theorem Loose.sameLevelCall (t c tg w n) : Keeps P E (sameLevelCall t c tg w n) :=
  (L.pushReturn _ _).seq fun _ => keeps_regs L.toRegs _ fun _ => rfl

theorem Loose.callToCode (sel d off w n) : Keeps P E (callToCode sel d off w n) := by
  refine keeps_work.seq fun s => (L.raiseIf' _ _).seq fun _ => (L.raiseIf' _ _).seq fun _ => ?_
  cases s.isInterLevel d
  · exact L.sameLevelCall _ _ _ _ _
  · exact L.interLevelCall _ _ _ _ _ _

theorem Loose.callViaCallGate (sel d n) : Keeps P E (callViaCallGate sel d n) := by
  refine keeps_work.seq fun s => (L.raiseIf' _ _).seq fun _ => (L.raiseIf' _ _).seq fun _ =>
    (L.gateTarget _).seq fun c => ?_
  cases s.isInterLevel c
  · exact L.sameLevelCall _ _ _ _ _
  · exact L.interLevelCall _ _ _ _ _ _

theorem Loose.realInterrupt (v r) : Keeps P E (realInterrupt v r) :=
  keeps_work.seq fun _ => (L.memRead _ _ _).seq fun _ => (L.memRead _ _ _).seq fun _ => (L.push _ _).seq fun _ =>
    (L.push _ _).seq fun _ => (L.push _ _).seq fun _ =>
    (keeps_regs L.toRegs _ fun s => regs_withEflags s _).seq fun _ =>
      keeps_regs L.toRegs _ fun s => (regs_loadSegReal s _ _).trans (regs_eip _ _)

theorem Loose.pushError (e) : Keeps P E (pushError e) := by
  cases e
  · exact keeps_pure _
  · exact L.push _ _

theorem Loose.frame (o fl e r) : Keeps P E (pushInterruptFrame o fl e r) :=
  (keeps_when ((L.push _ _).seq fun _ => (L.push _ _).seq fun _ => (L.push _ _).seq fun _ => L.push _ _)).seq fun _ =>
    (L.push _ _).seq fun _ => (L.push _ _).seq fun _ => (L.push _ _).seq fun _ => (L.push _ _).seq fun _ =>
      (L.push _ _).seq fun _ => L.pushError _

theorem Loose.interLevelInterrupt (t c e r) : Keeps P E (interLevelInterrupt t c e r) :=
  keeps_work.seq fun _ => (L.raiseIf' _ _).seq fun _ => (L.readStackForLevel _).seq fun _ =>
    (L.checkNewSs _ _ _).seq fun _ =>
    (keeps_regs L.toRegs _ fun s => regs_enterStack s _ _ _ _).seq fun _ => (L.frame _ _ _ _).seq fun _ =>
      (keeps_when (keeps_regs L.toRegs _ fun s => regs_nullDataSegs s)).seq fun _ =>
      keeps_regs L.toRegs _ fun _ => rfl

theorem Loose.sameLevelInterrupt (t c e r) : Keeps P E (sameLevelInterrupt t c e r) :=
  keeps_work.seq fun _ => (L.raiseIf' _ _).seq fun _ => (L.push _ _).seq fun _ => (L.push _ _).seq fun _ =>
    (L.push _ _).seq fun _ => (L.pushError _).seq fun _ =>
      keeps_regs L.toRegs _ fun _ => rfl

theorem Loose.gateDelivery (g e r) : Keeps P E (gateDelivery g e r) := by
  refine keeps_work.seq fun s => (L.gateTarget _).seq fun c => Spec.seq ?_ fun _ => keeps_regs L.toRegs _ fun _ => rfl
  cases s.isInterLevel c
  · exact L.sameLevelInterrupt _ _ _ _
  · exact L.interLevelInterrupt _ _ _ _
omit L

theorem Spec.mono {op : Op α} {Q R : α → Ctx → Prop} (h : Spec P op Q E) (k : ∀ a c, Q a c → R a c) : Spec P op R E := by
  intro c hc
  have := h c hc
  cases hx : op c with
  | ok a c' => rw [hx] at this; exact k _ _ this
  | error e c' => rw [hx] at this; exact this

section Switch
variable {T : Ctx → Prop} (L : Loose P E) (hr : ∀ c, P c → E .refuse c) (ht : ∀ c, P c → T c)
  (hs : ∀ sel m r e, Spec P (switchTask sel m r e) (fun _ => T) E)
include L hr ht hs

theorem spec_farJump (sel off w n) : Spec P (farJump sel off w n) (fun _ => T) E := by
  refine keeps_work.seq fun s => ?_
  split
  · exact (L.jumpReal _ _ _).mono fun _ => ht
  · refine (L.raiseIf' _ _).seq fun _ => (L.requireDesc _ _).seq fun d => ?_
    unfold jumpDispatch
    split
    · exact (L.jumpToCode _ _ _ _).mono fun _ => ht
    · exact (L.jumpViaCallGate _ _).mono fun _ => ht
    · exact keeps_work.seq fun _ => (L.raiseIf' _ _).seq fun _ => (L.raiseIf' _ _).seq fun _ => hs _ _ _ _
    · exact keeps_work.seq fun _ => (L.raiseIf' _ _).seq fun _ => hs _ _ _ _
    all_goals first | exact keeps_raise fun c hc => L.raise _ c (by simp) hc | exact (keeps_refuseIf hr).mono fun _ => ht

theorem spec_farCall (sel off w n) : Spec P (farCall sel off w n) (fun _ => T) E := by
  refine keeps_work.seq fun s => ?_
  split
  · exact (L.callReal _ _ _ _).mono fun _ => ht
  · refine (L.raiseIf' _ _).seq fun _ => (L.requireDesc _ _).seq fun d => ?_
    unfold callDispatch
    split
    · exact (L.callToCode _ _ _ _ _).mono fun _ => ht
    · exact (L.callViaCallGate _ _ _).mono fun _ => ht
    · exact keeps_work.seq fun _ => (L.raiseIf' _ _).seq fun _ => (L.raiseIf' _ _).seq fun _ => hs _ _ _ _
    · exact keeps_work.seq fun _ => (L.raiseIf' _ _).seq fun _ => hs _ _ _ _
    all_goals first | exact keeps_raise fun c hc => L.raise _ c (by simp) hc | exact (keeps_refuseIf hr).mono fun _ => ht

theorem spec_interrupt (v tag b e r) : Spec P (interrupt v tag b e r) (fun _ => T) E := by
  refine keeps_work.seq fun s => ?_
  split
  · exact (L.realInterrupt _ _).mono fun _ => ht
  · refine (L.raiseIf' _ _).seq fun _ => (L.readIdtGate _).seq fun g => (keeps_refuseIf hr).seq fun _ =>
      (L.raiseIf' _ _).seq fun _ => (L.raiseIf' _ _).seq fun _ => (L.raiseIf' _ _).seq fun _ => ?_
    split
    · exact hs _ _ _ _
    · exact (L.gateDelivery _ _ _).mono fun _ => ht

omit hr in
theorem spec_iret (w n) : Spec P (iretOp w n) (fun _ => T) E := by
  refine keeps_work.seq fun s => ?_
  split
  · exact (L.iretReal _).mono fun _ => ht
  split
  · exact (L.v86IoplGate).seq fun _ => (L.iretReal _).mono fun _ => ht
  split
  · exact keeps_work.seq fun _ => (L.raiseIf' _ _).seq fun _ => (L.memRead16 _).seq fun _ => hs _ _ _ _
  · exact (L.iretProt _).mono fun _ => ht
end Switch

end Sys2Proof.Machine
end

