-- ==== Sys2Proof/Laws/PerInstr.lean ====
section
/-! SUPPORT. Statements about every instruction as syntax, one lemma per constructor. -/

/-- Family OpcodeHead: where an instruction's operands can be encoded, the bytes after its prefixes begin with a byte that is no
prefix, so the decoder splits the prefixes off where the encoder put them. -/
def Sys2Proof.Laws.OpcodeHead.Statement (i : Sys2Proof.Instr) : Prop :=
  ∀ big : Bool, i.operandsWf big = true →
    ∃ b bs, Sys2Proof.encodeBody big i = b :: bs ∧ Sys2Proof.Pfx.ofByte b = none

open Sys2Proof

theorem Sys2Proof.Laws.OpcodeHead.jmpFarPtr (p : List Pfx) (off : BitVec 32) (sel : BitVec 16) :
    Sys2Proof.Laws.OpcodeHead.Statement (.jmpFarPtr p off sel) := fun _ _ => ⟨_, _, rfl, by decide⟩
theorem Sys2Proof.Laws.OpcodeHead.jmpFarMem (p : List Pfx) (m : MemOp) :
    Sys2Proof.Laws.OpcodeHead.Statement (.jmpFarMem p m) := fun _ _ => ⟨_, _, rfl, by decide⟩
theorem Sys2Proof.Laws.OpcodeHead.callFarPtr (p : List Pfx) (off : BitVec 32) (sel : BitVec 16) :
    Sys2Proof.Laws.OpcodeHead.Statement (.callFarPtr p off sel) := fun _ _ => ⟨_, _, rfl, by decide⟩
theorem Sys2Proof.Laws.OpcodeHead.callFarMem (p : List Pfx) (m : MemOp) :
    Sys2Proof.Laws.OpcodeHead.Statement (.callFarMem p m) := fun _ _ => ⟨_, _, rfl, by decide⟩
theorem Sys2Proof.Laws.OpcodeHead.retf (p : List Pfx) :
    Sys2Proof.Laws.OpcodeHead.Statement (.retf p) := fun _ _ => ⟨_, _, rfl, by decide⟩
theorem Sys2Proof.Laws.OpcodeHead.retfImm (p : List Pfx) (imm : BitVec 16) :
    Sys2Proof.Laws.OpcodeHead.Statement (.retfImm p imm) := fun _ _ => ⟨_, _, rfl, by decide⟩
theorem Sys2Proof.Laws.OpcodeHead.iret (p : List Pfx) :
    Sys2Proof.Laws.OpcodeHead.Statement (.iret p) := fun _ _ => ⟨_, _, rfl, by decide⟩
theorem Sys2Proof.Laws.OpcodeHead.int3 (p : List Pfx) :
    Sys2Proof.Laws.OpcodeHead.Statement (.int3 p) := fun _ _ => ⟨_, _, rfl, by decide⟩
theorem Sys2Proof.Laws.OpcodeHead.intImm (p : List Pfx) (v : BitVec 8) :
    Sys2Proof.Laws.OpcodeHead.Statement (.intImm p v) := fun _ _ => ⟨_, _, rfl, by decide⟩
theorem Sys2Proof.Laws.OpcodeHead.into (p : List Pfx) :
    Sys2Proof.Laws.OpcodeHead.Statement (.into p) := fun _ _ => ⟨_, _, rfl, by decide⟩
theorem Sys2Proof.Laws.OpcodeHead.movEs (p : List Pfx) (src : RmOp) :
    Sys2Proof.Laws.OpcodeHead.Statement (.movEs p src) := fun _ _ => ⟨_, _, rfl, by decide⟩
theorem Sys2Proof.Laws.OpcodeHead.movSs (p : List Pfx) (src : RmOp) :
    Sys2Proof.Laws.OpcodeHead.Statement (.movSs p src) := fun _ _ => ⟨_, _, rfl, by decide⟩
theorem Sys2Proof.Laws.OpcodeHead.movDs (p : List Pfx) (src : RmOp) :
    Sys2Proof.Laws.OpcodeHead.Statement (.movDs p src) := fun _ _ => ⟨_, _, rfl, by decide⟩
theorem Sys2Proof.Laws.OpcodeHead.movFs (p : List Pfx) (src : RmOp) :
    Sys2Proof.Laws.OpcodeHead.Statement (.movFs p src) := fun _ _ => ⟨_, _, rfl, by decide⟩
theorem Sys2Proof.Laws.OpcodeHead.movGs (p : List Pfx) (src : RmOp) :
    Sys2Proof.Laws.OpcodeHead.Statement (.movGs p src) := fun _ _ => ⟨_, _, rfl, by decide⟩
theorem Sys2Proof.Laws.OpcodeHead.popEs (p : List Pfx) :
    Sys2Proof.Laws.OpcodeHead.Statement (.popEs p) := fun _ _ => ⟨_, _, rfl, by decide⟩
theorem Sys2Proof.Laws.OpcodeHead.popSs (p : List Pfx) :
    Sys2Proof.Laws.OpcodeHead.Statement (.popSs p) := fun _ _ => ⟨_, _, rfl, by decide⟩
theorem Sys2Proof.Laws.OpcodeHead.popDs (p : List Pfx) :
    Sys2Proof.Laws.OpcodeHead.Statement (.popDs p) := fun _ _ => ⟨_, _, rfl, by decide⟩
theorem Sys2Proof.Laws.OpcodeHead.popFs (p : List Pfx) :
    Sys2Proof.Laws.OpcodeHead.Statement (.popFs p) := fun _ _ => ⟨_, _, rfl, by decide⟩
theorem Sys2Proof.Laws.OpcodeHead.popGs (p : List Pfx) :
    Sys2Proof.Laws.OpcodeHead.Statement (.popGs p) := fun _ _ => ⟨_, _, rfl, by decide⟩
theorem Sys2Proof.Laws.OpcodeHead.les (p : List Pfx) (r : Gpr) (m : MemOp) :
    Sys2Proof.Laws.OpcodeHead.Statement (.les p r m) := fun _ _ => ⟨_, _, rfl, by decide⟩
theorem Sys2Proof.Laws.OpcodeHead.lds (p : List Pfx) (r : Gpr) (m : MemOp) :
    Sys2Proof.Laws.OpcodeHead.Statement (.lds p r m) := fun _ _ => ⟨_, _, rfl, by decide⟩
theorem Sys2Proof.Laws.OpcodeHead.lss (p : List Pfx) (r : Gpr) (m : MemOp) :
    Sys2Proof.Laws.OpcodeHead.Statement (.lss p r m) := fun _ _ => ⟨_, _, rfl, by decide⟩
theorem Sys2Proof.Laws.OpcodeHead.lfs (p : List Pfx) (r : Gpr) (m : MemOp) :
    Sys2Proof.Laws.OpcodeHead.Statement (.lfs p r m) := fun _ _ => ⟨_, _, rfl, by decide⟩
theorem Sys2Proof.Laws.OpcodeHead.lgs (p : List Pfx) (r : Gpr) (m : MemOp) :
    Sys2Proof.Laws.OpcodeHead.Statement (.lgs p r m) := fun _ _ => ⟨_, _, rfl, by decide⟩
theorem Sys2Proof.Laws.OpcodeHead.lldt (p : List Pfx) (src : RmOp) :
    Sys2Proof.Laws.OpcodeHead.Statement (.lldt p src) := fun _ _ => ⟨_, _, rfl, by decide⟩
theorem Sys2Proof.Laws.OpcodeHead.ltr (p : List Pfx) (src : RmOp) :
    Sys2Proof.Laws.OpcodeHead.Statement (.ltr p src) := fun _ _ => ⟨_, _, rfl, by decide⟩
theorem Sys2Proof.Laws.OpcodeHead.verr (p : List Pfx) (src : RmOp) :
    Sys2Proof.Laws.OpcodeHead.Statement (.verr p src) := fun _ _ => ⟨_, _, rfl, by decide⟩
theorem Sys2Proof.Laws.OpcodeHead.verw (p : List Pfx) (src : RmOp) :
    Sys2Proof.Laws.OpcodeHead.Statement (.verw p src) := fun _ _ => ⟨_, _, rfl, by decide⟩
theorem Sys2Proof.Laws.OpcodeHead.sgdt (p : List Pfx) (m : MemOp) :
    Sys2Proof.Laws.OpcodeHead.Statement (.sgdt p m) := fun _ _ => ⟨_, _, rfl, by decide⟩
theorem Sys2Proof.Laws.OpcodeHead.sidt (p : List Pfx) (m : MemOp) :
    Sys2Proof.Laws.OpcodeHead.Statement (.sidt p m) := fun _ _ => ⟨_, _, rfl, by decide⟩
theorem Sys2Proof.Laws.OpcodeHead.lgdt (p : List Pfx) (m : MemOp) :
    Sys2Proof.Laws.OpcodeHead.Statement (.lgdt p m) := fun _ _ => ⟨_, _, rfl, by decide⟩
theorem Sys2Proof.Laws.OpcodeHead.lidt (p : List Pfx) (m : MemOp) :
    Sys2Proof.Laws.OpcodeHead.Statement (.lidt p m) := fun _ _ => ⟨_, _, rfl, by decide⟩
theorem Sys2Proof.Laws.OpcodeHead.arpl (p : List Pfx) (dst : RmOp) (src : Gpr) :
    Sys2Proof.Laws.OpcodeHead.Statement (.arpl p dst src) := fun _ _ => ⟨_, _, rfl, by decide⟩
theorem Sys2Proof.Laws.OpcodeHead.lar (p : List Pfx) (r : Gpr) (src : RmOp) :
    Sys2Proof.Laws.OpcodeHead.Statement (.lar p r src) := fun _ _ => ⟨_, _, rfl, by decide⟩
theorem Sys2Proof.Laws.OpcodeHead.lsl (p : List Pfx) (r : Gpr) (src : RmOp) :
    Sys2Proof.Laws.OpcodeHead.Statement (.lsl p r src) := fun _ _ => ⟨_, _, rfl, by decide⟩
theorem Sys2Proof.Laws.OpcodeHead.movFromCr (p : List Pfx) (n : BitVec 3) (r : Gpr) :
    Sys2Proof.Laws.OpcodeHead.Statement (.movFromCr p n r) := fun _ _ => ⟨_, _, rfl, by decide⟩
theorem Sys2Proof.Laws.OpcodeHead.movToCr (p : List Pfx) (n : BitVec 3) (r : Gpr) :
    Sys2Proof.Laws.OpcodeHead.Statement (.movToCr p n r) := fun _ _ => ⟨_, _, rfl, by decide⟩
theorem Sys2Proof.Laws.OpcodeHead.movFromDr (p : List Pfx) (n : BitVec 3) (r : Gpr) :
    Sys2Proof.Laws.OpcodeHead.Statement (.movFromDr p n r) := fun _ _ => ⟨_, _, rfl, by decide⟩
theorem Sys2Proof.Laws.OpcodeHead.movToDr (p : List Pfx) (n : BitVec 3) (r : Gpr) :
    Sys2Proof.Laws.OpcodeHead.Statement (.movToDr p n r) := fun _ _ => ⟨_, _, rfl, by decide⟩
theorem Sys2Proof.Laws.OpcodeHead.cli (p : List Pfx) :
    Sys2Proof.Laws.OpcodeHead.Statement (.cli p) := fun _ _ => ⟨_, _, rfl, by decide⟩
theorem Sys2Proof.Laws.OpcodeHead.sti (p : List Pfx) :
    Sys2Proof.Laws.OpcodeHead.Statement (.sti p) := fun _ _ => ⟨_, _, rfl, by decide⟩
theorem Sys2Proof.Laws.OpcodeHead.pushf (p : List Pfx) :
    Sys2Proof.Laws.OpcodeHead.Statement (.pushf p) := fun _ _ => ⟨_, _, rfl, by decide⟩
theorem Sys2Proof.Laws.OpcodeHead.popf (p : List Pfx) :
    Sys2Proof.Laws.OpcodeHead.Statement (.popf p) := fun _ _ => ⟨_, _, rfl, by decide⟩
theorem Sys2Proof.Laws.OpcodeHead.hardwareInterrupt (v : BitVec 8) :
    Sys2Proof.Laws.OpcodeHead.Statement (.hardwareInterrupt v) := fun _ h => by cases h
theorem Sys2Proof.Laws.OpcodeHead.exceptionDelivery :
    Sys2Proof.Laws.OpcodeHead.Statement .exceptionDelivery := fun _ h => by cases h
end

