-- ==== Sys2Proof/Laws/Whole.lean ====
section
/-! SUPPORT. Every instruction as one operation and what that operation keeps: transfers up to and after a task switch
(`transfer_ends`), the others by whether they store and whether they write system registers (`regs_ops`, `store_ops`,
`sys_ops`, `ltr_op`), and all of these together (`plain_ends`). -/

namespace Sys2Proof.Machine

/-- A state without the registers a transfer writes. -/
def State.system (s : State) : State :=
  { s with gpr := State.reset.gpr, eip := 0, eflags := 0, cpl := 0, stack := State.reset.stack, seg := State.reset.seg }

/-- What every operation but LGDT, LIDT, MOV to CR and MOV to DR keeps. -/
def State.kept (s : State) : State :=
  { State.reset with
    gdtr := s.gdtr, idtr := s.idtr, cr2 := s.cr2, cr4 := s.cr4, dr := s.dr, pendingFault := s.pendingFault
    refused := s.refused, inputs := s.inputs, params := s.params, mmu := { s.mmu with pdb := 0 } }

/-- No task switch has committed, and the working copy has the system registers and the memory of `s`. -/
def Before (s : State) (c : Ctx) : Prop := c.base = s ∧ c.switched = false ∧ c.work.system = s.system

/-- A task switch has committed. -/
def After (s : State) (c : Ctx) : Prop :=
  c.switched = true ∧ c.base.kept = s.kept ∧ c.work.kept = s.kept ∧
    (c.base.cr0.getLsbD bitTS = true ∧ c.base.tr.valid = true) ∧ (c.work.cr0.getLsbD bitTS = true ∧ c.work.tr.valid = true)

/-- How an operation from `s` halts: nothing committed, or a fault after a task switch. -/
def Halts (s : State) (e : Halt) (c : Ctx) : Prop :=
  (∀ f, e = .raise f → f.Proper) ∧ ((c.base = s ∧ c.switched = false) ∨ ((∃ f, e = .raise f) ∧ After s c))

theorem proper_raise {f : FaultCode} (hf : f.Proper) : ∀ g, Halt.raise f = .raise g → g.Proper := by
  intro g h; cases h; exact hf

theorem proper_refuse : ∀ g, Halt.refuse = .raise g → g.Proper := by intro g h; cases h


/-- How a transfer from `s` ends. -/
def Ends (s : State) (c : Ctx) : Prop := Before s c ∨ After s c

theorem before_loose (s : State) : Loose (Before s) (Halts s) where
  raise := fun _ _ hf h => ⟨proper_raise hf, .inl ⟨h.1, h.2.1⟩⟩
  asked := fun _ _ h => h
  plan := fun _ _ h => h
  set := fun _ _ _ _ _ _ _ h => h

theorem after_loose (s : State) : Loose (After s) (Halts s) where
  raise := fun f _ hf h => ⟨proper_raise hf, .inr ⟨⟨f, rfl⟩, h⟩⟩
  asked := fun _ _ h => h
  plan := fun _ _ h => h
  set := fun _ _ _ _ _ _ _ h => h

theorem kept_of_system {s t : State} (h : t.system = s.system) : t.kept = s.kept := by
  have h1 := congrArg State.kept h
  exact h1

theorem kept_fields {s t : State} (h : t.kept = s.kept) :
    t.gdtr = s.gdtr ∧ t.idtr = s.idtr ∧ t.cr2 = s.cr2 ∧ t.cr4 = s.cr4 ∧ t.dr = s.dr ∧ t.pendingFault = s.pendingFault ∧
      t.refused = s.refused ∧ t.inputs = s.inputs ∧ t.params = s.params ∧ t.mmu.paging = s.mmu.paging ∧
      t.mmu.views = s.mmu.views ∧ t.mmu.answers = s.mmu.answers := by
  simp only [State.kept, State.mk.injEq, Mmu.mk.injEq] at h
  tauto

theorem system_fields {s t : State} (h : t.system = s.system) :
    t.gdtr = s.gdtr ∧ t.idtr = s.idtr ∧ t.ldtr = s.ldtr ∧ t.tr = s.tr ∧ t.cr0 = s.cr0 ∧ t.cr2 = s.cr2 ∧ t.cr3 = s.cr3 ∧
      t.cr4 = s.cr4 ∧ t.dr = s.dr ∧ t.pendingFault = s.pendingFault ∧ t.refused = s.refused ∧ t.mem = s.mem ∧
      t.mmu = s.mmu ∧ t.inputs = s.inputs ∧ t.params = s.params := by
  simp only [State.system, State.mk.injEq] at h
  tauto

theorem spec_loadTask (s : State) (img) : Keeps (After s) (Halts s) (loadTaskSegments img) := by
  have L := after_loose s
  have kw : Keeps (After s) (Halts s) keepWork := fun c h => ⟨h.1, h.2.2.1, h.2.2.1, h.2.2.2.2, h.2.2.2.2⟩
  have ldt : ∀ l, Keeps (After s) (Halts s) (loadTaskLdt l) := by
    intro l
    unfold loadTaskLdt
    split
    · exact keeps_pure _
    · exact (L.raiseIf' _ _).seq fun _ => (L.requireDesc _ _).seq fun _ => (L.raiseIf' _ _).seq fun _ =>
        (L.raiseIf' _ _).seq fun _ => keeps_modify fun _ h => h
  have cs : ∀ l, Keeps (After s) (Halts s) (loadTaskCs l) := fun l =>
    (L.raiseIf' _ _).seq fun _ => (L.requireDesc _ _).seq fun _ => (L.raiseIf' _ _).seq fun _ =>
      (L.raiseIf' _ _).seq fun _ => (L.raiseIf' _ _).seq fun _ => (L.raiseIf' _ _).seq fun _ =>
      keeps_regs L.toRegs _ fun _ => rfl
  have ss : ∀ l n, Keeps (After s) (Halts s) (loadTaskSs l n) := fun l n => (L.checkNewSs _ _ _).seq fun _ =>
    keeps_regs L.toRegs _ fun _ => rfl
  have da : ∀ n l, Keeps (After s) (Halts s) (loadDataSegProt .ts n l) := by
    intro n l
    unfold loadDataSegProt
    split
    · exact keeps_regs L.toRegs _ fun _ => rfl
    · exact keeps_work.seq fun _ => (L.requireDesc _ _).seq fun _ => (L.raiseIf' _ _).seq fun _ =>
        (L.raiseIf' _ _).seq fun _ => (L.raiseIf' _ _).seq fun _ => keeps_regs L.toRegs _ fun s => regs_installSeg s _ _ _
  refine (ldt _).seq fun _ => kw.seq fun _ => keeps_work.seq fun u => ?_
  split
  · exact (keeps_regs L.toRegs _ fun s => regs_v86 s _ _ _ _ _ _).seq fun _ => kw
  · exact (cs _).seq fun _ => kw.seq fun _ => (ss _ _).seq fun _ => kw.seq fun _ => (da _ _).seq fun _ =>
      kw.seq fun _ => (da _ _).seq fun _ => kw.seq fun _ => (da _ _).seq fun _ => kw.seq fun _ => (da _ _).seq fun _ => kw

theorem spec_switch (s : State) (sel m r e) : Spec (Before s) (switchTask sel m r e) (fun _ => Ends s) (Halts s) := by
  have L := before_loose s
  refine (L.checkTarget _ _ fun c h => ⟨proper_refuse, .inl ⟨h.1, h.2.1⟩⟩).seq fun d => L.checkOutgoing.seq fun _ =>
    (L.readImage _).seq fun img => keeps_work.seq fun u =>
    (keeps_when (L.setBusy _ _)).seq fun _ => (L.flushOutgoing _ _).seq fun _ =>
      (keeps_when (L.setBusy _ _)).seq fun _ => (keeps_when (L.memWrite _ _ _ _)).seq fun _ => ?_
  refine Spec.bind (R := fun _ => After s) ?_ fun _ => (spec_loadTask s _).seq fun _ =>
    ((after_loose s).pushError _).mono fun _ c h => .inr h
  intro c h
  have hk : (c.commit.enterTask sel d img m).kept = s.kept := (show c.work.kept = s.kept from kept_of_system h.2.2)
  have ht : (c.commit.enterTask sel d img m).cr0.getLsbD bitTS = true := by
    show (setBit c.work.cr0 bitTS true).getLsbD bitTS = true
    simp [setBit, bitTS]
  exact ⟨rfl, hk, hk, ⟨ht, rfl⟩, ⟨ht, rfl⟩⟩

theorem before_start (s : State) : Before s (Ctx.start s) := ⟨rfl, rfl, rfl⟩

/-- The transfers that are no delivery. -/
theorem transfer_ends (i : Instr) (s : State) (hi : i.isTransfer = true) (he : i ≠ .exceptionDelivery) :
    ∃ op, exec i s = s.run op ∧ Spec (Before s) op (fun _ => Ends s) (Halts s) := by
  have L := before_loose s
  have hr : ∀ c, Before s c → Halts s .refuse c := fun c h => ⟨proper_refuse, .inl ⟨h.1, h.2.1⟩⟩
  have ht : ∀ c, Before s c → Ends s c := fun c h => .inl h
  have hs := spec_switch s
  cases i <;> simp only [Instr.isTransfer, Bool.false_eq_true] at hi
  · exact ⟨_, rfl, spec_farJump L hr ht hs _ _ _ _⟩
  · exact ⟨_, rfl, (L.readFarPtr _ _).seq fun _ => spec_farJump L hr ht hs _ _ _ _⟩
  · exact ⟨_, rfl, spec_farCall L hr ht hs _ _ _ _⟩
  · exact ⟨_, rfl, (L.readFarPtr _ _).seq fun _ => spec_farCall L hr ht hs _ _ _ _⟩
  · exact ⟨_, rfl, (L.farReturn _ _).mono fun _ => ht⟩
  · exact ⟨_, rfl, (L.farReturn _ _).mono fun _ => ht⟩
  · exact ⟨_, rfl, spec_iret L ht hs _ _⟩
  · exact ⟨_, rfl, spec_interrupt L hr ht hs _ _ _ _ _⟩
  · exact ⟨_, rfl, spec_interrupt L hr ht hs _ _ _ _ _⟩
  · refine ⟨_, rfl, ?_⟩
    cases s.ofl
    · exact (keeps_regs L.toRegs _ fun s => regs_eip s _).mono fun _ => ht
    · exact spec_interrupt L hr ht hs _ _ _ _ _
  · exact ⟨_, rfl, spec_interrupt L hr ht hs _ _ _ _ _⟩
  · exact absurd rfl he


/-- What an operation that is no transfer keeps: only the working copy and the plan change. -/
def Plain (s : State) (c : Ctx) : Prop :=
  c.base = s ∧ c.switched = false ∧ c.work.pendingFault = s.pendingFault ∧ c.work.refused = s.refused

/-- An operation that halts with nothing committed. -/
def HaltsHere (s : State) (e : Halt) (c : Ctx) : Prop :=
  (∀ f, e = .raise f → f.Proper) ∧ c.base = s ∧ c.switched = false

theorem plain_loose (s : State) : Loose (Plain s) (HaltsHere s) where
  raise := fun _ _ hf h => ⟨proper_raise hf, h.1, h.2.1⟩
  asked := fun _ _ h => h
  plan := fun _ _ h => h
  set := fun _ _ _ _ _ _ _ h => h

theorem Regs.loadSegment {P E} (L : Regs P E) (n sel e nx) : Keeps P E (loadSegment n sel e nx) := by
  refine Spec.seq ?_ fun _ => (keeps_regs L _ fun s => regs_loadEsp s _).seq fun _ => keeps_regs L _ fun s => regs_eip s _
  refine keeps_work.seq fun s => ?_
  split
  · exact keeps_regs L _ fun s => regs_loadSegReal s _ _
  split
  · exact keeps_work.seq fun _ => (L.raiseIf' _ _).seq fun _ => (L.requireDesc _ _).seq fun _ =>
      (L.raiseIf' _ _).seq fun _ => (L.raiseIf' _ _).seq fun _ => (L.raiseIf' _ _).seq fun _ =>
      (L.raiseIf' _ _).seq fun _ => keeps_regs L _ fun s => regs_installSeg s _ _ _
  · unfold loadDataSegProt
    split
    · exact keeps_regs L _ fun _ => rfl
    · exact keeps_work.seq fun _ => (L.requireDesc _ _).seq fun _ => (L.raiseIf' _ _).seq fun _ =>
        (L.raiseIf' _ _).seq fun _ => (L.raiseIf' _ _).seq fun _ => keeps_regs L _ fun s => regs_installSeg s _ _ _

theorem regs_setGpr (s r w v) : RegsOnly s (s.setGpr r w v) := rfl

theorem regs_withFlag (s n b) : RegsOnly s (s.withFlag n b) := rfl

theorem regs_report (s r w v) : RegsOnly s (s.report r w v) := by cases v <;> rfl

theorem Regs.movSeg {P E} (L : Regs P E) (n p x nx) : Keeps P E (movSeg n p x nx) := (L.readRm16 _ _).seq fun _ =>
  L.loadSegment _ _ _ _

theorem Regs.popSeg {P E} (L : Regs P E) (n w nx) : Keeps P E (popSeg n w nx) := keeps_work.seq fun _ =>
  (L.peekStack _ _).seq fun _ => L.loadSegment _ _ _ _

theorem Regs.loadFarSeg {P E} (L : Regs P E) (n p r m w nx) : Keeps P E (loadFarSeg n p r m w nx) := (L.readFarPtr _
  _).seq fun _ => (L.loadSegment _ _ _ _).seq fun _ => keeps_regs L _ fun s => regs_setGpr s _ _ _

theorem Regs.advance {P E} (L : Regs P E) (n) : Keeps P E (advance n) := keeps_regs L _ fun s => regs_eip s _


/-- `P` also ignores the system registers. -/
structure SysRegs (P : Ctx → Prop) (E : Halt → Ctx → Prop) : Prop extends Regs P E where
  sys : ∀ c l t gd id c0 c2 c3 c4 d m, P c →
    P { c with
      work := { c.work with
        ldtr := l, tr := t, gdtr := gd, idtr := id, cr0 := c0, cr2 := c2, cr3 := c3, cr4 := c4, dr := d, mmu := m } }

/-- The instructions that write system registers. -/
def writesSystem : Instr → Bool
  | .lldt _ _ | .ltr _ _ | .lgdt _ _ | .lidt _ _ | .movToCr _ _ _ | .movToDr _ _ _ => true
  | _ => false

theorem regs_ops {P E} (G : Regs P E) (i : Instr) (s : State) (hi : i.isTransfer = false) (hs : i.mayStore = false)
  (hx : writesSystem i = false) :
    ∃ op, exec i s = s.run op ∧ Keeps P E op := by
  cases i <;> simp only [Instr.isTransfer, writesSystem, Instr.mayStore, Bool.true_eq_false] at hi hs hx
  case movEs => exact ⟨_, rfl, G.movSeg _ _ _ _⟩
  case movSs => exact ⟨_, rfl, G.movSeg _ _ _ _⟩
  case movDs => exact ⟨_, rfl, G.movSeg _ _ _ _⟩
  case movFs => exact ⟨_, rfl, G.movSeg _ _ _ _⟩
  case movGs => exact ⟨_, rfl, G.movSeg _ _ _ _⟩
  case popEs => exact ⟨_, rfl, G.popSeg _ _ _⟩
  case popSs => exact ⟨_, rfl, G.popSeg _ _ _⟩
  case popDs => exact ⟨_, rfl, G.popSeg _ _ _⟩
  case popFs => exact ⟨_, rfl, G.popSeg _ _ _⟩
  case popGs => exact ⟨_, rfl, G.popSeg _ _ _⟩
  case les => exact ⟨_, rfl, G.loadFarSeg _ _ _ _ _ _⟩
  case lds => exact ⟨_, rfl, G.loadFarSeg _ _ _ _ _ _⟩
  case lss => exact ⟨_, rfl, G.loadFarSeg _ _ _ _ _ _⟩
  case lfs => exact ⟨_, rfl, G.loadFarSeg _ _ _ _ _ _⟩
  case lgs => exact ⟨_, rfl, G.loadFarSeg _ _ _ _ _ _⟩
  case verr => exact ⟨_, rfl, G.modeGate.seq fun _ => (G.readRm16 _ _).seq fun _ => (G.inspect _ _).seq fun _ =>
    (keeps_regs G _ fun s => regs_withFlag s _ _).seq fun _ => G.advance _⟩
  case verw => exact ⟨_, rfl, G.modeGate.seq fun _ => (G.readRm16 _ _).seq fun _ => (G.inspect _ _).seq fun _ =>
    (keeps_regs G _ fun s => regs_withFlag s _ _).seq fun _ => G.advance _⟩
  case lar => exact ⟨_, rfl, G.modeGate.seq fun _ => (G.readRm16 _ _).seq fun _ => (G.inspect _ _).seq fun _ =>
    (keeps_regs G _ fun s => regs_report s _ _ _).seq fun _ => G.advance _⟩
  case lsl => exact ⟨_, rfl, G.modeGate.seq fun _ => (G.readRm16 _ _).seq fun _ => (G.inspect _ _).seq fun _ =>
    (keeps_regs G _ fun s => regs_report s _ _ _).seq fun _ => G.advance _⟩
  case arpl p x r =>
    cases x with
    | mem m => simp at hs
    | reg x => exact ⟨_, rfl, G.modeGate.seq fun _ => (G.readRm16 _ _).seq fun _ =>
      (keeps_regs G _ fun s => regs_setGpr s _ _ _).seq fun _ =>
      (keeps_regs G _ fun s => regs_withFlag s _ _).seq fun _ => G.advance _⟩
  case movFromCr => exact ⟨_, rfl, (G.raiseIf' _ _).seq fun _ => G.crGate.seq fun _ =>
    (keeps_regs G _ fun s => regs_setGpr s _ _ _).seq fun _ => G.advance _⟩
  case movFromDr => exact ⟨_, rfl, G.crGate.seq fun _ =>
    (keeps_regs G _ fun s => regs_setGpr s _ _ _).seq fun _ => G.advance _⟩
  case cli => exact ⟨_, rfl, G.ioGate.seq fun _ => (keeps_regs G _ fun s => regs_withFlag s _ _).seq fun _ => G.advance _⟩
  case sti => exact ⟨_, rfl, G.ioGate.seq fun _ => (keeps_regs G _ fun s => regs_withFlag s _ _).seq fun _ => G.advance _⟩
  case popf => exact ⟨_, rfl, G.v86IoplGate.seq fun _ => (G.pop _).seq fun _ =>
    (keeps_regs G _ fun s => regs_mergeFlags s _ _).seq fun _ => G.advance _⟩

theorem store_ops {P E} (L : Loose P E) (i : Instr) (s : State) (hi : i.isTransfer = false) (hs : i.mayStore = true)
  (hx : writesSystem i = false) :
    ∃ op, exec i s = s.run op ∧ Keeps P E op := by
  have G := L.toRegs
  cases i <;> simp only [Instr.isTransfer, writesSystem, Instr.mayStore, Bool.true_eq_false, Bool.false_eq_true] at hi hs hx
  case pushf => exact ⟨_, rfl, L.v86IoplGate.seq fun _ => (L.push _ _).seq fun _ => G.advance _⟩
  case sgdt => exact ⟨_, rfl, Spec.seq ((L.memWrite _ _ _ _).seq fun _ => L.memWrite _ _ _ _) fun _ => G.advance _⟩
  case sidt => exact ⟨_, rfl, Spec.seq ((L.memWrite _ _ _ _).seq fun _ => L.memWrite _ _ _ _) fun _ => G.advance _⟩
  case arpl p x r =>
    cases x with
    | reg m => simp at hs
    | mem x => exact ⟨_, rfl, L.modeGate.seq fun _ => (L.readRm16 _ _).seq fun _ =>
      Spec.seq (keeps_work.seq fun _ => L.memWrite _ _ _ _) fun _ =>
      (keeps_regs G _ fun s => regs_withFlag s _ _).seq fun _ => G.advance _⟩

/-- LLDT, LGDT, LIDT, MOV to CR and DR. -/
theorem sys_ops {P E} (G : SysRegs P E) (i : Instr) (s : State) (hx : writesSystem i = true) (hl : ∀ p x, i ≠ .ltr p x) :
    ∃ op, exec i s = s.run op ∧ Keeps P E op := by
  cases i <;> simp only [writesSystem, Bool.false_eq_true] at hx
  case lldt =>
    refine ⟨_, rfl, G.modeGate.seq fun _ => G.privGate.seq fun _ =>
      (G.readRm16 _ _).seq fun sel => Spec.seq ?_ fun _ => G.advance _⟩
    unfold lldtOp
    split
    · exact keeps_modify fun c h => G.sys c _ _ _ _ _ _ _ _ _ _ h
    · exact (G.raiseIf' _ _).seq fun _ => (G.requireDesc _ _).seq fun _ => (G.raiseIf' _ _).seq fun _ =>
        (G.raiseIf' _ _).seq fun _ => keeps_modify fun c h => G.sys c _ _ _ _ _ _ _ _ _ _ h
  case ltr p x => exact absurd rfl (hl p x)
  case lgdt => exact ⟨_, rfl, G.privGate.seq fun _ => Spec.seq ((G.memRead _ _ _).seq fun _ =>
    (G.memRead _ _ _).seq fun _ => keeps_pure _) fun _ =>
    Spec.seq (keeps_modify fun c h => G.sys c _ _ _ _ _ _ _ _ _ _ h) fun _ => G.advance _⟩
  case lidt => exact ⟨_, rfl, G.privGate.seq fun _ => Spec.seq ((G.memRead _ _ _).seq fun _ =>
    (G.memRead _ _ _).seq fun _ => keeps_pure _) fun _ =>
    Spec.seq (keeps_modify fun c h => G.sys c _ _ _ _ _ _ _ _ _ _ h) fun _ => G.advance _⟩
  case movToCr p n r =>
    refine ⟨_, rfl, (G.raiseIf' _ _).seq fun _ => G.crGate.seq fun _ => (G.raiseIf' _ _).seq fun _ =>
      Spec.seq (keeps_modify fun c h => ?_) fun _ => G.advance _⟩
    unfold State.writeCr
    split
    · exact G.sys c _ _ _ _ _ _ _ _ _ _ h
    · exact G.sys c _ _ _ _ _ _ _ _ _ _ h
    · exact G.sys c _ _ _ _ _ _ _ _ _ _ h
    · exact G.sys c _ _ _ _ _ _ _ _ _ _ h
    · exact h
  case movToDr => exact ⟨_, rfl, G.crGate.seq fun _ =>
    Spec.seq (keeps_modify fun c h => G.sys c _ _ _ _ _ _ _ _ _ _ h) fun _ => G.advance _⟩

theorem ltr_op {P E} (L : Loose P E) (G : SysRegs P E) (hr : ∀ c, P c → E .refuse c) (s : State) (p x) :
    ∃ op, exec (.ltr p x) s = s.run op ∧ Keeps P E op := by
  refine ⟨_, rfl, G.modeGate.seq fun _ => G.privGate.seq fun _ =>
    (G.readRm16 _ _).seq fun sel => Spec.seq ?_ fun _ => G.advance _⟩
  refine (G.raiseIf' _ _).seq fun _ => (G.raiseIf' _ _).seq fun _ =>
    (G.requireDesc _ _).seq fun d => (keeps_refuseIf hr).seq fun _ => (G.raiseIf' _ _).seq fun _ =>
    (G.raiseIf' _ _).seq fun _ => Spec.seq ?_ fun _ => (L.setBusy _ _).seq fun _ =>
    keeps_modify fun c h => G.sys c _ _ _ _ _ _ _ _ _ _ h
  unfold readIomap
  split
  · exact G.memRead16 _
  · exact keeps_pure _

theorem plain_sys (s : State) : SysRegs (Plain s) (HaltsHere s) where
  raise := fun _ _ hf h => ⟨proper_raise hf, h.1, h.2.1⟩
  asked := fun _ _ h => h
  set := fun _ _ _ _ _ _ _ h => h
  sys := fun _ _ _ _ _ _ _ _ _ _ _ h => h

theorem plain_ends (i : Instr) (s : State) (hi : i.isTransfer = false) :
    ∃ op, exec i s = s.run op ∧ Keeps (Plain s) (HaltsHere s) op := by
  by_cases hx : writesSystem i = true
  · by_cases hl : ∃ p x, i = .ltr p x
    · obtain ⟨p, x, rfl⟩ := hl
      exact ltr_op (plain_loose s) (plain_sys s) (fun _ h => ⟨proper_refuse, h.1, h.2.1⟩) s p x
    · exact sys_ops (plain_sys s) i s hx (by intro p x e; exact hl ⟨p, x, e⟩)
  · simp only [Bool.not_eq_true] at hx
    by_cases hs : i.mayStore = true
    · exact store_ops (plain_loose s) i s hi hs hx
    · exact regs_ops (plain_loose s).toRegs i s hi (by simpa using hs) hx

/-- How an operation from `s` that cannot switch tasks ends in `t`: committed by a context with `Q`, faulted or refused with nothing
changed. -/
inductive EndsHere (s t : State) (Q : Ctx → Prop) : Prop where
  | commit (c : Ctx) (hc : Q c) (e : t = c.commit)
  | fault (f : FaultCode) (hf : f.Proper) (e : t = s.takeFault f)
  | refuse (e : t = { s with refused := true })

/-- How any operation from `s` ends in `t`: as above, or faulted after a task switch. -/
inductive EndsAnywhere (s t : State) (Q : Ctx → Prop) : Prop where
  | here (h : EndsHere s t Q)
  | faultAfter (f : FaultCode) (c : Ctx) (hf : f.Proper) (hc : After s c) (e : t = c.base.takeFault f)

/-- An operation as its outcome. -/
theorem run_cases {s t : State} {op : Op Unit} {Q : Ctx → Prop} (h : s.run op = .next t)
    (hs : Spec (fun c => c = Ctx.start s) op (fun _ => Q) (Halts s)) : EndsAnywhere s t Q := by
  have spec := hs (Ctx.start s) rfl
  unfold State.run at h
  generalize op (Ctx.start s) = result at h spec
  match result, h, spec with
  | .ok _ c, h, spec => exact .here (.commit c spec (Host.Outcome.next.inj h).symm)
  | .error .refuse c, h, ⟨_, .inl spec⟩ =>
    exact .here (.refuse (by rw [← spec.1]; exact (Host.Outcome.next.inj h).symm))
  | .error .refuse _, _, ⟨_, .inr ⟨⟨_, no⟩, _⟩⟩ => cases no
  | .error (.raise f) c, h, ⟨proper, .inl spec⟩ =>
    exact .here (.fault f (proper f rfl) (by rw [← spec.1]; exact (Host.Outcome.next.inj h).symm))
  | .error (.raise f) c, h, ⟨proper, .inr spec⟩ =>
    exact .faultAfter f c (proper f rfl) spec.2 (Host.Outcome.next.inj h).symm

/-- An operation that cannot switch tasks, as its outcome. -/
theorem run_cases_here {s t : State} {op : Op Unit} {Q : Ctx → Prop} (h : s.run op = .next t)
    (hs : Spec (fun c => c = Ctx.start s) op (fun _ => Q) (HaltsHere s)) : EndsHere s t Q := by
  have spec := hs (Ctx.start s) rfl
  unfold State.run at h
  generalize op (Ctx.start s) = result at h spec
  match result, h, spec with
  | .ok _ c, h, spec => exact .commit c spec (Host.Outcome.next.inj h).symm
  | .error .refuse c, h, spec => exact .refuse (by rw [← spec.2.1]; exact (Host.Outcome.next.inj h).symm)
  | .error (.raise f) c, h, spec =>
    exact .fault f (spec.1 f rfl) (by rw [← spec.2.1]; exact (Host.Outcome.next.inj h).symm)

theorem Before.plain {s : State} {c : Ctx} (h : Before s c) : Plain s c := by
  have h1 := congrArg State.pendingFault h.2.2
  have h2 := congrArg State.refused h.2.2
  exact ⟨h.1, h.2.1, h1, h2⟩

theorem before_loose_here (s : State) : Loose (Before s) (HaltsHere s) :=
  ⟨⟨⟨fun _ _ hf h => ⟨proper_raise hf, h.1, h.2.1⟩, (before_loose s).asked⟩, (before_loose s).plan⟩, (before_loose s).set⟩

/-- What any operation but the delivery of a pending fault can do: commit without a task switch, with the system registers kept
by a transfer; commit after a task switch; fault or refuse with nothing changed; fault after a task switch. -/
inductive CanDo (i : Instr) (s t : State) : Prop where
  | commit (c : Ctx) (e : t = c.commit) (h : Plain s c) (hs : i.isTransfer = true → c.work.system = s.system)
  | switch (c : Ctx) (e : t = c.commit) (h : After s c) (hm : i.maySwitch = true)
  | fault (f : FaultCode) (hf : f.Proper) (e : t = s.takeFault f)
  | faultAfter (f : FaultCode) (c : Ctx) (e : t = c.base.takeFault f) (h : After s c) (hm : i.maySwitch = true)
      (hf : f.Proper)
  | refuse (e : t = { s with refused := true })

/-- What an operation that cannot switch tasks ends in, it can do. -/
theorem EndsHere.canDo {i : Instr} {s t : State} {Q : Ctx → Prop} (h : EndsHere s t Q)
    (hQ : ∀ c, Q c → Plain s c ∧ (i.isTransfer = true → c.work.system = s.system)) : CanDo i s t := by
  cases h with
  | commit c hc e => exact .commit c e (hQ c hc).1 (hQ c hc).2
  | fault f hf e => exact .fault f hf e
  | refuse e => exact .refuse e

/-- The far RETs. -/
theorem isTransfer_of_not_switch {i : Instr} (hi : i.isTransfer = true) (hm : i.maySwitch = false) (s : State) :
    ∃ imm w, exec i s = s.run (farReturn imm w) := by
  cases i <;> simp [Instr.isTransfer, Instr.maySwitch] at hi hm
  · exact ⟨_, _, rfl⟩
  · exact ⟨_, _, rfl⟩

theorem exec_cases (i : Instr) (s t : State) (he : i ≠ .exceptionDelivery) (h : exec i s = .next t) : CanDo i s t := by
  cases hi : i.isTransfer with
  | false =>
    obtain ⟨op, e, hs⟩ := plain_ends i s hi
    refine (run_cases_here (e ▸ h) fun c hc => hs c ?_).canDo fun c hc => ⟨hc, by simp [hi]⟩
    rw [hc]
    exact (before_start s).plain
  | true =>
    cases hm : i.maySwitch with
    | false =>
      obtain ⟨imm, w, e⟩ := isTransfer_of_not_switch hi hm s
      exact (run_cases_here (e ▸ h) fun c hc => (before_loose_here s).farReturn imm w c (hc ▸ before_start s)).canDo
        fun c hc => ⟨hc.plain, fun _ => hc.2.2⟩
    | true =>
      obtain ⟨op, e, hs⟩ := transfer_ends i s hi he
      match run_cases (e ▸ h) fun c hc => hs c (hc ▸ before_start s) with
      | .here (.commit c (.inl hc) ht) => exact .commit c ht hc.plain fun _ => hc.2.2
      | .here (.commit c (.inr hc) ht) => exact .switch c ht hc hm
      | .here (.fault f hf ht) => exact .fault f hf ht
      | .here (.refuse ht) => exact .refuse ht
      | .faultAfter f c hf hc ht => exact .faultAfter f c ht hc hm hf

/-- What the delivery of the pending fault `f` can do, `s0` being the state with it emptied: complete, fault in a new task, meet a
nested fault, or be refused. -/
inductive CanDeliver (s t s0 : State) (f : PendingFault) : Prop where
  | commit (c : Ctx) (e : t = c.commit) (h : Ends s0 c)
  | faultAfter (f2 : FaultCode) (c : Ctx) (e : t = c.base.takeFault f2) (h : After s0 c)
  | nested (f2 : FaultCode) (hf : f2.Proper) (e : nestedFault s0 f f2 = .next t)
  | refuse (e : t = { s with refused := true })

theorem delivery_cases (s t : State) (h : exec .exceptionDelivery s = .next t) :
    ∃ f s0, s.pendingFault = some f ∧ s0 = { s with pendingFault := none } ∧ CanDeliver s t s0 f := by
  cases hp : s.pendingFault with
  | none => simp [exec, execExceptionDelivery, hp] at h
  | some f =>
    refine ⟨f, _, rfl, rfl, ?_⟩
    simp only [exec, execExceptionDelivery, hp, deliver] at h
    have spec := spec_interrupt (before_loose { s with pendingFault := none })
      (fun c h => ⟨proper_refuse, .inl ⟨h.1, h.2.1⟩⟩) (fun c h => .inl h) (spec_switch _) f.vector .exception true f.err
      f.returnEip (Ctx.start { s with pendingFault := none }) (before_start _)
    generalize interrupt f.vector .exception true f.err f.returnEip _ = result at h spec
    match result, h, spec with
    | .ok _ c, h, spec => exact .commit c (Host.Outcome.next.inj h).symm spec
    | .error .refuse _, h, _ => exact .refuse (by rw [hp]; exact (Host.Outcome.next.inj h).symm)
    | .error (.raise f2) c, h, ⟨proper, spec⟩ =>
      cases hsw : c.switched with
      | false => exact .nested f2 (proper f2 rfl) (by simpa [hsw] using h)
      | true =>
        have after : After _ c := (spec.resolve_left fun early => by simp [hsw] at early).2
        exact .faultAfter f2 c (by simpa [hsw, eq_comm] using h) after

end Sys2Proof.Machine
end

