-- ==== Sys2Proof/Tests/Slice0.lean ====
section
/-! SUPPORT. Tests: ill-formed terms refused, a word per instruction, vectors of 95_test_vectors.md (each names its vector),
and for every statement with hypotheses a state that meets them. Expected values are the spec's. -/

namespace Sys2Proof.Tests

open Sys2Proof.Machine

-- one theorem at a time: each is a kernel evaluation, and many at once take one large stack each
set_option Elab.async false

/-! ### Helpers -/

/-- Memory from rows of bytes at rising addresses. -/
def cells : List (Nat × List Byte) → Memory
  | [] => []
  | (a, bs) :: rows => (bs.zipIdx.filterMap fun (b, i) => if b = 0 then none else some (a + i, b)) ++ cells rows

/-- The outcome is a next state that meets `p`. -/
def nextWith (o : Host.Outcome State Fault Refusal) (p : State → Bool) : Bool :=
  match o with
  | .next t => p t
  | .fault _ => false
  | .refused _ => false

/-- What `nextWith` says. -/
theorem nextWith_spec {o : Host.Outcome State Fault Refusal} {p : State → Bool} (h : nextWith o p = true) :
    ∃ t, o = .next t ∧ p t = true := by
  cases o with
  | next t => exact ⟨t, rfl, h⟩
  | fault _ => cases h
  | refused _ => cases h

/-- The outcome is exactly this fault, pending: nothing else of the state is different. -/
def faults (i : Instr) (s : State) (v : BitVec 8) (code : Option Word) : Bool :=
  nextWith (exec i s) fun t =>
    decide (t = { s with
      pendingFault := some { vector := v, hasError := code.isSome, errorCode := code.getD 0, returnEip := s.eip } })

/-- The GDT of layout L (95_test_vectors.md section 0). -/
def gdtL : Memory := cells [
  (0x1008, [0xFF, 0xFF, 0, 0, 0, 0x9A, 0xCF, 0]), (0x1010, [0xFF, 0xFF, 0, 0, 0, 0x92, 0xCF, 0]),
  (0x1018, [0xFF, 0xFF, 0, 0, 0, 0xFA, 0xCF, 0]), (0x1020, [0xFF, 0xFF, 0, 0, 0, 0xF2, 0xCF, 0]),
  (0x1028, [0x67, 0, 0, 0x30, 0, 0x8B, 0, 0]), (0x1030, [0x67, 0, 0, 0x31, 0, 0x89, 0, 0]),
  (0x1038, [0, 0x20, 8, 0, 2, 0xEC, 0, 0]), (0x1040, [0, 0, 0x30, 0, 0, 0xE5, 0, 0]),
  (0x1048, [0xFF, 0xFF, 0, 0, 0, 0x9E, 0xCF, 0])]

/-- The IDT of layout L. -/
def idtL : Memory := cells [
  (0x1850, [0, 0x41, 8, 0, 0, 0x8E, 0, 0]), (0x1868, [0, 0x40, 8, 0, 0, 0x8E, 0, 0]),
  (0x1C00, [0, 0x50, 8, 0, 0, 0xEF, 0, 0])]

/-- TSS A and TSS B of layout L. -/
def tssL : Memory := cells [
  (0x3004, [0, 0xA0, 0, 0, 0x10]), (0x3120, [0, 0x60, 0, 0, 2]), (0x3138, [0, 0xB0]),
  (0x3148, [0x10, 0, 0, 0, 8, 0, 0, 0, 0x10, 0, 0, 0, 0x10, 0, 0, 0, 0x10, 0, 0, 0, 0x10])]

/-- A flat segment register. -/
def flat (sel : Sel) (n : Level) (k : SegKind) : SegReg :=
  { sel := sel, base := 0, limit := 0xFFFFFFFF, big := true, valid := true, dpl := n, kind := k }

/-- Segment registers with one code and one data selector. -/
def flatSegs (cs ds : Sel) (n : Level) : Segs :=
  let d := flat ds n (.data true false)
  { cs := flat cs n (.code false true), ss := d, ds := d, es := d, fs := d, gs := d }

/-- Layout L. -/
def sL : State := { State.reset with
  mem := gdtL ++ idtL ++ tssL
  gdtr := { base := 0x1000, limit := 0x4F }
  idtr := { base := 0x1800, limit := 0x7FF }
  cr0 := 0x11
  tr := { sel := 0x28, base := 0x3000, limit := 0x67, valid := true, iomap := 0 }
  cpl := 3
  eflags := 0x202
  seg := flatSegs 0x1B 0x23 3
  stack := .ofBig true
  eip := 0x10000
  gpr := { State.reset.gpr with esp := 0x8000 } }

/-- Layout L0, its instructions at 0x1000. -/
def sL0 : State := { sL with
  cpl := 0
  eip := 0x1000
  seg := flatSegs 0x08 0x10 0
  gpr := { State.reset.gpr with esp := 0x9000 } }

/-- A V86 segment register. -/
def v86Seg (sel : Sel) (k : SegKind) : SegReg :=
  { sel := sel, base := sel.setWidth 32 <<< 4, limit := 0xFFFF, big := false, valid := true, dpl := 3, kind := k }

/-- The V86 state of vector I9, with IDT[0x21] leading to `sel`. -/
def sV (sel : Sel) : State := { sL with
  mem := gdtL ++ cells [(0x1908, [0, 0x60, sel.setWidth 8, 0, 0, 0xEE])] ++ tssL
  eflags := 0x00023202
  eip := 0x100
  seg :=
    { cs := v86Seg 0x3000 (.code false true), ss := v86Seg 0x2000 (.data true false), ds := v86Seg 0x1000 (.data true false)
      es := v86Seg 0x1100 (.data true false), fs := v86Seg 0 (.data true false), gs := v86Seg 0 (.data true false) }
  stack := .ofBig false
  gpr := { State.reset.gpr with esp := 0x0FFE } }

/-- A real-mode state. -/
def sR : State := { State.reset with
  seg := { State.reset.seg with cs := { SegReg.resetCode with sel := 0, base := 0 } }
  eip := 0x7C00
  gpr := { State.reset.gpr with esp := 0x7000 } }

/-- EAX and EBX set. -/
def withAb (s : State) (a b : Word) : State := { s with gpr := { s.gpr with eax := a, ebx := b } }

/-- A 32-bit value stored. -/
def poke (s : State) (a v : Word) : State := s.writeLin a 4 v

/-! ### Ill-formed terms are refused (WellFormed.lean) -/

theorem test_wf_far_offset_needs_32_bits : WellFormed false (.jmpFarPtr [] 0x10000 8) = false ∧
    WellFormed false (.callFarPtr [] 0x10000 8) = false ∧ WellFormed true (.callFarPtr [.opSize] 0x10000 8) = false ∧
    WellFormed true (.jmpFarPtr [] 0x10000 8) = true ∧ WellFormed false (.jmpFarPtr [] 0xFFFF 8) = true := by decide
theorem test_wf_address_forms_by_size : WellFormed true (.lgdt [] (.a16 .bx .none)) = false ∧
    WellFormed true (.lidt [] (.a16Abs 0)) = false ∧ WellFormed false (.sgdt [] (.a32 .eax .none)) = false ∧
    WellFormed false (.sidt [] (.a32Abs 0)) = false ∧ WellFormed false (.les [] .eax (.sib 0 .eax .eax .none)) = false ∧
    WellFormed false (.lds [] .eax (.sibAbs 0 .eax 0)) = false ∧
    WellFormed false (.sgdt [.addrSize] (.a32 .eax .none)) = true := by decide
theorem test_wf_forms_another_form_takes : WellFormed false (.lss [] .eax (.a16 .bp .none)) = false ∧
    WellFormed true (.lfs [] .eax (.a32 .ebp .none)) = false ∧ WellFormed true (.lgs [] .eax (.a32 .esp .none)) = false ∧
    WellFormed true (.jmpFarMem [] (.sib 0 .eax .ebp .none)) = false ∧
    WellFormed true (.callFarMem [] (.a32 .esp (.short 0))) = false := by decide
theorem test_wf_checks_every_operand : WellFormed true (.movEs [] (.mem (.a16Abs 0))) = false ∧
    WellFormed true (.movSs [] (.mem (.a16Abs 0))) = false ∧ WellFormed true (.movDs [] (.mem (.a16Abs 0))) = false ∧
    WellFormed true (.movFs [] (.mem (.a16Abs 0))) = false ∧ WellFormed true (.movGs [] (.mem (.a16Abs 0))) = false ∧
    WellFormed true (.lldt [] (.mem (.a16Abs 0))) = false ∧ WellFormed true (.ltr [] (.mem (.a16Abs 0))) = false ∧
    WellFormed true (.verr [] (.mem (.a16Abs 0))) = false ∧ WellFormed true (.verw [] (.mem (.a16Abs 0))) = false ∧
    WellFormed true (.arpl [] (.mem (.a16Abs 0)) .eax) = false ∧
    WellFormed true (.lar [] .eax (.mem (.a16Abs 0))) = false ∧
    WellFormed true (.lsl [] .eax (.mem (.a16Abs 0))) = false := by decide
theorem test_wf_no_opcode_no_encoding : WellFormed false (.hardwareInterrupt 8) = false ∧
    WellFormed true .exceptionDelivery = false := by decide
theorem test_wf_fifteen_bytes : WellFormed true (.cli (List.replicate 14 .opSize)) = true ∧
    WellFormed true (.cli (List.replicate 15 .opSize)) = false ∧
    decode true (List.replicate 15 0x66 ++ [0xFA]) = .error .tooLong := by decide

/-! ### A word per instruction, from the map of 30_encoding.md R92 -/

theorem test_decode_jmpFarPtr : decode false [0xEA, 0x20, 0x7C, 0x08, 0x00] = .ok (.jmpFarPtr [] 0x7C20 0x0008, []) := by decide
theorem test_decode_jmpFarMem : decode true [0xFF, 0x28] = .ok (.jmpFarMem [] (.a32 .eax .none), []) := by decide
theorem test_decode_callFarPtr :
    decode true [0x9A, 0x78, 0x56, 0x34, 0x12, 0x38, 0x00] = .ok (.callFarPtr [] 0x12345678 0x0038, []) := by decide
theorem test_decode_callFarMem : decode false [0xFF, 0x1E, 0x00, 0x06] = .ok (.callFarMem [] (.a16Abs 0x600), []) := by decide
theorem test_decode_retf : decode true [0xCB] = .ok (.retf [], []) := by decide
theorem test_decode_retfImm : decode true [0xCA, 0x08, 0x01] = .ok (.retfImm [] 0x108, []) := by decide
theorem test_decode_iret : decode false [0x66, 0xCF] = .ok (.iret [.opSize], []) := by decide
theorem test_decode_ints : decode true [0xCC] = .ok (.int3 [], []) ∧ decode true [0xCD, 0x80] = .ok (.intImm [] 0x80, []) ∧
    decode true [0xCE] = .ok (.into [], []) := by decide
theorem test_decode_mov_seg : decode true [0x8E, 0xC0] = .ok (.movEs [] (.reg .eax), []) ∧
    decode true [0x8E, 0xD3] = .ok (.movSs [] (.reg .ebx), []) ∧ decode true [0x8E, 0xDB] = .ok (.movDs [] (.reg .ebx), []) ∧
    decode true [0x8E, 0x64, 0x24, 0x04] = .ok (.movFs [] (.mem (.sib 0 .esp .esp (.short 4))), []) ∧
    decode false [0x8E, 0x6E, 0xFE] = .ok (.movGs [] (.mem (.a16 .bp (.short 0xFE))), []) := by decide
theorem test_decode_pop_seg : decode true [0x07] = .ok (.popEs [], []) ∧ decode true [0x17] = .ok (.popSs [], []) ∧
    decode true [0x1F] = .ok (.popDs [], []) ∧ decode true [0x0F, 0xA1] = .ok (.popFs [], []) ∧
    decode true [0x0F, 0xA9] = .ok (.popGs [], []) := by decide
theorem test_decode_lxs : decode true [0xC4, 0x0D, 0x00, 0x06, 0x00, 0x00] = .ok (.les [] .ecx (.a32Abs 0x600), []) ∧
    decode false [0xC5, 0x37] = .ok (.lds [] .esi (.a16 .bx .none), []) ∧
    decode true [0x0F, 0xB2, 0x20] = .ok (.lss [] .esp (.a32 .eax .none), []) ∧
    decode true [0x0F, 0xB4, 0x04, 0x9D, 1, 0, 0, 0] = .ok (.lfs [] .eax (.sibAbs 2 .ebx 1), []) ∧
    decode true [0x0F, 0xB5, 0x90, 2, 1, 0, 0] = .ok (.lgs [] .edx (.a32 .eax (.full 0x102)), []) := by decide
theorem test_decode_group6 : decode true [0x0F, 0x00, 0xD0] = .ok (.lldt [] (.reg .eax), []) ∧
    decode true [0x0F, 0x00, 0xD8] = .ok (.ltr [] (.reg .eax), []) ∧
    decode true [0x0F, 0x00, 0xE3] = .ok (.verr [] (.reg .ebx), []) ∧
    decode true [0x0F, 0x00, 0xEB] = .ok (.verw [] (.reg .ebx), []) := by decide
theorem test_decode_group7 : decode false [0x0F, 0x01, 0x06, 0x00, 0x07] = .ok (.sgdt [] (.a16Abs 0x700), []) ∧
    decode false [0x0F, 0x01, 0x0E, 0x00, 0x07] = .ok (.sidt [] (.a16Abs 0x700), []) ∧
    decode false [0x0F, 0x01, 0x16, 0x00, 0x05] = .ok (.lgdt [] (.a16Abs 0x500), []) ∧
    decode false [0x0F, 0x01, 0x1E, 0x00, 0x05] = .ok (.lidt [] (.a16Abs 0x500), []) := by decide
theorem test_decode_inspect : decode true [0x63, 0xD8] = .ok (.arpl [] (.reg .eax) .ebx, []) ∧
    decode true [0x0F, 0x02, 0xC3] = .ok (.lar [] .eax (.reg .ebx), []) ∧
    decode true [0x0F, 0x03, 0xC3] = .ok (.lsl [] .eax (.reg .ebx), []) := by decide
theorem test_decode_cr_dr : decode false [0x0F, 0x20, 0xC8] = .ok (.movFromCr [] 1 .eax, []) ∧
    decode false [0x0F, 0x22, 0xD8] = .ok (.movToCr [] 3 .eax, []) ∧
    decode false [0x0F, 0x21, 0xF3] = .ok (.movFromDr [] 6 .ebx, []) ∧
    decode false [0x0F, 0x23, 0xE8] = .ok (.movToDr [] 5 .eax, []) := by decide
theorem test_decode_flags : decode true [0xFA] = .ok (.cli [], []) ∧ decode true [0xFB] = .ok (.sti [], []) ∧
    decode true [0x9C] = .ok (.pushf [], []) ∧ decode true [0x9D] = .ok (.popf [], []) := by decide
theorem test_decode_table_words : decodeTableWord 24 0x0F22C0 = some (.movToCr [] 0 .eax) ∧
    decodeTableWord 24 0x0F0010 = some (.lldt [] (.mem (.a16 .bxSi .none))) ∧
    decodeTableWord 8 0xEA = some (.jmpFarPtr [] 0 0) ∧ decodeTableWord 8 0xFA = some (.cli []) := by decide
theorem test_decode_rejects : decode true [0x90] = .error .outside ∧ decode true [0x0F, 0x00, 0xF0] = .error .undefined ∧
    decode true [0x8E, 0xC8] = .error .undefined ∧ decode true [0xC4, 0xC0] = .error .undefined ∧
    decode true [0x0F, 0x22] = .error .truncated ∧ decode true [0x0F, 0x20, 0x28] = .error .undefined ∧
    decode true [0xF0, 0xF3, 0xFA] = .ok (.cli [.lock, .rep], []) := by decide

/-! ### Descriptors and selectors (95 section 2.1) -/

theorem test_E1_E2_selectors : selIndex 0x2B = 5 ∧ selTi 0x2B = false ∧ selRpl 0x2B = 3 ∧ errSel 0x2B = 0x28 ∧
    selIndex 0x0F = 1 ∧ selTi 0x0F = true ∧ errSel 0x0F = 0x0C := by decide
theorem test_E3_E4_descriptors : (decodeDesc 0x1234FFFF 0x00409200).base = 0x00001234 ∧
    (decodeDesc 0x1234FFFF 0x00409200).limit = 0xFFFF ∧ (decodeDesc 0x1234FFFF 0x00409200).big = true ∧
    (decodeDesc 0 0x00809300).limit = 0xFFF ∧ (decodeDesc 0 0x00809300).kind = .seg (.data true false) ∧
    decodeKind 0x9600 = .seg (.data true true) ∧ decodeKind 0x9800 = .seg (.code false false) := by decide
theorem test_E7_E8_system_types :
    [0x0, 0x8, 0xA, 0xD].all (fun t => decodeKind (BitVec.ofNat 32 (t * 256)) == .invalid) = true ∧
    [0x1, 0x3].all (fun t => decodeKind (BitVec.ofNat 32 (t * 256)) == .tss286) = true ∧
    [0x4, 0x6, 0x7].all (fun t => decodeKind (BitVec.ofNat 32 (t * 256)) == .gate286) = true ∧
    decodeKind 0x200 = .ldt ∧ decodeKind 0x900 = .tss false ∧ decodeKind 0xB00 = .tss true ∧ decodeKind 0xC00 = .callGate ∧
    decodeKind 0xE00 = .interruptGate ∧ decodeKind 0xF00 = .trapGate := by decide
theorem test_E9_E10_gates : (decodeDesc 0x00085678 0x1234EC03).gateSel = 8 ∧
    (decodeDesc 0x00085678 0x1234EC03).gateOff = 0x12345678 ∧ (decodeDesc 0x00085678 0x1234EC03).paramCount = 3 ∧
    (decodeDesc 0x00300000 0x0000E500).kind = .taskGate ∧ (decodeDesc 0x00300000 0x0000E500).gateSel = 0x30 := by decide
theorem test_E11_E12 : idtErr 0x0D = 0x6A ∧ idtErr 0x80 = 0x402 ∧ eflagsWrite 0xFFFFFFFF = 0x003F7FD7 := by decide
theorem test_S1_lookup : (sL.lookup 0x48).isSome = true ∧ sL.lookup 0x50 = none ∧ sL.lookup 0xFFF8 = none ∧
    sL.lookup 0x0004 = none := by decide +kernel
theorem test_predicates : mayLoadDataSegment 0 0x13 (decodeDesc 0xFFFF 0x00CF9200) = false ∧
    mayLoadDataSegment 3 0x4B (decodeDesc 0xFFFF 0x00CF9E00) = true ∧
    mayJump 3 0x48 (decodeDesc 0xFFFF 0x00CF9E00) = true ∧ mayJump 2 2 (decodeDesc 0xFFFF 0x00CFDA00) = true ∧
    mayJump 2 3 (decodeDesc 0xFFFF 0x00CFDA00) = false ∧ mayJump 2 2 (decodeDesc 0xFFFF 0x00CFBA00) = false ∧
    mayCall 2 0x13 (decodeDesc 0xFFFF 0x00CFDA00) = false ∧ gateOk 0 0x3B (decodeDesc 0x00082000 0xCC00) = false ∧
    mayReturn 0 0x1B (decodeDesc 0xFFFF 0x00CFFA00) = true ∧ mayReturn 3 8 (decodeDesc 0xFFFF 0x00CF9A00) = false ∧
    mayReturn 0 0x4B (decodeDesc 0xFFFF 0x00CF9E00) = true ∧ mayReturn 0 0x13 (decodeDesc 0xFFFF 0x00CF9A00) = false ∧
    ioPermitted 1 1 false = true ∧ ioPermitted 2 1 false = false ∧ ioPermitted 3 3 true = true ∧ ioPermitted 3 2 true = false := by
  decide

/-! ### Segment loads and table instructions (95 section 2.3) -/

theorem test_S2_movDs : faults (.movDs [] (.reg .eax)) (withAb sL 0x10 0) 13 (some 0x10) = true := by decide +kernel
theorem test_S9_movDs_conforming :
    nextWith (exec (.movDs [] (.reg .eax)) (withAb sL 0x4B 0)) (fun t => t.seg.ds.sel == 0x4B && t.eip == 0x10002) = true := by
  decide +kernel
theorem test_S3_movEs_null :
    nextWith (exec (.movEs [] (.reg .eax)) (withAb sL 3 0)) (fun t => t.seg.es.sel == 3 && !t.seg.es.valid) = true := by
  decide +kernel
theorem test_S13_movEs_v86 :
    nextWith (exec (.movEs [] (.reg .eax)) (withAb (sV 8) 0xB800 0)) (fun t => t.seg.es == v86Seg 0xB800 (.data true false)) =
      true := by decide +kernel
theorem test_S6_movSs_not_present :
    faults (.movSs [] (.reg .eax)) (withAb (poke sL0 0x1014 0x00CF1200) 0x10 0) 12 (some 0x10) = true := by decide +kernel
theorem test_S4_movSs_null : faults (.movSs [] (.reg .eax)) (withAb sL0 0 0) 13 (some 0) = true := by decide +kernel
theorem test_S7_movFs_not_present :
    faults (.movFs [] (.reg .eax)) (withAb (poke sL 0x1024 0x00CF7200) 0x23 0) 11 (some 0x20) = true := by decide +kernel
theorem test_S8_movGs_code :
    nextWith (exec (.movGs [] (.reg .eax)) (withAb sL 0x1B 0)) (fun t => t.seg.gs == flat 0x1B 3 (.code false true)) = true := by
  decide +kernel
theorem test_pops_take_their_register : nextWith (exec (.popEs []) sL) (fun t => !t.seg.es.valid && t.gpr.esp == 0x8004) &&
    nextWith (exec (.popDs []) sL) (fun t => !t.seg.ds.valid) && nextWith (exec (.popFs []) sL) (fun t => !t.seg.fs.valid) &&
    nextWith (exec (.popGs []) sL) (fun t => !t.seg.gs.valid && t.seg.fs.valid) = true := by decide +kernel
theorem test_popSs_null_keeps_esp : faults (.popSs []) sL 13 (some 0) = true := by decide +kernel
theorem test_S14_lss :
    nextWith (exec (.lss [] .esp (.a32Abs 0x600)) (poke (poke sL0 0x600 0x9800) 0x604 0x10))
      (fun t => t.seg.ss.sel == 0x10 && t.gpr.esp == 0x9800) = true := by decide +kernel
theorem test_SS1_lss_atomic :
    faults (.lss [] .esp (.a32Abs 0x600)) (poke (poke sL 0x600 0x1234) 0x604 0x20) 13 (some 0x20) = true := by decide +kernel
theorem test_lxs_take_their_register :
    nextWith (exec (.les [] .ecx (.a32Abs 0x600)) (poke sL 0x604 0x4B)) (fun t => t.seg.es.sel == 0x4B && t.gpr.ecx == 0) &&
    nextWith (exec (.lds [] .ecx (.a32Abs 0x600)) (poke sL 0x604 0x4B)) (fun t => t.seg.ds.sel == 0x4B) &&
    nextWith (exec (.lfs [] .ecx (.a32Abs 0x600)) (poke sL 0x600 7)) (fun t => !t.seg.fs.valid && t.gpr.ecx == 7) &&
    nextWith (exec (.lgs [] .edi (.a32Abs 0x600)) (poke sL 0x600 7)) (fun t => !t.seg.gs.valid && t.gpr.edi == 7) = true := by
  decide +kernel
theorem test_S15_ltr :
    nextWith (exec (.ltr [] (.reg .eax)) (withAb sL0 0x30 0))
      (fun t => t.tr == { sel := 0x30, base := 0x3100, limit := 0x67, valid := true, iomap := 0 } &&
        t.readByte 0x1035 == 0x8B) = true := by decide +kernel
theorem test_S16_ltr_busy : faults (.ltr [] (.reg .eax)) (withAb sL0 0x28 0) 13 (some 0x28) = true := by decide +kernel
theorem test_S18_S19_gates : faults (.ltr [] (.reg .eax)) sL 6 none && faults (.lldt [] (.reg .eax)) sR 6 none = true := by
  decide +kernel
theorem test_S20_S21_lldt : nextWith (exec (.lldt [] (.reg .eax)) sL0) (fun t => !t.ldtr.valid) &&
    faults (.lldt [] (.reg .eax)) (withAb sL0 0x10 0) 13 (some 0x10) = true := by decide +kernel
theorem test_S22_S23_lgdt :
    nextWith (exec (.lgdt [] (.a16Abs 0x600)) (poke (poke sR 0x600 0x000007FF) 0x604 0xFF01))
      (fun t => t.gdtr == { base := 0x00010000, limit := 0x07FF } && t.idtr == sR.idtr) &&
    nextWith (exec (.lgdt [.opSize] (.a16Abs 0x600)) (poke (poke sR 0x600 0x000007FF) 0x604 0xFF01))
      (fun t => t.gdtr == { base := 0xFF010000, limit := 0x07FF }) = true := by decide +kernel
theorem test_lidt : nextWith (exec (.lidt [] (.a16Abs 0x600)) (poke (poke sR 0x600 0x000007FF) 0x604 0xFF01))
    (fun t => t.idtr == { base := 0x00010000, limit := 0x07FF } && t.gdtr == sR.gdtr) = true := by decide +kernel
theorem test_S24_sgdt_sidt : nextWith (exec (.sgdt [] (.a32Abs 0x700)) sL)
      (fun t => t.readLin 0x700 4 == 0x1000004F && t.readLin 0x704 2 == 0) &&
    nextWith (exec (.sidt [] (.a32Abs 0x700)) sL)
      (fun t => t.readLin 0x700 4 == 0x180007FF && t.readLin 0x704 2 == 0) = true := by decide +kernel
theorem test_S25_arpl : nextWith (exec (.arpl [] (.reg .eax) .ebx) (withAb sL 0x10 3))
    (fun t => t.gpr.eax == 0x13 && t.eflags == 0x242) = true := by decide +kernel
theorem test_S26_arpl : nextWith (exec (.arpl [] (.reg .eax) .ebx) (withAb sL 0x13 1))
    (fun t => t.gpr.eax == 0x13 && t.eflags == 0x202) = true := by decide +kernel
theorem test_S28_S29_lar : nextWith (exec (.lar [] .eax (.reg .ebx)) (withAb sL 5 0x38))
      (fun t => t.gpr.eax == 0x0000EC00 && t.eflags == 0x242) &&
    nextWith (exec (.lar [] .eax (.reg .ebx)) (withAb sL 5 8)) (fun t => t.gpr.eax == 5 && t.eflags == 0x202) = true := by
  decide +kernel
theorem test_S31_S32_lsl : nextWith (exec (.lsl [] .eax (.reg .ebx)) (withAb sL0 5 8))
      (fun t => t.gpr.eax == 0xFFFFFFFF && t.eflags == 0x242) &&
    nextWith (exec (.lsl [] .eax (.reg .ebx)) (withAb sL0 5 0x38)) (fun t => t.gpr.eax == 5 && t.eflags == 0x202) = true := by
  decide +kernel
theorem test_S33_S34_S35_verr_verw : nextWith (exec (.verr [] (.reg .ebx)) (withAb sL 0 0x4B)) (fun t => t.eflags == 0x242) &&
    nextWith (exec (.verw [] (.reg .ebx)) (withAb sL0 0 8)) (fun t => t.eflags == 0x202) &&
    nextWith (exec (.verw [] (.reg .ebx)) (withAb sL 0 0x23)) (fun t => t.eflags == 0x242) = true := by decide +kernel

/-! ### Far transfers (95 section 2.4) -/

theorem test_J1_real : nextWith (exec (.jmpFarPtr [] 0x7C20 8) sR)
    (fun t => t.seg.cs.sel == 8 && t.seg.cs.base == 0x80 && t.eip == 0x7C20) = true := by decide +kernel
theorem test_J3_conforming : nextWith (exec (.jmpFarPtr [] 0x1000 0x48) sL)
    (fun t => t.seg.cs.sel == 0x4B && t.cpl == 3 && t.eip == 0x1000) = true := by decide +kernel
theorem test_J5_gate_to_level_0 : faults (.jmpFarPtr [] 0 0x3B) sL 13 (some 8) = true := by decide +kernel
theorem test_jmpFarMem_gate : nextWith (exec (.jmpFarMem [] (.a32Abs 0x600)) (poke sL0 0x604 0x38))
    (fun t => t.seg.cs.sel == 8 && t.eip == 0x2000 && t.gpr.esp == 0x9000) = true := by decide +kernel
theorem test_C1_real : nextWith (exec (.callFarPtr [] 0x10 0x2000)
      { sR with eip := 0x100, seg := { sR.seg with cs := { sR.seg.cs with sel := 0x1000, base := 0x10000 } } })
    (fun t => t.readLin 0x6FFE 2 == 0x1000 && t.readLin 0x6FFC 2 == 0x105 && t.gpr.esp == 0x6FFC && t.seg.cs.sel == 0x2000 &&
      t.eip == 0x10) = true := by decide +kernel
theorem test_CG1_gate_call :
    nextWith (exec (.callFarPtr [] 0 0x38)
      (poke (poke { sL with gpr := { sL.gpr with esp := 0x7FF8 } } 0x7FF8 0x22222222) 0x7FFC 0x11111111))
    (fun t => t.gpr.esp == 0x9FE8 && t.cpl == 0 && t.eip == 0x2000 && t.readLin 0x9FFC 4 == 0x23 &&
      t.readLin 0x9FF8 4 == 0x7FF8 && t.readLin 0x9FF4 4 == 0x11111111 && t.readLin 0x9FF0 4 == 0x22222222 &&
      t.readLin 0x9FEC 4 == 0x1B && t.readLin 0x9FE8 4 == 0x10007 && t.seg.ss.sel == 0x10 && t.seg.cs.sel == 8 &&
      t.seg.ds.sel == 0x23 && t.eflags == 0x202) = true := by decide +kernel
theorem test_callFarMem_same_level : nextWith (exec (.callFarMem [] (.a32Abs 0x600)) (poke (poke sL0 0x600 0x3000) 0x604 8))
    (fun t => t.readLin 0x8FFC 4 == 8 && t.readLin 0x8FF8 4 == 0x1006 && t.gpr.esp == 0x8FF8 && t.eip == 0x3000) = true := by
  decide +kernel
theorem test_TS1_no_stack : faults (.callFarPtr [] 0x1000 8) (poke (poke sL 0x3004 0) 0x3008 0) 10 (some 0) = true := by
  decide +kernel
theorem test_RT1_retf : nextWith (exec (.retfImm [] 4)
      (poke (poke { sL0 with gpr := { sL0.gpr with esp := 0x9FE8 } } 0x9FE8 0x2100) 0x9FEC 8))
    (fun t => t.eip == 0x2100 && t.gpr.esp == 0x9FF4 && t.cpl == 0) = true := by decide +kernel
theorem test_RT4_retf_outer : nextWith (exec (.retf [])
      (poke (poke (poke (poke sL0 0x9000 0x1000) 0x9004 0x1B) 0x9008 0x8000) 0x900C 0x23))
    (fun t => t.cpl == 3 && t.seg.cs.sel == 0x1B && t.eip == 0x1000 && t.seg.ss.sel == 0x23 && t.gpr.esp == 0x8000 &&
      t.seg.ds == .null 0 && t.seg.es == .null 0 && t.seg.fs == .null 0 && t.seg.gs == .null 0) = true := by decide +kernel
theorem test_RT2_retf_bad_stack : faults (.retf [])
    (poke (poke (poke (poke sL0 0x9000 0x1000) 0x9004 0x1B) 0x9008 0x8000) 0x900C 0x20) 13 (some 0x20) = true := by
  decide +kernel

/-! ### Interrupts and IRET (95 section 2.5) -/

theorem test_I1_real_int : nextWith (exec (.intImm [] 0x20) (poke { sR with eip := 0x7C03, eflags := 0x202 } 0x80 0xF0001234))
    (fun t => t.readLin 0x6FFE 2 == 0x202 && t.readLin 0x6FFC 2 == 0 && t.readLin 0x6FFA 2 == 0x7C05 && t.gpr.esp == 0x6FFA &&
      t.seg.cs.sel == 0xF000 && t.eip == 0x1234 && t.eflags == 2) = true := by decide +kernel
theorem test_I2_exception : nextWith (exec .exceptionDelivery
      { sL0 with pendingFault := some { vector := 13, hasError := true, errorCode := 0x10, returnEip := 0x1234 } })
    (fun t => t.readLin 0x8FFC 4 == 0x202 && t.readLin 0x8FF8 4 == 8 && t.readLin 0x8FF4 4 == 0x1234 &&
      t.readLin 0x8FF0 4 == 0x10 && t.gpr.esp == 0x8FF0 && t.eip == 0x4000 && t.eflags == 2 && t.pendingFault.isNone) = true := by
  decide +kernel
theorem test_I3_to_I7_int_faults : faults (.intImm [] 0x0D) sL 13 (some 0x6A) && faults (.intImm [] 0x21) sL 13 (some 0x10A) &&
    faults (.intImm [] 0x80) { sL with idtr := { sL.idtr with limit := 0xFF } } 13 (some 0x402) &&
    faults (.intImm [] 0x80) (poke sL 0x1C04 0x6F00) 11 (some 0x402) &&
    nextWith (exec (.intImm [] 0x80) (poke sL 0x1C04 0xE700)) (fun t => t.refused) = true := by decide +kernel
theorem test_P4_int_80 : nextWith (exec (.intImm [] 0x80) sL)
    (fun t => t.readLin 0x9FFC 4 == 0x23 && t.readLin 0x9FF8 4 == 0x8000 && t.readLin 0x9FF4 4 == 0x202 &&
      t.readLin 0x9FF0 4 == 0x1B && t.readLin 0x9FEC 4 == 0x10002 && t.gpr.esp == 0x9FEC && t.seg.cs.sel == 8 &&
      t.eip == 0x5000 && t.eflags == 0x202) = true := by decide +kernel
theorem test_int3_into_real : nextWith (exec (.int3 []) (poke sR 0x0C 0xF0001234)) (fun t => t.eip == 0x1234) &&
    nextWith (exec (.into []) (poke { sR with eflags := 0x802 } 0x10 0xF0005678)) (fun t => t.eip == 0x5678) &&
    nextWith (exec (.into []) sR) (fun t => t.eip == 0x7C01) = true := by decide +kernel
theorem test_I9_from_v86 : nextWith (exec (.intImm [] 0x21) (sV 8))
    (fun t => t.readLin 0x9FFC 4 == 0 && t.readLin 0x9FF8 4 == 0 && t.readLin 0x9FF4 4 == 0x1000 && t.readLin 0x9FF0 4 == 0x1100 &&
      t.readLin 0x9FEC 4 == 0x2000 && t.readLin 0x9FE8 4 == 0x0FFE && t.readLin 0x9FE4 4 == 0x00023202 &&
      t.readLin 0x9FE0 4 == 0x3000 && t.readLin 0x9FDC 4 == 0x0102 && t.gpr.esp == 0x9FDC && t.seg.ds == .null 0 &&
      t.seg.gs == .null 0 && !t.vm && !t.ifl && t.cpl == 0 && t.seg.cs.sel == 8 && t.eip == 0x6000) = true := by decide +kernel
theorem test_I10_v86_target_level : faults (.intImm [] 0x21) (sV 0x18) 13 (some 0x18) = true := by decide +kernel
theorem test_hardware_interrupt : nextWith (exec (.hardwareInterrupt 0x0D) sL)
    (fun t => t.readLin 0x9FEC 4 == 0x10000 && t.gpr.esp == 0x9FEC && t.cpl == 0 && t.eip == 0x4000 && t.eflags == 2) = true := by
  decide +kernel
theorem test_IR3_iretd : nextWith (exec (.iret [])
      (poke (poke (poke { sL0 with gpr := { sL0.gpr with esp := 0x8FF4 } } 0x8FF4 0x1234) 0x8FF8 8) 0x8FFC 0x202))
    (fun t => t.eip == 0x1234 && t.gpr.esp == 0x9000 && t.eflags == 0x202) = true := by decide +kernel
theorem test_IR5_iret_to_v86 : nextWith (exec (.iret []) ({ sL0 with gpr := { sL0.gpr with esp := 0x9FDC } }
      |> (poke · 0x9FDC 0x102) |> (poke · 0x9FE0 0x3000) |> (poke · 0x9FE4 0x00023202) |> (poke · 0x9FE8 0x0FFE)
      |> (poke · 0x9FEC 0x2000) |> (poke · 0x9FF0 0x1100) |> (poke · 0x9FF4 0x1000)))
    (fun t => t.seg == (sV 8).seg && t.eip == 0x102 && t.gpr.esp == 0x0FFE && t.eflags == 0x00023202 && t.cpl == 3) = true := by
  decide +kernel
theorem test_merge_flags_rows :
    (({ sL0 with eflags := 2 }).mergeFlags 0x003FFFFF true).eflags = 0x00247FD7 ∧
    (({ sL0 with eflags := 2, cpl := 1 }).mergeFlags 0x003FFFFF true).eflags = 0x00244DD7 ∧
    (({ sL0 with eflags := 0x1002, cpl := 1 }).mergeFlags 0x003FFFFF true).eflags = 0x00245FD7 ∧
    (({ sL0 with eflags := 0x3002, cpl := 3 }).mergeFlags 0x003FFFFF true).eflags = 0x00247FD7 ∧
    (({ sL0 with eflags := 2, cpl := 3 }).mergeFlags 0x003FFFFF false).eflags = 0x00004DD7 := by decide +kernel

/-! ### Task switches (95 section 2.6 and P3) -/

theorem test_T1_jmp_tss : nextWith (exec (.jmpFarPtr [] 0 0x30) sL0)
    (fun t => t.readLin 0x3020 4 == 0x1007 && t.readLin 0x3024 4 == 0x202 && t.readLin 0x3038 4 == 0x9000 &&
      t.readLin 0x3048 2 == 0x10 && t.readLin 0x304C 2 == 8 && t.tr.sel == 0x30 && t.eip == 0x6000 && t.gpr.esp == 0xB000 &&
      t.eflags == 2 && t.cr0 == 0x19 && t.cpl == 0 && t.readByte 0x102D == 0x89 && t.readByte 0x1035 == 0x8B &&
      t.readLin 0x3100 2 == 0) = true := by decide +kernel
theorem test_T5_fault_in_new_task : nextWith (exec (.jmpFarPtr [] 0 0x30) (poke sL0 0x314C 0x10))
    (fun t => t.pendingFault == some { vector := 10, hasError := true, errorCode := 0x10, returnEip := 0x6000 } &&
      t.tr.sel == 0x30 && t.seg.cs.sel == 0x10 && !t.seg.cs.valid && !t.seg.ss.valid && !t.seg.ds.valid) = true := by
  decide +kernel
theorem test_P3_round_trip : nextWith (exec (.callFarPtr [] 0 0x40) { withAb sL0 0xAAAA0001 0 with eflags := 2 })
    (fun t => t.eflags == 0x4002 && t.readLin 0x3028 4 == 0xAAAA0001 && t.readLin 0x3100 2 == 0x28 && t.tr.sel == 0x30 &&
      nextWith (exec (.iret []) t) fun u => u.eip == 0x1007 && u.gpr == (withAb sL0 0xAAAA0001 0).gpr && u.eflags == 2 &&
        u.seg == sL0.seg && u.readByte 0x1035 == 0x89 && u.readLin 0x3124 4 == 2 && u.readLin 0x3120 4 == 0x6001) = true := by
  decide +kernel
theorem test_T8_exception_task_gate : nextWith (exec .exceptionDelivery { poke (poke sL0 0x1868 0x00300000) 0x186C 0x8500 with
      pendingFault := some { vector := 13, hasError := true, errorCode := 0x28, returnEip := 0x10000 } })
    (fun t => t.readLin 0x3020 4 == 0x10000 && t.readLin 0x3100 2 == 0x28 && t.nt && t.readLin 0xAFFC 4 == 0x28 &&
      t.gpr.esp == 0xAFFC) = true := by decide +kernel

/-! ### System registers and flags (95 section 2.7) -/

theorem test_X1_X2_mov_to_cr0 : nextWith (exec (.movToCr [] 0 .eax) (withAb sR 0x11 0))
      (fun t => t.cr0 == 0x11 && t.cpl == 0 && t.seg == sR.seg && t.eip == 0x7C03) &&
    faults (.movToCr [] 0 .eax) (withAb sL0 0x80000010 0) 13 (some 0) = true := by decide +kernel
theorem test_X3_X4_mmu_told : nextWith (exec (.movToCr [] 0 .eax) (withAb sL0 0x80000011 0)) (fun t => t.mmu.paging) &&
    nextWith (exec (.movToCr [] 3 .eax) (withAb sL0 0x5000 0)) (fun t => t.cr3 == 0x5000 && t.mmu.pdb == 0x5000) = true := by
  decide +kernel
theorem test_X5_X6_mov_cr_faults : faults (.movToCr [] 3 .eax) sL 6 none && faults (.movFromCr [] 1 .eax) sL0 6 none &&
    faults (.movToCr [] 3 .eax)
      { sL with params := { sL.params with privAccessFault := .gp0 } } 13 (some 0) = true := by decide +kernel
theorem test_mov_from_cr : nextWith (exec (.movFromCr [] 0 .ebx) sL0) (fun t => t.gpr.ebx == 0x11) = true := by decide +kernel
theorem test_X7_X8_mov_dr : nextWith (exec (.movToDr [] 5 .eax) (withAb sL0 0x401 0)) (fun t => t.dr.dr7 == 0x401) &&
    nextWith (exec (.movFromDr [] 6 .eax) State.reset) (fun t => t.gpr.eax == 0xFFFF0FF0) = true := by decide +kernel
theorem test_IF1_cli_sti : faults (.cli []) sL 13 (some 0) && faults (.sti []) sL 13 (some 0) = true := by decide +kernel
theorem test_X9_X10_cli_sti : nextWith (exec (.cli []) { sL with eflags := 0x3202 }) (fun t => t.eflags == 0x3002) &&
    nextWith (exec (.sti []) { sV 8 with eflags := 0x00023002 }) (fun t => t.eflags == 0x00023202) = true := by decide +kernel
theorem test_X11_X12_pushf : faults (.pushf []) { sV 8 with eflags := 0x00022202 } 13 (some 0) &&
    nextWith (exec (.pushf []) { sL with eflags := 0x00010202 }) (fun t => t.readLin 0x7FFC 4 == 0x202 && t.gpr.esp == 0x7FFC) =
      true := by decide +kernel
theorem test_X13_X14_popf : nextWith (exec (.popf []) (poke sL 0x8000 0x3000)) (fun t => t.eflags == 0x202 && t.gpr.esp == 0x8004) &&
    nextWith (exec (.popf []) (poke sL0 0x9000 0x3002)) (fun t => t.eflags == 0x3002 && t.gpr.esp == 0x9004) = true := by
  decide +kernel

/-! ### Steps (95 section 2.8, P1, P5) -/

/-- Layout L0 with a pending #GP(0x10) of the instruction at EIP. -/
def sPend : State :=
  { sL0 with pendingFault := some { vector := 13, hasError := true, errorCode := 0x10, returnEip := 0x1000 } }
/-- The state with an `Mmu` that says this to the first accesses of an operation. -/
def answering (s : State) (l : List (Option MmuAnswer)) : State := { s with mmu := { s.mmu with answers := l } }
/-- Layout L with an `Mmu` that refuses one access of the first page directory. -/
def refusing (s : State) (a : Access) (f : MmuFault) : State :=
  { s with mmu := { s.mmu with views := [((s.mmu.paging, s.mmu.pdb), { faults := [(a, f)], map := [] })] } }

theorem test_F2_mmu_fault_on_push : nextWith (exec (.callFarPtr [] 0 0x38)
      (refusing sL { addr := 0x9FFC, size := 4, write := true, user := false }
        { vector := 14, errorCode := 6, addr := 0x9FFC }))
    (fun t => decide (t = { (refusing sL { addr := 0x9FFC, size := 4, write := true, user := false }
        { vector := 14, errorCode := 6, addr := 0x9FFC }) with
      pendingFault := some { vector := 14, hasError := true, errorCode := 6, returnEip := 0x10000 }, cr2 := 0x9FFC })) =
      true := by decide +kernel
-- R61, R73: each read may be answered with any value, each access with a fault
theorem test_reads_may_be_given_any_value :
    nextWith (exec (.lgdt [] (.a32Abs 0x600)) (answering sL0 [some (.ok 0x7FF), some (.ok 0x1000)]))
      (fun t => t.gdtr == { base := 0x1000, limit := 0x7FF }) &&
    nextWith (exec (.lgdt [] (.a32Abs 0x600))
        (answering sL0 [none, some (.fault { vector := 14, errorCode := 4, addr := 0x602 })]))
      (fun t => t.gdtr == sL0.gdtr && t.cr2 == 0x602 && t.eip == 0x1000) = true := by decide +kernel
-- 93 I5: an instance that has read the TSS as available enters it although another one has set its Busy bit since
theorem test_two_instances_enter_one_task : faults (.jmpFarPtr [] 0 0x30) (poke sL0 0x1034 0x8B00) 13 (some 0x30) &&
    nextWith (exec (.jmpFarPtr [] 0 0x30) (answering (poke sL0 0x1034 0x8B00)
        [some (.ok 0x31000067), some (.ok 0x8900), some (.ok 0x31000067), some (.ok 0x8900)]))
      (fun t => t.tr.sel == 0x30 && t.eip == 0x6000 && t.readByte 0x1035 == 0x8B) = true := by decide +kernel
theorem test_P1_first_steps :
    nextWith (step (({ sR with mem := cells [(0x500, [0x4F, 0, 0, 0x10])] }).withFetchWord 40 0x0F01160005))
      (fun t => t.gdtr == { base := 0x1000, limit := 0x4F } && t.eip == 0x7C05 &&
        nextWith (step ((withAb t 0x11 0x10).withFetchWord 24 0x0F22C0)) fun u => u.cr0 == 0x11 && u.eip == 0x7C08) = true := by
  decide +kernel
theorem test_P5_cli_then_delivery : nextWith (step (sL.withFetchWord 8 0xFA))
    (fun t => t.pendingFault == some { vector := 13, hasError := true, errorCode := 0, returnEip := 0x10000 } &&
      nextWith (step t) fun u => u.readLin 0x9FEC 4 == 0x10000 && u.readLin 0x9FE8 4 == 0 && u.gpr.esp == 0x9FE8 &&
        u.eip == 0x4000 && u.eflags == 2 && u.cpl == 0 && u.pendingFault.isNone) = true := by decide +kernel
theorem test_F4_reset_fetch : State.reset.fetchAddr = 0xFFFFFFF0 := by decide
theorem test_memory_form : Memory.wf sL.mem = true := by decide +kernel

/-! ### For every statement with hypotheses, states that meet them -/

/-- Descriptors of layout L. -/
def code0 : Desc := decodeDesc 0x0000FFFF 0x00CF9A00
def data0 : Desc := decodeDesc 0x0000FFFF 0x00CF9200
def code3 : Desc := decodeDesc 0x0000FFFF 0x00CFFA00
def data3 : Desc := decodeDesc 0x0000FFFF 0x00CFF200
def tssA : Desc := decodeDesc 0x30000067 0x00008B00
def tssB : Desc := decodeDesc 0x31000067 0x00008900
def gateL : Desc := decodeDesc 0x00082000 0x0000EC02
def taskL : Desc := decodeDesc 0x00300000 0x0000E500
def conf0 : Desc := decodeDesc 0x0000FFFF 0x00CF9E00

/-- A state whose `Mmu` lists no view and no answer is quiet. -/
theorem quiet_of_nil {s : State} (h : s.mmu.views = []) (ha : s.mmu.answers = []) : s.Quiet := ⟨by simp [h], ha⟩

theorem sL_quiet : sL.Quiet := quiet_of_nil rfl rfl
theorem sL0_quiet : sL0.Quiet := quiet_of_nil rfl rfl

/-- The instruction has a next state here. -/
def runs (i : Instr) (s : State) : Bool := nextWith (exec i s) fun _ => true

theorem runs_spec {i : Instr} {s : State} (h : runs i s = true) : ∃ t, exec i s = .next t :=
  (nextWith_spec h).imp fun _ ht => ht.1

theorem witness_DecodeOfEncode : WellFormed true (.jmpFarPtr [] 0xFFFFFFFF 0xFFFF) = true ∧
    WellFormed false (.jmpFarPtr [] 0xFFFF 0) = true ∧ WellFormed true (.cli (List.replicate 14 .opSize)) = true ∧
    WellFormed true (.movToCr [] 7 .edi) = true := by decide
theorem witness_EncodeOfDecode :
    decode true ([0x0F, 0xB4, 0x04, 0x9D, 1, 0, 0, 0] ++ [0x90]) = .ok (.lfs [] .eax (.sibAbs 2 .ebx 1), [0x90]) := by decide
theorem witness_IllegalEncodingsAreUndefined :
    decode true ([0x0F, 0x00, modrmByte 0 6 0] ++ [0x90]) = .error .undefined ∧
    decode false ([0x8E, modrmByte 3 1 0] ++ []) = .error .undefined ∧
    decode true ([0x0F, 0x01, modrmByte 3 3 7] ++ []) = .error .undefined ∧
    decode true ([0x0F, 0x22, modrmByte 0 7 5] ++ []) = .error .undefined ∧
    decode true ([0x0F, 0x01, modrmByte 3 4 7] ++ []) = .error .outside := by decide
theorem witness_StepRunsTheInstructionAtEip (i : Instr) (hi : i = .movToCr [] 0 .eax) :
    let s := State.reset.withFetchWord 24 0x0F22C0
    WellFormed s.codeBig i = true ∧ s.pendingFault = none ∧ s.refused = false ∧ s.inputs = [] ∧
    (∃ v rest, ({ s with inputs := [.interrupt 8] }).inputs = .interrupt v :: rest) ∧
    ({ s with inputs := [.interrupt 8] }).ifl = false ∧
    (∀ k (h : k < (encode s.codeBig i).length),
      s.mmu.check { addr := s.fetchAddr + BitVec.ofNat 32 k, size := 1, write := false, user := s.user } = none ∧
        s.readByte (s.fetchAddr + BitVec.ofNat 32 k) = (encode s.codeBig i)[k]) := by
  subst hi
  exact ⟨by decide +kernel, rfl, rfl, rfl, ⟨8, [], rfl⟩, by decide +kernel, by decide +kernel⟩
theorem witness_FetchFaults :
    let s := State.reset.withFetchWord 24 0x0F0030
    let f : MmuFault := { vector := 14, errorCode := 0, addr := 0xFFFFFFF0 }
    let u := refusing State.reset { addr := 0xFFFFFFF0, size := 1, write := false, user := false } f
    s.pendingFault = none ∧ s.refused = false ∧ s.inputs = [] ∧
    decode s.codeBig (s.fetchBytes 15 s.fetchAddr).1 = .error .undefined ∧
    u.pendingFault = none ∧ u.refused = false ∧ u.inputs = [] ∧
    decode u.codeBig (u.fetchBytes 15 u.fetchAddr).1 = .error .truncated ∧
    (u.fetchBytes 15 u.fetchAddr).2 = some f := by decide +kernel
theorem witness_EventsComeInOrder :
    let s := { sL.withFetchWord 8 0xFA with inputs := [.interrupt 0x0D] }
    (s.refused = false ∧ s.pendingFault = none ∧ s.inputs = .interrupt 0x0D :: [] ∧ s.ifl = true ∧
      ({ s with eflags := 2 }).ifl = false ∧ ({ s with eflags := 2 }).fetch = .instr (.cli [])) ∧
    -- a pending fault, whatever the core has next: it is delivered, and the rest waits
    ∀ x : Input, x = .interrupt 0x0D ∨ x = .exception 17 5 ∨ x = .portAccess ∨ x = .idle →
      nextWith (step { sPend with inputs := [x, .idle] }) (fun t => t.pendingFault.isNone && t.eip == 0x4000 &&
        t.inputs == (if x = .idle then [.idle] else [x, .idle])) = true := by
  refine ⟨by decide +kernel, ?_⟩
  rintro x (rfl | rfl | rfl | rfl) <;> decide +kernel
theorem witness_RefusedHasNoFurtherStep :
    ({ sL with refused := true }).inputs = [] ∧
    nextWith (step { sL with refused := true, inputs := [.store 0 1] }) (fun t => t.refused) = true ∧
    nextWith (step { sL with refused := true, inputs := [.reset] }) (fun t => !t.refused) = true := by decide +kernel
theorem witness_OutsideInputsAct :
    sL.refused = false ∧ sL.pendingFault = none ∧
    ({ sL.withFetchWord 8 0xFA with inputs := [] }).fetch = .instr (.cli []) ∧
    nextWith (step { sL with inputs := [.exception 17 5] })
      (fun t => t.pendingFault == some { vector := 17, hasError := true, errorCode := 5, returnEip := 0x10000 }) = true ∧
    nextWith (step { sL with inputs := [.portAccess] }) (fun t => t.pendingFault.isSome) = true ∧
    nextWith (step { sL with inputs := [.portAccess], eflags := 0x3202 }) (fun t => t.pendingFault.isNone) = true := by
  decide +kernel
theorem inv_sL : sL.Inv where
  memory := by decide +kernel
  reserved := by decide +kernel
  stackMask := by decide +kernel
  real := by decide +kernel
  v86 := by decide +kernel
  pending := by intro f h; cases h
theorem inv_sV : (sV 8).Inv where
  memory := by decide +kernel
  reserved := by decide +kernel
  stackMask := by decide +kernel
  real := by decide +kernel
  v86 := by decide +kernel
  pending := by intro f h; cases h
theorem reset_inv : State.reset.Inv where
  memory := rfl
  reserved := by decide +kernel
  stackMask := by decide +kernel
  real := by decide +kernel
  v86 := by decide +kernel
  pending := by intro f h; cases h
theorem witness_ResetLeavesTheSpecsValues : ({ sL with inputs := [.reset, .idle] }).inputs = .reset :: [.idle] ∧
    (SegName.es ≠ .cs) := by decide +kernel
theorem witness_StepKeepsTheInvariant : sL.Inv ∧ ∃ t, step { sL with inputs := [.interrupt 0x0D] } = .next t ∧ t.cpl = 0 := by
  refine ⟨inv_sL, ?_⟩
  obtain ⟨t, h, h'⟩ := nextWith_spec (o := step { sL with inputs := [.interrupt 0x0D] }) (p := fun t => t.cpl == 0)
    (by decide +kernel)
  exact ⟨t, h, by simpa using h'⟩
theorem witness_WhoWritesSystemRegisters :
    nextWith (exec (.lgdt [] (.a32Abs 0x600)) sL0) (fun t => t.gdtr != sL0.gdtr) &&
    nextWith (exec (.lidt [] (.a32Abs 0x600)) sL0) (fun t => t.idtr != sL0.idtr) &&
    nextWith (exec (.lldt [] (.reg .eax)) (withAb sL0 3 0)) (fun t => t.ldtr != sL0.ldtr) &&
    nextWith (exec (.ltr [] (.reg .eax)) (withAb sL0 0x30 0)) (fun t => t.tr != sL0.tr) &&
    nextWith (exec (.movToCr [] 0 .eax) (withAb sL0 0x80000011 0)) (fun t => t.cr0 != sL0.cr0 && t.mmu.paging != sL0.mmu.paging) &&
    nextWith (exec (.movToCr [] 3 .eax) (withAb sL0 1 0)) (fun t => t.cr3 != sL0.cr3 && t.mmu.pdb != sL0.mmu.pdb) &&
    nextWith (exec (.movToCr [] 4 .eax) (withAb sL0 1 0)) (fun t => t.cr4 != sL0.cr4) &&
    nextWith (exec (.movToCr [] 2 .eax) (withAb sL0 1 0)) (fun t => t.cr2 != sL0.cr2) &&
    nextWith (exec (.movToDr [] 7 .eax) (withAb sL0 1 0)) (fun t => t.dr != sL0.dr) &&
    nextWith (exec (.jmpFarPtr [] 0 0x30) sL0) (fun t => t.tr != sL0.tr && t.cr0 != sL0.cr0) = true := by decide +kernel
theorem witness_PrivilegedRegistersNeedLevelZero : sL.pe = true ∧ sL.cpl ≠ 0 ∧ (Instr.popf []).maySwitch = false ∧
    (Instr.retf []).maySwitch = false ∧ runs (.popf []) sL = true ∧ runs (.pushf []) sL = true := by decide +kernel
theorem witness_OnlyTransfersChangeLevel : (Instr.movToCr [] 0 .eax).isTransfer = false ∧
    runs (.movToCr [] 0 .eax) (withAb sL0 0x11 0) = true ∧ Returns sL0 (.retf []) 0 (sL0.opSize []) ∧
    nextWith (exec (.retf []) (poke (poke (poke (poke sL0 0x9000 0x1000) 0x9004 0x1B) 0x9008 0x8000) 0x900C 0x23))
      (fun t => t.cpl == 3) = true := ⟨rfl, by decide +kernel, .plain _, by decide +kernel⟩
theorem witness_FaultChangesNothingElse : sL.pendingFault = none ∧
    nextWith (exec (.cli []) sL) (fun t => t.pendingFault.isSome) = true ∧ (poke sL0 0x314C 0x10).pendingFault = none ∧
    nextWith (exec (.jmpFarPtr [] 0 0x30) (poke sL0 0x314C 0x10)) (fun t => t.pendingFault.isSome) = true ∧
    nextWith (exec (.ltr [] (.reg .eax)) sL) (fun t => t.pendingFault.any fun f => !f.hasError) = true := by decide +kernel
/-- Layout L0 with GDT[1] a 286 call gate, GDT[6] a 286 TSS and IDT[0x80] a 286 trap gate. -/
def s286 : State := poke (poke (poke sL0 0x100C 0x00008400) 0x1034 0x00008100) 0x1C04 0x0000E700
theorem witness_RefusalSetsOnlyTheMark : s286.Quiet ∧ JumpsTo s286 (.jmpFarPtr [] 0 8) 8 0 (s286.opSize []) ∧
    CallsTo s286 (.callFarPtr [] 0 8) 8 0 (s286.opSize []) ∧ s286.unchecked = false ∧
    (s286.lookup 8).map (fun d => d.kind.is286) = some true ∧
    Switches s286 (.jmpFarPtr [] 0 0x40) 0x30 .jmp (s286.nextEip (.jmpFarPtr [] 0 0x40)) ∧
    (s286.lookup 0x30).map (fun d => d.kind) = some .tss286 ∧ (withAb s286 0x30 0).rm16 [] (.reg .eax) = 0x30 ∧
    Interrupts s286 (.intImm [] 0x80) s286 0x80 .software none (s286.nextEip (.intImm [] 0x80)) ∧ s286.pe = true ∧
    s286.vm = false ∧ s286.hasIdtGate 0x80 = true ∧ (s286.idtGate 0x80).kind = .gate286 ∧ s286.refused = false ∧
    nextWith (exec (.intImm [] 0x80) s286) (fun t => t.refused) = true ∧
    (let u := poke (poke s286 0x1868 0x00300000) 0x186C 0x8500
     u.hasIdtGate 13 = true ∧ (u.idtGate 13).kind = .taskGate ∧ u.cpl ≤ (u.idtGate 13).dpl ∧ (u.idtGate 13).present = true ∧
      selTi (u.idtGate 13).gateSel = false ∧ (u.lookup (u.idtGate 13).gateSel).map (fun d => d.kind) = some .tss286) := by
  refine ⟨quiet_of_nil rfl rfl, .ptr _ _ _, .ptr _ _ _, by decide +kernel, by decide +kernel, ?_, by decide +kernel,
    by decide +kernel, .int _ _, by decide +kernel⟩
  exact .jmp _ 0x40 _ 0 _ taskL (.ptr _ _ _) (by decide +kernel)
    ⟨by decide +kernel, by decide +kernel, by decide +kernel, .inr (by decide +kernel)⟩
theorem witness_MemoryFrame : (Instr.cli []).mayStore = false ∧ runs (.cli []) sL0 = true ∧ runs (.pushf []) sL = true ∧
    (Instr.pushf []).stores sL = some [(0x7FFC, 4)] ∧ (Instr.pushf [.opSize]).stores sL = some [(0x7FFE, 2)] ∧
    (Instr.sgdt [] (.a32Abs 0x700)).stores sL = some [(0x700, 2), (0x702, 4)] ∧ runs (.sgdt [] (.a32Abs 0x700)) sL = true ∧
    (Instr.arpl [] (.mem (.a32Abs 0x700)) .eax).stores sL = some [(0x700, 2)] ∧
    runs (.arpl [] (.mem (.a32Abs 0x700)) .eax) sL = true ∧
    (Instr.ltr [] (.reg .eax)).stores (withAb sL0 0x30 0) = some [(0x1035, 1)] ∧
    runs (.ltr [] (.reg .eax)) (withAb sL0 0x30 0) = true ∧
    -- an operand in memory, 0 there, that the `Mmu` answers as 0x30
    (Instr.ltr [] (.mem (.a32Abs 0x700))).stores (answering sL0 [some (.ok 0x30)]) = some [(0x1035, 1)] ∧
    nextWith (exec (.ltr [] (.mem (.a32Abs 0x700))) (answering sL0 [some (.ok 0x30)]))
      (fun t => t.tr.sel == 0x30 && t.readByte 0x1035 == 0x8B) = true := by decide +kernel
theorem witness_RegisterFrame : eflagsWrite sL.eflags = sL.eflags ∧ (Instr.popf []).isTransfer = false ∧
    runs (.popf []) sL = true ∧ (Instr.popf []).writesGpr .eax = false ∧ (Instr.popf []).writesSeg .cs = false ∧
    (Instr.popf []).writesSeg .ss = false := by decide +kernel
theorem witness_WritesReadBackAndKeepOtherBytes : Memory.wf sL.mem = true ∧
    (∀ j, j < 4 → ∀ k, k < 4 →
      sL.mmu.translate (0xFFFFFFFE#32 + BitVec.ofNat 32 j) = sL.mmu.translate (0xFFFFFFFE#32 + BitVec.ofNat 32 k) → j = k) ∧
    (∀ k, k < 4 → 2 ≠ sL.mmu.translate (0xFFFFFFFE#32 + BitVec.ofNat 32 k)) := by decide +kernel
theorem witness_MmuFaultEndsTheOperation :
    let f : MmuFault := { vector := 14, errorCode := 7, addr := 0x7FFC }
    sL.vm = false ∧ (refusing sL { addr := 0x7FFC, size := 4, write := true, user := true } f).checkFirst
      { addr := sL.stackAddr (sL.gpr.esp - 4#32), size := 4, write := true, user := sL.cpl == 3 } = some f ∧
    (refusing sL { addr := 0x700, size := 2, write := true, user := false } f).checkFirst
      { addr := sL.linear [] (.a32Abs 0x700), size := 2, write := true, user := false } = some f ∧
    sL0.cpl = 0 ∧ (refusing sL0 { addr := 0x700, size := 2, write := false, user := false } f).checkFirst
      { addr := sL0.linear [] (.a32Abs 0x700), size := 2, write := false, user := false } = some f ∧
    sL.unchecked = false ∧ isNull (low16 ((withAb sL 0x23 0).gpr.get .eax)) = false ∧ sL.beyondLimit 0x23 = false ∧
    (refusing sL { addr := 0x1020, size := 4, write := false, user := false } f).checkFirst
      { addr := sL.descAddr 0x23, size := 4, write := false, user := false } = some f ∧
    -- and by an answer to the first access alone
    (answering sL [some (.fault f)]).checkFirst
      { addr := sL.stackAddr (sL.gpr.esp - 4#32), size := 4, write := true, user := sL.cpl == 3 } = some f := by decide +kernel
theorem witness_SegmentLoadCompletes :
    (LoadsSeg (withAb sR 0x1234 0) (.movDs [] (.reg .eax)) .ds 0x1234 ∧
      SegLoads (withAb sR 0x1234 0) .ds 0x1234 ((withAb sR 0x1234 0).loadSegReal .ds 0x1234)) ∧
    (LoadsSeg (withAb sL0 0x10 0) (.movSs [] (.reg .eax)) .ss 0x10 ∧
      SegLoads (withAb sL0 0x10 0) .ss 0x10 ((withAb sL0 0x10 0).installSeg .ss 0x10 data0)) ∧
    (LoadsSeg sL (.popFs []) .fs (low16 (sL.peek 0#32 (widthBytes (sL.opSize [])))) ∧
      SegLoads sL .fs (low16 (sL.peek 0#32 (widthBytes (sL.opSize []))))
        (sL.installNull .fs (low16 (sL.peek 0#32 (widthBytes (sL.opSize [])))))) ∧
    (LoadsSeg (poke sL 0x604 0x4B) (.les [] .ecx (.a32Abs 0x600)) .es ((poke sL 0x604 0x4B).farPtr [] (.a32Abs 0x600)).2 ∧
      SegLoads (poke sL 0x604 0x4B) .es ((poke sL 0x604 0x4B).farPtr [] (.a32Abs 0x600)).2
        ((poke sL 0x604 0x4B).installSeg .es ((poke sL 0x604 0x4B).farPtr [] (.a32Abs 0x600)).2 conf0)) :=
  ⟨⟨.movDs _ _ rfl, .unchecked _ _ (by decide +kernel)⟩,
    ⟨.movSs _ _ rfl, by apply SegLoads.stack (d := data0) <;> decide +kernel⟩,
    ⟨.popFs _ (by decide +kernel), by apply SegLoads.null <;> decide +kernel⟩,
    ⟨.les _ _ _ (by decide +kernel), by apply SegLoads.data (d := conf0) <;> decide +kernel⟩⟩
theorem witness_SegmentLoadFaults : sL.unchecked = false ∧ sL0.unchecked = false ∧
    LoadsSeg (withAb sL0 0 0) (.movSs [] (.reg .eax)) .ss ((withAb sL0 0 0).rm16 [] (.reg .eax)) ∧
    -- SS (R153)
    sL0.segFault .ss 0 = some (.gp 0) ∧ sL0.canLookup 0x50 = true ∧ sL0.segFault .ss 0x50 = some (.gp 0x50) ∧
    sL0.canLookup 0x11 = true ∧ sL0.segFault .ss 0x11 = some (.gp 0x10) ∧ sL0.segFault .ss 8 = some (.gp 8) ∧
    sL0.segFault .ss 0x20 = some (.gp 0x20) ∧ (poke sL0 0x1014 0x00CF1200).segFault .ss 0x10 = some (.ss 0x10) ∧
    sL0.segFault .ss 0x10 = none ∧
    -- the others (R154)
    sL.segFault .es 3 = none ∧ sL.segFault .ds 0x4C = some (.gp 0x4C) ∧ sL.segFault .ds 0x28 = some (.gp 0x28) ∧
    sL.segFault .fs 0x10 = some (.gp 0x10) ∧ (poke sL 0x1024 0x00CF7200).segFault .gs 0x23 = some (.np 0x20) ∧
    sL.segFault .gs 0x23 = none := by
  refine ⟨by decide +kernel, by decide +kernel, .movSs _ _ rfl, by decide +kernel⟩
theorem witness_ProtectedModeOnlyInstructions : sR.unchecked = true ∧ (sV 8).unchecked = true := by decide +kernel
theorem witness_PrivilegeGate : sL.pe = true ∧ sL.cpl ≠ 0 ∧ sL.vm = false ∧ (sV 8).pe = true ∧ (sV 8).cpl ≠ 0 := by
  decide +kernel
theorem witness_LldtFollowsItsRule :
    let s := poke (poke sL0 0x1028 0x00400017) 0x102C 0x00008200
    sR.unchecked = true ∧ sL.unchecked = false ∧ sL.cpl ≠ 0 ∧
    sL0.unchecked = false ∧ sL0.cpl = 0 ∧ sL0.canReadRm [] (.reg .eax) = true ∧
    (withAb sL0 0x28 0).rm16 [] (.reg .eax) = 0x28 ∧ isNull 3 = true ∧ selTi 4 = true ∧ sL0.canLookup 0x28 = true ∧
    sL0.lookup 0x50 = none ∧ (sL0.lookup 0x10).map (fun d => d.kind == .ldt) = some false ∧
    (s.lookup 0x28).map (fun d => (d.kind, d.present)) = some (.ldt, true) ∧
    ((poke s 0x102C 0x00000200).lookup 0x28).map (fun d => (d.kind, d.present)) = some (.ldt, false) := by decide +kernel
theorem witness_LtrFollowsItsRule : sL0.Quiet ∧ sR.unchecked = true ∧ sL.unchecked = false ∧ sL.cpl ≠ 0 ∧ sL0.unchecked = false ∧ sL0.cpl = 0 ∧
    (withAb sL0 0x30 0).rm16 [] (.reg .eax) = 0x30 ∧ isNull 3 = true ∧ selTi 4 = true ∧ sL0.lookup 0x50 = none ∧
    (s286.lookup 0x30).map (fun d => d.kind) = some .tss286 ∧ (sL0.lookup 0x28).map (fun d => d.kind) = some (.tss true) ∧
    ((poke sL0 0x1034 0x00000900).lookup 0x30).map (fun d => (d.kind, d.present)) = some (.tss false, false) ∧
    (sL0.lookup 0x30).map (fun d => (d.kind, d.present)) = some (.tss false, true) := by
  refine ⟨sL0_quiet, by decide +kernel⟩
theorem witness_LgdtAndLidtLoad : sL.pe = true ∧ sL.cpl ≠ 0 ∧ sR.pe = false ∧ sR.canRead false (sR.linear [] (.a16Abs 0xFFFF)) 2 = true ∧
    sR.canRead false (sR.linear [] (.a16Abs 0xFFFF) + 2#32) 4 = true ∧ sL0.cpl = 0 ∧
    sL0.canRead false (sL0.linear [] (.a32Abs 0x600)) 2 = true ∧
    sL0.canRead false (sL0.linear [] (.a32Abs 0x600) + 2#32) 4 = true := by decide +kernel
theorem witness_SgdtAndSidtStore : sL.canWrite false (sL.linear [] (.a32Abs 0xFFFFFFFE)) 2 = true ∧
    sL.canWrite false (sL.linear [] (.a32Abs 0xFFFFFFFE) + 2#32) 4 = true := by decide +kernel
theorem witness_ArplAdjustsRpl : sL.unchecked = false ∧ sL.canRead sL.user (sL.linear [] (.a32Abs 0x700)) 2 = true ∧
    sL.canWrite sL.user (sL.linear [] (.a32Abs 0x700)) 2 = true ∧ selRpl 0x10 < selRpl 0x13 := by decide +kernel
theorem witness_LarReports : sR.unchecked = true ∧ sL.unchecked = false ∧ sL.canReadRm [] (.reg .ebx) = true ∧
    (withAb sL 0 0x38).rm16 [] (.reg .ebx) = 0x38 ∧ isNull 0x38 = false ∧ sL.canLookup 0x38 = true ∧
    sL.lookup 0x38 = some gateL ∧ typeField gateL.hi ∈ [0x1, 0x2, 0x3, 0x4, 0x5, 0x9, 0xB, 0xC] ∧
    (sL.cpl ≤ gateL.dpl ∧ (0x38#16).extractLsb' 0 2 ≤ gateL.dpl) ∧
    sL.lookup 0x4B = some conf0 ∧ conf0.hi.getLsbD 12 = true ∧ conf0.kind.isConforming = true ∧
    -- the forms that report nothing
    isNull 3 = true ∧ sL.lookup 0x50 = none ∧
    ((poke sL 0x103C 0x0000EE02).lookup 0x38).map (fun d => typeField d.hi) = some 0xE ∧
    sL.lookup 8 = some code0 ∧ code0.kind.isConforming = false ∧ code0.dpl < sL.cpl := by decide +kernel
theorem witness_LslReports : (sV 8).unchecked = true ∧ sL0.unchecked = false ∧ sL0.canReadRm [] (.reg .ebx) = true ∧
    (withAb sL0 0 0x30).rm16 [] (.reg .ebx) = 0x30 ∧ sL0.canLookup 0x30 = true ∧ sL0.lookup 0x30 = some tssB ∧
    typeField tssB.hi ∈ [0x1, 0x2, 0x3, 0x9, 0xB] ∧ (sL0.cpl ≤ tssB.dpl ∧ (0x30#16).extractLsb' 0 2 ≤ tssB.dpl) ∧
    sL0.lookup 0x4B = some conf0 ∧ conf0.hi.getLsbD 12 = true ∧ conf0.kind.isConforming = true ∧
    -- the forms that report nothing
    isNull 3 = true ∧ sL0.lookup 0x50 = none ∧ sL0.lookup 0x38 = some gateL ∧ gateL.hi.getLsbD 12 = false ∧
    typeField gateL.hi ∉ [0x1, 0x2, 0x3, 0x9, 0xB] ∧ sL0.lookup 0x13 = some data0 ∧
    data0.dpl < (0x13#16).extractLsb' 0 2 ∧ ¬ data0.dpl < sL0.cpl := by decide +kernel
theorem witness_VerrAndVerwReport : sR.unchecked = true ∧ sL.unchecked = false ∧ sL.canReadRm [] (.reg .ebx) = true ∧
    (withAb sL 0 0x4B).rm16 [] (.reg .ebx) = 0x4B ∧ isNull 3 = true ∧ sL.canLookup 0x4B = true ∧
    sL.lookup 0x4B = some conf0 ∧ conf0.kind = .seg (.code true true) ∧ sL.lookup 0x1B = some code3 ∧
    code3.kind = .seg (.code false true) ∧ (sL.cpl ≤ code3.dpl ∧ (0x1B#16).extractLsb' 0 2 ≤ code3.dpl) ∧ sL.lookup 0x23 = some data3 ∧
    data3.kind = .seg (.data true false) ∧ (sL.cpl ≤ data3.dpl ∧ (0x23#16).extractLsb' 0 2 ≤ data3.dpl) := by decide +kernel
theorem witness_MovCrFollowsItsRules : (withAb sL0 0x80000010 0).gpr.get .eax = 0x80000010#32 ∧
    (0x80000010#32).getLsbD 31 = true ∧ (0x80000010#32).getLsbD 0 = false ∧ (0x80000011#32).getLsbD 0 = true ∧
    (0x10#32).getLsbD 31 = false ∧ (sV 8).vm = true ∧ sL.pe = true ∧ sL.cpl ≠ 0 ∧ sL0.vm = false ∧ sL0.cpl = 0 ∧ sR.vm = false ∧ sR.pe = false := by decide +kernel
theorem witness_MovDrMoves : (sV 8).vm = true ∧ sL.pe = true ∧ sL.cpl ≠ 0 ∧ sL0.vm = false ∧ sL0.cpl = 0 ∧ sR.vm = false ∧ sR.pe = false ∧
    -- a write of DR5 is one of DR7 and leaves DR6, which DR4 names, alone
    (if (5 : BitVec 3) = 4 then 6 else if (5 : BitVec 3) = 5 then 7 else 5) = (7 : BitVec 3) ∧
    (if (4 : BitVec 3) = 4 then 6 else if (4 : BitVec 3) = 5 then 7 else 4) ≠ (7 : BitVec 3) ∧
    (sL0.dr.set 7 1).get 4 = 0xFFFF0FF0 ∧ (sL0.dr.set 7 1).get 5 = 1 := by decide +kernel
theorem witness_CliAndSti : ioPermitted sL.cpl sL.iopl sL.vm = false ∧ ioPermitted sL0.cpl sL0.iopl sL0.vm = true ∧
    ioPermitted (sV 8).cpl (sV 8).iopl (sV 8).vm = true ∧ eflagsWrite sL0.eflags = sL0.eflags := by decide +kernel
theorem witness_PushfPushes : (sV 8).vm = true ∧ (sV 8).iopl = 3 ∧ ({ sV 8 with eflags := 0x00022202 }).vm = true ∧
    ({ sV 8 with eflags := 0x00022202 }).iopl ≠ 3 ∧ sL.vm = false ∧
    sL.canWrite sL.user (sL.stackAddr (sL.gpr.esp - BitVec.ofNat 32 (widthBytes (sL.opSize [])))) (widthBytes (sL.opSize [])) =
      true := by decide +kernel
theorem witness_PopfMerges : sL.vm = false ∧ sL.canPeek 0#32 (widthBytes (sL.opSize [])) = true ∧
    sL.canPeek 0#32 (widthBytes (sL.opSize [.opSize])) = true ∧ ({ sV 8 with eflags := 0x00022202 }).iopl ≠ 3 ∧ sL.cpl ≠ 0 ∧
    sL.iopl < sL.cpl := by decide +kernel
theorem witness_MergeFlagsFollowsTheTable : sL.cpl ≠ 0 ∧ sL.iopl < sL.cpl ∧ sL0.cpl = 0 :=
  by decide +kernel
theorem witness_UncheckedTransfers : sR.unchecked = true ∧ JumpsTo sR (.jmpFarPtr [] 0x7C20 8) 8 0x7C20 (sR.opSize []) ∧
    CallsTo sR (.callFarMem [] (.a16Abs 0x600)) (sR.farPtr [] (.a16Abs 0x600)).2 (sR.farPtr [] (.a16Abs 0x600)).1
      (sR.opSize []) ∧ sR.Quiet ∧ Returns (sV 8) (.retfImm [] 0xFFFF) 0xFFFF ((sV 8).opSize []) ∧ (sV 8).unchecked = true ∧
    (sV 8).Quiet :=
  ⟨by decide +kernel, .ptr _ _ _, .mem _ _ (by decide +kernel), quiet_of_nil rfl rfl, .imm _ _, by decide +kernel, quiet_of_nil rfl rfl⟩
theorem gate0 : GoodGate sL0 0x38 gateL := by constructor <;> decide +kernel
theorem gate3 : GoodGate sL 0x38 gateL := by constructor <;> decide +kernel
theorem target0 : GoodTarget sL0 8 code0 := by constructor <;> decide +kernel
theorem target3 : GoodTarget sL 8 code0 := by constructor <;> decide +kernel
theorem stack0 : GoodStack sL 0x10 0 data0 := by constructor <;> decide +kernel
theorem witness_JumpCompletes : JumpsTo sL0 (.jmpFarPtr [] 0x1000 8) 8 0x1000 (sL0.opSize []) ∧
    JumpsTo sL0 (.jmpFarPtr [] 0 0x38) 0x38 0 (sL0.opSize []) ∧ GoodGate sL0 0x38 gateL ∧
    GoodTarget sL0 gateL.gateSel code0 ∧ sL0.canLookup 0x38 = true ∧ sL0.canLookup gateL.gateSel = true ∧
    code0.dpl = sL0.cpl ∧ gateL.kind = .callGate ∧ sL0.unchecked = false ∧ isNull 8 = false ∧ sL0.canLookup 8 = true ∧
    sL0.lookup 8 = some code0 ∧ mayJump sL0.cpl 8 code0 = true ∧ sL.lookup 8 = some code0 ∧ mayJump sL.cpl 8 code0 = false ∧
    (poke sL0 0x100C 0x00CF1A00).lookup 8 = some { code0 with hi := 0x00CF1A00, present := false } ∧
    mayJump sL.cpl 0x48 conf0 = true ∧
    -- an LDT of one descriptor, and of one byte less
    ({ sL0 with ldtr := { sel := 0, base := 0x1008, limit := 7, valid := true } }).lookup 4 = some code0 ∧
    ({ sL0 with ldtr := { sel := 0, base := 0x1008, limit := 6, valid := true } }).lookup 4 = none :=
  ⟨.ptr _ _ _, .ptr _ _ _, gate0, target0, by decide +kernel⟩
theorem witness_SameLevelCallCompletes : CallsTo sL (.callFarPtr [] 0x3000 0x48) 0x48 0x3000 (sL.opSize []) ∧ sL.Quiet ∧
    CallsTo sL0 (.callFarPtr [] 0 0x38) 0x38 0 (sL0.opSize []) ∧ sL0.Quiet ∧ GoodGate sL0 0x38 gateL ∧
    GoodTarget sL0 gateL.gateSel code0 ∧ code0.dpl = sL0.cpl ∧ sL.unchecked = false ∧ isNull 0x48 = false ∧
    sL.lookup 0x48 = some conf0 ∧ conf0.kind.isCode = true ∧ mayCall sL.cpl 0x48 conf0 = true ∧ conf0.present = true ∧
    conf0.kind.isConforming = true :=
  ⟨.ptr _ _ _, sL_quiet, .ptr _ _ _, sL0_quiet, gate0, target0, by decide +kernel⟩
theorem witness_InterLevelCallCompletes : CallsTo sL (.callFarPtr [] 0x1000 8) 8 0x1000 (sL.opSize []) ∧ sL.Quiet ∧
    CallsTo sL (.callFarPtr [] 0 0x38) 0x38 0 (sL.opSize []) ∧ GoodGate sL 0x38 gateL ∧ GoodTarget sL gateL.gateSel code0 ∧
    GoodStack sL (sL.levelStack code0.dpl).1 code0.dpl data0 ∧ sL.unchecked = false ∧ sL.lookup 8 = some code0 ∧
    code0.kind.isCode = true ∧ mayCall sL.cpl 8 code0 = true ∧ code0.present = true ∧ code0.kind.isConforming = false ∧
    code0.dpl < sL.cpl ∧ sL.hasLevelStack code0.dpl = true :=
  ⟨.ptr _ _ _, sL_quiet, .ptr _ _ _, gate3, target3, by constructor <;> decide +kernel, by decide +kernel⟩
/-- Layout L0 with the stack of vector RT4. -/
def sRet : State := poke (poke (poke (poke sL0 0x9000 0x1000) 0x9004 0x1B) 0x9008 0x8000) 0x900C 0x23
theorem witness_FarReturnFollowsItsRule : Returns sRet (.retf []) 0 (sRet.opSize []) ∧
    Returns sRet (.retfImm [] 0xFFFF) 0xFFFF (sRet.opSize []) ∧ sRet.Quiet ∧ GoodReturn sRet 0x1B code3 ∧
    GoodStack sRet 0x23 (selRpl 0x1B) data3 ∧ GoodReturn (poke sRet 0x9004 8) 8 code0 ∧ sRet.unchecked = false ∧
    low16 (sRet.peek 4#32 4) = 0x1B ∧ sRet.cpl < selRpl 0x1B ∧ low16 (sRet.peek 12#32 4) = 0x23 ∧
    low16 ((poke sRet 0x9004 8).peek 4#32 4) = 8 ∧ selRpl 8 = (poke sRet 0x9004 8).cpl :=
  ⟨.plain _, .imm _ _, quiet_of_nil rfl rfl, by constructor <;> decide +kernel, by constructor <;> decide +kernel,
    by constructor <;> decide +kernel, by decide +kernel⟩
theorem witness_TransferFaults : code0.kind = .seg (.code false true) ∧ conf0.kind = .seg (.code true true) ∧ sL0.unchecked = false ∧ sL0.Quiet ∧ JumpsTo sL0 (.jmpFarPtr [] 0 0) 0 0 (sL0.opSize []) ∧
    CallsTo sL0 (.callFarPtr [] 0 0) 0 0 (sL0.opSize []) ∧
    sL0.transferFault true 0 = some (.gp 0) ∧ sL0.transferFault false 0x50 = some (.gp 0x50) ∧
    sL0.transferFault true 0x10 = some (.gp 0x10) ∧ sL.transferFault true 8 = some (.gp 8) ∧ sL.transferFault false 8 = none ∧
    (poke sL0 0x100C 0x00CF1A00).transferFault true 8 = some (.np 8) ∧ sL.transferFault true 0x3B = some (.gp 8) ∧
    (poke sL 0x103C 0x00008C02).transferFault false 0x38 = some (.gp 0x38) ∧
    (poke sL 0x103C 0x00006C02).transferFault false 0x38 = some (.np 0x38) ∧
    (poke sL 0x1038 0x00002000).transferFault false 0x38 = some (.gp 0) ∧
    (poke sL 0x1038 0x00102000).transferFault false 0x38 = some (.gp 0x10) ∧
    (poke sL 0x1044 0x00006500).transferFault true 0x40 = some (.np 0x40) ∧
    sL.transferFault true 0x30 = some (.gp 0x30) :=
  ⟨rfl, rfl, by decide +kernel, sL0_quiet, .ptr _ _ _, .ptr _ _ _, by decide +kernel⟩
theorem witness_FarReturnFollowsItsRule_faults : code3.kind = .seg (.code false true) ∧ conf0.kind = .seg (.code true true) ∧
    sRet.returnFault 0 = some (.gp 0) ∧ sRet.returnFault 0x50 = some (.gp 0x50) ∧
    sRet.returnFault 0x10 = some (.gp 0x10) ∧ sL.returnFault 8 = some (.gp 8) ∧
    (poke sRet 0x101C 0x00CF7A00).returnFault 0x1B = some (.np 0x18) ∧ sRet.returnFault 0x1B = none ∧
    low16 ((poke sRet 0x900C 0x20).peek 12#32 4) = 0x20 ∧ (poke sRet 0x900C 0x20).newSsFault 0x20 3 .gp = some (.gp 0x20) ∧
    (sRet.invalidateDataSegs 3).seg.ds = .null 0 ∧
    ({ sRet with seg := { sRet.seg with gs := flat 0x48 0 (.code true true) } }.invalidateDataSegs 3).seg.gs.valid = true ∧
    sRet.newSsFault 0 3 .gp = some (.gp 0) ∧ (poke sRet 0x1024 0x00CF7200).newSsFault 0x23 3 .gp = some (.ss 0x20) := by
  decide +kernel
theorem entry80 : GateEntry sL 0x80 .software code0 := by constructor <;> first | decide +kernel | (constructor <;> decide +kernel)
theorem witness_NoStackForTheLevel :
    let s := poke sL 0x3008 0
    let u := poke sL 0x1014 0x00CF1200
    s.Quiet ∧ CallsTo s (.callFarPtr [] 0 8) 8 0 (s.opSize []) ∧ GoodGate s 0x38 gateL ∧ GoodTarget s gateL.gateSel code0 ∧
    Interrupts s (.intImm [] 0x80) s 0x80 .software none (s.nextEip (.intImm [] 0x80)) ∧ GateEntry s 0x80 .software code0 ∧
    s.levelStackFault code0.dpl = some (.ts 0) ∧ u.levelStackFault code0.dpl = some (.ss 0x10) ∧
    ({ sL with tr := { sL.tr with limit := 0x0A } }).levelStackFault 0 = some (.ts 0x28) ∧
    ({ sL with tr := { sL.tr with valid := false } }).levelStackFault 0 = some (.ts 0) ∧
    code0.kind.isConforming = false ∧ code0.dpl < s.cpl ∧ s.unchecked = false ∧ s.lookup 8 = some code0 ∧
    mayCall s.cpl 8 code0 = true ∧ s.vm = false :=
  ⟨quiet_of_nil rfl rfl, .ptr _ _ _, by constructor <;> decide +kernel, by constructor <;> decide +kernel, .int _ _,
    by constructor <;> first | decide +kernel | (constructor <;> decide +kernel), by decide +kernel⟩
theorem witness_RealModeInterrupt :
    Interrupts sR (.intImm [] 0xFF) sR 0xFF .software none (sR.nextEip (.intImm [] 0xFF)) ∧
    Interrupts sR (.hardwareInterrupt 8) sR 8 .hardware none sR.eip ∧ sR.pe = false ∧ sR.Quiet :=
  ⟨.int _ _, .hardware _, by decide +kernel, quiet_of_nil rfl rfl⟩
/-- The fault of `sPend`. -/
def gpPend : PendingFault := { vector := 13, hasError := true, errorCode := 0x10, returnEip := 0x1000 }
theorem entryPend : GateEntry sPend 13 .exception code0 := by constructor <;> first | decide +kernel | (constructor <;> decide +kernel)
theorem witness_SameLevelInterrupt :
    Interrupts sPend .exceptionDelivery { sPend with pendingFault := none } gpPend.vector .exception gpPend.err
      gpPend.returnEip ∧ sPend.Quiet ∧
    GateEntry sPend 13 .exception code0 ∧ sPend.vm = false ∧ code0.dpl = sPend.cpl :=
  ⟨.exception gpPend rfl, quiet_of_nil rfl rfl, entryPend, by decide +kernel, by decide +kernel⟩
theorem witness_InterLevelInterrupt :
    Interrupts sL (.intImm [] 0x80) sL 0x80 .software none (sL.nextEip (.intImm [] 0x80)) ∧ sL.Quiet ∧
    GateEntry sL 0x80 .software code0 ∧ GoodStack sL (sL.levelStack code0.dpl).1 code0.dpl data0 ∧
    -- and from V86 mode
    (sV 8).Quiet ∧ GateEntry (sV 8) 0x21 .software code0 ∧ GoodStack (sV 8) ((sV 8).levelStack code0.dpl).1 code0.dpl data0 ∧
    (sV 8).vm = true ∧ code0.kind.isConforming = false ∧ code0.dpl < sL.cpl ∧ sL.hasLevelStack code0.dpl = true :=
  ⟨.int _ _, sL_quiet, entry80, by constructor <;> decide +kernel, quiet_of_nil rfl rfl,
    by constructor <;> first | decide +kernel | (constructor <;> decide +kernel),
    by constructor <;> decide +kernel, by decide +kernel⟩
theorem witness_InterruptFaults : Interrupts sL (.intImm [] 0x0D) sL 0x0D .software none (sL.nextEip (.intImm [] 0x0D)) ∧ sL.Quiet ∧
    GoodTarget (sV 0x18) ((sV 0x18).idtGate 0x21).gateSel code3 ∧ sL.pe = true ∧
    ({ sV 8 with eflags := 0x00020202 }).idtFault 0x21 .software = some (.gp 0) ∧
    ({ sL with idtr := { sL.idtr with limit := 0x406 } }).idtFault 0x80 .software = some (.gp 0x402) ∧
    sL.idtFault 0x21 .hardware = some (.gp 0x10A) ∧ sL.idtFault 0x0D .software = some (.gp 0x6A) ∧
    sL.idtFault 0x0D .hardware = none ∧ (poke sL 0x1C04 0x6F00).idtFault 0x80 .software = some (.np 0x402) ∧
    sL.idtFault 0x80 .software = none ∧ (sL.idtGate 0x80).kind = .trapGate ∧
    (poke sL 0x1C00 0x5000).gateTargetFault ((poke sL 0x1C00 0x5000).idtGate 0x80).gateSel = some (.gp 0) ∧
    sL.gateTargetFault 0x10 = some (.gp 0x10) ∧ sL0.gateTargetFault 0x18 = some (.gp 0x18) ∧
    (poke sL 0x100C 0x00CF1A00).gateTargetFault 8 = some (.np 8) ∧
    (sV 0x18).vm = true ∧ code3.dpl ≠ 0 ∧
    (sV 0x18).idtFault 0x21 .software = none :=
  ⟨.int _ _, sL_quiet, by constructor <;> decide +kernel, by decide +kernel⟩
/-- IDT[13] of layout L0 a task gate, and no current task. -/
def sNoTask : State := { poke (poke sL0 0x1868 0x00300000) 0x186C 0x8500 with tr := { sL0.tr with valid := false } }
theorem witness_NestedFaultFollowsThePolicy :
    let f : PendingFault := { vector := 6, hasError := false, errorCode := 0, returnEip := 0x1000 }
    let s := { sL with pendingFault := some f }
    (s.pe = true ∧ s.params.nestedFaultPolicy = .redeliver ∧ f.vector ≠ 8) ∧ DeliveryFault s f.vector (.gp 0x32) ∧
    DeliveryFault { s with params := { s.params with nestedFaultPolicy := .doubleFault } } 8 (.gp 0x42) ∧
    DeliveryFault { s with params := { s.params with nestedFaultPolicy := .stop } } f.vector (.gp 0x32) ∧
    -- IDT[6] leads to data; IDT[0x21] leads to level 3 in V86 mode; no stack in the TSS; no task to leave; the Mmu
    DeliveryFault (poke (poke s 0x1830 0x00104000) 0x1834 0x8E00) 6 (.gp 0x10) ∧
    DeliveryFault (sV 0x18) 0x21 (.gp 0x18) ∧ DeliveryFault (poke s 0x3008 0) 13 (.ts 0) ∧ DeliveryFault sNoTask 13 (.ts 0) ∧
    DeliveryFault (answering s [some (.fault { vector := 14, errorCode := 0, addr := 0x1868 })]) 13
      (MmuFault.code { vector := 14, errorCode := 0, addr := 0x1868 }) :=
  ⟨by decide +kernel, .entry _ (quiet_of_nil rfl rfl) (by decide +kernel),
    .entry _ (quiet_of_nil rfl rfl) (by decide +kernel), .entry _ (quiet_of_nil rfl rfl) (by decide +kernel),
    .target _ (quiet_of_nil rfl rfl) (by decide +kernel) (by decide +kernel) (by decide +kernel),
    .v86 code3 (quiet_of_nil rfl rfl)
      (by constructor <;> first | decide +kernel | (constructor <;> decide +kernel)) (by decide +kernel) (by decide +kernel),
    .stack code0 _ (quiet_of_nil rfl rfl)
      (by constructor <;> first | decide +kernel | (constructor <;> decide +kernel)) (by decide +kernel) (by decide +kernel) (by decide +kernel) (by decide +kernel),
    .task _ (quiet_of_nil rfl rfl) (by decide +kernel) (by decide +kernel) (by decide +kernel),
    .mmu { vector := 14, errorCode := 0, addr := 0x1868 } (by decide +kernel) (by decide +kernel)⟩
theorem witness_UncheckedIretAndInto : sR.Quiet ∧ (sV 8).Quiet ∧ sR.ofl = false ∧ sR.unchecked = true ∧ sR.pe = false ∧
    (sV 8).unchecked = true ∧ (sV 8).iopl = 3 ∧ ({ sV 8 with eflags := 0x00020202 }).pe = true ∧
    ({ sV 8 with eflags := 0x00020202 }).iopl ≠ 3 ∧ ({ sV 8 with eflags := 0x00020202 }).unchecked = true :=
  ⟨quiet_of_nil rfl rfl, quiet_of_nil rfl rfl, by decide +kernel⟩
/-- Layout L0 with a frame for IRET to level 3. -/
def sIret : State := poke (poke (poke (poke (poke sL0 0x9000 0x1000) 0x9004 0x1B) 0x9008 0x202) 0x900C 0x8000) 0x9010 0x23
theorem witness_IretCompletes : sIret.Quiet ∧ GoodReturn sIret 0x1B code3 ∧ GoodStack sIret 0x23 (selRpl 0x1B) data3 ∧
    GoodReturn (poke sIret 0x9004 8) 8 code0 ∧ sIret.unchecked = false ∧ sIret.nt = false ∧
    (sIret.peek 8#32 4).getLsbD bitVM = false ∧ low16 (sIret.peek 4#32 4) = 0x1B ∧ sIret.cpl < selRpl 0x1B ∧
    low16 (sIret.peek 16#32 4) = 0x23 ∧ low16 ((poke sIret 0x9004 8).peek 4#32 4) = 8 ∧ selRpl 8 = (poke sIret 0x9004 8).cpl :=
  ⟨quiet_of_nil rfl rfl, by constructor <;> decide +kernel, by constructor <;> decide +kernel,
    by constructor <;> decide +kernel, by decide +kernel⟩
theorem witness_IretFaults : sIret.unchecked = false ∧ sIret.Quiet ∧ sIret.nt = false ∧
    (sIret.peek 8#32 4).getLsbD bitVM = false ∧ low16 ((poke sIret 0x9004 0x10).peek 4#32 4) = 0x10 ∧
    (poke sIret 0x9004 0x10).returnFault 0x10 = some (.gp 0x10) ∧ sIret.returnFault 0x1B = none ∧ selRpl 0x1B ≠ sIret.cpl ∧
    low16 ((poke sIret 0x9010 0x20).peek 16#32 4) = 0x20 ∧ (poke sIret 0x9010 0x20).newSsFault 0x20 3 .gp = some (.gp 0x20) :=
  ⟨by decide +kernel, quiet_of_nil rfl rfl, by decide +kernel⟩
theorem witness_IretToV86Completes : (poke sIret 0x9008 0x00020202).unchecked = false ∧ (poke sIret 0x9008 0x00020202).nt = false ∧
    (poke sIret 0x9008 0x00020202).cpl = 0 ∧ (poke sIret 0x9008 0x00020202).opSize [] = true ∧
    (poke sIret 0x9008 0x00020202).Quiet ∧ ((poke sIret 0x9008 0x00020202).peek 8#32 4).getLsbD bitVM = true :=
  ⟨by decide +kernel, by decide +kernel, by decide +kernel, by decide +kernel, quiet_of_nil rfl rfl, by decide +kernel⟩
/-- Task B of layout L0 running, entered by a CALL from task A. -/
def sTaskB : State :=
  { poke (poke sL0 0x1034 0x00008B00) 0x3100 0x28 with
    eflags := 0x4002
    tr := { sel := 0x30, base := 0x3100, limit := 0x67, valid := true, iomap := 0 } }
theorem names_tss : NamesTask sL0 0x30 0x30 tssB :=
  ⟨by decide +kernel, by decide +kernel, by decide +kernel, .inl (by decide +kernel)⟩
theorem names_task_gate : NamesTask sL0 0x40 0x30 taskL :=
  ⟨by decide +kernel, by decide +kernel, by decide +kernel, .inr (by decide +kernel)⟩
theorem switches_jmp : Switches sL0 (.jmpFarPtr [] 0 0x30) 0x30 .jmp (sL0.nextEip (.jmpFarPtr [] 0 0x30)) :=
  .jmp _ 0x30 _ 0 _ tssB (.ptr _ _ _) (by decide +kernel) names_tss
theorem switches_call : Switches sL0 (.callFarPtr [] 0 0x40) 0x30 .call (sL0.nextEip (.callFarPtr [] 0 0x40)) :=
  .call _ 0x40 _ 0 _ taskL (.ptr _ _ _) (by decide +kernel) names_task_gate
theorem switches_iret :
    Switches sTaskB (.iret []) (low16 (sTaskB.readLin sTaskB.tr.base 2)) .iret (sTaskB.nextEip (.iret [])) :=
  .iret _ (by decide +kernel) (by decide +kernel) (by decide +kernel)
theorem switchTarget (mode : SwitchMode) (h : mode = .jmp ∨ mode = .call ∨ mode = .callInt) : SwitchTarget sL0 0x30 mode tssB := by
  rcases h with rfl | rfl | rfl <;> constructor <;> decide +kernel
theorem switchTarget_iret : SwitchTarget sTaskB (low16 (sTaskB.readLin sTaskB.tr.base 2)) .iret tssA := by
  constructor <;> decide +kernel
theorem witness_TaskSwitchEnters : sL0.Quiet ∧ sL0.pendingFault = none ∧ SwitchTarget sL0 0x30 .jmp tssB ∧
    Switches sL0 (.jmpFarPtr [] 0 0x30) 0x30 .jmp (sL0.nextEip (.jmpFarPtr [] 0 0x30)) ∧
    Switches sL0 (.callFarPtr [] 0 0x40) 0x30 .call (sL0.nextEip (.callFarPtr [] 0 0x40)) ∧ sTaskB.Quiet ∧
    Switches sTaskB (.iret []) (low16 (sTaskB.readLin sTaskB.tr.base 2)) .iret (sTaskB.nextEip (.iret [])) :=
  ⟨sL0_quiet, rfl, switchTarget _ (.inl rfl), switches_jmp, switches_call, quiet_of_nil rfl rfl, switches_iret⟩
theorem witness_TaskSegmentsLoad :
    ∃ t, TaskLoads (sL0.switchedTo 0x30 tssB .jmp (sL0.nextEip (.jmpFarPtr [] 0 0x30))) (sL0.tssImage tssB.base) t := by
  refine ⟨_, .prot _ (State.installSeg (State.installSeg (State.installCs (sL0.switchedTo 0x30 tssB .jmp
    (sL0.nextEip (.jmpFarPtr [] 0 0x30))) 8 code0 0) .ss 0x10 data0) .ds 0x10 data0) _ _ _ code0 data0
    (.null ?_) ?_ ?_ ?_ ?_ ?_ ?_ (by constructor <;> decide +kernel) ?_ (by apply SegLoads.data (d := data0) <;> decide +kernel)
    (by apply SegLoads.data (d := data0) <;> decide +kernel) (by apply SegLoads.data (d := data0) <;> decide +kernel)⟩
  case refine_8 =>
    rw [show (sL0.tssImage tssB.base).cs = 8 by decide +kernel, show (sL0.tssImage tssB.base).ss = 0x10 by decide +kernel,
      show (sL0.tssImage tssB.base).ds = 0x10 by decide +kernel, show selRpl 8 = 0 by decide]
    apply SegLoads.data (d := data0) <;> decide +kernel
  all_goals decide +kernel
/-- Layout L0 with one field of TSS B another value. -/
def sBad (off v : Word) : State := poke sL0 (0x3100#32 + off) v
/-- `sBad off v` after the commit of its jump to TSS B. -/
def uBad (off v : Word) : State := (sBad off v).switchedTo 0x30 tssB .jmp ((sBad off v).nextEip (.jmpFarPtr [] 0 0x30))
/-- The jump of `sBad off v` is a switch, and a load of the new task fails with `f`, these registers left unloaded. -/
def FailsAt (off v : Word) (f : FaultCode) (left : List SegName) : Prop :=
  (sBad off v).Quiet ∧ SwitchTarget (sBad off v) 0x30 .jmp tssB ∧
  Switches (sBad off v) (.jmpFarPtr [] 0 0x30) 0x30 .jmp ((sBad off v).nextEip (.jmpFarPtr [] 0 0x30)) ∧
  ∃ u, TaskLoadFails (uBad off v) ((sBad off v).tssImage tssB.base) f u left
theorem fails_at {off v : Word} {f : FaultCode} {left : List SegName} {u : State}
    (ht : SwitchTarget (sBad off v) 0x30 .jmp tssB)
    (hs : gateOk (sBad off v).cpl 0x30 tssB = true ∧ (sBad off v).unchecked = false)
    (h : TaskLoadFails (uBad off v) ((sBad off v).tssImage tssB.base) f u left) : FailsAt off v f left :=
  ⟨quiet_of_nil rfl rfl, ht, .jmp _ 0x30 _ 0 _ tssB (.ptr _ _ _) hs.2 ⟨by decide, ht.found, hs.1, .inl ⟨rfl, rfl⟩⟩, u, h⟩
theorem witness_TaskSegmentsLoad_fails : FailsAt 0x60 0x10 (.ts 0x10) [.cs, .ss, .ds, .es, .fs, .gs] ∧
    FailsAt 0x4C 0x10 (.ts 0x10) [.cs, .ss, .ds, .es, .fs, .gs] ∧ FailsAt 0x50 0x23 (.ts 0x20) [.ss, .ds, .es, .fs, .gs] ∧
    FailsAt 0x48 0x28 (.ts 0x28) [.es, .fs, .gs] := by
  refine ⟨fails_at ?_ ?_ (.ldt _ ?_), fails_at ?_ ?_ (.cs _ _ (.null ?_) ?_ ?_),
    fails_at ?_ ?_ (.ss _ _ _ (.null ?_) ?_ (.code code0 ?_ ?_ ?_) ?_),
    fails_at ?_ ?_ (.data _ _ _ data0 _ [(.ds, _)] _ .es _ (.null ?_) ?_ (.code code0 ?_ ?_ ?_) ?_ rfl
      (.cons _ _ _ _ _ _ (by apply SegLoads.data (d := data0) <;> decide +kernel) (.nil _)) ?_)⟩ <;>
    first | decide +kernel | (constructor <;> decide +kernel)
theorem witness_SwitchFaults : sL0.Quiet ∧
    Switches sL0 (.callFarPtr [] 0 0x40) 0x30 .call (sL0.nextEip (.callFarPtr [] 0 0x40)) ∧
    sL0.switchFault 0x34 .call = some (.gp 0x34) ∧ sL0.switchFault 0x50 .call = some (.gp 0x50) ∧
    sL0.switchFault 0x10 .iret = some (.ts 0x10) ∧ sL0.switchFault 0x28 .jmp = some (.gp 0x28) ∧
    sL0.switchFault 0x30 .iret = some (.ts 0x30) ∧ (poke sL0 0x1034 0x00000900).switchFault 0x30 .jmp = some (.np 0x30) ∧
    (poke sL0 0x1030 0x31000066).switchFault 0x30 .jmp = some (.ts 0x30) ∧ sL0.switchFault 0x30 .jmp = none ∧
    ({ sL0 with tr := { sL0.tr with valid := false } }).switchFault 0x30 .jmp = some (.ts 0) ∧
    ({ sL0 with tr := { sL0.tr with limit := 0x66 } }).switchFault 0x30 .jmp = some (.ts 0x28) ∧
    ({ sTaskB with tr := { sTaskB.tr with valid := false } }).unchecked = false ∧ sTaskB.nt = true ∧
    -- and through a task gate of the IDT
    (let u := { poke (poke sL0 0x1868 0x00300000) 0x186C 0x8500 with tr := { sL0.tr with valid := false } }
     u.pe = true ∧ u.idtFault 13 .hardware = none ∧ (u.idtGate 13).kind = .taskGate ∧
      u.switchFault (u.idtGate 13).gateSel .callInt = some (.ts 0)) :=
  ⟨sL0_quiet, switches_call, by decide +kernel⟩
/-- The pending #GP with IDT[13] a task gate (vector T8). -/
def sTaskGate : State := { poke (poke sL0 0x1868 0x00300000) 0x186C 0x8500 with pendingFault := sPend.pendingFault }
theorem witness_TaskGateInterrupt :
    Interrupts sTaskGate .exceptionDelivery { sTaskGate with pendingFault := none } gpPend.vector .exception gpPend.err
      gpPend.returnEip ∧
    sTaskGate.SystemQuiet ∧ SwitchTarget sTaskGate (sTaskGate.idtGate 13).gateSel .callInt tssB ∧
    (sTaskGate.pe = true ∧ sTaskGate.hasIdtGate 13 = true ∧ (sTaskGate.idtGate 13).kind = .taskGate ∧
      (sTaskGate.idtGate 13).present = true) ∧
    -- its CS a data segment
    (let s := { poke sTaskGate 0x314C 0x10 with pendingFault := none }
     SwitchTarget s 0x30 .callInt tssB ∧ ∃ u,
      TaskLoadFails (s.switchedTo 0x30 tssB .callInt gpPend.returnEip) (s.tssImage tssB.base) (.ts 0x10) u
        [.cs, .ss, .ds, .es, .fs, .gs]) := by
  refine ⟨.exception gpPend rfl, ⟨nofun, rfl⟩, ?_, ?_, ?_, _, .cs _ _ (.null ?_) ?_ ?_⟩ <;>
    first | decide +kernel | (constructor <;> decide +kernel)
/-- The same, the new task at level 3 with its data segments null, and the `Mmu` refusing the push of the error code. -/
def sTaskPush : State :=
  refusing (poke (poke (poke (poke (poke (poke sTaskGate 0x314C 0x1B) 0x3150 0x23) 0x3148 0) 0x3154 0) 0x3158 0) 0x315C 0)
    { addr := 0xAFFC, size := 4, write := true, user := true } { vector := 14, errorCode := 7, addr := 0xAFFC }
theorem sTaskPush_systemQuiet : sTaskPush.SystemQuiet := by
  refine ⟨fun v hv x hx => ?_, rfl⟩
  simp only [sTaskPush, refusing, List.mem_singleton] at hv
  simp only [hv, List.mem_singleton] at hx
  simp [hx]
theorem witness_TaskGateInterrupt_push : SwitchTarget sTaskPush (sTaskPush.idtGate 13).gateSel .callInt tssB ∧
    (let s := { sTaskPush with pendingFault := none }
     ∃ u, TaskLoads (s.switchedTo 0x30 tssB .callInt gpPend.returnEip) (s.tssImage tssB.base) u) ∧
    nextWith (exec .exceptionDelivery sTaskPush) (fun t => t.tr.sel == 0x30 && t.cpl == 3 && t.cr2 == 0xAFFC &&
      t.pendingFault == some { vector := 14, hasError := true, errorCode := 7, returnEip := 0x6000 } &&
      t.gpr.esp == 0xB000) = true := by
  refine ⟨by constructor <;> decide +kernel, ⟨_, .prot _ _ _ _ _ code3 data3 (.null ?_) ?_ ?_ ?_ ?_ ?_ ?_
    (by constructor <;> decide +kernel) (by apply SegLoads.null <;> decide +kernel) (by apply SegLoads.null <;> decide +kernel)
    (by apply SegLoads.null <;> decide +kernel) (by apply SegLoads.null <;> decide +kernel)⟩, ?_⟩ <;> decide +kernel
theorem witness_BusyBitsAndBackLink : SwitchTarget sL0 0x30 .call tssB ∧
    Switches sL0 (.callFarPtr [] 0 0x40) 0x30 .call (sL0.nextEip (.callFarPtr [] 0 0x40)) ∧ (sL0.mmu.views = [] ∧ sL0.mmu.answers = []) ∧
    sL0.busyAddr sL0.tr.sel ≠ sL0.busyAddr 0x30 ∧
    (∀ k, k < 64 → sL0.busyAddr sL0.tr.sel ≠ sL0.tr.base + 0x20#32 + BitVec.ofNat 32 k ∧
      sL0.busyAddr 0x30 ≠ sL0.tr.base + 0x20#32 + BitVec.ofNat 32 k) ∧
    (∀ j, j < 2 → ∀ k, k < 64 → tssB.base + BitVec.ofNat 32 j ≠ sL0.tr.base + 0x20#32 + BitVec.ofNat 32 k) ∧
    (∀ j, j < 2 → sL0.busyAddr sL0.tr.sel ≠ tssB.base + BitVec.ofNat 32 j ∧
      sL0.busyAddr 0x30 ≠ tssB.base + BitVec.ofNat 32 j) ∧ Memory.wf sL0.mem = true :=
  ⟨switchTarget _ (.inr (.inl rfl)), switches_call, ⟨rfl, rfl⟩, by decide +kernel⟩
end Sys2Proof.Tests
end

section
/-! SUPPORT. Segment loads and descriptor-table instructions (41_segment_loading.md): what a segment load that fails raises, what
the gates, LLDT, LTR, the table registers and the selector inspections do, and the statements about them settled. -/

namespace Sys2Proof.Machine

variable {α : Type}

/-! ### Running an operation from its start -/

/-- A piece that leaves the operation as it began passes its answer on. -/
theorem State.run_bind_ok {s : State} {x : Op α} {k : α → Op Unit} {a : α} (h : x (Ctx.start s) = .ok a (Ctx.start s)) :
    s.run (x >>= k) = s.run (k a) := by
  simp [State.run, h]

/-- A piece that raises before anything is committed ends the operation with its fault (60_exceptions.md R303). -/
theorem State.run_bind_raise {s : State} {x : Op α} {k : α → Op Unit} {f : FaultCode}
    (h : x (Ctx.start s) = .error (.raise f) (Ctx.start s)) : s.run (x >>= k) = .next (s.takeFault f) := by
  simp [State.run, h]

/-- An operation that ends with its register writes, memory left alone (10_state.md R24). -/
theorem State.run_bind_advance {s : State} (t : State) {x : Op Unit} {next : Word}
    (h : x (Ctx.start s) = .ok () { Ctx.start s with work := t }) (hm : t.mem = s.mem) :
    s.run (x >>= fun _ => advance next) = .next { t with eip := next } := by
  simp only [State.run, bind_apply, h, advance_apply, finish_ok]
  rw [commit_of_no_writes _ rfl hm]

/-- The same of one register write. -/
theorem State.run_modifyWork_advance {s : State} {f : State → State} {next : Word} (hm : (f s).mem = s.mem) :
    s.run (modifyWork f >>= fun _ => advance next) = .next { f s with eip := next } :=
  State.run_bind_advance (f s) rfl hm

/-! ### The gates (41_segment_loading.md R156, R157) -/

theorem State.run_modeGate_raise {s : State} {k : Unit → Op Unit} (h : s.unchecked = true) :
    s.run (modeGate >>= k) = .next (s.takeFault .ud) :=
  State.run_bind_raise (by simp [modeGate, h])

theorem State.run_modeGate_pass {s : State} {k : Unit → Op Unit} (h : s.unchecked = false) :
    s.run (modeGate >>= k) = s.run (k ()) :=
  State.run_bind_ok (by simp [modeGate, h])

theorem State.run_privGate_raise {s : State} {k : Unit → Op Unit} (hpe : s.pe = true) (hcpl : s.cpl ≠ 0) :
    s.run (privGate >>= k) = .next (s.takeFault s.privFault) := by
  have outside : (s.pe && s.cpl != 0) = true := by simp only [hpe, bne_iff_ne.2 hcpl, Bool.true_and]
  exact State.run_bind_raise (by
    simp only [privGate, bind_apply, work_apply, start_work, raiseIf_of outside, raiseFault_apply])

theorem State.run_privGate_pass {s : State} {k : Unit → Op Unit} (h : s.pe = false ∨ s.cpl = 0) :
    s.run (privGate >>= k) = s.run (k ()) :=
  State.run_bind_ok (by rcases h with h | h <;> simp [privGate, h])

/-- The gates of LLDT and LTR outside level 0 of protected mode. -/
theorem State.run_bothGates_raise {s : State} {k : Unit → Op Unit} (hu : s.unchecked = false) (hcpl : s.cpl ≠ 0) :
    s.run (modeGate >>= fun _ => privGate >>= k) = .next (s.takeFault s.privFault) :=
  (State.run_modeGate_pass hu).trans (State.run_privGate_raise (State.prot_of_checked hu).1 hcpl)

theorem State.run_bothGates_pass {s : State} {k : Unit → Op Unit} (hu : s.unchecked = false) (h0 : s.cpl = 0) :
    s.run (modeGate >>= fun _ => privGate >>= k) = s.run (k ()) :=
  (State.run_modeGate_pass hu).trans (State.run_privGate_pass (.inr h0))

theorem State.run_crGate_raise {s : State} {k : Unit → Op Unit} (hpe : s.pe = true) (hcpl : s.cpl ≠ 0) :
    s.run (crGate >>= k) = .next (s.takeFault s.privFault) := by
  have outside : (s.vm || (s.pe && s.cpl != 0)) = true := by
    simp only [hpe, bne_iff_ne.2 hcpl, Bool.and_true, Bool.or_true]
  exact State.run_bind_raise (by
    simp only [crGate, bind_apply, work_apply, start_work, raiseIf_of outside, raiseFault_apply])

/-- The check for a control register that does not exist passes for those that do (45_system_registers.md R270). -/
theorem State.run_noSuchCr_pass {s : State} {k : Unit → Op Unit} {n : BitVec 3} (h : n = 0 ∨ n = 2 ∨ n = 3 ∨ n = 4) :
    s.run (raiseIf (noSuchCr n) .ud >>= k) = s.run (k ()) :=
  State.run_bind_ok (by rcases h with h | h | h | h <;> subst h <;> rfl)

theorem State.run_readRm16 {s : State} {p : List Pfx} {x : RmOp} {k : BitVec 16 → Op Unit} (h : s.canReadRm p x = true) :
    s.run (readRm16 p x >>= k) = s.run (k (s.rm16 p x)) :=
  State.run_bind_ok (readRm16_fresh (fresh_start s) p x h)

/-- Settles O24: the mode gate is the first piece of each of the seven. -/
theorem protectedModeOnlyInstructions : Obligations.ProtectedModeOnlyInstructions := by
  intro s p x r h
  have ud {k : Unit → Op Unit} : s.run (modeGate >>= k) = .next (s.takeFault .ud) := State.run_modeGate_raise h
  exact ⟨ud, ud, ud, ud, ud, ud, ud⟩

/-- Settles O25: the privilege gate comes first, or after the mode gate or the check of a control register's number. -/
theorem privilegeGate : Obligations.PrivilegeGate := by
  intro s p x m n r hpe hcpl
  have priv {k : Unit → Op Unit} : s.run (privGate >>= k) = .next (s.takeFault s.privFault) :=
    State.run_privGate_raise hpe hcpl
  have cr {k : Unit → Op Unit} : s.run (crGate >>= k) = .next (s.takeFault s.privFault) :=
    State.run_crGate_raise hpe hcpl
  refine ⟨rfl, fun hv => ?_, priv, priv, cr, cr, fun hn => ?_⟩
  · have mode := State.checked_of_prot hpe hv
    exact ⟨State.run_bothGates_raise mode hcpl, State.run_bothGates_raise mode hcpl⟩
  · exact ⟨(State.run_noSuchCr_pass hn).trans cr, (State.run_noSuchCr_pass hn).trans cr⟩

/-! ### Loading a segment register (41_segment_loading.md R152 to R154) -/

/-- Every segment-loading form, its operand read, begins with the load itself (R152). -/
theorem LoadsSeg.exec_eq_run {s : State} {i : Instr} {n : SegName} {sel : Sel} (h : LoadsSeg s i n sel) :
    ∃ k : Unit → Op Unit, exec i s = s.run (loadSegBody n sel >>= k) := by
  have fresh := fresh_start s
  cases h with
  | movEs p x h | movSs p x h | movDs p x h | movFs p x h | movGs p x h =>
    exact ⟨_, State.run_bind_ok (readRm16_fresh fresh p x h)⟩
  | popEs p h | popSs p h | popDs p h | popFs p h | popGs p h =>
    exact ⟨_, State.run_bind_ok (peekStack_fresh fresh 0#32 _ h)⟩
  | les p r m h | lds p r m h | lss p r m h | lfs p r m h | lgs p r m h =>
    exact ⟨_, (State.run_bind_ok (readFarPtr_fresh fresh p m h)).trans
      (congrArg s.run (bind_assoc (loadSegBody _ _) _ _))⟩

/-- `LoadSSProt` raises the first check of R153 that fails. -/
theorem loadSsProt_fault {s : State} {sel : Sel} {f : FaultCode} (hm : s.canLookup sel = true)
    (h : s.segFault .ss sel = some f) : loadSsProt sel (Ctx.start s) = .error (.raise f) (Ctx.start s) := by
  have fresh := fresh_start s
  simp only [State.segFault, if_true] at h
  split at h
  next hnull => cases h; simp [loadSsProt, hnull]
  next hnull =>
    cases hd : s.lookup sel with
    | none => rw [hd] at h; cases h; simp [loadSsProt, hnull, requireDesc_none fresh sel _ hm hd]
    | some d =>
      have found := requireDesc_some fresh sel (.gp (errSel sel)) d hm hd
      simp only [hd] at h
      split_ifs at h with hrpl hkind hdpl hp <;> cases h
      · simp [loadSsProt, hnull, found, hrpl]
      · simp [loadSsProt, hnull, found, not_not.1 hrpl, hkind]
      · simp [loadSsProt, hnull, found, not_not.1 hrpl, hkind, hdpl]
      · simp [loadSsProt, hnull, found, not_not.1 hrpl, hkind, not_not.1 hdpl, hp]

/-- `LoadDataSegProt` raises the first check of R154 that fails. -/
theorem loadDataSegProt_fault {s : State} {n : SegName} {sel : Sel} {f : FaultCode} (hn : n ≠ .ss)
    (hm : s.canLookup sel = true) (h : s.segFault n sel = some f) :
    loadDataSegProt .gp n sel (Ctx.start s) = .error (.raise f) (Ctx.start s) := by
  have fresh := fresh_start s
  simp only [State.segFault, hn, if_false] at h
  split at h
  next hnull => cases h
  next hnull =>
    cases hd : s.lookup sel with
    | none => rw [hd] at h; cases h; simp [loadDataSegProt, hnull, requireDesc_none fresh sel _ hm hd]
    | some d =>
      have found := requireDesc_some fresh sel (.gp (errSel sel)) d hm hd
      simp only [hd] at h
      split_ifs at h with hkind hpriv hp <;> cases h
      · simp [loadDataSegProt, hnull, found, hkind]
      · simp [loadDataSegProt, hnull, found, hkind, hpriv]
      · simp [loadDataSegProt, hnull, found, hkind, hpriv, hp]

/-- The load raises the first check that fails, with nothing committed. -/
theorem loadSegBody_fault {s : State} {n : SegName} {sel : Sel} {f : FaultCode} (hu : s.unchecked = false)
    (hm : s.canLookup sel = true) (h : s.segFault n sel = some f) :
    loadSegBody n sel (Ctx.start s) = .error (.raise f) (Ctx.start s) := by
  by_cases hn : n = .ss
  · subst hn
    simpa [loadSegBody, hu] using loadSsProt_fault hm h
  · simpa [loadSegBody, hu, hn] using loadDataSegProt_fault hn hm h

/-- A load that fails no check succeeds. -/
theorem segLoads_of_segFault_none {s : State} {n : SegName} {sel : Sel} (hu : s.unchecked = false)
    (hm : s.canLookup sel = true) (h : s.segFault n sel = none) : ∃ t, SegLoads s n sel t := by
  cases hnull : isNull sel with
  | true =>
    have hn : n ≠ .ss := by rintro rfl; simp [State.segFault, hnull] at h
    exact ⟨_, .null n sel hu hn hnull⟩
  | false =>
    cases hd : s.lookup sel with
    | none => simp [State.segFault, hnull, hd] at h
    | some d =>
      by_cases hn : n = .ss
      · subst hn
        simp only [State.segFault, hnull, hd, if_true, Bool.false_eq_true, if_false] at h
        split_ifs at h with hrpl hkind hdpl hp
        exact ⟨_, .stack sel d hu hnull hm hd (not_not.1 hrpl) (by simpa using hkind) (not_not.1 hdpl)
          (by simpa using hp)⟩
      · simp only [State.segFault, hn, hnull, hd, Bool.false_eq_true, if_false] at h
        split_ifs at h with hkind hpriv hp
        exact ⟨_, .data n sel d hu hn hnull hm hd (by simpa using hkind) (by simpa using hpriv) (by simpa using hp)⟩

/-- The privilege check of DS, ES, FS and GS, in CPL, RPL and DPL (40_privilege_checks.md R128). -/
theorem mayLoadDataSegment_iff {cpl : Level} {sel : Sel} {d : Desc} : mayLoadDataSegment cpl sel d = true ↔
    d.kind = .seg (.code true true) ∨
      (((∃ w e, d.kind = .seg (.data w e)) ∨ d.kind = .seg (.code false true)) ∧ cpl ≤ d.dpl ∧
        sel.extractLsb' 0 2 ≤ d.dpl) := by
  unfold mayLoadDataSegment
  split <;> rename_i hk <;> simp [hk, levelMax_le, selRpl]

/-- Settles O23: the load stands first in every form once the operand is read, and its checks fail as `segFault` lists them. -/
theorem segmentLoadFaults : Obligations.SegmentLoadFaults := by
  refine ⟨fun _ _ _ => mayLoadDataSegment_iff, fun i s n sel hi hu hm => ⟨fun f hf => ?_, ?_⟩⟩
  · obtain ⟨k, hk⟩ := hi.exec_eq_run
    exact hk.trans (State.run_bind_raise (loadSegBody_fault hu hm hf))
  · exact segLoads_of_segFault_none hu hm

/-! ### LLDT and LTR (41_segment_loading.md R160, R161) -/

/-- LLDT at level 0 of protected mode, its operand read. -/
theorem exec_lldt {s : State} {p : List Pfx} {x : RmOp} (hu : s.unchecked = false) (h0 : s.cpl = 0)
    (hr : s.canReadRm p x = true) :
    exec (.lldt p x) s = s.run (lldtOp (s.rm16 p x) >>= fun _ => advance (s.nextEip (.lldt p x))) :=
  (State.run_bothGates_pass hu h0).trans (State.run_readRm16 hr)

/-- LTR at level 0 of protected mode, its operand read. -/
theorem exec_ltr {s : State} {p : List Pfx} {x : RmOp} (hu : s.unchecked = false) (h0 : s.cpl = 0)
    (hr : s.canReadRm p x = true) :
    exec (.ltr p x) s = s.run (ltrOp (s.rm16 p x) >>= fun _ => advance (s.nextEip (.ltr p x))) :=
  (State.run_bothGates_pass hu h0).trans (State.run_readRm16 hr)

/-- Settles O26: past the gates, the branches of R160 one by one. -/
theorem lldtFollowsItsRule : Obligations.LldtFollowsItsRule := by
  intro s p x sel
  refine ⟨State.run_modeGate_raise, State.run_bothGates_raise, fun hu h0 hr hsel => ?_⟩
  rw [exec_lldt hu h0 hr, hsel]
  have fresh := fresh_start s
  refine ⟨fun hnull => ?_, fun hnull hti => ?_, fun hnull hti hm => ⟨fun hd => ?_, fun d hd hk => ?_,
    fun d hd hk hp => ?_, fun d hd hk hp => ?_⟩⟩
  · exact State.run_bind_advance { s with ldtr := { sel := sel, base := 0, limit := 0, valid := false } }
      (by simp [lldtOp, hnull]) rfl
  · exact State.run_bind_raise (by simp [lldtOp, hnull, hti])
  · exact State.run_bind_raise (by simp [lldtOp, hnull, hti, requireDesc_none fresh sel _ hm hd])
  · exact State.run_bind_raise (by simp [lldtOp, hnull, hti, requireDesc_some fresh sel _ d hm hd, hk])
  · exact State.run_bind_raise (by simp [lldtOp, hnull, hti, requireDesc_some fresh sel _ d hm hd, hk, hp])
  · exact State.run_bind_advance { s with ldtr := { sel := sel, base := d.base, limit := d.limit, valid := true } }
      (by simp [lldtOp, hnull, hti, requireDesc_some fresh sel _ d hm hd, hk, hp]) rfl

/-- The I/O-map base LTR reads, when the `Mmu` answers `Ok` (R161). -/
theorem readIomap_fresh {s : State} (hq : s.Quiet) (d : Desc) : readIomap d (Ctx.start s) =
    .ok (if 0x67 ≤ d.limit.toNat then low16 (s.readLin (d.base + 0x66#32) 2) else 0) (Ctx.start s) := by
  unfold readIomap
  split
  · exact memRead16_fresh (fresh_start s) _ (hq.canRead _ _ _)
  · rfl

/-- `SetBusy` before any other write plans the access byte with the Busy bit set (40_privilege_checks.md R126). -/
theorem setBusy_start {s : State} (hq : s.Quiet) (sel : Sel) : setBusy sel true (Ctx.start s) = .ok ()
    { Ctx.start s with
      plan := (bytesLe (s.busyAddr sel) 1 (s.readLin (s.busyAddr sel) 1 ||| 2#32)).reverse ++ (Ctx.start s).plan } := by
  simp [setBusy, memRead_fresh (fresh_start s) _ _ _ (hq.canRead _ _ _), memWrite_ok (Ctx.start s) hq.answers _ _ _ _
    (hq.canWrite _ _ _), busyByte_true]

/-- An `Mmu` that refuses nothing lets an r/m16 operand be read. -/
theorem State.Quiet.canReadRm {s : State} (hq : s.Quiet) (p : List Pfx) (x : RmOp) : s.canReadRm p x = true := by
  cases x with
  | reg r => rfl
  | mem m => exact hq.canRead _ _ _

/-- Settles O27: past the gates, the branches of R161 one by one. -/
theorem ltrFollowsItsRule : Obligations.LtrFollowsItsRule := by
  intro s p x sel
  refine ⟨State.run_modeGate_raise, State.run_bothGates_raise, fun hu h0 hq hsel => ?_⟩
  rw [exec_ltr hu h0 (hq.canReadRm p x), hsel]
  have fresh := fresh_start s
  have hm := hq.canLookup sel
  refine ⟨fun hnull => ?_, fun hnull => ⟨fun hti => ?_, fun hti => ⟨fun hd => ?_, fun d hd => ?_⟩⟩⟩
  · exact State.run_bind_raise (by simp [ltrOp, hnull])
  · exact State.run_bind_raise (by simp [ltrOp, hnull, hti])
  · exact State.run_bind_raise (by simp [ltrOp, hnull, hti, requireDesc_none fresh sel _ hm hd])
  have found := requireDesc_some fresh sel (.gp (errSel sel)) d hm hd
  refine ⟨fun hk => ?_, fun h286 hk => ?_, fun hk hp => ?_, fun hk hp => ?_⟩
  · simp [State.run, ltrOp, hnull, hti, found, hk]
  · exact State.run_bind_raise (by simp [ltrOp, hnull, hti, found, h286, hk])
  · exact State.run_bind_raise (by simp [ltrOp, hnull, hti, found, hk, hp])
  · simp [State.run, ltrOp, hnull, hti, found, hk, hp, readIomap_fresh hq d, setBusy_start hq sel, Ctx.commit,
      State.writeLin]

/-! ### GDTR and IDTR (41_segment_loading.md R162 to R165) -/

theorem readPseudo_fresh {s : State} {a : Word} {wide : Bool} (hl : s.canRead false a 2 = true)
    (hb : s.canRead false (a + 2#32) 4 = true) : readPseudo a wide (Ctx.start s) = .ok (s.pseudo a wide) (Ctx.start s) := by
  simp [readPseudo, State.pseudo, memRead_fresh (fresh_start s) _ _ _ hl, memRead_fresh (fresh_start s) _ _ _ hb]

/-- Settles O28: the gate, the pseudo-descriptor read whole, then the one register written. -/
theorem lgdtAndLidtLoad : Obligations.LgdtAndLidtLoad := by
  intro s p m
  refine ⟨fun hpe hcpl => ⟨State.run_privGate_raise hpe hcpl, State.run_privGate_raise hpe hcpl⟩, fun hgate hl hb => ?_⟩
  have read {k : TableReg → Op Unit} : s.run (readPseudo (s.linear p m) (s.opSize p) >>= k) =
    s.run (k (s.pseudo (s.linear p m) (s.opSize p))) := State.run_bind_ok (readPseudo_fresh hl hb)
  exact ⟨(State.run_privGate_pass hgate).trans (read.trans (State.run_modifyWork_advance rfl)),
    (State.run_privGate_pass hgate).trans (read.trans (State.run_modifyWork_advance rfl))⟩

/-- SGDT and SIDT write the limit, then the base, in any mode (R164, R165). -/
theorem run_storePseudo {s : State} {a : Word} {t : TableReg} {next : Word} (hl : s.canWrite false a 2 = true)
    (hb : s.canWrite false (a + 2#32) 4 = true) : s.run (storePseudo a t >>= fun _ => advance next) =
      .next { ((s.writeLin a 2 (t.limit.setWidth 32)).writeLin (a + 2#32) 4 t.base) with eip := next } := by
  have ha := (State.canWrite_iff.1 hl).1
  have limit := memWrite_ok (Ctx.start s) ha false a 2 (t.limit.setWidth 32) hl
  have base := memWrite_ok { Ctx.start s with plan := (bytesLe a 2 (t.limit.setWidth 32)).reverse ++ (Ctx.start s).plan }
    ha false (a + 2#32) 4 t.base hb
  simp only [State.run, storePseudo, bind_apply, limit, base, advance_apply, finish_ok]
  simp [Ctx.commit, State.writeLin, applyPlan_append]

/-- Settles O29: both forms are one store of a pseudo-descriptor, with no gate before it. -/
theorem sgdtAndSidtStore : Obligations.SgdtAndSidtStore :=
  fun _ _ _ hl hb => ⟨run_storePseudo hl hb, run_storePseudo hl hb⟩

/-! ### Selector inspection (41_segment_loading.md R167 to R170) -/

/-- An inspection reads no more than the lookup of a selector that is not null. -/
theorem inspect_fresh {s : State} {sel : Sel} {ok : Desc → Level → Bool} (hm : isNull sel = true ∨ s.canLookup sel = true) :
    inspect sel ok (Ctx.start s) = .ok (s.inspected sel ok) (Ctx.start s) := by
  cases hnull : isNull sel with
  | true => simp [inspect, State.inspected, hnull]
  | false =>
    have hm : s.canLookup sel = true := by simpa [hnull] using hm
    simp [inspect, State.inspected, hnull, lookupDesc_fresh (fresh_start s) sel hm]

/-- What an inspection finds: the descriptor a selector that is not null names, if accepted. -/
theorem State.inspected_eq_some {s : State} {sel : Sel} {ok : Desc → Level → Bool} {d : Desc} :
    s.inspected sel ok = some d ↔ isNull sel = false ∧ s.lookup sel = some d ∧ ok d s.cpl = true := by
  unfold State.inspected
  split <;> simp_all [Option.filter_eq_some_iff]

theorem State.inspected_isSome {s : State} {sel : Sel} {ok : Desc → Level → Bool} :
    (s.inspected sel ok).isSome = true ↔ isNull sel = false ∧ ∃ d, s.lookup sel = some d ∧ ok d s.cpl = true := by
  simp only [Option.isSome_iff_exists, State.inspected_eq_some, exists_and_left]

/-- An inspection finds nothing where no descriptor is named or the one named is not accepted. -/
theorem State.inspected_eq_none_of {s : State} {sel : Sel} {ok : Desc → Level → Bool}
    (h : isNull sel = true ∨ s.lookup sel = none ∨ ∃ d, s.lookup sel = some d ∧ ok d s.cpl = false) :
    s.inspected sel ok = none := by
  rcases h with h | h | ⟨d, hd, h⟩ <;> simp_all [State.inspected]

/-- The shape the four inspections share: the mode gate, the operand, the lookup, then one write of the registers. -/
def inspection (p : List Pfx) (x : RmOp) (ok : Sel → Desc → Level → Bool) (f : Option Desc → State → State) (next : Word) :
    Op Unit := do
  modeGate
  let sel ← readRm16 p x
  let d ← inspect sel (ok sel)
  modifyWork (f d)
  advance next

theorem exec_lar (s : State) (p : List Pfx) (r : Gpr) (x : RmOp) : exec (.lar p r x) s =
    s.run (inspection p x (fun sel d cpl => d.larType && d.visible cpl sel)
      (fun d w => w.report r (s.opSize p) (d.map (·.larValue (s.opSize p)))) (s.nextEip (.lar p r x))) := rfl

theorem exec_lsl (s : State) (p : List Pfx) (r : Gpr) (x : RmOp) : exec (.lsl p r x) s =
    s.run (inspection p x (fun sel d cpl => d.lslType && d.visible cpl sel)
      (fun d w => w.report r (s.opSize p) (d.map Desc.limit)) (s.nextEip (.lsl p r x))) := rfl

theorem exec_verr (s : State) (p : List Pfx) (x : RmOp) : exec (.verr p x) s =
    s.run (inspection p x (fun sel d cpl => d.verrOk cpl sel) (fun d w => w.withFlag bitZF d.isSome)
      (s.nextEip (.verr p x))) := rfl

theorem exec_verw (s : State) (p : List Pfx) (x : RmOp) : exec (.verw p x) s =
    s.run (inspection p x (fun sel d cpl => d.verwOk cpl sel) (fun d w => w.withFlag bitZF d.isSome)
      (s.nextEip (.verw p x))) := rfl

/-- An inspection in protected mode writes what it makes of the descriptor found. -/
theorem State.run_inspection {s : State} {p : List Pfx} {x : RmOp} {sel : Sel} {ok : Sel → Desc → Level → Bool}
    {f : Option Desc → State → State} {next : Word} (hu : s.unchecked = false) (hr : s.canReadRm p x = true)
    (hsel : s.rm16 p x = sel) (hm : isNull sel = true ∨ s.canLookup sel = true) (hf : ∀ d, (f d s).mem = s.mem) :
    s.run (inspection p x ok f next) = .next { f (s.inspected sel (ok sel)) s with eip := next } := by
  subst hsel
  exact (State.run_modeGate_pass hu).trans ((State.run_readRm16 hr).trans
    ((State.run_bind_ok (inspect_fresh hm)).trans (State.run_modifyWork_advance (hf _))))

theorem Desc.visible_iff {d : Desc} {cpl : Level} {sel : Sel} : d.visible cpl sel = true ↔
    d.kind.isConforming = true ∨ (cpl ≤ d.dpl ∧ sel.extractLsb' 0 2 ≤ d.dpl) := by
  simp [Desc.visible, levelMax_le, selRpl]

theorem Desc.invisible_iff {d : Desc} {cpl : Level} {sel : Sel} : d.visible cpl sel = false ↔
    d.kind.isConforming = false ∧ (d.dpl < cpl ∨ d.dpl < sel.extractLsb' 0 2) := by
  rw [← Bool.not_eq_true, Desc.visible_iff, not_or, Bool.not_eq_true, not_and_or, BitVec.not_le, BitVec.not_le]

/-- The types an inspection lists: every code and data descriptor, and the system types `ts` (R167, R170). -/
def ListsTypes (listed : Desc → Bool) (ts : List (BitVec 4)) : Prop :=
  ∀ d : Desc, listed d = (d.hi.getLsbD 12 || ts.contains (typeField d.hi))

theorem lists_larType : ListsTypes Desc.larType [0x1, 0x2, 0x3, 0x4, 0x5, 0x9, 0xB, 0xC] := fun _ => rfl

theorem lists_lslType : ListsTypes Desc.lslType [0x1, 0x2, 0x3, 0x9, 0xB] := fun _ => rfl

theorem ListsTypes.listed_iff {listed : Desc → Bool} {ts : List (BitVec 4)} (hl : ListsTypes listed ts) {d : Desc} :
    listed d = true ↔ d.hi.getLsbD 12 = true ∨ typeField d.hi ∈ ts := by
  rw [hl, Bool.or_eq_true, List.contains_iff_mem]

theorem ListsTypes.unlisted_iff {listed : Desc → Bool} {ts : List (BitVec 4)} (hl : ListsTypes listed ts) {d : Desc} :
    listed d = false ↔ d.hi.getLsbD 12 = false ∧ typeField d.hi ∉ ts := by
  rw [← Bool.not_eq_true, hl.listed_iff, not_or, Bool.not_eq_true]

/-- LAR and LSL find a descriptor of a listed type that the level may see. -/
theorem ListsTypes.inspected_visible {listed : Desc → Bool} {ts : List (BitVec 4)} (hl : ListsTypes listed ts)
    {s : State} {sel : Sel} {d : Desc} (hnull : isNull sel = false) (hd : s.lookup sel = some d)
    (htype : d.hi.getLsbD 12 = true ∨ typeField d.hi ∈ ts)
    (hvis : d.kind.isConforming = true ∨ (s.cpl ≤ d.dpl ∧ sel.extractLsb' 0 2 ≤ d.dpl)) :
    s.inspected sel (fun d cpl => listed d && d.visible cpl sel) = some d :=
  State.inspected_eq_some.2 ⟨hnull, hd, Bool.and_eq_true_iff.2 ⟨hl.listed_iff.2 htype, Desc.visible_iff.2 hvis⟩⟩

/-- LAR and LSL find nothing otherwise. -/
theorem ListsTypes.inspected_invisible {listed : Desc → Bool} {ts : List (BitVec 4)} (hl : ListsTypes listed ts)
    {s : State} {sel : Sel} (h : isNull sel = true ∨ s.lookup sel = none ∨ ∃ d, s.lookup sel = some d ∧
      ((d.hi.getLsbD 12 = false ∧ typeField d.hi ∉ ts) ∨
        (d.kind.isConforming = false ∧ (d.dpl < s.cpl ∨ d.dpl < sel.extractLsb' 0 2)))) :
    s.inspected sel (fun d cpl => listed d && d.visible cpl sel) = none :=
  State.inspected_eq_none_of (h.imp_right (Or.imp_right fun ⟨d, hd, no⟩ =>
    ⟨d, hd, Bool.and_eq_false_iff.2 (no.imp hl.unlisted_iff.2 Desc.invisible_iff.2)⟩))

/-- Settles O31: LAR reports the descriptor its inspection finds. -/
theorem larReports : Obligations.LarReports := by
  intro s p r x sel
  refine ⟨State.run_modeGate_raise, fun hu hr hsel hm => ?_⟩
  rw [exec_lar, State.run_inspection hu hr hsel hm fun _ => State.report_mem ..]
  refine ⟨fun d hnull hd htype hvis => ?_, fun h => ?_⟩
  · rw [lists_larType.inspected_visible hnull hd htype hvis]; rfl
  · rw [lists_larType.inspected_invisible h]; rfl

/-- Settles O32: LSL reports the limit of the descriptor its inspection finds. -/
theorem lslReports : Obligations.LslReports := by
  intro s p r x sel
  refine ⟨State.run_modeGate_raise, fun hu hr hsel hm => ?_⟩
  rw [exec_lsl, State.run_inspection hu hr hsel hm fun _ => State.report_mem ..]
  refine ⟨fun d hnull hd htype hvis => ?_, fun h => ?_⟩
  · rw [lists_lslType.inspected_visible hnull hd htype hvis]; rfl
  · rw [lists_lslType.inspected_invisible h]; rfl

/-- VERR accepts what a data segment register may load (R168, 40_privilege_checks.md R128). -/
theorem Desc.verrOk_eq (d : Desc) (cpl : Level) (sel : Sel) : d.verrOk cpl sel = mayLoadDataSegment cpl sel d := by
  unfold Desc.verrOk mayLoadDataSegment
  split <;> simp [*]

theorem Desc.verrOk_iff {d : Desc} {cpl : Level} {sel : Sel} : d.verrOk cpl sel = true ↔
    d.kind = .seg (.code true true) ∨
      ((d.kind = .seg (.code false true) ∨ ∃ wr e, d.kind = .seg (.data wr e)) ∧ cpl ≤ d.dpl ∧
        sel.extractLsb' 0 2 ≤ d.dpl) := by
  rw [Desc.verrOk_eq, mayLoadDataSegment_iff]
  exact or_congr_right (and_congr_left' or_comm)

theorem Desc.verwOk_iff {d : Desc} {cpl : Level} {sel : Sel} : d.verwOk cpl sel = true ↔
    (∃ e, d.kind = .seg (.data true e)) ∧ cpl ≤ d.dpl ∧ sel.extractLsb' 0 2 ≤ d.dpl := by
  unfold Desc.verwOk
  split <;> rename_i hk <;> simp [hk, levelMax_le, selRpl]

/-- Settles O33: ZF is whether the inspection found a descriptor. -/
theorem verrAndVerwReport : Obligations.VerrAndVerwReport := by
  intro s p x sel
  refine ⟨fun hu => ⟨State.run_modeGate_raise hu, State.run_modeGate_raise hu⟩, fun hu hr hsel hm => ?_⟩
  rw [exec_verr, exec_verw, State.run_inspection hu hr hsel hm fun _ => rfl,
    State.run_inspection hu hr hsel hm fun _ => rfl]
  refine ⟨_, _, rfl, rfl, ?_, ?_⟩
  · simp only [State.inspected_isSome, Desc.verrOk_iff]
  · simp only [State.inspected_isSome, Desc.verwOk_iff]

end Sys2Proof.Machine
end

section
/-! SUPPORT. Far JMP and far RET in protected mode (42_control_transfer.md): the checks of each in their order, the state each
leaves, and the statements about them settled. -/

namespace Sys2Proof.Machine

/-! ### Running a transfer from its start -/

/-- A check that fails ends the operation with its fault. -/
theorem State.run_raiseIf_raise {s : State} {b : Bool} {f : FaultCode} {k : Unit → Op Unit} (h : b = true) :
    s.run (raiseIf b f >>= k) = .next (s.takeFault f) :=
  State.run_bind_raise (by rw [raiseIf_of h]; rfl)

/-- A check that passes goes on. -/
theorem State.run_raiseIf_pass {s : State} {b : Bool} {f : FaultCode} {k : Unit → Op Unit} (h : b = false) :
    s.run (raiseIf b f >>= k) = s.run (k ()) :=
  State.run_bind_ok (by rw [raiseIf_not h]; rfl)

/-- An operation that is one write of the registers, memory left alone. -/
theorem State.run_modifyWork {s : State} {f : State → State} (hm : (f s).mem = s.mem) :
    s.run (modifyWork f) = .next (f s) :=
  congrArg Host.Outcome.next (commit_of_no_writes { Ctx.start s with work := f s } rfl hm)

/-- `LookupDesc` of a selector that names a descriptor finds it. -/
theorem State.run_requireDesc {s : State} {sel : Sel} {f : FaultCode} {d : Desc} {k : Desc → Op Unit}
    (hm : s.canLookup sel = true) (hd : s.lookup sel = some d) : s.run (requireDesc sel f >>= k) = s.run (k d) :=
  State.run_bind_ok (requireDesc_some (fresh_start s) sel f d hm hd)

/-! ### Where a lookup finds a descriptor (40_privilege_checks.md R124, R125) -/

/-- A selector without its TI and RPL is eight times its index (30_encoding.md R80). -/
theorem sel_offset_eq (sel : Sel) :
    (sel &&& 0xFFF8).setWidth 32 = BitVec.ofNat 32 ((sel.extractLsb' 3 13).toNat * 8) := by
  have mask : ∀ i : Fin 16, (0xFFF8#16)[i.val] = !decide (i.val < 3) := by decide
  have masked : sel &&& (0xFFF8 : Sel) = (sel >>> 3) <<< 3 := by
    ext i hi
    have := mask ⟨i, hi⟩
    simp only at this
    by_cases low : i < 3
    · simp [this, low]
    · simp [this, low, show 3 + (i - 3) = i by omega, BitVec.getLsbD_eq_getElem hi]
  have index : (sel.extractLsb' 3 13).toNat = sel.toNat / 8 := by
    have := sel.isLt
    rw [BitVec.extractLsb'_toNat, Nat.shiftRight_eq_div_pow]
    omega
  apply BitVec.eq_of_toNat_eq
  have := sel.isLt
  rw [masked, index]
  simp only [BitVec.toNat_setWidth, BitVec.toNat_shiftLeft, BitVec.toNat_ushiftRight, BitVec.toNat_ofNat,
    Nat.shiftLeft_eq, Nat.shiftRight_eq_div_pow]
  omega

theorem State.descAddr_eq (s : State) (sel : Sel) : s.descAddr sel =
    (if sel.getLsbD 2 then s.ldtr.base else s.gdtr.base) + BitVec.ofNat 32 ((sel.extractLsb' 3 13).toNat * 8) := by
  rw [State.descAddr, sel_offset_eq, State.tableOf, apply_ite Table.base]
  rfl

/-- A selector's descriptor lies within its table, the LDT one that is valid (R125). -/
theorem State.beyondLimit_eq_false_iff {s : State} {sel : Sel} : s.beyondLimit sel = false ↔
    if sel.getLsbD 2 then s.ldtr.valid = true ∧ (sel.extractLsb' 3 13).toNat * 8 + 7 ≤ s.ldtr.limit.toNat
    else (sel.extractLsb' 3 13).toNat * 8 + 7 ≤ s.gdtr.limit.toNat := by
  have limit : (s.gdtr.limit.setWidth 32).toNat = s.gdtr.limit.toNat := BitVec.toNat_setWidth_of_le (by decide)
  have within : s.beyondLimit sel = false ↔ (s.tableOf sel).usable = true ∧
      (sel.extractLsb' 3 13).toNat * 8 + 7 ≤ (s.tableOf sel).limit.toNat := by simp [State.beyondLimit, selIndex]
  rw [within, State.tableOf, selTi]
  split
  · rfl
  · rw [limit]
    exact and_iff_right rfl

theorem State.lookup_eq_ite (s : State) (sel : Sel) : s.lookup sel =
    if (if sel.getLsbD 2 then s.ldtr.valid = true ∧ (sel.extractLsb' 3 13).toNat * 8 + 7 ≤ s.ldtr.limit.toNat
      else (sel.extractLsb' 3 13).toNat * 8 + 7 ≤ s.gdtr.limit.toNat)
    then some (decodeDesc (s.readLin (s.descAddr sel) 4) (s.readLin (s.descAddr sel + 4#32) 4)) else none := by
  simp only [← State.beyondLimit_eq_false_iff, State.lookup]
  cases s.beyondLimit sel <;> rfl

/-! ### Far JMP (42_control_transfer.md R180, R182, R183) -/

/-- The dispatch of a JMP to code goes to R182. -/
theorem jumpDispatch_of_isCode {sel : Sel} {d : Desc} {off : Word} {wide : Bool} {next : Word}
    (h : d.kind.isCode = true) : jumpDispatch sel d off wide next = jumpToCode sel d off wide := by
  obtain ⟨_, _, hk⟩ := DescKind.isCode_cases h
  rw [jumpDispatch, hk]

/-- The dispatch of a JMP to a call gate goes to R183. -/
theorem jumpDispatch_of_callGate {sel : Sel} {d : Desc} {off : Word} {wide : Bool} {next : Word}
    (h : d.kind = .callGate) : jumpDispatch sel d off wide next = jumpViaCallGate sel d := by
  rw [jumpDispatch, h]

/-- A far JMP in protected mode, its descriptor found, dispatches by the descriptor's kind (R180). -/
theorem JumpsTo.exec_eq_run {s : State} {i : Instr} {sel : Sel} {off : Word} {wide : Bool} {d : Desc}
    (h : JumpsTo s i sel off wide) (hu : s.unchecked = false) (hnull : isNull sel = false) (hm : s.canLookup sel = true)
    (hd : s.lookup sel = some d) : exec i s = s.run (jumpDispatch sel d off wide (s.nextEip i)) := by
  have checked : s.run (farJump sel off wide (s.nextEip i)) =
      s.run (raiseIf (isNull sel) (.gp 0) >>= fun _ => requireDesc sel (.gp (errSel sel)) >>= fun d =>
        jumpDispatch sel d off wide (s.nextEip i)) := by simp [State.run, farJump, hu]
  rw [jump_run h, checked, State.run_raiseIf_pass hnull, State.run_requireDesc hm hd]

/-- A JMP to code: the privilege check, then the present bit, then CS and EIP (R182). -/
theorem State.run_jumpToCode (s : State) (sel : Sel) (d : Desc) (off : Word) (wide : Bool) :
    (mayJump s.cpl sel d = false → s.run (jumpToCode sel d off wide) = .next (s.takeFault (.gp (errSel sel)))) ∧
    (mayJump s.cpl sel d = true → d.present = false →
      s.run (jumpToCode sel d off wide) = .next (s.takeFault (.np (errSel sel)))) ∧
    (mayJump s.cpl sel d = true → d.present = true →
      s.run (jumpToCode sel d off wide) = .next { s.installCs sel d s.cpl with eip := sizeTrunc wide off }) := by
  refine ⟨fun may => ?_, fun may absent => ?_, fun may present => ?_⟩
  · exact State.run_raiseIf_raise (congrArg not may)
  · exact (State.run_raiseIf_pass (congrArg not may)).trans (State.run_raiseIf_raise (congrArg not absent))
  · exact (State.run_raiseIf_pass (congrArg not may)).trans
      ((State.run_raiseIf_pass (congrArg not present)).trans (State.run_modifyWork rfl))

/-- A JMP through a good call gate to conforming code or code of the same level passes every check (R183). -/
theorem State.run_jumpViaCallGate {s : State} {sel : Sel} {g c : Desc} (hg : GoodGate s sel g)
    (hm : s.canLookup g.gateSel = true) (hc : GoodTarget s g.gateSel c) (hl : c.kind.isConforming = true ∨ c.dpl = s.cpl) :
    s.run (jumpViaCallGate sel g) = .next { s.installCs g.gateSel c s.cpl with eip := g.gateOff } := by
  obtain ⟨-, -, -, -, gateAllowed, gatePresent⟩ := hg
  obtain ⟨nonNull, found, code, level, present⟩ := hc
  have conforming : (c.kind.isConforming && decide (s.cpl < c.dpl)) = false := by
    rw [decide_eq_false (BitVec.not_lt.2 level), Bool.and_false]
  have sameLevel : (!c.kind.isConforming && c.dpl != s.cpl) = false := by
    rcases hl with hl | hl <;> simp [hl]
  calc s.run (jumpViaCallGate sel g)
    _ = s.run (raiseIf (!g.present) (.np (errSel sel)) >>= _) := State.run_raiseIf_pass (congrArg not gateAllowed)
    _ = s.run (raiseIf (isNull g.gateSel) (.gp 0) >>= _) := State.run_raiseIf_pass (congrArg not gatePresent)
    _ = s.run (requireDesc g.gateSel (.gp (errSel g.gateSel)) >>= _) := State.run_raiseIf_pass nonNull
    _ = s.run (raiseIf (!c.kind.isCode) (.gp (errSel g.gateSel)) >>= _) := State.run_requireDesc hm found
    _ = s.run (raiseIf (c.kind.isConforming && decide (s.cpl < c.dpl)) (.gp (errSel g.gateSel)) >>= _) :=
      State.run_raiseIf_pass (congrArg not code)
    _ = s.run (raiseIf (!c.kind.isConforming && c.dpl != s.cpl) (.gp (errSel g.gateSel)) >>= _) :=
      State.run_raiseIf_pass conforming
    _ = s.run (raiseIf (!c.present) (.np (errSel g.gateSel)) >>= _) := State.run_raiseIf_pass sameLevel
    _ = s.run (modifyWork fun w => { w.installCs g.gateSel c s.cpl with eip := g.gateOff }) :=
      State.run_raiseIf_pass (congrArg not present)
    _ = _ := State.run_modifyWork rfl

/-- Settles O41: a JMP dispatches on the descriptor it finds; to code it passes or fails the checks of R182, through a gate it
passes those of R183; and CS is installed from the descriptor's bits. -/
theorem jumpCompletes : Obligations.JumpCompletes := by
  refine ⟨decodesTo, fun s sel => ⟨s.descAddr_eq sel, ?_⟩, fun i s sel off wide hj hu hnull hm =>
    ⟨fun d hd code => ?_, fun g c hg hmg hc hl => ?_, fun cs d hd code => ?_⟩⟩
  · rw [← s.descAddr_eq sel]
    exact s.lookup_eq_ite sel
  · rw [hj.exec_eq_run hu hnull hm hd, jumpDispatch_of_isCode code]
    exact s.run_jumpToCode sel d off wide
  · rw [hj.exec_eq_run hu hnull hm hg.found, jumpDispatch_of_callGate hg.kind]
    exact State.run_jumpViaCallGate hg hmg hc hl
  · exact State.fromDescriptor_lookup hd (.inr (.inr code)) _

/-! ### Far RET (42_control_transfer.md R192, R194, R195) -/

/-- The privilege check of a popped CS, in CPL, RPL and DPL (40_privilege_checks.md R132). -/
theorem mayReturn_iff {n : Level} {sel : Sel} {d : Desc} {conforming readable : Bool}
    (h : d.kind = .seg (.code conforming readable)) : mayReturn n sel d = true ↔ n ≤ sel.extractLsb' 0 2 ∧
      if conforming then d.dpl ≤ sel.extractLsb' 0 2 else d.dpl = sel.extractLsb' 0 2 := by
  change _ ↔ n ≤ selRpl sel ∧ if conforming then d.dpl ≤ selRpl sel else d.dpl = selRpl sel
  cases conforming <;> simp [mayReturn, h, DescKind.isConforming]

/-- A stack slot is read when the `Mmu` refuses nothing. -/
theorem State.run_peekStack {s : State} (hq : s.Quiet) {k : Word} {w : Nat} {f : Word → Op Unit} :
    s.run (peekStack k w >>= f) = s.run (f (s.peek k w)) :=
  State.run_bind_ok (peekStack_fresh (fresh_start s) k w (hq.canRead _ _ _))

/-- A far RET in protected mode, its two slots read: the checks of CS, then the return by its RPL (R192). -/
theorem Returns.exec_eq_run {s : State} {i : Instr} {imm : BitVec 16} {wide : Bool} {cs : Sel} (h : Returns s i imm wide)
    (hu : s.unchecked = false) (hq : s.Quiet)
    (hcs : cs = low16 (s.peek (BitVec.ofNat 32 (widthBytes wide)) (widthBytes wide))) :
    exec i s = s.run (checkReturnCs cs >>= fun d =>
      if selRpl cs = s.cpl then returnSame cs d (s.peek 0#32 (widthBytes wide)) imm wide
      else returnOuter cs d (s.peek 0#32 (widthBytes wide)) imm wide) := by
  have checked : s.run (farReturn imm wide) = s.run (peekStack 0#32 (widthBytes wide) >>= fun eip =>
      peekStack (BitVec.ofNat 32 (widthBytes wide)) (widthBytes wide) >>= fun csw =>
        checkReturnCs (low16 csw) >>= fun d => if selRpl (low16 csw) = s.cpl then returnSame (low16 csw) d eip imm wide
          else returnOuter (low16 csw) d eip imm wide) := by simp [State.run, farReturn, hu]
  rw [return_run h, checked, State.run_peekStack hq, State.run_peekStack hq, hcs]

/-- A far RET to an outer level, its stack read: the checks of SS, then the registers (R195). -/
theorem State.run_returnOuter {s : State} (hq : s.Quiet) {cs nss : Sel} {d : Desc} {eip : Word} {imm : BitVec 16}
    {wide : Bool} (hnss : nss = low16
      (s.peek (BitVec.ofNat 32 (3 * widthBytes wide) + imm.setWidth 32) (widthBytes wide))) :
    s.run (returnOuter cs d eip imm wide) = s.run (checkNewSs nss (selRpl cs) .gp >>= fun sd =>
      modifyWork fun w => w.returnOuterRegs cs d nss sd
        (s.peek (BitVec.ofNat 32 (2 * widthBytes wide) + imm.setWidth 32) (widthBytes wide)) eip imm wide) := by
  rw [hnss]
  exact (State.run_peekStack hq).trans (State.run_peekStack hq)

/-- The offset a far RET takes from its slot at its operand size (R192). -/
theorem State.sizeTrunc_peek (s : State) (wide : Bool) : sizeTrunc wide (s.peek 0#32 (widthBytes wide)) =
    if wide then s.peek 0#32 4 else s.peek 0#32 2 &&& 0xFFFF := by cases wide <;> rfl

/-! ### The data segments an outer level may not keep (40_privilege_checks.md R143) -/

/-- The loaded data or non-conforming code of a lower DPL. -/
theorem SegReg.losesAccess_iff {r : SegReg} {n : Level} : r.losesAccess n = true ↔
    r.valid = true ∧ (∀ rd, r.kind ≠ .code true rd) ∧ r.dpl < n := by
  cases kind : r.kind with
  | code conforming readable => cases conforming <;> simp [SegReg.losesAccess, kind]
  | data writable expandDown => simp [SegReg.losesAccess, kind]

theorem State.invalidateOne_get_same (s : State) (k : Level) (n : SegName) : (s.invalidateOne k n).seg.get n =
    if (s.seg.get n).losesAccess k then .null 0 else s.seg.get n := by
  unfold State.invalidateOne
  split <;> simp

theorem State.invalidateOne_get_other (s : State) (k : Level) {n r : SegName} (h : n ≠ r) :
    (s.invalidateOne k r).seg.get n = s.seg.get n := by
  unfold State.invalidateOne
  split
  · exact Segs.get_set_other _ _ _ _ h
  · rfl

/-- Each of the four registers is looked at once, whatever becomes of the others. -/
theorem State.invalidateDataSegs_get (s : State) (k : Level) {n : SegName} (h : n = .es ∨ n = .fs ∨ n = .gs ∨ n = .ds) :
    (s.invalidateDataSegs k).seg.get n = if (s.seg.get n).losesAccess k then .null 0 else s.seg.get n := by
  rcases h with rfl | rfl | rfl | rfl <;>
    simp [State.invalidateDataSegs, State.invalidateOne_get_same, State.invalidateOne_get_other]

/-- Settles O44: a far RET reads its slots, checks CS, and returns to the same level, or checks SS and returns to the outer one. -/
theorem farReturnFollowsItsRule : Obligations.FarReturnFollowsItsRule := by
  refine ⟨fun _ _ _ _ _ => mayReturn_iff, fun i s imm wide cs nss hi hu hq => ?_⟩
  intro w eip hcs hnss
  have fresh := fresh_start s
  have start := hi.exec_eq_run hu hq hcs
  have heip : sizeTrunc wide (s.peek 0#32 (widthBytes wide)) = eip := s.sizeTrunc_peek wide
  refine ⟨fun f hf => ?_, fun d hd => ?_, fun u k n hn => ?_⟩
  · exact start.trans (State.run_bind_raise (checkReturnCs_fault fresh cs f (hq.canLookup cs) hf))
  · have found := start.trans (State.run_bind_ok (checkReturnCs_fresh fresh cs d (hq.canLookup cs) hd))
    refine ⟨fun same => ?_, fun outer f hf => ?_, fun outer sd hs => ?_⟩
    · rw [found, if_pos same, ← heip]
      exact State.run_modifyWork rfl
    · rw [found, if_neg (BitVec.ne_of_lt outer).symm, State.run_returnOuter hq hnss]
      exact State.run_bind_raise (checkNewSs_fault fresh nss _ .gp f (hq.canLookup nss) hf)
    · rw [found, if_neg (BitVec.ne_of_lt outer).symm, State.run_returnOuter hq hnss,
        State.run_bind_ok (checkNewSs_fresh fresh nss _ .gp sd (hq.canLookup nss) hs), ← heip]
      exact State.run_modifyWork (State.returnOuterRegs_mem ..)
  · simp only [u.invalidateDataSegs_get k hn, SegReg.losesAccess_iff, SegReg.null]

end Sys2Proof.Machine
end

section
/-! SUPPORT. Interrupts and the merge of EFLAGS (43_interrupts.md): the bits a merge keeps, the state each delivery leaves, and the
statements about them settled. -/

namespace Sys2Proof.Machine

/-! ### The bits a merge keeps (43_interrupts.md R225) -/

/-- A bit of EFLAGS that exists and that the mask leaves out keeps its value. -/
theorem State.mergeFlags_bit_kept (s : State) (fl : Word) (wide : Bool) {i : Nat} (hi : i < 32)
    (hm : (mergeMaskFor s.cpl s.iopl wide)[i] = false) (hM : maskV86All[i] = true) (h2 : (2#32)[i] = false) :
    (s.mergeFlags fl wide).eflags[i] = s.eflags[i] :=
  merge_bit_kept s.eflags fl (mergeMaskFor s.cpl s.iopl wide) i hi hm hM h2

/-- RF, VM, VIF and VIP stand in no mask. -/
theorem mergeMaskFor_leaves_system (cpl iopl : Level) (wide : Bool) : 0x001B0000 &&& mergeMaskFor cpl iopl wide = 0 := by
  revert cpl iopl wide
  decide

/-- IOPL stands in the masks of CPL 0 alone. -/
theorem mergeMaskFor_leaves_iopl {cpl : Level} (iopl : Level) (wide : Bool) (h : cpl ≠ 0) :
    (mergeMaskFor cpl iopl wide)[12] = false ∧ (mergeMaskFor cpl iopl wide)[13] = false := by
  revert cpl iopl wide
  decide

/-- IF stands in no mask of an IOPL below CPL. -/
theorem mergeMaskFor_leaves_if {cpl iopl : Level} (wide : Bool) (h : iopl < cpl) :
    (mergeMaskFor cpl iopl wide)[9] = false := by
  revert cpl iopl wide
  decide

theorem State.mergeFlags_system (s : State) (fl : Word) (wide : Bool) :
    (s.mergeFlags fl wide).eflags &&& 0x001B0000 = s.eflags &&& 0x001B0000 := by
  ext i hi
  simp only [BitVec.getElem_and]
  cases bit : (0x001B0000#32)[i] with
  | false => simp
  | true =>
    have unmasked := disjoint_bit (mergeMaskFor_leaves_system s.cpl s.iopl wide) i hi bit
    have inEflags := mask_bit (show 0x001B0000 &&& maskV86All = 0x001B0000 by decide) i hi bit
    have notBit1 := disjoint_bit (show (0x001B0000 : Word) &&& 2 = 0 by decide) i hi bit
    rw [s.mergeFlags_bit_kept fl wide hi unmasked inEflags notBit1]

theorem State.mergeFlags_iopl (s : State) (fl : Word) (wide : Bool) (h : s.cpl ≠ 0) :
    (s.mergeFlags fl wide).iopl = s.iopl := by
  obtain ⟨low, high⟩ := mergeMaskFor_leaves_iopl s.iopl wide h
  have bit12 := s.mergeFlags_bit_kept fl wide (by decide) low rfl rfl
  have bit13 := s.mergeFlags_bit_kept fl wide (by decide) high rfl rfl
  ext i hi
  obtain rfl | rfl : i = 0 ∨ i = 1 := by omega
  · simpa [State.iopl] using bit12
  · simpa [State.iopl] using bit13

theorem State.mergeFlags_if (s : State) (fl : Word) (wide : Bool) (h : s.iopl < s.cpl) :
    (s.mergeFlags fl wide).ifl = s.ifl := by
  have bit9 := s.mergeFlags_bit_kept fl wide (by decide) (mergeMaskFor_leaves_if wide h) rfl rfl
  simpa [State.ifl, bitIF] using bit9

/-- Settles O39: the table is its formula, and each group of bits kept stands outside the mask. -/
theorem mergeFlagsFollowsTheTable : Obligations.MergeFlagsFollowsTheTable := by
  intro s fl wide mask
  have table : mergeMaskFor s.cpl s.iopl wide = mask := mergeMaskFor_formula s.cpl s.iopl wide
  refine ⟨?_, s.mergeFlags_system fl wide, s.mergeFlags_iopl fl wide, s.mergeFlags_if fl wide⟩
  rw [← table]
  rfl

/-! ### The state an interrupt starts from (43_interrupts.md R212, R216) -/

section Start
variable {s s0 : State} {i : Instr} {v : BitVec 8} {tag : IntTag} {err : Option Word} {ret : Word}

/-- Emptying the pending fault changes none of what a delivery reads. -/
theorem Interrupts.start_reads (h : Interrupts s i s0 v tag err ret) :
    s0.pe = s.pe ∧ s0.vm = s.vm ∧ s0.cpl = s.cpl ∧ s0.mmu = s.mmu ∧ s0.idtGate v = s.idtGate v := by
  rcases h.start_state with rfl | rfl <;> exact ⟨rfl, rfl, rfl, rfl, rfl⟩

theorem Interrupts.quiet (h : Interrupts s i s0 v tag err ret) (hq : s.Quiet) : s0.Quiet := by
  obtain ⟨-, -, -, mmu, -⟩ := h.start_reads
  exact ⟨mmu ▸ hq.views, mmu ▸ hq.answers⟩

/-- An interrupt that is the operation `op`, whatever its IOPL check, ends where `op` stands. -/
theorem Interrupts.exec_of_stands (h : Interrupts s i s0 v tag err ret) {op : Op Unit} {t : State}
    (is : ∀ b, interrupt v tag b err ret (Ctx.start s0) = op (Ctx.start s0))
    (stands : ∃ c, op (Ctx.start s0) = .ok () c ∧ c.Stands t) : exec i s = .next t := by
  obtain ⟨c, run, hc⟩ := stands
  rw [interrupts_ok h fun b _ => (is b).trans run, hc.commit]

end Start

/-! ### The pushes and the flags of a delivery (43_interrupts.md R210, R214, R217) -/

/-- The flags, CS and the return address are pushed, in this order. -/
theorem pushReturnFrame_stands {c : Ctx} {t : State} (h : c.Stands t) (w : Nat) (fl cs ret : Word) :
    ∃ c1 c2 c3, push w fl c = .ok () c1 ∧ push w cs c1 = .ok () c2 ∧ push w ret c2 = .ok () c3 ∧
      c3.Stands (((t.pushed w fl).pushed w cs).pushed w ret) := by
  obtain ⟨c1, flags, h1, -⟩ := h.push w fl
  obtain ⟨c2, code, h2, -⟩ := h1.push w cs
  obtain ⟨c3, address, h3, -⟩ := h2.push w ret
  exact ⟨c1, c2, c3, flags, code, address, h3⟩

/-- The end of a delivery clears the flags of R217 in one mask. -/
theorem State.entered_eq (s : State) (g : Desc) :
    s.entered g = { s.clearOnDelivery (g.kind == .interruptGate) with eip := g.gateOff } := by
  rw [State.clearOnDelivery_eq]
  simp only [State.entered, beq_iff_eq]

/-! ### Real mode (43_interrupts.md R210) -/

theorem interrupt_real {s : State} (hpe : s.pe = false) (v : BitVec 8) (tag : IntTag) (b : Bool) (err : Option Word)
    (ret : Word) : interrupt v tag b err ret (Ctx.start s) = realInterrupt v ret (Ctx.start s) := by
  simp [interrupt, hpe]

/-- The vector is read, the three slots are pushed, and the flags, CS and EIP are written. -/
theorem realInterrupt_stands {s : State} (hq : s.Quiet) (v : BitVec 8) (ret : Word) :
    ∃ c, realInterrupt v ret (Ctx.start s) = .ok () c ∧ c.Stands (s.realDelivered v ret) := by
  have vector (a : Word) : memRead false a 2 (Ctx.start s) = .ok (s.readLin a 2) (Ctx.start s) :=
    memRead_fresh (fresh_start s) false a 2 (hq.canRead _ _ _)
  obtain ⟨_, _, _, flags, code, address, pushed⟩ :=
    pushReturnFrame_stands (fresh_stands s hq) 2 s.eflags (selWord s.seg.cs.sel) ret
  have cleared := pushed.modify (fun u => u.withEflags (setBit (setBit u.eflags bitIF false) bitTF false))
    (by intros; rfl) (by intros; rfl)
  have landed := cleared.modify
    (fun u => { u.loadSegReal .cs (low16 (s.readLin (s.idtr.base + (v.setWidth 32 <<< 2) + 2#32) 2)) with
      eip := s.readLin (s.idtr.base + (v.setWidth 32 <<< 2)) 2 })
    (by intros; rfl) (by intros; rfl)
  refine ⟨_, ?_, landed⟩
  simp only [realInterrupt, bind_apply, work_apply, start_work, vector, flags, code, address, modifyWork_apply]

/-- Settles O48: in real mode every interrupt is the delivery through the vector table. -/
theorem realModeInterrupt : Obligations.RealModeInterrupt := by
  intro i s s0 v tag err ret h hpe hq
  obtain ⟨pe, -⟩ := h.start_reads
  exact h.exec_of_stands (fun b => interrupt_real (pe.trans hpe) v tag b err ret) (realInterrupt_stands (h.quiet hq) v ret)

/-! ### A gate to the same level (43_interrupts.md R214, R217) -/

/-- Outside V86 mode the frame and the error code are pushed on the current stack, and CS is installed at the same level. -/
theorem sameLevelInterrupt_stands {s : State} (hq : s.Quiet) (hv : s.vm = false) (t : Sel) (c : Desc) (err : Option Word)
    (ret : Word) : ∃ c', sameLevelInterrupt t c err ret (Ctx.start s) = .ok () c' ∧
      c'.Stands ((s.pushedFlags err ret).installCs t c s.cpl) := by
  obtain ⟨_, _, _, flags, code, address, framed⟩ :=
    pushReturnFrame_stands (fresh_stands s hq) 4 s.eflags (selWord s.seg.cs.sel) ret
  obtain ⟨_, error, pushed, -⟩ := pushError_stands framed err
  have installed := pushed.modify (fun u => u.installCs t c s.cpl) (by intros; rfl) (by intros; rfl)
  refine ⟨_, ?_, installed⟩
  simp only [sameLevelInterrupt, bind_apply, work_apply, start_work, hv, raiseIf_false, pure_apply, flags, code,
    address, error, modifyWork_apply]

/-- A gate to good code that does not change the level. -/
theorem gateDelivery_sameLevel_stands {s : State} (hq : s.Quiet) (hv : s.vm = false) {g c : Desc}
    (target : GoodTarget s g.gateSel c) (level : c.kind.isConforming = true ∨ c.dpl = s.cpl) (err : Option Word)
    (ret : Word) : ∃ c', gateDelivery g err ret (Ctx.start s) = .ok () c' ∧
      c'.Stands (((s.pushedFlags err ret).installCs g.gateSel c s.cpl).entered g) := by
  have found := gateTarget_fresh (fresh_start s) g.gateSel c (hq.canLookup _) target
  obtain ⟨c1, delivered, h1⟩ := sameLevelInterrupt_stands hq hv g.gateSel c err ret
  have entered := h1.modify (fun u => { u.clearOnDelivery (g.kind == .interruptGate) with eip := g.gateOff })
    (by intros; rfl) (by intros; rfl)
  rw [State.entered_eq]
  refine ⟨_, ?_, entered⟩
  simp only [gateDelivery, bind_apply, work_apply, start_work, found, isInterLevel_not level, cond_false, delivered,
    modifyWork_apply]

end Sys2Proof.Machine

namespace Sys2Proof

open Machine

/-- Settles O49: past the IDT entry, the delivery through the gate keeps the level. (In `Machine` the name is the model's own
operation.) -/
theorem sameLevelInterrupt : Obligations.SameLevelInterrupt := by
  intro i s s0 v tag err ret c h hq entry hv level
  obtain ⟨-, vm, cpl, -, gate⟩ := h.start_reads
  have hq0 := h.quiet hq
  have entry0 := h.gateEntry entry
  rw [← gate, ← cpl]
  exact h.exec_of_stands (fun b => interrupt_entry s0 hq0.system v tag b err ret c entry0)
    (gateDelivery_sameLevel_stands hq0 (vm.trans hv) entry0.target (cpl ▸ level) err ret)

end Sys2Proof
end

section
/-! SUPPORT. The checks of a task switch before its commit (44_task_switch.md R242, R243): what an interrupt through a task gate and
an IRET with NT set run, and the statement about the faults of a switch settled. -/

namespace Sys2Proof.Machine

/-- An operation that raises with nothing committed ends with its fault (60_exceptions.md R303). -/
theorem State.run_raise {s : State} {op : Op Unit} {f : FaultCode}
    (h : op (Ctx.start s) = .error (.raise f) (Ctx.start s)) : s.run op = .next (s.takeFault f) := by
  simp [State.run, h]

/-! ### An interrupt through a task gate (43_interrupts.md R211 to R213) -/

/-- A task gate of the IDT that fails no check passes each of them: the IOPL check in V86 mode, the limit of the IDT, the DPL check of
a software interrupt, and the present bit. -/
theorem State.idtFault_none_of_taskGate {s : State} {v : BitVec 8} {tag : IntTag} (hk : (s.idtGate v).kind = .taskGate)
    (h : s.idtFault v tag = none) :
    (s.vm = true → tag = .software → s.iopl = 3) ∧ s.hasIdtGate v = true ∧
      (tag == .software && decide ((s.idtGate v).dpl < s.cpl)) = false ∧ (s.idtGate v).present = true := by
  unfold State.idtFault at h
  rw [hk] at h
  split_ifs at h with hiopl hidt h286 hgate hdpl hpresent
  · cases h286
  · refine ⟨fun hv hsoft => ?_, by simpa using hidt, by simpa using hdpl, by simpa using hpresent⟩
    simpa [hv, hsoft] using hiopl

/-- Past the checks of its IDT entry, an interrupt through a task gate is a task switch (R213). -/
theorem interrupt_taskGate {s : State} (hq : s.SystemQuiet) {v : BitVec 8} {tag : IntTag} (b : Bool) (err : Option Word)
    (ret : Word) (hpe : s.pe = true) (he : s.idtFault v tag = none) (hk : (s.idtGate v).kind = .taskGate) :
    interrupt v tag b err ret (Ctx.start s) = switchTask (s.idtGate v).gateSel .callInt ret err (Ctx.start s) := by
  obtain ⟨hiopl, hidt, hdpl, hpresent⟩ := State.idtFault_none_of_taskGate hk he
  rw [interrupt_gate s hq v tag b err ret hpe hiopl hidt]
  simp [hk, DescKind.isIdtGate, raiseIf_not hdpl, hpresent]

/-! ### IRET with NT set (43_interrupts.md R229) -/

/-- IRET in protected mode with NT set returns to the task of the back-link. -/
theorem exec_iret_nested {s : State} {p : List Pfx} (hu : s.unchecked = false) (hnt : s.nt = true) :
    exec (.iret p) s = s.run (iretTask (s.nextEip (.iret p))) := by
  obtain ⟨hpe, hv⟩ := State.prot_of_checked hu
  simp [exec, execIret, State.run, iretOp, hpe, hv, hnt]

/-- Settles O58: each way in runs the switch with nothing committed, so the first check that fails raises its fault and leaves the
state it began in; IRET looks at TR before it reads a back-link. -/
theorem switchFaults : Obligations.SwitchFaults := by
  refine ⟨fun i s tss mode ret f hi hq hf => ?transfer, fun i s v tag err ret f hi ht hq hpe he hk hf => ?interrupt,
    fun s p hu hnt htr => ?noTask⟩
  case transfer =>
    rw [switches_run hi hq.system]
    exact State.run_raise (switchTask_fault (fresh_start s) hq.system tss mode ret none f hf)
  case interrupt =>
    refine interrupts_raise hi ht f fun b _ => ?_
    rw [interrupt_taskGate hq.system b err ret hpe he hk]
    exact switchTask_fault (fresh_start s) hq.system _ .callInt ret err f hf
  case noTask =>
    rw [exec_iret_nested hu hnt]
    exact State.run_raiseIf_raise (congrArg not htr)

end Sys2Proof.Machine
end

section
/-! SUPPORT. System registers and flags (45_system_registers.md): the gates of MOV DR, CLI, STI and POPF, the debug registers
under their two names, and the statements about MOV DR, CLI, STI and POPF settled. -/

namespace Sys2Proof.Machine

/-! ### The gates (45_system_registers.md R271, R275, R281, R284) -/

section Gates
variable {s : State} {k : Unit → Op Unit}

/-- V86 mode fails the gate of the control and debug registers as a CPL other than 0 does. -/
theorem State.run_crGate_denied (h : s.vm = true ∨ (s.pe = true ∧ s.cpl ≠ 0)) :
    s.run (crGate >>= k) = .next (s.takeFault s.privFault) :=
  State.run_raiseIf_raise (b := s.vm || (s.pe && s.cpl != 0)) (by simpa using h)

theorem State.run_crGate_pass (hv : s.vm = false) (h : s.pe = false ∨ s.cpl = 0) :
    s.run (crGate >>= k) = s.run (k ()) :=
  State.run_raiseIf_pass (b := s.vm || (s.pe && s.cpl != 0)) (by rcases h with h | h <;> simp [hv, h])

theorem State.run_ioGate_raise (h : ioPermitted s.cpl s.iopl s.vm = false) :
    s.run (ioGate >>= k) = .next (s.takeFault (.gp 0)) :=
  State.run_raiseIf_raise (congrArg not h)

theorem State.run_ioGate_pass (h : ioPermitted s.cpl s.iopl s.vm = true) : s.run (ioGate >>= k) = s.run (k ()) :=
  State.run_raiseIf_pass (congrArg not h)

theorem State.run_v86IoplGate_raise (hv : s.vm = true) (h : s.iopl ≠ 3) :
    s.run (v86IoplGate >>= k) = .next (s.takeFault (.gp 0)) :=
  State.run_raiseIf_raise (b := s.vm && s.iopl != 3) (by simpa [hv] using h)

theorem State.run_v86IoplGate_pass (h : s.vm = true → s.iopl = 3) : s.run (v86IoplGate >>= k) = s.run (k ()) :=
  State.run_raiseIf_pass (b := s.vm && s.iopl != 3) (by simpa using h)

end Gates

/-! ### The debug registers (10_state.md R39; 45_system_registers.md R275, R276) -/

/-- The debug register a number names: DR4 and DR5 are other names of DR6 and DR7. -/
def drAlias (n : BitVec 3) : BitVec 3 := if n = 4 then 6 else if n = 5 then 7 else n

theorem drAlias_cases (n : BitVec 3) :
    drAlias n = 0 ∨ drAlias n = 1 ∨ drAlias n = 2 ∨ drAlias n = 3 ∨ drAlias n = 6 ∨ drAlias n = 7 := by
  revert n
  decide

theorem Drs.get_drAlias (d : Drs) (n : BitVec 3) : d.get (drAlias n) = d.get n := by
  unfold drAlias
  split_ifs with four five
  · rw [four]; rfl
  · rw [five]; rfl
  · rfl

theorem Drs.set_drAlias (d : Drs) (n : BitVec 3) (v : Word) : d.set (drAlias n) v = d.set n v := by
  unfold drAlias
  split_ifs with four five
  · rw [four]; rfl
  · rw [five]; rfl
  · rfl

theorem Drs.get_set_drAlias_same (d : Drs) (n : BitVec 3) (v : Word) : (d.set (drAlias n) v).get n = v := by
  rw [← Drs.get_drAlias]
  rcases drAlias_cases n with h | h | h | h | h | h <;> rw [h] <;> rfl

theorem Drs.get_set_drAlias_other (d : Drs) {m n : BitVec 3} (v : Word) (h : drAlias m ≠ drAlias n) :
    (d.set (drAlias n) v).get m = d.get m := by
  rw [← Drs.get_drAlias, ← Drs.get_drAlias d]
  rcases drAlias_cases n with hn | hn | hn | hn | hn | hn <;>
    rcases drAlias_cases m with hm | hm | hm | hm | hm | hm <;>
      simp [hn, hm, Drs.get, Drs.set] at h ⊢

section Moves
variable {s : State} {p : List Pfx} {n : BitVec 3} {r : Gpr}

theorem exec_movToDr (hv : s.vm = false) (h : s.pe = false ∨ s.cpl = 0) : exec (.movToDr p n r) s =
    .next { s with dr := s.dr.set (drAlias n) (s.gpr.get r), eip := s.nextEip (.movToDr p n r) } := by
  rw [Drs.set_drAlias]
  exact (State.run_crGate_pass hv h).trans (State.run_modifyWork_advance rfl)

theorem exec_movFromDr (hv : s.vm = false) (h : s.pe = false ∨ s.cpl = 0) : exec (.movFromDr p n r) s =
    .next { s with gpr := s.gpr.set r (s.dr.get (drAlias n)), eip := s.nextEip (.movFromDr p n r) } := by
  rw [Drs.get_drAlias]
  exact (State.run_crGate_pass hv h).trans (State.run_modifyWork_advance rfl)

end Moves

/-- Settles O35: the gate, then one register written, the number read through its alias. -/
theorem movDrMoves : Obligations.MovDrMoves := fun s _ n _ =>
  ⟨fun h => ⟨State.run_crGate_denied h, State.run_crGate_denied h⟩, fun hv h =>
    ⟨exec_movToDr hv h, exec_movFromDr hv h, s.dr.get_set_drAlias_same n _,
      fun _ => s.dr.get_set_drAlias_other _⟩⟩

/-! ### CLI and STI (45_system_registers.md R281, R282) -/

/-- In V86 mode IOPL decides alone, outside it together with CPL (40_privilege_checks.md R133). -/
theorem ioPermitted_iff (n iopl : Level) (vm : Bool) :
    ioPermitted n iopl vm = true ↔ (vm = true ∧ iopl = 3) ∨ (vm = false ∧ n ≤ iopl) := by
  cases vm <;> simp [ioPermitted]

theorem Normal.clear_if {v : Word} (h : Normal v) : eflagsWrite (setBit v bitIF false) = v &&& ~~~0x200#32 :=
  h.clear (m := 0x200#32) (by decide)

theorem Normal.set_if {v : Word} (h : Normal v) : eflagsWrite (setBit v bitIF true) = v ||| 0x200#32 :=
  h.set (m := 0x200#32) (by decide)

/-- Settles O36: the gate, then IF written in an EFLAGS that a write leaves normal. -/
theorem cliAndSti : Obligations.CliAndSti := by
  refine ⟨ioPermitted_iff, fun s p => ⟨fun h => ⟨State.run_ioGate_raise h, State.run_ioGate_raise h⟩,
    fun h normal => ?_⟩⟩
  have flag {b : Bool} {next : Word} : s.run (ioGate >>= fun _ => modifyWork (fun w => w.withFlag bitIF b) >>= fun _ =>
      advance next) = .next { s.withFlag bitIF b with eip := next } :=
    (State.run_ioGate_pass h).trans (State.run_modifyWork_advance rfl)
  rw [← Normal.clear_if normal, ← Normal.set_if normal]
  exact ⟨flag, flag⟩

/-! ### POPF (45_system_registers.md R284) -/

/-- A pop as the first access of an operation reads the slot and moves ESP past it (40_privilege_checks.md R137). -/
theorem pop_start {s : State} {w : Nat} (h : s.canPeek 0#32 w = true) : pop w (Ctx.start s) =
    .ok (s.peek 0#32 w) { Ctx.start s with work := s.setEsp (s.gpr.esp + BitVec.ofNat 32 w) } := by
  simp [pop, peekStack_fresh (fresh_start s) 0#32 w h]

/-- VM and RF are two of the bits no merge changes (43_interrupts.md R225). -/
theorem State.mergeFlags_vm_rf (s : State) (fl : Word) (wide : Bool) :
    (s.mergeFlags fl wide).eflags &&& 0x00030000 = s.eflags &&& 0x00030000 := by
  have within : (0x00030000 : Word) = 0x001B0000 &&& 0x00030000 := by decide
  rw [within, ← BitVec.and_assoc, ← BitVec.and_assoc, s.mergeFlags_system]

theorem exec_popf {s : State} {p : List Pfx} (gate : s.vm = true → s.iopl = 3)
    (h : s.canPeek 0#32 (widthBytes (s.opSize p)) = true) : exec (.popf p) s =
      .next { ((s.setEsp (s.gpr.esp + BitVec.ofNat 32 (widthBytes (s.opSize p)))).mergeFlags
        (s.peek 0#32 (widthBytes (s.opSize p))) (s.opSize p)) with eip := s.nextEip (.popf p) } := by
  have popped : exec (.popf p) s = s.run (pop (widthBytes (s.opSize p)) >>= fun v =>
      modifyWork (fun w => w.mergeFlags v (s.opSize p)) >>= fun _ => advance (s.nextEip (.popf p))) :=
    State.run_v86IoplGate_pass gate
  rw [popped, ← bind_assoc]
  exact State.run_bind_advance _ (by simp only [bind_apply, pop_start h, modifyWork_apply]) rfl

/-- Settles O38: the gate, the pop, and the merge by the flags before it; moving ESP changes no flag. -/
theorem popfMerges : Obligations.PopfMerges := by
  intro s p
  refine ⟨fun hv h => State.run_v86IoplGate_raise hv h, fun gate h => ⟨exec_popf gate h, ?_⟩⟩
  exact ⟨State.mergeFlags_vm_rf _ _ _, State.mergeFlags_iopl _ _ _, State.mergeFlags_if _ _ _⟩

end Sys2Proof.Machine
end

section
/-! SUPPORT. How an operation that does not complete ends (60_exceptions.md R303, R312): what a fault leaves and what a refusal
leaves, each use of a 286 descriptor as a refusal, and the statements about them settled. -/

namespace Sys2Proof.Machine

/-! ### Faults (60_exceptions.md R301, R303, R304) -/

/-! The pending fault and the mark are kept by every operation that completes, and by the commit of a task switch. -/

theorem Plain.work_marks {s : State} {c : Ctx} (h : Plain s c) :
    c.work.pendingFault = s.pendingFault ∧ c.work.refused = s.refused := by
  obtain ⟨-, -, pending, refused⟩ := h
  exact ⟨pending, refused⟩

theorem marks_of_kept {s t : State} (h : t.kept = s.kept) : t.pendingFault = s.pendingFault ∧ t.refused = s.refused := by
  obtain ⟨-, -, -, -, -, pending, refused, -⟩ := kept_fields h
  exact ⟨pending, refused⟩

theorem After.base_marks {s : State} {c : Ctx} (h : After s c) :
    c.base.pendingFault = s.pendingFault ∧ c.base.refused = s.refused := by
  obtain ⟨-, base, -⟩ := h
  exact marks_of_kept base

theorem After.work_marks {s : State} {c : Ctx} (h : After s c) :
    c.work.pendingFault = s.pendingFault ∧ c.work.refused = s.refused := by
  obtain ⟨-, -, work, -⟩ := h
  exact marks_of_kept work

theorem Ends.work_marks {s : State} {c : Ctx} (h : Ends s c) :
    c.work.pendingFault = s.pendingFault ∧ c.work.refused = s.refused := by
  rcases h with before | after
  · exact before.plain.work_marks
  · exact after.work_marks

/-- An operation begun with no fault pending leaves one only by raising it: with nothing committed, or after a task switch. -/
theorem exec_raises {i : Instr} {s t : State} {f : PendingFault} (clear : s.pendingFault = none) (h : exec i s = .next t)
    (hf : t.pendingFault = some f) : ∃ g : FaultCode, g.Proper ∧
      (t = s.takeFault g ∨ (i.maySwitch = true ∧ ∃ c, After s c ∧ t = c.base.takeFault g)) := by
  have changed : t.pendingFault ≠ s.pendingFault := by simp [hf, clear]
  by_cases delivery : i = .exceptionDelivery
  · subst delivery
    obtain ⟨_, _, pending, -⟩ := delivery_cases s t h
    simp [clear] at pending
  · cases exec_cases i s t delivery h with
    | commit c e plain _ => exact absurd (e ▸ plain.work_marks.1) changed
    | switch c e after _ => exact absurd (e ▸ after.work_marks.1) changed
    | fault g proper e => exact ⟨g, proper, .inl e⟩
    | faultAfter g c e after may proper => exact ⟨g, proper, .inr ⟨may, c, after, e⟩⟩
    | refuse e => exact absurd (e ▸ rfl) changed

/-- Settles O16: the fault is raised with nothing committed, or in the task a switch has entered; `takeFault` says what it leaves. -/
theorem faultChangesNothingElse : Obligations.FaultChangesNothingElse := by
  intro i s t f clear h hf
  obtain ⟨g, ⟨noCr2, noError⟩, rfl | ⟨may, c, after, rfl⟩⟩ := exec_raises clear h hf
  · cases hf
    exact ⟨noError, .inl ⟨rfl, rfl, fun notPage => congrArg (·.getD s.cr2) (noCr2 notPage)⟩⟩
  · obtain ⟨-, -, -, ⟨taskSwitched, trValid⟩, -⟩ := after
    cases hf
    exact ⟨noError, .inr ⟨may, taskSwitched, trValid, rfl⟩⟩

/-! ### What a refusal leaves (60_exceptions.md R312) -/

theorem nestedFault_refused {s t : State} {f : PendingFault} {f2 : FaultCode} (h : nestedFault s f f2 = .next t) :
    t.refused = s.refused := by
  unfold nestedFault at h
  split at h
  · cases h; rfl
  · split_ifs at h
    cases h; rfl
  · cases h

/-- An operation keeps the mark as it was, or sets it and changes nothing else. -/
theorem exec_refused {i : Instr} {s t : State} (h : exec i s = .next t) :
    t.refused = s.refused ∨ t = { s with refused := true } := by
  by_cases delivery : i = .exceptionDelivery
  · subst delivery
    obtain ⟨f, s0, -, rfl, can⟩ := delivery_cases s t h
    cases can with
    | commit c e ends => exact .inl (e ▸ ends.work_marks.2)
    | faultAfter f2 c e after => exact .inl (e ▸ after.base_marks.2)
    | nested f2 _ e => exact .inl (nestedFault_refused e)
    | refuse e => exact .inr e
  · cases exec_cases i s t delivery h with
    | commit c e plain _ => exact .inl (e ▸ plain.work_marks.2)
    | switch c e after _ => exact .inl (e ▸ after.work_marks.2)
    | fault f _ e => exact .inl (e ▸ rfl)
    | faultAfter f c e after _ _ => exact .inl (e ▸ after.base_marks.2)
    | refuse e => exact .inr e

/-! ### The uses of a 286 descriptor (60_exceptions.md R312) -/

theorem State.run_refuse {s : State} {op : Op Unit} (h : op (Ctx.start s) = .error .refuse (Ctx.start s)) :
    s.run op = .next { s with refused := true } := by
  simp [State.run, h]

theorem DescKind.is286_cases {k : DescKind} (h : k.is286 = true) : k = .tss286 ∨ k = .gate286 := by
  cases k <;> simp [DescKind.is286] at h ⊢

theorem jumpDispatch_of_is286 {sel : Sel} {d : Desc} {off : Word} {wide : Bool} {next : Word} (h : d.kind.is286 = true) :
    jumpDispatch sel d off wide next = refuse286 := by
  rcases DescKind.is286_cases h with hk | hk <;> rw [jumpDispatch, hk]

theorem callDispatch_of_is286 {sel : Sel} {d : Desc} {off : Word} {wide : Bool} {next : Word} (h : d.kind.is286 = true) :
    callDispatch sel d off wide next = refuse286 := by
  rcases DescKind.is286_cases h with hk | hk <;> rw [callDispatch, hk]

/-- A far CALL in protected mode, its descriptor found, dispatches by the descriptor's kind (42_control_transfer.md R185). -/
theorem CallsTo.exec_eq_run {s : State} {i : Instr} {sel : Sel} {off : Word} {wide : Bool} {d : Desc}
    (h : CallsTo s i sel off wide) (hu : s.unchecked = false) (hnull : isNull sel = false) (hm : s.canLookup sel = true)
    (hd : s.lookup sel = some d) : exec i s = s.run (callDispatch sel d off wide (s.nextEip i)) := by
  have checked : s.run (farCall sel off wide (s.nextEip i)) =
      s.run (raiseIf (isNull sel) (.gp 0) >>= fun _ => requireDesc sel (.gp (errSel sel)) >>= fun d =>
        callDispatch sel d off wide (s.nextEip i)) := by simp [State.run, farCall, hu]
  rw [call_run h, checked, State.run_raiseIf_pass hnull, State.run_requireDesc hm hd]

/-- LTR looks at the kind before it writes anything (41_segment_loading.md R161). -/
theorem ltrOp_refuses {s : State} (hq : s.SystemQuiet) {sel : Sel} {d : Desc} (hnull : isNull sel = false)
    (hti : selTi sel = false) (hd : s.lookup sel = some d) (hk : d.kind = .tss286) :
    ltrOp sel (Ctx.start s) = .error .refuse (Ctx.start s) := by
  have found := requireDesc_some (fresh_start s) sel (.gp (errSel sel)) d (hq.canLookup sel) hd
  simp [ltrOp, hnull, hti, found, hk]

/-- A gate of the IDT that leads to a refusal: a 286 gate, or a task gate that passes its checks and names a 286 TSS. -/
def State.IdtRefuses (s : State) (v : BitVec 8) (tag : IntTag) : Prop :=
  (s.idtGate v).kind = .gate286 ∨
    ((s.idtGate v).kind = .taskGate ∧ (tag = .software → s.cpl ≤ (s.idtGate v).dpl) ∧ (s.idtGate v).present = true ∧
      selTi (s.idtGate v).gateSel = false ∧ ∃ d, s.lookup (s.idtGate v).gateSel = some d ∧ d.kind = .tss286)

/-- `Interrupt` of such a gate, past the IOPL check and the limit of the IDT (43_interrupts.md R211 to R213). -/
theorem interrupt_refuses {s : State} (hq : s.SystemQuiet) {v : BitVec 8} {tag : IntTag} (b : Bool) (err : Option Word)
    (ret : Word) (hpe : s.pe = true) (hiopl : s.vm = true → tag = .software → s.iopl = 3) (hidt : s.hasIdtGate v = true)
    (h : s.IdtRefuses v tag) : interrupt v tag b err ret (Ctx.start s) = .error .refuse (Ctx.start s) := by
  rcases h with gate286 | ⟨taskGate, allowed, present, inGdt, d, found, tss286⟩
  · rw [interrupt_gate s hq v tag b err ret hpe hiopl hidt]
    simp [gate286]
  · have dpl : ¬(tag = .software ∧ (s.idtGate v).dpl < s.cpl) := fun ⟨soft, below⟩ => BitVec.not_lt.2 (allowed soft) below
    have passes : s.idtFault v tag = none := by
      simp only [State.idtFault, taskGate, hidt, present, if_neg dpl]
      simpa [DescKind.isIdtGate] using hiopl
    rw [interrupt_taskGate hq b err ret hpe passes taskGate]
    exact switchTask_refuses (fresh_start s) hq _ .callInt ret err d inGdt found tss286

/-- Settles O17: every ending of an operation keeps the mark but a refusal, and each use of a 286 descriptor refuses before
anything is committed. A pending fault, emptied while it is delivered, changes none of the checks. -/
theorem refusalSetsOnlyTheMark : Obligations.RefusalSetsOnlyTheMark := by
  refine ⟨fun i s t clear h marked => ?mark, fun i s sel off wide d transfer hu hnull hq hd h286 => ?transfer,
    fun i s tss mode ret d hi hq inGdt found tss286 => ?switch,
    fun s p x d hu h0 hq hnull hti found tss286 => ?ltr,
    fun i s s0 v tag err ret hi hq hpe hiopl hidt refuses => ?interrupt⟩
  case mark =>
    refine (exec_refused h).resolve_left fun kept => ?_
    rw [kept, clear] at marked
    cases marked
  case transfer =>
    have refuses : s.run refuse286 = .next { s with refused := true } := State.run_refuse rfl
    rcases transfer with jump | call
    · rw [jump.exec_eq_run hu hnull (hq.canLookup sel) hd, jumpDispatch_of_is286 h286, refuses]
    · rw [call.exec_eq_run hu hnull (hq.canLookup sel) hd, callDispatch_of_is286 h286, refuses]
  case switch =>
    rw [switches_run hi hq.system]
    exact State.run_refuse (switchTask_refuses (fresh_start s) hq.system tss mode ret none d inGdt found tss286)
  case ltr =>
    rw [exec_ltr hu h0 (hq.canReadRm p x)]
    exact State.run_refuse (by simp only [bind_apply, ltrOp_refuses hq.system hnull hti found tss286])
  case interrupt =>
    refine interrupts_refuse hi (Ctx.start s0) rfl fun b _ => ?_
    have hq0 := (hi.quiet hq).system
    rcases hi.start_state with rfl | rfl <;> exact interrupt_refuses hq0 b err ret hpe hiopl hidt refuses

end Sys2Proof.Machine
end

section
/-! SUPPORT. The decoder and the encoder as inverses (30_encoding.md): an encoding is decoded to its instruction, what decodes was
encoded so, the encodings R95 lists, and the statements about them settled. -/

namespace Sys2Proof

/-! ### An encoding decodes to its instruction (30_encoding.md R92 to R96) -/

/-- Every instruction that has an encoding begins, after its prefixes, with an opcode byte. -/
theorem opcodeHead : ∀ i : Instr, Laws.OpcodeHead.Statement i
  | .jmpFarPtr p off sel => Laws.OpcodeHead.jmpFarPtr p off sel
  | .jmpFarMem p m => Laws.OpcodeHead.jmpFarMem p m
  | .callFarPtr p off sel => Laws.OpcodeHead.callFarPtr p off sel
  | .callFarMem p m => Laws.OpcodeHead.callFarMem p m
  | .retf p => Laws.OpcodeHead.retf p
  | .retfImm p imm => Laws.OpcodeHead.retfImm p imm
  | .iret p => Laws.OpcodeHead.iret p
  | .int3 p => Laws.OpcodeHead.int3 p
  | .intImm p v => Laws.OpcodeHead.intImm p v
  | .into p => Laws.OpcodeHead.into p
  | .movEs p src => Laws.OpcodeHead.movEs p src
  | .movSs p src => Laws.OpcodeHead.movSs p src
  | .movDs p src => Laws.OpcodeHead.movDs p src
  | .movFs p src => Laws.OpcodeHead.movFs p src
  | .movGs p src => Laws.OpcodeHead.movGs p src
  | .popEs p => Laws.OpcodeHead.popEs p
  | .popSs p => Laws.OpcodeHead.popSs p
  | .popDs p => Laws.OpcodeHead.popDs p
  | .popFs p => Laws.OpcodeHead.popFs p
  | .popGs p => Laws.OpcodeHead.popGs p
  | .les p r m => Laws.OpcodeHead.les p r m
  | .lds p r m => Laws.OpcodeHead.lds p r m
  | .lss p r m => Laws.OpcodeHead.lss p r m
  | .lfs p r m => Laws.OpcodeHead.lfs p r m
  | .lgs p r m => Laws.OpcodeHead.lgs p r m
  | .lldt p src => Laws.OpcodeHead.lldt p src
  | .ltr p src => Laws.OpcodeHead.ltr p src
  | .verr p src => Laws.OpcodeHead.verr p src
  | .verw p src => Laws.OpcodeHead.verw p src
  | .sgdt p m => Laws.OpcodeHead.sgdt p m
  | .sidt p m => Laws.OpcodeHead.sidt p m
  | .lgdt p m => Laws.OpcodeHead.lgdt p m
  | .lidt p m => Laws.OpcodeHead.lidt p m
  | .arpl p dst src => Laws.OpcodeHead.arpl p dst src
  | .lar p r src => Laws.OpcodeHead.lar p r src
  | .lsl p r src => Laws.OpcodeHead.lsl p r src
  | .movFromCr p n r => Laws.OpcodeHead.movFromCr p n r
  | .movToCr p n r => Laws.OpcodeHead.movToCr p n r
  | .movFromDr p n r => Laws.OpcodeHead.movFromDr p n r
  | .movToDr p n r => Laws.OpcodeHead.movToDr p n r
  | .cli p => Laws.OpcodeHead.cli p
  | .sti p => Laws.OpcodeHead.sti p
  | .pushf p => Laws.OpcodeHead.pushf p
  | .popf p => Laws.OpcodeHead.popf p
  | .hardwareInterrupt v => Laws.OpcodeHead.hardwareInterrupt v
  | .exceptionDelivery => Laws.OpcodeHead.exceptionDelivery

/-- An instruction with a ModRM byte that names a control or debug register is read back. -/
theorem withReg_enc (why : BitVec 3 → Reject) (n : BitVec 3) (r : Gpr) (bs : List Byte) (k : BitVec 3 → Gpr → Instr) :
    withReg why (modrmByte 3 n r.code :: bs) k = .ok (k n r, bs) := by
  simp [withReg, take8]

/-- The bytes after the prefixes are read back, one reader of the decoder per form of the opcode map. -/
theorem decodeBody_encodeBody (big : Bool) (i : Instr) (rest : List Byte) (h : i.operandsWf big = true) :
    decodeBody big i.pfxs (encodeBody big i ++ rest) = .ok (i, rest) := by
  cases i with
  | retf p | iret p | int3 p | intImm p v | into p | popEs p | popSs p | popDs p | popFs p | popGs p | cli p | sti p
  | pushf p | popf p => rfl
  | jmpFarPtr p off sel | callFarPtr p off sel => exact withFarPtr_enc _ off sel h rest _
  | retfImm p imm =>
    show Except.map (fun (v, bs) => (Instr.retfImm p v, bs)) (take16 (le16 imm ++ rest)) = _
    rw [take16_le16]; rfl
  | movEs p x | movSs p x | movDs p x | movFs p x | movGs p x | lldt p x | ltr p x | verr p x | verw p x =>
    simp only [Instr.pfxs, encodeBody, List.cons_append, decodeBody, decode0F]
    apply withRm_enc _ _ x h; rfl
  | arpl p x r | lar p r x | lsl p r x =>
    simp only [Instr.pfxs, encodeBody, List.cons_append, decodeBody, decode0F]
    apply withRm_enc _ _ x h; rw [Gpr.ofCode_code]
  | jmpFarMem p m | callFarMem p m | sgdt p m | sidt p m | lgdt p m | lidt p m =>
    simp only [Instr.pfxs, encodeBody, List.cons_append, decodeBody, decode0F]
    apply withMem_enc _ _ m h; rfl
  | les p r m | lds p r m | lss p r m | lfs p r m | lgs p r m =>
    simp only [Instr.pfxs, encodeBody, List.cons_append, decodeBody, decode0F]
    apply withMem_enc _ _ m h; rw [Gpr.ofCode_code]
  | movFromCr p n r | movToCr p n r | movFromDr p n r | movToDr p n r =>
    simp only [Instr.pfxs, encodeBody, List.cons_append, decodeBody, decode0F]
    apply withReg_enc
  | hardwareInterrupt v | exceptionDelivery => cases h

/-- The decoder splits an encoding where the encoder put its prefixes. -/
theorem splitPfxs_encode (big : Bool) (i : Instr) (rest : List Byte) (h : i.operandsWf big = true) :
    splitPfxs (encode big i ++ rest) = (i.pfxs, encodeBody big i ++ rest) := by
  obtain ⟨b, bs, body, notPrefix⟩ := opcodeHead i big h
  rw [encode, List.append_assoc, body]
  exact splitPfxs_map_byte i.pfxs b (bs ++ rest) notPrefix

/-- Settles O1: the prefixes split off where they were put, each form's operands are read back, and the length is the
encoding's. -/
theorem decodeOfEncode : Obligations.DecodeOfEncode := by
  intro big i rest h
  simp only [WellFormed, Bool.and_eq_true, decide_eq_true_eq] at h
  obtain ⟨operands, size⟩ := h
  have length : (encode big i ++ rest).length - rest.length ≤ 15 := by simpa [Instr.size] using size
  simp only [decode, splitPfxs_encode big i rest operands, decodeBody_encodeBody big i rest operands, if_pos length]

/-! ### What decodes was encoded so (30_encoding.md R92 to R96) -/

/-- A value a reader turns into another one was read first. -/
theorem map_parsed_ok {α β : Type} {f : α × List Byte → β × List Byte} {x : Parsed α} {y : β × List Byte}
    (h : x.map f = .ok y) : ∃ a, x = .ok a ∧ f a = y := by
  cases x with
  | error e => cases h
  | ok a => exact ⟨a, rfl, Except.ok.inj h⟩

theorem take8_ok {bs rest : List Byte} {b : Byte} (h : take8 bs = .ok (b, rest)) : bs = b :: rest := by
  match bs, h with
  | _ :: _, h => cases h; rfl

theorem take16_ok {bs rest : List Byte} {v : BitVec 16} (h : take16 bs = .ok (v, rest)) : le16 v ++ rest = bs := by
  match bs, h with
  | b0 :: b1 :: _, h => cases h; rw [le16_take16]; rfl

theorem take32_ok {bs rest : List Byte} {v : BitVec 32} (h : take32 bs = .ok (v, rest)) : le32 v ++ rest = bs := by
  match bs, h with
  | b0 :: b1 :: b2 :: b3 :: _, h => cases h; rw [le32_take32]; rfl

/-- The mod fields that name memory. -/
theorem mod_cases {m : BitVec 2} (h : m ≠ 3) : m = 0 ∨ m = 1 ∨ m = 2 := by revert m; decide

theorem takeDisp16_ok {m : BitVec 2} {bs rest : List Byte} {d : Disp 16} (hm : m ≠ 3)
    (h : takeDisp16 m bs = .ok (d, rest)) : d.mod = m ∧ d.bytes16 ++ rest = bs := by
  rcases mod_cases hm with rfl | rfl | rfl
  · cases h; exact ⟨rfl, rfl⟩
  · obtain ⟨⟨b, _⟩, hb, e⟩ := map_parsed_ok h
    cases e; exact ⟨rfl, (take8_ok hb).symm⟩
  · obtain ⟨⟨v, _⟩, hv, e⟩ := map_parsed_ok h
    cases e; exact ⟨rfl, take16_ok hv⟩

theorem takeDisp32_ok {m : BitVec 2} {bs rest : List Byte} {d : Disp 32} (hm : m ≠ 3)
    (h : takeDisp32 m bs = .ok (d, rest)) : d.mod = m ∧ d.bytes32 ++ rest = bs := by
  rcases mod_cases hm with rfl | rfl | rfl
  · cases h; exact ⟨rfl, rfl⟩
  · obtain ⟨⟨b, _⟩, hb, e⟩ := map_parsed_ok h
    cases e; exact ⟨rfl, (take8_ok hb).symm⟩
  · obtain ⟨⟨v, _⟩, hv, e⟩ := map_parsed_ok h
    cases e; exact ⟨rfl, take32_ok hv⟩

/-- A base with no displacement is not the form that stands for an absolute address. -/
theorem base_of_displacement {n : Nat} {d : Disp n} {c : BitVec 3} (h : ¬(c = 5 ∧ d.mod = 0)) :
    (Gpr.ofCode c == .ebp && d == .none) = false := by
  rw [Bool.and_eq_false_iff, beq_eq_false_iff_ne, beq_eq_false_iff_ne, ← not_and_or]
  rintro ⟨base, rfl⟩
  exact h ⟨by rw [← Gpr.code_ofCode c, base]; rfl, rfl⟩

theorem base16_of_displacement {d : Disp 16} {c : BitVec 3} (h : ¬(c = 6 ∧ d.mod = 0)) :
    (Base16.ofCode c == .bp && d == .none) = false := by
  rw [Bool.and_eq_false_iff, beq_eq_false_iff_ne, beq_eq_false_iff_ne, ← not_and_or]
  rintro ⟨base, rfl⟩
  exact h ⟨by rw [← Base16.code_ofCode c, base]; rfl, rfl⟩

/-- The memory operand behind a SIB byte can be encoded, and its bytes are those it was read from. -/
theorem takeSib_ok {m : BitVec 2} {bs rest : List Byte} {x : MemOp} (hm : m ≠ 3) (h : takeSib m bs = .ok (x, rest)) :
    x.wf true = true ∧ ∀ reg, encodeMem reg x ++ rest = modrmByte m reg 4 :: bs := by
  unfold takeSib at h
  split at h
  · cases h
  next s tail hs =>
    rw [take8_ok hs]
    split at h
    next absolute =>
      obtain ⟨rm, rfl⟩ := absolute
      obtain ⟨⟨d, _⟩, hd, e⟩ := map_parsed_ok h
      cases e
      refine ⟨rfl, fun reg => ?_⟩
      have sib := modrmByte_fields s
      rw [rm] at sib
      simp only [encodeMem, Gpr.code_ofCode, sib, List.cons_append, take32_ok hd]
    next based =>
      obtain ⟨⟨d, _⟩, hd, e⟩ := map_parsed_ok h
      cases e
      obtain ⟨rfl, bytes⟩ := takeDisp32_ok hm hd
      refine ⟨by simp only [MemOp.wf, base_of_displacement based]; rfl, fun reg => ?_⟩
      simp only [encodeMem, Gpr.code_ofCode, modrmByte_fields, List.cons_append, bytes]

/-- The memory operand of a ModRM byte can be encoded, and its bytes are those it was read from. -/
theorem takeMem_ok {wide : Bool} {m : BitVec 2} {rm : BitVec 3} {bs rest : List Byte} {x : MemOp} (hm : m ≠ 3)
    (h : takeMem wide m rm bs = .ok (x, rest)) :
    x.wf wide = true ∧ ∀ reg, encodeMem reg x ++ rest = modrmByte m reg rm :: bs := by
  unfold takeMem at h
  split_ifs at h with hw sib absolute absolute
  · subst hw sib
    exact takeSib_ok hm h
  · subst hw
    obtain ⟨rfl, rfl⟩ := absolute
    obtain ⟨⟨d, _⟩, hd, e⟩ := map_parsed_ok h
    cases e
    exact ⟨rfl, fun reg => by simp only [encodeMem, List.cons_append, take32_ok hd]⟩
  · subst hw
    obtain ⟨⟨d, _⟩, hd, e⟩ := map_parsed_ok h
    cases e
    obtain ⟨rfl, bytes⟩ := takeDisp32_ok hm hd
    have notEsp : (Gpr.ofCode rm != .esp) = true :=
      bne_iff_ne.2 fun base => sib (by rw [← Gpr.code_ofCode rm, base]; rfl)
    exact ⟨by simp only [MemOp.wf, notEsp, base_of_displacement absolute]; rfl,
      fun reg => by simp only [encodeMem, Gpr.code_ofCode, List.cons_append, bytes]⟩
  · obtain ⟨rfl, rfl⟩ := absolute
    obtain ⟨⟨d, _⟩, hd, e⟩ := map_parsed_ok h
    cases e
    exact ⟨by simpa [MemOp.wf] using hw, fun reg => by simp only [encodeMem, List.cons_append, take16_ok hd]⟩
  · obtain ⟨⟨d, _⟩, hd, e⟩ := map_parsed_ok h
    cases e
    obtain ⟨rfl, bytes⟩ := takeDisp16_ok hm hd
    exact ⟨by simp only [MemOp.wf, base16_of_displacement absolute, Bool.eq_false_iff.2 hw]; rfl,
      fun reg => by simp only [encodeMem, Base16.code_ofCode, List.cons_append, bytes]⟩

theorem takeRm_ok {wide : Bool} {m : BitVec 2} {rm : BitVec 3} {bs rest : List Byte} {x : RmOp}
    (h : takeRm wide m rm bs = .ok (x, rest)) :
    x.wf wide = true ∧ ∀ reg, encodeRm reg x ++ rest = modrmByte m reg rm :: bs := by
  unfold takeRm at h
  split_ifs at h with hm
  · cases h; subst hm
    exact ⟨rfl, fun reg => by simp only [encodeRm, Gpr.code_ofCode, List.cons_append, List.nil_append]⟩
  · obtain ⟨⟨y, _⟩, hy, e⟩ := map_parsed_ok h
    cases e
    exact takeMem_ok hm hy

section
variable {wide : Bool} {why : BitVec 3 → Reject} {bs rest : List Byte} {i : Instr}

theorem withRm_ok {k : BitVec 3 → Option (RmOp → Instr)} (h : withRm wide why bs k = .ok (i, rest)) :
    ∃ reg f x, k reg = some f ∧ i = f x ∧ x.wf wide = true ∧ encodeRm reg x ++ rest = bs := by
  unfold withRm at h
  split at h
  · cases h
  next b tail hb =>
    split at h
    · cases h
    next f hf =>
      obtain ⟨⟨x, _⟩, hx, e⟩ := map_parsed_ok h
      cases e
      obtain ⟨operand, bytes⟩ := takeRm_ok hx
      exact ⟨_, f, x, hf, rfl, operand, by rw [bytes, modrmByte_fields, take8_ok hb]⟩

theorem withMem_ok {k : BitVec 3 → Option (MemOp → Instr)} (h : withMem wide why bs k = .ok (i, rest)) :
    ∃ reg f x, k reg = some f ∧ i = f x ∧ x.wf wide = true ∧ encodeMem reg x ++ rest = bs := by
  unfold withMem at h
  split at h
  · cases h
  next b tail hb =>
    split at h
    · cases h
    next f hf =>
      split_ifs at h with hm
      obtain ⟨⟨x, _⟩, hx, e⟩ := map_parsed_ok h
      cases e
      obtain ⟨operand, bytes⟩ := takeMem_ok hm hx
      exact ⟨_, f, x, hf, rfl, operand, by rw [bytes, modrmByte_fields, take8_ok hb]⟩

theorem withReg_ok {k : BitVec 3 → Gpr → Instr} (h : withReg why bs k = .ok (i, rest)) :
    ∃ n r, i = k n r ∧ modrmByte 3 n r.code :: rest = bs := by
  unfold withReg at h
  split at h
  · cases h
  next b tail hb =>
    split_ifs at h with hm
    cases h
    exact ⟨_, _, rfl, by rw [Gpr.code_ofCode, ← hm, modrmByte_fields, take8_ok hb]⟩

theorem withFarPtr_ok {k : BitVec 32 → BitVec 16 → Instr} (h : withFarPtr wide bs k = .ok (i, rest)) :
    ∃ off sel, i = k off sel ∧ offWf wide off = true ∧ encodeOff wide off ++ le16 sel ++ rest = bs := by
  unfold withFarPtr at h
  split at h
  · cases h
  next off tail hoff =>
    obtain ⟨⟨sel, _⟩, hsel, e⟩ := map_parsed_ok h
    cases e
    refine ⟨off, sel, rfl, ?_⟩
    rw [List.append_assoc, take16_ok hsel]
    split_ifs at hoff with hw
    · subst hw
      exact ⟨rfl, take32_ok hoff⟩
    · obtain ⟨⟨o, _⟩, ho, e⟩ := map_parsed_ok hoff
      cases e
      have short : (o.setWidth 32).setWidth 16 = o := BitVec.setWidth_setWidth_of_le o (by decide)
      have fits : (o.setWidth 32).toNat < 65536 := by
        rw [BitVec.toNat_setWidth_of_le (by decide)]
        exact o.isLt
      rw [Bool.eq_false_iff.2 hw]
      exact ⟨by simpa [offWf] using fits, by rw [encodeOff, if_neg Bool.false_ne_true, short, take16_ok ho]⟩

end

/-- The instruction has the prefixes `p`, its operands can be encoded, and its bytes after the prefixes are those of `bs` up to
`rest`. -/
structure ReadFrom (big : Bool) (p : List Pfx) (bs : List Byte) (i : Instr) (rest : List Byte) : Prop where
  pfxs : i.pfxs = p
  operands : i.operandsWf big = true
  bytes : encodeBody big i ++ rest = bs

/-- The field of a number. -/
theorem bits_eq {n k : Nat} {b : BitVec n} (h : b.toNat = k) : b = BitVec.ofNat n k := by
  rw [← h, BitVec.ofNat_toNat, BitVec.setWidth_eq]

/-- What decodes behind the byte 0F was encoded so, form by form of the opcode map. -/
theorem decode0F_ok {big : Bool} {p : List Pfx} {op : Byte} {bs rest : List Byte} {i : Instr}
    (h : decode0F big p op bs = .ok (i, rest)) : ReadFrom big p (0x0F :: op :: bs) i rest := by
  unfold decode0F at h
  split at h
  case h_14 => cases h
  all_goals rename_i opcode; obtain rfl := bits_eq opcode
  case h_1 =>
    obtain ⟨reg, f, x, hf, rfl, wf, bytes⟩ := withRm_ok h
    split at hf <;> cases hf
    all_goals rename_i field; obtain rfl := bits_eq field; exact ⟨rfl, wf, congrArg (_ :: _ :: ·) bytes⟩
  case h_2 =>
    obtain ⟨reg, f, x, hf, rfl, wf, bytes⟩ := withMem_ok h
    split at hf <;> cases hf
    all_goals rename_i field; obtain rfl := bits_eq field; exact ⟨rfl, wf, congrArg (_ :: _ :: ·) bytes⟩
  case h_3 | h_4 =>
    obtain ⟨reg, f, x, hf, rfl, wf, bytes⟩ := withRm_ok h
    cases hf
    exact ⟨rfl, wf, by rw [encodeBody, Gpr.code_ofCode]; exact congrArg (_ :: _ :: ·) bytes⟩
  case h_5 | h_6 | h_7 | h_8 =>
    obtain ⟨n, r, rfl, bytes⟩ := withReg_ok h
    exact ⟨rfl, rfl, congrArg (_ :: _ :: ·) bytes⟩
  case h_9 | h_10 => cases h; exact ⟨rfl, rfl, rfl⟩
  case h_11 | h_12 | h_13 =>
    obtain ⟨reg, f, x, hf, rfl, wf, bytes⟩ := withMem_ok h
    cases hf
    exact ⟨rfl, wf, by rw [encodeBody, Gpr.code_ofCode]; exact congrArg (_ :: _ :: ·) bytes⟩

/-- What decodes after the prefixes was encoded so, form by form of the opcode map. -/
theorem decodeBody_ok {big : Bool} {p : List Pfx} {bs rest : List Byte} {i : Instr}
    (h : decodeBody big p bs = .ok (i, rest)) : ReadFrom big p bs i rest := by
  unfold decodeBody at h
  split at h
  · cases h
  split at h
  case h_22 => cases h
  all_goals rename_i opcode; obtain rfl := bits_eq opcode
  case h_2 =>
    split at h
    · cases h
    · exact decode0F_ok h
  case h_5 =>
    obtain ⟨reg, f, x, hf, rfl, wf, bytes⟩ := withRm_ok h
    cases hf
    exact ⟨rfl, wf, by rw [encodeBody, Gpr.code_ofCode]; exact congrArg (_ :: ·) bytes⟩
  case h_6 =>
    obtain ⟨reg, f, x, hf, rfl, wf, bytes⟩ := withRm_ok h
    split at hf <;> cases hf
    all_goals rename_i field; obtain rfl := bits_eq field; exact ⟨rfl, wf, congrArg (_ :: ·) bytes⟩
  case h_21 =>
    obtain ⟨reg, f, x, hf, rfl, wf, bytes⟩ := withMem_ok h
    split at hf <;> cases hf
    all_goals rename_i field; obtain rfl := bits_eq field; exact ⟨rfl, wf, congrArg (_ :: ·) bytes⟩
  case h_10 | h_11 =>
    obtain ⟨reg, f, x, hf, rfl, wf, bytes⟩ := withMem_ok h
    cases hf
    exact ⟨rfl, wf, by rw [encodeBody, Gpr.code_ofCode]; exact congrArg (_ :: ·) bytes⟩
  case h_7 | h_18 =>
    obtain ⟨off, sel, rfl, wf, bytes⟩ := withFarPtr_ok h
    exact ⟨rfl, wf, congrArg (_ :: ·) bytes⟩
  case h_12 =>
    obtain ⟨⟨imm, _⟩, himm, e⟩ := map_parsed_ok h
    cases e; exact ⟨rfl, rfl, congrArg (_ :: ·) (take16_ok himm)⟩
  case h_15 =>
    obtain ⟨⟨v, _⟩, hv, e⟩ := map_parsed_ok h
    cases e; exact ⟨rfl, rfl, congrArg (_ :: ·) (take8_ok hv).symm⟩
  all_goals cases h; exact ⟨rfl, rfl, rfl⟩

/-- Settles O2: what decodes after the prefixes was encoded so, and the prefixes split off are those bytes. -/
theorem encodeOfDecode : Obligations.EncodeOfDecode := by
  intro big bs i rest h
  unfold decode at h
  split at h
  · cases h
  next j tail body =>
    split_ifs at h with size
    cases h
    obtain ⟨pfxs, operands, bytes⟩ := decodeBody_ok body
    have whole : encode big i ++ rest = bs := by
      rw [encode, List.append_assoc, pfxs, bytes, splitPfxs_append]
    refine ⟨?_, whole⟩
    have length := congrArg List.length whole
    rw [List.length_append] at length
    rw [WellFormed, operands, Bool.true_and, decide_eq_true_eq, Instr.size]
    omega


/-! ### The encodings R95 lists -/

/-- Bytes without prefixes are rejected as their opcode is. -/
theorem decode_rejects {big : Bool} {b : Byte} {bs : List Byte} {e : Reject} (notPrefix : Pfx.ofByte b = none)
    (body : decodeBody big [] (b :: bs) = .error e) : decode big (b :: bs) = .error e := by
  simp only [decode, splitPfxs, notPrefix, body]

section
variable {wide : Bool} {why : BitVec 3 → Reject} {e : Reject} {m : BitVec 2} {reg rm : BitVec 3} {rest : List Byte}

theorem withRm_noInstr {k : BitVec 3 → Option (RmOp → Instr)} (h : k reg = none) (he : why reg = e) :
    withRm wide why (modrmByte m reg rm :: rest) k = .error e := by
  simp [withRm, take8, h, he]

theorem withMem_noInstr {k : BitVec 3 → Option (MemOp → Instr)} (h : k reg = none) (he : why reg = e) :
    withMem wide why (modrmByte m reg rm :: rest) k = .error e := by
  simp [withMem, take8, h, he]

theorem withMem_register {k : BitVec 3 → Option (MemOp → Instr)} {f : MemOp → Instr} (h : k reg = some f) :
    withMem wide why (modrmByte 3 reg rm :: rest) k = .error .undefined := by
  simp [withMem, take8, h]

theorem withReg_memory {k : BitVec 3 → Gpr → Instr} (hm : m ≠ 3) (he : why reg = e) :
    withReg why (modrmByte m reg rm :: rest) k = .error e := by
  simp only [withReg, take8, modOf_modrmByte, regOf_modrmByte, if_neg hm, he]
end

/-- Settles O4: each listed form's reader rejects it, for the reg field's meaning or for mod. -/
theorem illegalEncodingsAreUndefined : Obligations.IllegalEncodingsAreUndefined := by
  intro big m reg rm rest
  have lessThanFour : reg < 4 → reg = 0 ∨ reg = 1 ∨ reg = 2 ∨ reg = 3 := by revert reg; decide
  refine ⟨fun h => ?_, fun h => ?_, fun h => ?_, ?_, ?_, ?_, ?_, ?_, fun h => ?_, fun h hm => ⟨?_, ?_⟩, fun h => ?_⟩
  all_goals
    apply decode_rejects rfl
    simp only [decodeBody, decode0F]
  · rcases h with rfl | rfl <;> exact withRm_noInstr rfl rfl
  · rcases h with rfl | rfl | rfl <;> exact withRm_noInstr rfl rfl
  · rcases h with rfl | rfl <;> exact withMem_register rfl
  iterate 5 exact withMem_register rfl
  · rcases lessThanFour h with rfl | rfl | rfl | rfl <;> exact withMem_register rfl
  · rcases h with rfl | rfl | rfl | rfl <;> exact withReg_memory hm rfl
  · rcases h with rfl | rfl | rfl | rfl <;> exact withReg_memory hm rfl
  · rcases h with rfl | rfl | rfl <;> exact withMem_noInstr rfl rfl

/-- Settles O3, by evaluating the decoder on each word. -/
theorem mapWordsDecode : Obligations.MapWordsDecode := by
  refine ⟨?_, ?_, ?_, ?_, ?_, ?_, ?_, ?_, ?_, ?_, ?_, ?_, ?_, ?_, ?_⟩ <;> rfl

end Sys2Proof
end

section
/-! SUPPORT. What the operations that are no transfer leave: the frame of each (registers, segments, flags, level, EIP), the memory
each stores to, and the system registers each writes, with the statements about them settled. -/

namespace Sys2Proof.Machine

/-! ### EFLAGS under a mask -/

/-- The normalised value outside a mask is fixed by the value outside it. -/
theorem eflagsWrite_masked (v m : Word) : eflagsWrite v &&& ~~~m = v &&& ~~~m &&& maskV86All ||| 2#32 &&& ~~~m := by
  ext i hi
  simp only [BitVec.getElem_and, BitVec.getElem_or, eflagsWrite_bit]
  grind

/-- What a merge under a mask leaves outside it. -/
theorem merge_masked (v fl m : Word) : (v &&& ~~~m ||| fl &&& m) &&& ~~~m = v &&& ~~~m := by
  ext i hi
  simp only [BitVec.getElem_and, BitVec.getElem_or, BitVec.getElem_not]
  grind

theorem setBit_masked (v : Word) (n : Nat) (b : Bool) : setBit v n b &&& ~~~(1#32 <<< n) = v &&& ~~~(1#32 <<< n) := by
  ext i hi
  cases b <;> simp only [setBit, if_true, Bool.false_eq_true, if_false, BitVec.getElem_and, BitVec.getElem_or,
    BitVec.getElem_not] <;> grind

/-- A bit of EFLAGS outside a mask is the value's own. -/
theorem masked_bit {v m : Word} {i : Nat} (hi : i < 32) (hm : m[i] = false) (hM : maskV86All[i] = true)
    (h2 : (2#32)[i] = false) : (eflagsWrite v &&& ~~~m)[i] = v[i] := by
  simp [eflagsWrite_bit, hm, hM, h2]

/-- Values that agree outside a mask agree on a bit outside it. -/
theorem bit_of_masked {v w m : Word} (h : eflagsWrite v &&& ~~~m = eflagsWrite w &&& ~~~m) {i : Nat} (hi : i < 32)
    (hm : m[i] = false) (hM : maskV86All[i] = true) (h2 : (2#32)[i] = false) : v[i] = w[i] := by
  rw [← masked_bit hi hm hM h2, ← masked_bit (v := w) hi hm hM h2]
  exact congrArg (fun x : Word => x[i]) h

/-- A null selector is one more segment register written; SS takes none (40_privilege_checks.md R141). -/
theorem State.installNull_eq_setSeg (s : State) {n : SegName} (h : n ≠ .ss) (sel : Sel) :
    s.installNull n sel = s.setSeg n (.null sel) := by
  cases n
  case ss => exact absurd rfl h
  all_goals rfl

theorem State.vm_eq_getElem (s : State) : s.vm = s.eflags[17] := by simp [State.vm, bitVM]

/-- States whose flags agree outside a mask without VM agree on VM. -/
theorem vm_of_masked {s t : State} {m : Word} (h : eflagsWrite t.eflags &&& ~~~m = eflagsWrite s.eflags &&& ~~~m)
    (hm : m[17] = false) : t.vm = s.vm := by
  rw [State.vm_eq_getElem, State.vm_eq_getElem]
  exact bit_of_masked h (by omega) hm rfl rfl

/-- States whose flags agree outside a mask without IOPL agree on IOPL. -/
theorem iopl_of_masked {s t : State} {m : Word} (h : eflagsWrite t.eflags &&& ~~~m = eflagsWrite s.eflags &&& ~~~m)
    (hm : m[12] = false ∧ m[13] = false) : t.iopl = s.iopl := by
  have low := bit_of_masked h (i := 12) (by omega) hm.1 rfl rfl
  have high := bit_of_masked h (i := 13) (by omega) hm.2 rfl rfl
  simp only [State.iopl]
  ext i hi
  match i, hi with
  | 0, _ => simpa using low
  | 1, _ => simpa using high

/-- The merge mask has no VM, and IOPL only at level 0, where it does not depend on IOPL. -/
theorem mergeMaskFor_vm (cpl iopl : Level) (wide : Bool) : (mergeMaskFor cpl iopl wide)[17] = false := by
  revert cpl iopl wide; decide

theorem mergeMaskFor_iopl {cpl : Level} (iopl : Level) (wide : Bool) (h : cpl ≠ 0) :
    (mergeMaskFor cpl iopl wide)[12] = false ∧ (mergeMaskFor cpl iopl wide)[13] = false := by
  revert cpl iopl wide; decide

theorem mergeMaskFor_zero (a b : Level) (wide : Bool) : mergeMaskFor 0 a wide = mergeMaskFor 0 b wide := by
  revert a b wide; decide

/-! ### The frame of an operation -/

/-- What an operation may write: general registers, segment registers, bits of EFLAGS; and the EIP it may end at. -/
structure Frame where
  gprs : Gpr → Bool
  segs : SegName → Bool
  flags : Word
  next : Word

/-- The frame the statements about instruction `i` name. -/
def State.frameOf (s : State) (i : Instr) : Frame := ⟨i.writesGpr, i.writesSeg, i.flagMask s, s.nextEip i⟩

/-- `w` is `s` outside the frame `F`, with the same level, normal flags if those of `s` were, and a stack mask that follows SS if it
did. -/
structure Framed (F : Frame) (s w : State) : Prop where
  gpr : ∀ r, F.gprs r = false → w.gpr.get r = s.gpr.get r
  seg : ∀ n, F.segs n = false → w.seg.get n = s.seg.get n
  stack : F.segs .ss = false → w.stack = s.stack
  stackMask : s.stack = .ofBig s.seg.ss.big → w.stack = .ofBig w.seg.ss.big
  normal : Normal s.eflags → Normal w.eflags
  flags : eflagsWrite w.eflags &&& ~~~F.flags = eflagsWrite s.eflags &&& ~~~F.flags
  cpl : w.cpl = s.cpl
  eip : w.eip = s.eip ∨ w.eip = F.next

namespace Framed

variable {F : Frame} {s w : State}

theorem refl (F : Frame) (s : State) : Framed F s s :=
  ⟨fun _ _ => rfl, fun _ _ => rfl, fun _ => rfl, id, id, rfl, rfl, .inl rfl⟩

theorem withGpr (h : Framed F s w) {r : Gpr} (hr : F.gprs r = true) (v : Word) :
    Framed F s { w with gpr := w.gpr.set r v } :=
  { h with
    gpr := fun q hq => by
      have other : q ≠ r := by rintro rfl; simp [hr] at hq
      rw [Gprs.get_set_other _ _ _ _ other, h.gpr q hq] }

theorem setGpr (h : Framed F s w) {r : Gpr} (hr : F.gprs r = true) (wide : Bool) (v : Word) :
    Framed F s (w.setGpr r wide v) := h.withGpr hr _

theorem setEsp (h : Framed F s w) (hr : F.gprs .esp = true) (v : Word) : Framed F s (w.setEsp v) := h.withGpr hr _

theorem loadEsp (h : Framed F s w) (hr : F.gprs .esp = true) (v : Word) : Framed F s (w.loadEsp v) := h.withGpr hr _

theorem setSeg (h : Framed F s w) {n : SegName} (hn : F.segs n = true) (r : SegReg) : Framed F s (w.setSeg n r) where
  gpr q hq := by rw [State.setSeg_gpr, h.gpr q hq]
  seg q hq := by
    have other : q ≠ n := by rintro rfl; simp [hn] at hq
    rw [State.setSeg_seg, Segs.get_set_other _ _ _ _ other, h.seg q hq]
  stack hs := by
    have other : n ≠ .ss := by rintro rfl; simp [hn] at hs
    rw [State.setSeg_stack _ _ _ other, h.stack hs]
  stackMask hs := by
    by_cases ss : n = .ss
    · subst ss; rfl
    · have kept : (w.seg.set n r).ss = w.seg.ss := Segs.get_set_other _ _ _ _ (Ne.symm ss)
      rw [State.setSeg_stack _ _ _ ss, State.setSeg_seg, kept]
      exact h.stackMask hs
  normal hs := by rw [State.setSeg_eflags]; exact h.normal hs
  flags := by rw [State.setSeg_eflags]; exact h.flags
  cpl := by rw [State.setSeg_cpl]; exact h.cpl
  eip := by rw [State.setSeg_eip]; exact h.eip

theorem installNull (h : Framed F s w) {n : SegName} (hn : F.segs n = true) (hss : n ≠ .ss) (sel : Sel) :
    Framed F s (w.installNull n sel) := by
  rw [w.installNull_eq_setSeg hss]
  exact h.setSeg hn _

theorem loadSegReal (h : Framed F s w) {n : SegName} (hn : F.segs n = true) (sel : Sel) :
    Framed F s (w.loadSegReal n sel) := h.setSeg hn _

theorem installSeg (h : Framed F s w) {n : SegName} (hn : F.segs n = true) (sel : Sel) (d : Desc) :
    Framed F s (w.installSeg n sel d) := h.setSeg hn _

/-- A write of EFLAGS that keeps the bits outside the frame. -/
theorem withEflags (h : Framed F s w) {v : Word} (hv : v &&& ~~~F.flags = w.eflags &&& ~~~F.flags) :
    Framed F s (w.withEflags v) :=
  { h with
    normal := fun _ => eflagsWrite_normal v
    flags := by
      show eflagsWrite (eflagsWrite v) &&& ~~~F.flags = _
      rw [eflagsWrite_normal, ← h.flags, eflagsWrite_masked, hv, ← eflagsWrite_masked] }

theorem withFlag (h : Framed F s w) {n : Nat} (hn : F.flags = 1#32 <<< n) (b : Bool) : Framed F s (w.withFlag n b) :=
  h.withEflags (by rw [hn]; exact setBit_masked _ _ _)

/-- The merge of POPF: outside level 0 the frame keeps IOPL, at level 0 the mask does not depend on it. -/
theorem mergeFlags {wide : Bool} (h : Framed F s w) (hF : F.flags = mergeMaskFor s.cpl s.iopl wide) (fl : Word) :
    Framed F s (w.mergeFlags fl wide) := by
  have mask : mergeMaskFor w.cpl w.iopl wide = F.flags := by
    rw [h.cpl, hF]
    by_cases zero : s.cpl = 0
    · rw [zero]; exact mergeMaskFor_zero _ _ _
    · rw [iopl_of_masked h.flags (hF ▸ mergeMaskFor_iopl _ _ zero)]
  exact h.withEflags (by rw [mask]; exact merge_masked _ _ _)

theorem advance (h : Framed F s w) : Framed F s { w with eip := F.next } := { h with eip := .inr rfl }

theorem report (h : Framed F s w) (hf : F.flags = 0x40) {r : Gpr} (hr : F.gprs r = true) (wide : Bool) (v : Option Word) :
    Framed F s (w.report r wide v) := by
  cases v
  · exact h.withFlag hf false
  · exact (h.withFlag hf true).setGpr hr _ _

end Framed

/-! ### Every operation that is no transfer keeps its frame -/

/-- An operation from `s` so far: nothing is committed, and the working copy is `s` outside the frame. -/
def InFrame (F : Frame) (s : State) (c : Ctx) : Prop := c.base = s ∧ c.switched = false ∧ Framed F s c.work

theorem inFrame_stable (F : Frame) (s : State) : Stable (InFrame F s) (HaltsHere s) where
  raise := fun _ _ hf h => ⟨proper_raise hf, h.1, h.2.1⟩
  asked := fun _ _ h => h
  plan := fun _ _ h => h

section
variable {F : Frame} {s : State}

theorem keeps_framed {f : State → State} (h : ∀ w, Framed F s w → Framed F s (f w)) :
    Keeps (InFrame F s) (HaltsHere s) (modifyWork f) := fun c hc => ⟨hc.1, hc.2.1, h c.work hc.2.2⟩

theorem framed_advance : Keeps (InFrame F s) (HaltsHere s) (advance F.next) := keeps_framed fun _ h => h.advance

theorem framed_loadSegBody {n : SegName} (hn : F.segs n = true) (sel : Sel) :
    Keeps (InFrame F s) (HaltsHere s) (loadSegBody n sel) := by
  have S := (inFrame_stable F s).toReads
  refine keeps_work.seq fun u => ?_
  split
  · exact keeps_framed fun _ h => h.loadSegReal hn _
  split
  next e =>
    subst e
    exact keeps_work.seq fun _ => (S.raiseIf' _ _).seq fun _ => (S.requireDesc _ _).seq fun _ =>
      (S.raiseIf' _ _).seq fun _ => (S.raiseIf' _ _).seq fun _ => (S.raiseIf' _ _).seq fun _ =>
      (S.raiseIf' _ _).seq fun _ => keeps_framed fun _ h => h.installSeg hn _ _
  next hss =>
    unfold loadDataSegProt
    split
    · exact keeps_framed fun _ h => h.installNull hn hss _
    · exact keeps_work.seq fun _ => (S.requireDesc _ _).seq fun _ => (S.raiseIf' _ _).seq fun _ =>
        (S.raiseIf' _ _).seq fun _ => (S.raiseIf' _ _).seq fun _ => keeps_framed fun _ h => h.installSeg hn _ _

/-- A segment load with no new ESP installs the ESP it had. -/
theorem framed_loadSegment_none {n : SegName} (hn : F.segs n = true) (sel : Sel) :
    Keeps (InFrame F s) (HaltsHere s) (loadSegment n sel none F.next) :=
  (framed_loadSegBody hn _).seq fun _ => (keeps_framed fun _ h => h).seq fun _ => framed_advance

theorem framed_movSeg {n : SegName} (hn : F.segs n = true) (p : List Pfx) (x : RmOp) :
    Keeps (InFrame F s) (HaltsHere s) (movSeg n p x F.next) :=
  ((inFrame_stable F s).readRm16 _ _).seq fun _ => framed_loadSegment_none hn _

theorem framed_popSeg {n : SegName} (hn : F.segs n = true) (hr : F.gprs .esp = true) (wide : Bool) :
    Keeps (InFrame F s) (HaltsHere s) (popSeg n wide F.next) :=
  keeps_work.seq fun _ => ((inFrame_stable F s).peekStack _ _).seq fun _ => (framed_loadSegBody hn _).seq fun _ =>
    (keeps_framed fun _ h => h.loadEsp hr _).seq fun _ => framed_advance

theorem framed_loadFarSeg {n : SegName} (hn : F.segs n = true) {r : Gpr} (hr : F.gprs r = true) (p : List Pfx) (m : MemOp)
    (wide : Bool) : Keeps (InFrame F s) (HaltsHere s) (loadFarSeg n p r m wide F.next) :=
  ((inFrame_stable F s).readFarPtr _ _).seq fun _ => (framed_loadSegment_none hn _).seq fun _ =>
    keeps_framed fun _ h => h.setGpr hr _ _

/-- The end of the selector inspections: what they report, then EIP. -/
theorem framed_inspection {p : List Pfx} {x : RmOp} {ok : Sel → Desc → Level → Bool} {f : Sel → Option Desc → State → State}
    (hf : ∀ sel d w, Framed F s w → Framed F s (f sel d w)) :
    Keeps (InFrame F s) (HaltsHere s) (do
      modeGate
      let sel ← readRm16 p x
      let d ← inspect sel (ok sel)
      modifyWork (f sel d)
      advance F.next) :=
  have S := inFrame_stable F s
  S.modeGate.seq fun _ => (S.readRm16 _ _).seq fun _ => (S.inspect _ _).seq fun _ => (keeps_framed (hf _ _)).seq fun _ =>
    framed_advance

/-- A write of a system register, which no frame is about. -/
theorem framed_system {f : State → State} (h : ∀ w, ∃ l t gd id c0 c2 c3 c4 d m, f w = { w with
      ldtr := l, tr := t, gdtr := gd, idtr := id, cr0 := c0, cr2 := c2, cr3 := c3, cr4 := c4, dr := d, mmu := m }) :
    Keeps (InFrame F s) (HaltsHere s) (modifyWork f) := by
  refine keeps_framed fun w hw => ?_
  obtain ⟨_, _, _, _, _, _, _, _, _, _, e⟩ := h w
  rw [e]
  exact { hw with }

theorem framed_lldt (sel : Sel) : Keeps (InFrame F s) (HaltsHere s) (lldtOp sel) := by
  have S := inFrame_stable F s
  unfold lldtOp
  split
  · exact keeps_framed fun _ h => { h with }
  · exact (S.raiseIf' _ _).seq fun _ => (S.requireDesc _ _).seq fun _ => (S.raiseIf' _ _).seq fun _ =>
      (S.raiseIf' _ _).seq fun _ => keeps_framed fun _ h => { h with }

theorem framed_ltr (sel : Sel) : Keeps (InFrame F s) (HaltsHere s) (ltrOp sel) := by
  have S := inFrame_stable F s
  have iomap : ∀ d, Keeps (InFrame F s) (HaltsHere s) (readIomap d) := by
    intro d
    unfold readIomap
    split
    · exact S.memRead16 _
    · exact keeps_pure _
  exact (S.raiseIf' _ _).seq fun _ => (S.raiseIf' _ _).seq fun _ => (S.requireDesc _ _).seq fun d =>
    (keeps_refuseIf fun _ h => ⟨proper_refuse, h.1, h.2.1⟩).seq fun _ => (S.raiseIf' _ _).seq fun _ =>
    (S.raiseIf' _ _).seq fun _ => (iomap d).seq fun _ => (S.setBusy _ _).seq fun _ => keeps_framed fun _ h => { h with }

theorem Framed.writeCr {w : State} (h : Framed F s w) (n : BitVec 3) (v : Word) : Framed F s (w.writeCr n v) := by
  unfold State.writeCr
  split
  all_goals exact { h with }
end

/-- Every operation that is no transfer keeps its frame. -/
theorem frame_ops (i : Instr) (s : State) (hi : i.isTransfer = false) :
    ∃ op, exec i s = s.run op ∧ Keeps (InFrame (s.frameOf i) s) (HaltsHere s) op := by
  have S := inFrame_stable (s.frameOf i) s
  cases i with
  | jmpFarPtr | jmpFarMem | callFarPtr | callFarMem | retf | retfImm | iret | int3 | intImm | into | hardwareInterrupt
  | exceptionDelivery => cases hi
  | movEs | movSs | movDs | movFs | movGs => exact ⟨_, rfl, framed_movSeg rfl _ _⟩
  | popEs | popSs | popDs | popFs | popGs => exact ⟨_, rfl, framed_popSeg rfl rfl _⟩
  | les p r | lds p r | lss p r | lfs p r | lgs p r => exact ⟨_, rfl, framed_loadFarSeg rfl (beq_self_eq_true r) _ _ _⟩
  | verr | verw => exact ⟨_, rfl, framed_inspection fun _ _ _ h => h.withFlag rfl _⟩
  | lar p r | lsl p r => exact ⟨_, rfl, framed_inspection fun _ _ _ h => h.report rfl (beq_self_eq_true r) _ _⟩
  | arpl p x r =>
    refine ⟨_, rfl, S.modeGate.seq fun _ => (S.readRm16 _ _).seq fun _ => Spec.seq ?_ fun _ =>
      (keeps_framed fun _ h => h.withFlag rfl _).seq fun _ => framed_advance⟩
    cases x with
    | reg d => exact keeps_framed fun _ h => h.setGpr (beq_self_eq_true d) _ _
    | mem m => exact keeps_work.seq fun _ => S.memWrite _ _ _ _
  | lldt => exact ⟨_, rfl, S.modeGate.seq fun _ => S.privGate.seq fun _ => (S.readRm16 _ _).seq fun _ =>
      (framed_lldt _).seq fun _ => framed_advance⟩
  | ltr => exact ⟨_, rfl, S.modeGate.seq fun _ => S.privGate.seq fun _ => (S.readRm16 _ _).seq fun _ =>
      (framed_ltr _).seq fun _ => framed_advance⟩
  | sgdt | sidt => exact ⟨_, rfl, Spec.seq ((S.memWrite _ _ _ _).seq fun _ => S.memWrite _ _ _ _) fun _ => framed_advance⟩
  | lgdt | lidt =>
    exact ⟨_, rfl, S.privGate.seq fun _ => Spec.seq ((S.memRead _ _ _).seq fun _ => (S.memRead _ _ _).seq fun _ =>
      keeps_pure _) fun _ => (framed_system fun _ => ⟨_, _, _, _, _, _, _, _, _, _, rfl⟩).seq fun _ => framed_advance⟩
  | movFromCr p n r => exact ⟨_, rfl, (S.raiseIf' _ _).seq fun _ => S.crGate.seq fun _ =>
      (keeps_framed fun _ h => h.setGpr (beq_self_eq_true r) _ _).seq fun _ => framed_advance⟩
  | movToCr => exact ⟨_, rfl, (S.raiseIf' _ _).seq fun _ => S.crGate.seq fun _ => (S.raiseIf' _ _).seq fun _ =>
      (keeps_framed fun _ h => h.writeCr _ _).seq fun _ => framed_advance⟩
  | movFromDr p n r => exact ⟨_, rfl, S.crGate.seq fun _ =>
      (keeps_framed fun _ h => h.setGpr (beq_self_eq_true r) _ _).seq fun _ => framed_advance⟩
  | movToDr => exact ⟨_, rfl, S.crGate.seq fun _ =>
      (framed_system fun _ => ⟨_, _, _, _, _, _, _, _, _, _, rfl⟩).seq fun _ => framed_advance⟩
  | cli | sti => exact ⟨_, rfl, S.ioGate.seq fun _ => (keeps_framed fun _ h => h.withFlag rfl _).seq fun _ => framed_advance⟩
  | pushf => exact ⟨_, rfl, S.v86IoplGate.seq fun _ => Spec.seq (keeps_work.seq fun _ => (S.memWrite _ _ _ _).seq fun _ =>
      keeps_framed fun _ h => h.setEsp rfl _) fun _ => framed_advance⟩
  | popf => exact ⟨_, rfl, S.v86IoplGate.seq fun _ => Spec.seq ((S.peekStack _ _).seq fun _ =>
      (keeps_framed fun _ h => h.setEsp rfl _).seq fun _ => keeps_pure _) fun _ =>
      (keeps_framed fun _ h => h.mergeFlags rfl _).seq fun _ => framed_advance⟩

/-- The state an operation that is no transfer ends in is the one before outside its frame. -/
theorem exec_framed {i : Instr} {s t : State} (hi : i.isTransfer = false) (h : exec i s = .next t) :
    Framed (s.frameOf i) s t := by
  obtain ⟨op, e, hs⟩ := frame_ops i s hi
  have start : InFrame (s.frameOf i) s (Ctx.start s) := ⟨rfl, rfl, .refl _ _⟩
  match run_cases_here (e ▸ h) fun c hc => hs c (hc ▸ start) with
  | .commit c hc ht => rw [ht]; exact { hc.2.2 with }
  | .fault f hf ht => rw [ht]; exact { Framed.refl _ s with }
  | .refuse ht => rw [ht]; exact { Framed.refl _ s with }

end Sys2Proof.Machine

namespace Sys2Proof
open Machine

/-- Settles O19: every operation that is no transfer keeps its frame. -/
theorem registerFrame : Obligations.RegisterFrame := by
  intro i s t normal hi h
  have framed := exec_framed hi h
  have flags := framed.flags
  rw [framed.normal normal, normal] at flags
  exact ⟨framed.gpr, framed.seg, framed.stack, flags, framed.cpl, framed.eip⟩

end Sys2Proof

namespace Sys2Proof.Machine

/-! ### Far RET (42_control_transfer.md R192 to R195) -/

/-- After a check that can fail, its condition is known. -/
theorem spec_raiseIf {α : Type} {P : Ctx → Prop} {E : Halt → Ctx → Prop} {Q : α → Ctx → Prop} {b : Bool} {f : FaultCode}
    {k : Unit → Op α} (hf : ∀ c, P c → E (.raise f) c) (h : b = false → Spec P (k ()) Q E) :
    Spec P (raiseIf b f >>= k) Q E := by
  cases b
  · exact h rfl
  · exact hf

/-- What holds of the working copy holds of the state read from it. -/
theorem spec_work_of {α : Type} {P : Ctx → Prop} {E : Halt → Ctx → Prop} {Q : α → Ctx → Prop} {p : State → Prop}
    {k : State → Op α} (hp : ∀ c, P c → p c.work) (h : ∀ u, p u → Spec P (k u) Q E) : Spec P (work >>= k) Q E :=
  fun c hc => h c.work (hp c hc) c hc

theorem spec_of_fact {α : Type} {P : Ctx → Prop} {E : Halt → Ctx → Prop} {Q : α → Ctx → Prop} {p : Prop} {op : Op α}
    (h : p → Spec P op Q E) : Spec (fun c => P c ∧ p) op Q E := fun c hc => h hc.2 c hc.1

/-- A far RET from `s` so far: nothing but registers has changed, the flags neither, and the level is no more privileged. -/
def Returning (s : State) (c : Ctx) : Prop :=
  c.base = s ∧ c.switched = false ∧ c.work.system = s.system ∧ c.work.eflags = s.eflags ∧ s.cpl ≤ c.work.cpl

theorem returning_reads (s : State) : Reads (Returning s) (HaltsHere s) where
  raise := fun _ _ hf h => ⟨proper_raise hf, h.1, h.2.1⟩
  asked := fun _ _ h => h

section
variable {s : State}

/-- A write of registers that keeps the flags and does not lower the level. -/
theorem returning_modify {f : State → State} (regs : ∀ w, RegsOnly w (f w)) (eflags : ∀ w, (f w).eflags = w.eflags)
    (cpl : ∀ w, s.cpl ≤ w.cpl → s.cpl ≤ (f w).cpl) : Keeps (Returning s) (HaltsHere s) (modifyWork f) := by
  rintro c ⟨hb, hs, hsys, hfl, hc⟩
  refine ⟨hb, hs, ?_, (eflags c.work).trans hfl, cpl _ hc⟩
  show (f c.work).system = _
  rw [regs c.work]
  exact hsys

theorem returning_pop (w : Nat) : Keeps (Returning s) (HaltsHere s) (pop w) :=
  ((returning_reads s).peekStack _ _).seq fun _ =>
    (returning_modify (fun _ => regs_setEsp _ _) (fun _ => rfl) fun _ h => h).seq fun _ => keeps_pure _

theorem returning_real (imm : BitVec 16) (wide : Bool) : Keeps (Returning s) (HaltsHere s) (returnReal imm wide) :=
  (returning_pop _).seq fun _ => (returning_pop _).seq fun _ =>
    returning_modify (fun _ => ((regs_setEsp _ _).trans (regs_loadSegReal _ _ _)).trans (regs_eip _ _)) (fun _ => rfl) fun _ h => h

/-- A selector that may be returned to names a level no more privileged. -/
theorem le_of_mayReturn {n : Level} {sel : Sel} {d : Desc} (h : mayReturn n sel d = true) : n ≤ selRpl sel := by
  simp only [mayReturn, Bool.and_eq_true, decide_eq_true_eq] at h
  exact h.1

theorem returning_checkCs (cs : Sel) :
    Spec (Returning s) (checkReturnCs cs) (fun _ c => Returning s c ∧ s.cpl ≤ selRpl cs) (HaltsHere s) := by
  have S := returning_reads s
  refine spec_work_of (p := fun u => s.cpl ≤ u.cpl) (fun c h => h.2.2.2.2) fun u hu => ?_
  refine (S.raiseIf' _ _).seq fun _ => (S.requireDesc _ _).seq fun d => (S.raiseIf' _ _).seq fun _ =>
    spec_raiseIf (fun c h => S.raise _ c (by simp) h) fun may => (S.raiseIf' _ _).seq fun _ => ?_
  have outward : s.cpl ≤ selRpl cs := BitVec.le_trans hu (le_of_mayReturn (by simpa using may))
  exact fun c h => ⟨h, outward⟩

theorem returning_outer {cs : Sel} (h : s.cpl ≤ selRpl cs) (d : Desc) (eip : Word) (imm : BitVec 16) (wide : Bool) :
    Keeps (Returning s) (HaltsHere s) (returnOuter cs d eip imm wide) := by
  have S := returning_reads s
  refine (S.peekStack _ _).seq fun _ => (S.peekStack _ _).seq fun _ => (S.checkNewSs _ _ _).seq fun _ =>
    returning_modify (fun w => ?_) (fun w => ?_) fun w _ => ?_
  · exact ((((regs_installCs w _ _ _).trans (regs_installSeg _ _ _ _)).trans (regs_loadEsp _ _)).trans (regs_setEsp _ _)).trans
      ((regs_eip _ _).trans (regs_invalidate _ _))
  · exact State.invalidateDataSegs_eflags _ _
  · rw [State.returnOuterRegs, State.invalidateDataSegs_cpl]
    exact h

theorem returning_farReturn (imm : BitVec 16) (wide : Bool) : Keeps (Returning s) (HaltsHere s) (farReturn imm wide) := by
  have S := returning_reads s
  refine keeps_work.seq fun u => ?_
  split
  · exact returning_real _ _
  refine (S.peekStack _ _).seq fun _ => (S.peekStack _ _).seq fun csw => (returning_checkCs _).bind fun d =>
    spec_of_fact fun out => ?_
  split
  · exact returning_modify (fun w => ((regs_setEsp w _).trans (regs_installCs _ _ _ _)).trans (regs_eip _ _)) (fun _ => rfl)
      fun _ h => h
  · exact returning_outer out _ _ _ _
end

theorem returns_returning {i : Instr} {s t : State} {imm : BitVec 16} {wide : Bool} (hr : Returns s i imm wide)
    (h : exec i s = .next t) : EndsHere s t (Returning s) := by
  have start : Returning s (Ctx.start s) := ⟨rfl, rfl, rfl, rfl, BitVec.le_refl _⟩
  exact run_cases_here ((return_run hr) ▸ h) fun c hc => returning_farReturn imm wide c (hc ▸ start)

/-- A transfer that cannot switch tasks is a far RET. -/
theorem returns_of_not_switch {i : Instr} (s : State) (hi : i.isTransfer = true) (hm : i.maySwitch = false) :
    ∃ imm wide, Returns s i imm wide := by
  cases i <;> simp only [Instr.isTransfer, Instr.maySwitch, Bool.false_eq_true, Bool.true_eq_false] at hi hm
  case retf p => exact ⟨_, _, .plain p⟩
  case retfImm p imm => exact ⟨_, _, .imm p imm⟩

/-! ### Who writes the system registers (10_state.md) -/

/-- What instruction `i` may have written in `w`, by the statement's list. -/
structure SystemFramed (i : Instr) (s w : State) : Prop where
  gdtr : w.gdtr ≠ s.gdtr → ∃ p m, i = .lgdt p m
  idtr : w.idtr ≠ s.idtr → ∃ p m, i = .lidt p m
  ldtr : w.ldtr ≠ s.ldtr → i.maySwitch = true ∨ ∃ p x, i = .lldt p x
  tr : w.tr ≠ s.tr → i.maySwitch = true ∨ ∃ p x, i = .ltr p x
  cr0 : w.cr0 ≠ s.cr0 → i.maySwitch = true ∨ ∃ p r, i = .movToCr p 0 r
  cr3 : w.cr3 ≠ s.cr3 → i.maySwitch = true ∨ ∃ p r, i = .movToCr p 3 r
  cr4 : w.cr4 ≠ s.cr4 → ∃ p r, i = .movToCr p 4 r
  dr : w.dr ≠ s.dr → ∃ p n r, i = .movToDr p n r
  cr2 : w.cr2 ≠ s.cr2 → w.pendingFault.isSome = true ∨ ∃ p r, i = .movToCr p 2 r
  paging : w.mmu.paging ≠ s.mmu.paging → ∃ p r, i = .movToCr p 0 r
  pdb : w.mmu.pdb ≠ s.mmu.pdb → i.maySwitch = true ∨ ∃ p r, i = .movToCr p 3 r
  params : w.params = s.params
  inputs : w.inputs = s.inputs
  views : w.mmu.views = s.mmu.views
  answers : w.mmu.answers = s.mmu.answers

namespace SystemFramed
variable {i : Instr} {s w : State}

/-- A change that is none needs no writer. -/
theorem unchanged {α : Type} {a b : α} {p : Prop} (h : a = b) : a ≠ b → p := fun ne => absurd h ne

theorem refl (i : Instr) (s : State) : SystemFramed i s s :=
  ⟨unchanged rfl, unchanged rfl, unchanged rfl, unchanged rfl, unchanged rfl, unchanged rfl, unchanged rfl, unchanged rfl,
    unchanged rfl, unchanged rfl, unchanged rfl, rfl, rfl, rfl, rfl⟩

theorem of_system (h : w.system = s.system) : SystemFramed i s w := by
  obtain ⟨h1, h2, h3, h4, h5, h6, h7, h8, h9, _, _, _, h13, h14, h15⟩ := system_fields h
  exact ⟨unchanged h1, unchanged h2, unchanged h3, unchanged h4, unchanged h5, unchanged h7, unchanged h8, unchanged h9,
    unchanged h6, unchanged (by rw [h13]), unchanged (by rw [h13]), h15, h14, by rw [h13], by rw [h13]⟩

/-- After a task switch. -/
theorem of_kept (hm : i.maySwitch = true) (h : w.kept = s.kept) : SystemFramed i s w := by
  obtain ⟨h1, h2, h3, h4, h5, _, _, h8, h9, h10, h11, h12⟩ := kept_fields h
  exact ⟨unchanged h1, unchanged h2, fun _ => .inl hm, fun _ => .inl hm, fun _ => .inl hm, fun _ => .inl hm, unchanged h4,
    unchanged h5, unchanged h3, unchanged h10, fun _ => .inl hm, h9, h8, h11, h12⟩

/-- A fault writes CR2 with the pending fault. -/
theorem takeFault (h : SystemFramed i s w) (f : FaultCode) : SystemFramed i s (w.takeFault f) :=
  { h with cr2 := fun _ => .inl rfl }

theorem commit {c : Ctx} (h : SystemFramed i s c.work) : SystemFramed i s c.commit := { h with }

theorem refuse (h : SystemFramed i s w) : SystemFramed i s { w with refused := true } := { h with }

theorem writeCr {p : List Pfx} {n : BitVec 3} {r : Gpr} (h : SystemFramed (.movToCr p n r) s w) (v : Word) :
    SystemFramed (.movToCr p n r) s (w.writeCr n v) := by
  unfold State.writeCr
  split
  next e =>
    obtain rfl : n = 0 := BitVec.eq_of_toNat_eq e
    have told : (w.writeCr0 v).mmu = { w.mmu with paging := v.getLsbD bitPG } ∨ (w.writeCr0 v).mmu = w.mmu := by
      simp only [State.writeCr0]
      split
      · exact .inl rfl
      · exact .inr rfl
    refine { h with cr0 := fun _ => .inr ⟨_, _, rfl⟩, paging := fun _ => ⟨_, _, rfl⟩, pdb := ?_, views := ?_, answers := ?_ }
    all_goals rcases told with e | e <;> rw [e]
    exacts [h.pdb, h.pdb, h.views, h.views, h.answers, h.answers]
  next e =>
    obtain rfl : n = 2 := BitVec.eq_of_toNat_eq e
    exact { h with cr2 := fun _ => .inr ⟨_, _, rfl⟩ }
  next e =>
    obtain rfl : n = 3 := BitVec.eq_of_toNat_eq e
    exact { h with cr3 := fun _ => .inr ⟨_, _, rfl⟩, pdb := fun _ => .inr ⟨_, _, rfl⟩ }
  next e =>
    obtain rfl : n = 4 := BitVec.eq_of_toNat_eq e
    exact { h with cr4 := fun _ => ⟨_, _, rfl⟩ }
  · exact h
end SystemFramed

/-- An operation of instruction `i` from `s` so far, by what system registers `i` may write. -/
def InSystemFrame (i : Instr) (s : State) (c : Ctx) : Prop := c.base = s ∧ c.switched = false ∧ SystemFramed i s c.work

theorem inSystemFrame_loose (i : Instr) (s : State) : Loose (InSystemFrame i s) (HaltsHere s) where
  raise := fun _ _ hf h => ⟨proper_raise hf, h.1, h.2.1⟩
  asked := fun _ _ h => h
  plan := fun _ _ h => h
  set := fun _ _ _ _ _ _ _ h => ⟨h.1, h.2.1, { h.2.2 with }⟩

theorem keeps_systemFramed {i : Instr} {s : State} {f : State → State}
    (h : ∀ w, SystemFramed i s w → SystemFramed i s (f w)) :
    Keeps (InSystemFrame i s) (HaltsHere s) (modifyWork f) := fun c hc => ⟨hc.1, hc.2.1, h c.work hc.2.2⟩

/-- The six instructions that write a system register write their own. -/
theorem systemWriter_ops (i : Instr) (s : State) (hx : writesSystem i = true) :
    ∃ op, exec i s = s.run op ∧ Keeps (InSystemFrame i s) (HaltsHere s) op := by
  have L := inSystemFrame_loose i s
  cases i <;> simp only [writesSystem, Bool.false_eq_true] at hx
  case lldt p x =>
    refine ⟨_, rfl, L.modeGate.seq fun _ => L.privGate.seq fun _ => (L.readRm16 _ _).seq fun sel =>
      Spec.seq ?_ fun _ => L.advance _⟩
    unfold lldtOp
    split
    · exact keeps_systemFramed fun _ h => { h with ldtr := fun _ => .inr ⟨_, _, rfl⟩ }
    · exact (L.raiseIf' _ _).seq fun _ => (L.requireDesc _ _).seq fun _ => (L.raiseIf' _ _).seq fun _ =>
        (L.raiseIf' _ _).seq fun _ => keeps_systemFramed fun _ h => { h with ldtr := fun _ => .inr ⟨_, _, rfl⟩ }
  case ltr p x =>
    refine ⟨_, rfl, L.modeGate.seq fun _ => L.privGate.seq fun _ => (L.readRm16 _ _).seq fun sel =>
      Spec.seq ?_ fun _ => L.advance _⟩
    refine (L.raiseIf' _ _).seq fun _ => (L.raiseIf' _ _).seq fun _ => (L.requireDesc _ _).seq fun d =>
      (keeps_refuseIf fun _ h => ⟨proper_refuse, h.1, h.2.1⟩).seq fun _ => (L.raiseIf' _ _).seq fun _ =>
      (L.raiseIf' _ _).seq fun _ => Spec.seq ?_ fun _ => (L.setBusy _ _).seq fun _ =>
      keeps_systemFramed fun _ h => { h with tr := fun _ => .inr ⟨_, _, rfl⟩ }
    unfold readIomap
    split
    · exact L.memRead16 _
    · exact keeps_pure _
  case lgdt p m =>
    exact ⟨_, rfl, L.privGate.seq fun _ => Spec.seq ((L.memRead _ _ _).seq fun _ => (L.memRead _ _ _).seq fun _ =>
      keeps_pure _) fun t => Spec.seq (keeps_systemFramed fun _ h => { h with gdtr := fun _ => ⟨_, _, rfl⟩ }) fun _ =>
      L.advance _⟩
  case lidt p m =>
    exact ⟨_, rfl, L.privGate.seq fun _ => Spec.seq ((L.memRead _ _ _).seq fun _ => (L.memRead _ _ _).seq fun _ =>
      keeps_pure _) fun t => Spec.seq (keeps_systemFramed fun _ h => { h with idtr := fun _ => ⟨_, _, rfl⟩ }) fun _ =>
      L.advance _⟩
  case movToCr p n r =>
    exact ⟨_, rfl, (L.raiseIf' _ _).seq fun _ => L.crGate.seq fun _ => (L.raiseIf' _ _).seq fun _ =>
      (keeps_systemFramed fun _ h => h.writeCr _).seq fun _ => L.advance _⟩
  case movToDr p n r =>
    exact ⟨_, rfl, L.crGate.seq fun _ => Spec.seq (keeps_systemFramed fun _ h => { h with dr := fun _ => ⟨_, _, _, rfl⟩ })
      fun _ => L.advance _⟩

theorem systemFrame_ops (i : Instr) (s : State) (hi : i.isTransfer = false) :
    ∃ op, exec i s = s.run op ∧ Keeps (InSystemFrame i s) (HaltsHere s) op := by
  have L := inSystemFrame_loose i s
  cases hx : writesSystem i with
  | true => exact systemWriter_ops i s hx
  | false =>
    cases hs : i.mayStore with
    | true => exact store_ops L i s hi hs hx
    | false => exact regs_ops L.toRegs i s hi hs hx

/-- How an operation that cannot switch tasks ends, by what its context keeps. -/
theorem EndsHere.systemFramed {i : Instr} {s t : State} {Q : Ctx → Prop} (h : EndsHere s t Q)
    (hQ : ∀ c, Q c → SystemFramed i s c.work) : SystemFramed i s t := by
  cases h with
  | commit c hc e => rw [e]; exact (hQ c hc).commit
  | fault f hf e => rw [e]; exact (SystemFramed.refl i s).takeFault f
  | refuse e => rw [e]; exact (SystemFramed.refl i s).refuse

theorem Ends.systemFramed {i : Instr} {s : State} {c : Ctx} (hm : i.maySwitch = true) (h : Ends s c) :
    SystemFramed i s c.work := by
  rcases h with h | h
  · exact .of_system h.2.2
  · exact .of_kept hm h.2.2.1

theorem After.systemFramed {i : Instr} {s : State} {c : Ctx} (hm : i.maySwitch = true) (h : After s c) :
    SystemFramed i s c.base := .of_kept hm h.2.1

theorem nestedFault_systemFramed {i : Instr} {s t : State} {f : PendingFault} {f2 : FaultCode}
    (h : nestedFault s f f2 = .next t) : SystemFramed i s t := by
  unfold nestedFault at h
  split at h
  · cases h; exact { SystemFramed.refl i s with cr2 := fun _ => .inl rfl }
  · split at h
    · cases h
    · cases h; exact { SystemFramed.refl i s with cr2 := fun _ => .inl rfl }
  · cases h

theorem delivery_systemFramed {s t : State} (h : exec .exceptionDelivery s = .next t) :
    SystemFramed .exceptionDelivery s t := by
  obtain ⟨f, s0, _, rfl, done⟩ := delivery_cases s t h
  have of_emptied : SystemFramed .exceptionDelivery { s with pendingFault := none } t → SystemFramed .exceptionDelivery s t :=
    fun h => { h with }
  cases done with
  | commit c e hc => exact of_emptied (e ▸ (hc.systemFramed rfl).commit)
  | faultAfter f2 c e hc => exact of_emptied (e ▸ (hc.systemFramed rfl).takeFault f2)
  | nested f2 _ e => exact of_emptied (nestedFault_systemFramed e)
  | refuse e => rw [e]; exact (SystemFramed.refl _ s).refuse

theorem exec_systemFramed {i : Instr} {s t : State} (h : exec i s = .next t) : SystemFramed i s t := by
  cases hi : i.isTransfer with
  | false =>
    obtain ⟨op, e, hs⟩ := systemFrame_ops i s hi
    exact (run_cases_here (e ▸ h) fun c hc => hs c (hc ▸ ⟨rfl, rfl, .refl i s⟩)).systemFramed fun c hc => hc.2.2
  | true =>
    cases hm : i.maySwitch with
    | false =>
      obtain ⟨imm, wide, hr⟩ := returns_of_not_switch s hi hm
      exact (returns_returning hr h).systemFramed fun c hc => .of_system hc.2.2.1
    | true =>
      by_cases he : i = .exceptionDelivery
      · subst he; exact delivery_systemFramed h
      obtain ⟨op, e, hs⟩ := transfer_ends i s hi he
      match run_cases (e ▸ h) fun c hc => hs c (hc ▸ before_start s) with
      | .here ends => exact ends.systemFramed fun c hc => hc.systemFramed hm
      | .faultAfter f c _ hc ht => rw [ht]; exact (hc.systemFramed hm).takeFault f

/-! ### What needs level 0 -/

/-- Outside level 0 no operation that is no transfer has IOPL in its frame. -/
theorem flagMask_iopl {i : Instr} {s : State} (hi : i.isTransfer = false) (hc : s.cpl ≠ 0) :
    (i.flagMask s)[12] = false ∧ (i.flagMask s)[13] = false := by
  cases i with
  | popf p => exact mergeMaskFor_iopl _ _ hc
  | jmpFarPtr | jmpFarMem | callFarPtr | callFarMem | retf | retfImm | iret | int3 | intImm | into | hardwareInterrupt
  | exceptionDelivery => cases hi
  | _ => simp [Instr.flagMask]

/-- The control registers that exist (45_system_registers.md R270). -/
theorem cr_exists {n : BitVec 3} (h : noSuchCr n = false) : n = 0 ∨ n = 2 ∨ n = 3 ∨ n = 4 := by revert n; decide

/-- Outside level 0 the writers of system registers end in a fault. -/
theorem systemWriter_faults {i : Instr} {s : State} (hpe : s.pe = true) (hc : s.cpl ≠ 0) (hx : writesSystem i = true) :
    ∃ f, exec i s = .next (s.takeFault f) := by
  have gate := fun p x n r m => privilegeGate s p x m n r hpe hc
  have mode : ∀ p x r, s.vm = true → exec (.lldt p x) s = .next (s.takeFault .ud) ∧ exec (.ltr p x) s = .next (s.takeFault .ud) :=
    fun p x r hv => by
      obtain ⟨lldt, ltr, _⟩ := protectedModeOnlyInstructions s p x r (by simp [State.unchecked, hv])
      exact ⟨lldt, ltr⟩
  cases i <;> simp only [writesSystem, Bool.false_eq_true] at hx
  case lldt p x =>
    cases hv : s.vm with
    | true => exact ⟨_, (mode p x .eax hv).1⟩
    | false =>
      obtain ⟨_, tables, _⟩ := gate p x 0 .eax (.a32Abs 0)
      exact ⟨_, (tables hv).1⟩
  case ltr p x =>
    cases hv : s.vm with
    | true => exact ⟨_, (mode p x .eax hv).2⟩
    | false =>
      obtain ⟨_, tables, _⟩ := gate p x 0 .eax (.a32Abs 0)
      exact ⟨_, (tables hv).2⟩
  case lgdt p m =>
    obtain ⟨_, _, lgdt, _⟩ := gate p (.reg .eax) 0 .eax m
    exact ⟨_, lgdt⟩
  case lidt p m =>
    obtain ⟨_, _, _, lidt, _⟩ := gate p (.reg .eax) 0 .eax m
    exact ⟨_, lidt⟩
  case movToCr p n r =>
    cases hn : noSuchCr n with
    | true => exact ⟨_, State.run_raiseIf_raise hn⟩
    | false =>
      obtain ⟨_, _, _, _, _, _, moves⟩ := gate p (.reg .eax) n r (.a32Abs 0)
      exact ⟨_, (moves (cr_exists hn)).2⟩
  case movToDr p n r =>
    obtain ⟨_, _, _, _, _, movToDr, _⟩ := gate p (.reg .eax) n r (.a32Abs 0)
    exact ⟨_, movToDr⟩

/-- An operation that cannot switch tasks and writes no system register keeps them all. -/
theorem exec_keeps_system {i : Instr} {s : State} {t : State} (hm : i.maySwitch = false) (hx : writesSystem i = false)
    (h : exec i s = .next t) : EndsHere s t (fun c => c.work.system = s.system) := by
  have weaken : ∀ {Q : Ctx → Prop}, EndsHere s t Q → (∀ c, Q c → c.work.system = s.system) →
      EndsHere s t (fun c => c.work.system = s.system) := fun ends hQ => by
    cases ends with
    | commit c hc e => exact .commit c (hQ c hc) e
    | fault f hf e => exact .fault f hf e
    | refuse e => exact .refuse e
  cases hi : i.isTransfer with
  | true =>
    obtain ⟨imm, wide, hr⟩ := returns_of_not_switch s hi hm
    exact weaken (returns_returning hr h) fun c hc => hc.2.2.1
  | false =>
    have L := before_loose_here s
    obtain ⟨op, e, hs⟩ : ∃ op, exec i s = s.run op ∧ Keeps (Before s) (HaltsHere s) op := by
      cases hs : i.mayStore with
      | true => exact store_ops L i s hi hs hx
      | false => exact regs_ops L.toRegs i s hi hs hx
    exact weaken (run_cases_here (e ▸ h) fun c hc => hs c (hc ▸ before_start s)) fun c hc => hc.2.2

end Sys2Proof.Machine

namespace Sys2Proof
open Machine

/-- Settles O13: each operation keeps the system registers it is not listed for. -/
theorem whoWritesSystemRegisters : Obligations.WhoWritesSystemRegisters := by
  intro i s t h
  have framed := exec_systemFramed h
  exact ⟨framed.gdtr, framed.idtr, framed.ldtr, framed.tr, framed.cr0, framed.cr3, framed.cr4, framed.dr, framed.cr2,
    framed.paging, framed.pdb, framed.params, framed.inputs, framed.views, framed.answers⟩

/-- Settles O14: outside level 0 the writers of system registers end in a fault, the others keep them, and IOPL is in no frame. -/
theorem privilegedRegistersNeedLevelZero : Obligations.PrivilegedRegistersNeedLevelZero := by
  intro i s t hpe hc hm h
  have iopl : t.iopl = s.iopl := by
    cases hi : i.isTransfer with
    | false => exact iopl_of_masked (exec_framed hi h).flags (flagMask_iopl hi hc)
    | true =>
      obtain ⟨imm, wide, hr⟩ := returns_of_not_switch s hi hm
      match returns_returning hr h with
      | .commit c hc ht => rw [ht]; exact congrArg (fun v : Word => v.extractLsb' 12 2) hc.2.2.2.1
      | .fault f hf ht => rw [ht]; rfl
      | .refuse ht => rw [ht]; rfl
  cases hx : writesSystem i with
  | true =>
    obtain ⟨f, e⟩ := systemWriter_faults hpe hc hx
    cases e.symm.trans h
    exact ⟨rfl, rfl, rfl, rfl, rfl, rfl, rfl, rfl, rfl, iopl⟩
  | false =>
    match exec_keeps_system hm hx h with
    | .commit c hc ht =>
      obtain ⟨h1, h2, h3, h4, h5, _, h7, h8, h9, _, _, _, h13, _, _⟩ := system_fields hc
      rw [ht] at iopl ⊢
      exact ⟨h1, h2, h3, h4, h5, h7, h8, h9, h13, iopl⟩
    | .fault f hf ht => rw [ht] at iopl ⊢; exact ⟨rfl, rfl, rfl, rfl, rfl, rfl, rfl, rfl, rfl, iopl⟩
    | .refuse ht => rw [ht] at iopl ⊢; exact ⟨rfl, rfl, rfl, rfl, rfl, rfl, rfl, rfl, rfl, iopl⟩

/-- Settles O15: what is no transfer keeps the level with its frame, and the checks of a far RET let it only move outward. -/
theorem onlyTransfersChangeLevel : Obligations.OnlyTransfersChangeLevel := by
  intro i s t h
  refine ⟨fun hi => (exec_framed hi h).cpl, fun imm wide hr => ?_⟩
  match returns_returning hr h with
  | .commit c hc ht => rw [ht]; exact hc.2.2.2.2
  | .fault f hf ht => rw [ht]; exact BitVec.le_refl _
  | .refuse ht => rw [ht]; exact BitVec.le_refl _

end Sys2Proof

namespace Sys2Proof.Machine

/-! ### Which bytes an operation stores to -/

/-- An operation from `s` that has planned writes only to the bytes `ws` names, each an address and a width. -/
def Storing (ws : List (Word × Nat)) (s : State) (c : Ctx) : Prop :=
  c.base = s ∧ c.switched = false ∧ ∀ w ∈ c.plan, ∃ x ∈ ws, ∃ k < x.2, w.1 = x.1 + BitVec.ofNat 32 k

/-- An operation from `s` that has only read. -/
def OnlyRead (s : State) (c : Ctx) : Prop := c.base = s ∧ c.switched = false ∧ c.work = s ∧ c.plan = []

theorem storing_regs (ws : List (Word × Nat)) (s : State) : SysRegs (Storing ws s) (HaltsHere s) where
  raise := fun _ _ hf h => ⟨proper_raise hf, h.1, h.2.1⟩
  asked := fun _ _ h => h
  set := fun _ _ _ _ _ _ _ h => h
  sys := fun _ _ _ _ _ _ _ _ _ _ _ h => h

theorem onlyRead_reads (s : State) : Reads (OnlyRead s) (HaltsHere s) where
  raise := fun _ _ hf h => ⟨proper_raise hf, h.1, h.2.1⟩
  asked := fun _ _ h => h

theorem onlyRead_start (s : State) : OnlyRead s (Ctx.start s) := ⟨rfl, rfl, rfl, rfl⟩

theorem OnlyRead.storing {ws : List (Word × Nat)} {s : State} {c : Ctx} (h : OnlyRead s c) : Storing ws s c :=
  ⟨h.1, h.2.1, by simp [h.2.2.2]⟩

section
variable {ws : List (Word × Nat)} {s : State} {α : Type} {Q : α → Ctx → Prop}

/-- While an operation has only read, what it reads of the state is read of `s`. -/
theorem onlyRead_work {E : Halt → Ctx → Prop} {k : State → Op α} (h : Spec (OnlyRead s) (k s) Q E) :
    Spec (OnlyRead s) (work >>= k) Q E := by
  refine spec_work_of (p := fun u => u = s) (fun c hc => hc.2.2.1) fun u hu => ?_
  rw [hu]
  exact h

/-- A write to bytes that are named. -/
theorem storing_memWrite {P : Ctx → Prop} (hP : ∀ c, P c → Storing ws s c) {user : Bool} {a : Word} {n : Nat} (v : Word)
    (h : (a, n) ∈ ws) : Spec P (memWrite user a n v) (fun _ => Storing ws s) (HaltsHere s) := by
  intro c hc
  obtain ⟨hb, hs, hw⟩ := hP c hc
  simp only [memWrite]
  cases c.check { addr := a, size := n, write := true, user := user } with
  | some f => exact ⟨proper_raise (proper_mmu f), hb, hs⟩
  | none =>
    refine ⟨hb, hs, fun w hmem => ?_⟩
    rcases List.mem_append.1 hmem with new | old
    · obtain ⟨k, hk, e⟩ := mem_bytesLe a n v w (List.mem_reverse.1 new)
      exact ⟨_, h, k, hk, e⟩
    · exact hw w old

theorem storing_advance (n : Word) : Keeps (Storing ws s) (HaltsHere s) (advance n) := (storing_regs ws s).advance n

/-- What an operation leaves in memory that stores to the named bytes. -/
theorem EndsHere.storing {t : State} (h : EndsHere s t (Storing ws s)) (a : Nat)
    (ha : ∀ w ∈ ws, ∀ k, k < w.2 → a ≠ s.mmu.translate (w.1 + BitVec.ofNat 32 k)) : t.mem.read a = s.mem.read a := by
  cases h with
  | commit c hc e =>
    obtain ⟨hb, _, hw⟩ := hc
    rw [e]
    show (applyPlan c.base.mmu c.plan c.base.mem).read a = _
    rw [hb]
    refine applyPlan_read_other _ _ _ _ fun w hmem => ?_
    obtain ⟨x, hx, k, hk, e⟩ := hw w hmem
    rw [e]
    exact ha x hx k hk
  | fault f hf e => rw [e]; rfl
  | refuse e => rw [e]
end

theorem store_push (s : State) (w : Nat) (v : Word) :
    Spec (OnlyRead s) (push w v) (fun _ => Storing [(s.stackAddr (s.gpr.esp - BitVec.ofNat 32 w), w)] s) (HaltsHere s) :=
  onlyRead_work <| (storing_memWrite (fun _ h => h.storing) _ (List.mem_singleton.2 rfl)).bind fun _ =>
    keeps_regs (storing_regs _ s).toRegs _ fun s => regs_setEsp s _

theorem store_pseudo (s : State) (a : Word) (t : TableReg) :
    Spec (OnlyRead s) (storePseudo a t) (fun _ => Storing [(a, 2), (a + 2#32, 4)] s) (HaltsHere s) :=
  (storing_memWrite (fun _ h => h.storing) _ (by simp)).bind fun _ => storing_memWrite (fun _ h => h) _ (by simp)

theorem store_setBusy (s : State) (sel : Sel) (b : Bool) :
    Spec (OnlyRead s) (setBusy sel b) (fun _ => Storing [(s.busyAddr sel, 1)] s) (HaltsHere s) :=
  onlyRead_work <| ((onlyRead_reads s).memRead _ _ _).bind fun _ =>
    storing_memWrite (fun _ h => h.storing) _ (List.mem_singleton.2 rfl)

theorem store_ltrOp (s : State) (sel : Sel) :
    Spec (OnlyRead s) (ltrOp sel) (fun _ => Storing [(s.busyAddr sel, 1)] s) (HaltsHere s) := by
  have S := onlyRead_reads s
  have iomap : ∀ d, Keeps (OnlyRead s) (HaltsHere s) (readIomap d) := by
    intro d
    unfold readIomap
    split
    · exact S.memRead16 _
    · exact keeps_pure _
  exact (S.raiseIf' _ _).seq fun _ => (S.raiseIf' _ _).seq fun _ => (S.requireDesc _ _).seq fun d =>
    (keeps_refuseIf fun _ h => ⟨proper_refuse, h.1, h.2.1⟩).seq fun _ => (S.raiseIf' _ _).seq fun _ =>
    (S.raiseIf' _ _).seq fun _ => (iomap d).seq fun _ => (store_setBusy s sel true).bind fun _ =>
    keeps_modify fun c h => (storing_regs _ s).sys c _ _ _ _ _ _ _ _ _ _ h

/-- An operation run from `s` that stores to the named bytes. -/
theorem ends_storing {s t : State} {ws : List (Word × Nat)} {op : Op Unit} (h : s.run op = .next t)
    (spec : Spec (OnlyRead s) op (fun _ => Storing ws s) (HaltsHere s)) : EndsHere s t (Storing ws s) :=
  run_cases_here h fun c hc => spec c (hc ▸ onlyRead_start s)

/-- The operand an operation reads first is the one the `Mmu` says to its first access. -/
theorem spec_readRm16_first {s : State} {α : Type} {Q : α → Ctx → Prop} {p : List Pfx} {x : RmOp} {k : BitVec 16 → Op α}
    (h : Spec (OnlyRead s) (k (s.rm16Asked p x)) Q (HaltsHere s)) :
    Spec (fun c => c = Ctx.start s) (readRm16 p x >>= k) Q (HaltsHere s) := by
  intro c hc
  subst hc
  have read := (onlyRead_reads s).readRm16 p x _ (onlyRead_start s)
  rw [bind_apply]
  rcases readRm16_asked s p x with ⟨c, e, _⟩ | ⟨f, c, e, _⟩
  · rw [e] at read ⊢
    exact h c read
  · rw [e] at read ⊢
    exact read

theorem ltr_storing {s t : State} {p : List Pfx} {x : RmOp} (h : exec (.ltr p x) s = .next t) :
    EndsHere s t (Storing [(s.busyAddr (s.rm16Asked p x), 1)] s) := by
  have gated : ∀ f, f.Proper → exec (.ltr p x) s = .next (s.takeFault f) →
      EndsHere s t (Storing [(s.busyAddr (s.rm16Asked p x), 1)] s) := fun f hf e =>
    .fault f hf (Host.Outcome.next.inj (h.symm.trans e))
  cases hu : s.unchecked with
  | true => exact gated .ud (by simp) (State.run_modeGate_raise hu)
  | false =>
    by_cases h0 : s.cpl = 0
    · exact run_cases_here ((State.run_bothGates_pass hu h0).symm.trans h) <| spec_readRm16_first <|
        (store_ltrOp s _).bind fun _ => storing_advance _
    · exact gated s.privFault (by simp) (State.run_bothGates_raise hu h0)

/-- The storing forms that are no transfer store where the statement says. -/
theorem exec_storing {i : Instr} {s t : State} {ws : List (Word × Nat)} (hw : i.stores s = some ws)
    (h : exec i s = .next t) : EndsHere s t (Storing ws s) := by
  have S := onlyRead_reads s
  cases i with
  | pushf p =>
    cases hw
    exact ends_storing h (S.v86IoplGate.seq fun _ => (store_push s _ _).bind fun _ => storing_advance _)
  | sgdt p m | sidt p m =>
    cases hw
    exact ends_storing h ((store_pseudo s _ _).bind fun _ => storing_advance _)
  | ltr p x => cases hw; exact ltr_storing h
  | arpl p x r =>
    cases x with
    | reg d => cases hw
    | mem m =>
      cases hw
      exact ends_storing h (S.modeGate.seq fun _ => (S.readRm16 _ _).seq fun _ => Spec.bind (onlyRead_work <|
        storing_memWrite (fun _ h => h.storing) _ (List.mem_singleton.2 rfl)) fun _ =>
        (keeps_regs (storing_regs _ s).toRegs _ fun s => regs_withFlag s _ _).seq fun _ => storing_advance _)
  | _ => cases hw

/-- The forms that store nothing plan no write. -/
theorem exec_storing_nothing {i : Instr} {s t : State} (hs : i.mayStore = false) (h : exec i s = .next t) :
    EndsHere s t (Storing [] s) := by
  have G := storing_regs [] s
  have start : Storing [] s (Ctx.start s) := (onlyRead_start s).storing
  have ends : ∀ {op}, exec i s = s.run op → Keeps (Storing [] s) (HaltsHere s) op → EndsHere s t (Storing [] s) :=
    fun e hop => run_cases_here (e ▸ h) fun c hc => hop c (hc ▸ start)
  cases hi : i.isTransfer with
  | true =>
    have hm : i.maySwitch = false := by
      cases i with
      | jmpFarPtr | jmpFarMem | callFarPtr | callFarMem | iret | int3 | intImm | into | hardwareInterrupt
      | exceptionDelivery => cases hs
      | _ => rfl
    obtain ⟨imm, wide, hr⟩ := returns_of_not_switch s hi hm
    exact ends (return_run hr) (G.farReturn imm wide)
  | false =>
    cases hx : writesSystem i with
    | false =>
      obtain ⟨op, e, hop⟩ := regs_ops G.toRegs i s hi hs hx
      exact ends e hop
    | true =>
      obtain ⟨op, e, hop⟩ := sys_ops G i s hx (by rintro p x rfl; cases hs)
      exact ends e hop

end Sys2Proof.Machine

namespace Sys2Proof
open Machine

/-- Settles O18: an operation that may store nothing plans no write, one that stores plans only writes to the listed bytes. -/
theorem memoryFrame : Obligations.MemoryFrame := by
  intro i s t h
  exact ⟨fun hs a => (exec_storing_nothing hs h).storing a (by simp), fun ws hw => (exec_storing hw h).storing⟩

end Sys2Proof
end

section
/-! SUPPORT. The invariant of the machine (10_state.md R25, R27, R29; 60_exceptions.md R303): every operation and every step keeps it. -/

namespace Sys2Proof.Machine

variable {α β : Type} {P : Ctx → Prop} {Q : α → Ctx → Prop} {E : Halt → Ctx → Prop}

/-! ### What an operation keeps of the invariant while it runs -/

/-- A condition on PE, VM and CPL. -/
abbrev ModeCond := Bool → Bool → Level → Prop

/-- The condition between operations (10_state.md R27): CPL 0 without VM in real mode, CPL 3 in V86 mode. -/
def AnyMode : ModeCond := fun pe vm cpl => (pe = false → cpl = 0 ∧ vm = false) ∧ (vm = true → cpl = 3)

/-- Protected or V86 mode, CPL being on its way to a new level. -/
def PeSet : ModeCond := fun pe _ _ => pe = true

/-- Protected or V86 mode between operations. -/
def PeMode : ModeCond := fun pe vm cpl => pe = true ∧ (vm = true → cpl = 3)

/-- Protected mode. -/
def Prot : ModeCond := fun pe vm _ => pe = true ∧ vm = false

/-- The working copy meets the invariant, with the condition `M` on the mode, and no fault is pending. -/
structure FitState (M : ModeCond) (w : State) : Prop where
  memory : Memory.wf w.mem = true
  pending : w.pendingFault = none
  normal : Normal w.eflags
  stackMask : w.stack = .ofBig w.seg.ss.big
  mode : M w.pe w.vm w.cpl

/-- An operation so far: its base meets the invariant, and its working copy too, with the condition `M` on the mode. -/
def Fit (M : ModeCond) (c : Ctx) : Prop := c.base.Inv ∧ FitState M c.work

/-- However an operation ends, its base meets the invariant. -/
def BaseFit (_ : Halt) (c : Ctx) : Prop := c.base.Inv

theorem fit_stable (M : ModeCond) : Stable (Fit M) BaseFit where
  raise := fun _ _ _ h => h.1
  asked := fun _ _ h => h
  plan := fun _ _ h => h

namespace FitState
variable {M N : ModeCond} {w : State}

theorem weaken (h : FitState M w) (hN : M w.pe w.vm w.cpl → N w.pe w.vm w.cpl) : FitState N w := { h with mode := hN h.mode }

theorem peMode (h : FitState Prot w) : FitState PeMode w :=
  h.weaken fun ⟨hpe, hvm⟩ => ⟨hpe, fun no => by simp [hvm] at no⟩

theorem anyMode (h : FitState PeMode w) : FitState AnyMode w :=
  h.weaken fun ⟨hpe, hvm⟩ => ⟨fun no => by simp [hpe] at no, hvm⟩

theorem inv (h : FitState AnyMode w) : w.Inv :=
  ⟨h.memory, h.normal, h.stackMask, h.mode.1, h.mode.2, fun f hf => by simp [h.pending] at hf⟩

theorem setEsp (h : FitState M w) (v : Word) : FitState M (w.setEsp v) := { h with }
theorem loadEsp (h : FitState M w) (v : Word) : FitState M (w.loadEsp v) := { h with }
theorem withEip (h : FitState M w) (e : Word) : FitState M { w with eip := e } := { h with }
theorem withCpl (h : FitState M w) {n : Level} (hN : N w.pe w.vm n) : FitState N { w with cpl := n } := { h with mode := hN }

theorem setSeg (h : FitState M w) (n : SegName) (r : SegReg) : FitState M (w.setSeg n r) := by
  obtain ⟨memory, pending, normal, stackMask, mode⟩ := h
  cases n
  case ss => exact ⟨memory, pending, normal, rfl, mode⟩
  all_goals exact ⟨memory, pending, normal, stackMask, mode⟩

theorem installSeg (h : FitState M w) (n : SegName) (sel : Sel) (d : Desc) : FitState M (w.installSeg n sel d) := h.setSeg _ _
theorem loadSegReal (h : FitState M w) (n : SegName) (sel : Sel) : FitState M (w.loadSegReal n sel) := h.setSeg _ _

theorem installNull (h : FitState M w) {n : SegName} (hn : n ≠ .ss) (sel : Sel) : FitState M (w.installNull n sel) := by
  rw [w.installNull_eq_setSeg hn]
  exact h.setSeg _ _

theorem installCs (h : FitState M w) (sel : Sel) (d : Desc) {n : Level} (hN : N w.pe w.vm n) :
    FitState N (w.installCs sel d n) :=
  FitState.withCpl (w := w.installSeg .cs (withRpl sel n) d) (h.installSeg _ _ _) hN

theorem withEflags (h : FitState M w) {v : Word} (hN : N w.pe (w.withEflags v).vm w.cpl) : FitState N (w.withEflags v) :=
  { h with normal := eflagsWrite_normal v, mode := hN }

theorem mergeFlags (h : FitState M w) (fl : Word) (wide : Bool) : FitState M (w.mergeFlags fl wide) :=
  { h with
    normal := eflagsWrite_normal _
    mode := by rw [mergeFlags_vm]; exact h.mode }

theorem invalidateOne (h : FitState M w) (n : Level) {r : SegName} (hr : r ≠ .ss) : FitState M (w.invalidateOne n r) := by
  unfold State.invalidateOne
  split
  · exact h.installNull hr _
  · exact h

theorem invalidateDataSegs (h : FitState M w) (n : Level) : FitState M (w.invalidateDataSegs n) :=
  (((h.invalidateOne n (by simp)).invalidateOne n (by simp)).invalidateOne n (by simp)).invalidateOne n (by simp)

theorem nullDataSegs (h : FitState M w) : FitState M w.nullDataSegs :=
  (((h.installNull (by simp) _).installNull (by simp) _).installNull (by simp) _).installNull (by simp) _

theorem loadV86Segs (h : FitState M w) (cs ss ds es fs gs : Sel) : FitState M (w.loadV86Segs cs ss ds es fs gs) :=
  (((((h.loadSegReal _ _).loadSegReal _ _).loadSegReal _ _).loadSegReal _ _).loadSegReal _ _).loadSegReal _ _

theorem enterStack (h : FitState M w) (sel : Sel) (d : Desc) (esp : Word) (n : Level) (hN : N w.pe w.vm n) :
    FitState N (w.enterStack sel d esp n) :=
  FitState.withCpl (w := (w.installSeg .ss sel d).loadEsp esp) ((h.installSeg _ _ _).loadEsp _) hN

end FitState

/-! ### Pieces of operations -/

theorem Spec.pre {R : Ctx → Prop} {op : Op α} (h : Spec P op Q E) (k : ∀ c, R c → P c) : Spec R op Q E := fun c hc => h c (k c hc)

theorem fit_modify {M N : ModeCond} {f : State → State} (h : ∀ w, FitState M w → FitState N (f w)) :
    Spec (Fit M) (modifyWork f) (fun _ => Fit N) BaseFit := fun c hc => ⟨hc.1, h c.work hc.2⟩

section
variable {M : ModeCond}

theorem fit_push (w : Nat) (v : Word) : Keeps (Fit M) BaseFit (push w v) :=
  keeps_work.seq fun _ => ((fit_stable M).memWrite _ _ _ _).seq fun _ => fit_modify fun _ h => h.setEsp _

theorem fit_pop (w : Nat) : Keeps (Fit M) BaseFit (pop w) :=
  ((fit_stable M).peekStack _ _).seq fun _ => (fit_modify fun _ h => h.setEsp _).seq fun _ => keeps_pure _

theorem fit_pushReturn (w : Nat) (next : Word) : Keeps (Fit M) BaseFit (pushReturn w next) :=
  keeps_work.seq fun _ => (fit_push _ _).seq fun _ => fit_push _ _

theorem fit_pushError (e : Option Word) : Keeps (Fit M) BaseFit (pushError e) := by
  cases e
  · exact keeps_pure _
  · exact fit_push _ _

theorem fit_pushSlots (w : Nat) (vs : List Word) : Keeps (Fit M) BaseFit (pushSlots w vs) := by
  induction vs with
  | nil => exact keeps_pure _
  | cons v vs ih => exact ih.seq fun _ => fit_push _ _

theorem fit_frame (old : State) (fl : Word) (e : Option Word) (ret : Word) :
    Keeps (Fit M) BaseFit (pushInterruptFrame old fl e ret) :=
  (keeps_when ((fit_push _ _).seq fun _ => (fit_push _ _).seq fun _ => (fit_push _ _).seq fun _ => fit_push _ _)).seq fun _ =>
    (fit_push _ _).seq fun _ => (fit_push _ _).seq fun _ => (fit_push _ _).seq fun _ => (fit_push _ _).seq fun _ =>
      (fit_push _ _).seq fun _ => fit_pushError _

/-! ### Unchecked transfers: they load CS and leave the level -/

theorem fit_jumpReal (sel : Sel) (off : Word) (wide : Bool) : Keeps (Fit M) BaseFit (jumpReal sel off wide) :=
  fit_modify fun _ h => (h.loadSegReal _ _).withEip _

theorem fit_callReal (sel : Sel) (off : Word) (wide : Bool) (next : Word) :
    Keeps (Fit M) BaseFit (callReal sel off wide next) :=
  (fit_pushReturn _ _).seq fun _ => fit_modify fun _ h => (h.loadSegReal _ _).withEip _

theorem fit_returnReal (imm : BitVec 16) (wide : Bool) : Keeps (Fit M) BaseFit (returnReal imm wide) :=
  (fit_pop _).seq fun _ => (fit_pop _).seq fun _ => fit_modify fun _ h => ((h.setEsp _).loadSegReal _ _).withEip _

theorem fit_iretReal (wide : Bool) : Keeps (Fit M) BaseFit (iretReal wide) :=
  (fit_pop _).seq fun _ => (fit_pop _).seq fun _ => (fit_pop _).seq fun _ =>
    fit_modify fun _ h => ((h.loadSegReal _ _).withEip _).mergeFlags _ _

/-- Flags with TF and IF cleared have the VM they had. -/
theorem vm_clearTfIf (s : State) : (s.withEflags (setBit (setBit s.eflags bitIF false) bitTF false)).vm = s.vm := by
  simp [State.vm_eq_getElem, State.withEflags, eflagsWrite_bit, setBit, maskV86All]

theorem fit_realInterrupt (v : BitVec 8) (ret : Word) : Keeps (Fit M) BaseFit (realInterrupt v ret) :=
  keeps_work.seq fun _ => ((fit_stable M).memRead _ _ _).seq fun _ => ((fit_stable M).memRead _ _ _).seq fun _ =>
    (fit_push _ _).seq fun _ => (fit_push _ _).seq fun _ => (fit_push _ _).seq fun _ =>
    (fit_modify fun w h => h.withEflags (by rw [vm_clearTfIf]; exact h.mode)).seq fun _ =>
      fit_modify fun _ h => (h.loadSegReal _ _).withEip _
end

/-! ### Protected-mode transfers -/

theorem fit_toCode (t : Sel) (c : Desc) (cpl : State → Level) (target : Word) :
    Keeps (Fit Prot) BaseFit (modifyWork fun w => { w.installCs t c (cpl w) with eip := target }) :=
  fit_modify fun w h => FitState.withEip (w := w.installCs t c (cpl w)) (h.installCs _ _ h.mode) _

theorem fit_jumpToCode (sel : Sel) (d : Desc) (off : Word) (wide : Bool) :
    Keeps (Fit Prot) BaseFit (jumpToCode sel d off wide) :=
  have S := fit_stable Prot
  keeps_work.seq fun u => (S.raiseIf' _ _).seq fun _ => (S.raiseIf' _ _).seq fun _ => fit_toCode _ _ (fun _ => u.cpl) _

theorem fit_jumpViaCallGate (sel : Sel) (g : Desc) : Keeps (Fit Prot) BaseFit (jumpViaCallGate sel g) :=
  have S := fit_stable Prot
  keeps_work.seq fun u => (S.raiseIf' _ _).seq fun _ => (S.raiseIf' _ _).seq fun _ => (S.raiseIf' _ _).seq fun _ =>
    (S.requireDesc _ _).seq fun _ => (S.raiseIf' _ _).seq fun _ => (S.raiseIf' _ _).seq fun _ =>
    (S.raiseIf' _ _).seq fun _ => (S.raiseIf' _ _).seq fun _ => fit_toCode _ _ (fun _ => u.cpl) _

theorem fit_sameLevelCall (t : Sel) (c : Desc) (target : Word) (w : Nat) (next : Word) :
    Keeps (Fit Prot) BaseFit (sameLevelCall t c target w next) :=
  (fit_pushReturn _ _).seq fun _ => fit_toCode _ _ (fun s => s.cpl) _

theorem fit_interLevelCall (t : Sel) (c : Desc) (target : Word) (w pc : Nat) (next : Word) :
    Keeps (Fit Prot) BaseFit (interLevelCall t c target w pc next) := by
  have S := fit_stable Prot
  refine keeps_work.seq fun _ => (S.readStackForLevel _).seq fun _ => (S.checkNewSs _ _ _).seq fun _ =>
    (S.peekSlots _ _ _).seq fun _ => Spec.seq (fit_modify fun w h => ?_) fun _ => (fit_push _ _).seq fun _ =>
    (fit_push _ _).seq fun _ => (fit_pushSlots _ _).seq fun _ => (fit_push _ _).seq fun _ => (fit_push _ _).seq fun _ =>
    fit_toCode _ _ (fun _ => c.dpl) _
  exact h.enterStack _ _ _ _ h.mode

theorem fit_callToCode (sel : Sel) (d : Desc) (off : Word) (wide : Bool) (next : Word) :
    Keeps (Fit Prot) BaseFit (callToCode sel d off wide next) := by
  have S := fit_stable Prot
  refine keeps_work.seq fun u => (S.raiseIf' _ _).seq fun _ => (S.raiseIf' _ _).seq fun _ => ?_
  cases u.isInterLevel d
  · exact fit_sameLevelCall _ _ _ _ _
  · exact fit_interLevelCall _ _ _ _ _ _

theorem fit_callViaCallGate (sel : Sel) (g : Desc) (next : Word) : Keeps (Fit Prot) BaseFit (callViaCallGate sel g next) := by
  have S := fit_stable Prot
  refine keeps_work.seq fun u => (S.raiseIf' _ _).seq fun _ => (S.raiseIf' _ _).seq fun _ => (S.gateTarget _).seq fun c => ?_
  cases u.isInterLevel c
  · exact fit_sameLevelCall _ _ _ _ _
  · exact fit_interLevelCall _ _ _ _ _ _

theorem FitState.returnOuterRegs {w : State} (h : FitState Prot w) (cs : Sel) (d : Desc) (nss : Sel) (sd : Desc)
    (nesp eip : Word) (imm : BitVec 16) (wide : Bool) : FitState Prot (w.returnOuterRegs cs d nss sd nesp eip imm wide) := by
  have code : FitState Prot (w.installCs cs d (selRpl cs)) := h.installCs _ _ h.mode
  have stack := (code.installSeg .ss nss sd).loadEsp (sizeTrunc wide nesp)
  exact ((stack.setEsp (sizeTrunc wide nesp + imm.setWidth 32)).withEip (sizeTrunc wide eip)).invalidateDataSegs _

theorem fit_returnProt (cs : Sel) (d : Desc) (cpl : Level) (eip : Word) (imm : BitVec 16) (wide : Bool) :
    Keeps (Fit Prot) BaseFit (if selRpl cs = cpl then returnSame cs d eip imm wide else returnOuter cs d eip imm wide) := by
  have S := fit_stable Prot
  split
  · exact fit_modify fun w h => FitState.withEip (w := State.installCs _ cs d w.cpl) ((h.setEsp _).installCs _ _ h.mode) _
  · exact (S.peekStack _ _).seq fun _ => (S.peekStack _ _).seq fun _ => (S.checkNewSs _ _ _).seq fun _ =>
      fit_modify fun w h => h.returnOuterRegs _ _ _ _ _ _ _ _

/-- A context whose state is known. -/
theorem fit_at {M N : ModeCond} {c : Ctx} {u : State} (h : Fit M c ∧ c.work = u)
    (hN : M u.pe u.vm u.cpl → N u.pe u.vm u.cpl) : Fit N c := by
  obtain ⟨⟨base, work⟩, rfl⟩ := h
  exact ⟨base, work.weaken hN⟩

theorem fit_anyMode {op : Op Unit} (h : Keeps (Fit Prot) BaseFit op) : Spec (Fit Prot) op (fun _ => Fit AnyMode) BaseFit :=
  h.mono fun _ _ hc => ⟨hc.1, hc.2.peMode.anyMode⟩

theorem fit_farReturn (imm : BitVec 16) (wide : Bool) : Keeps (Fit AnyMode) BaseFit (farReturn imm wide) := by
  refine spec_work fun u => ?_
  split
  · exact (fit_returnReal _ _).pre fun _ h => h.1
  next checked =>
    have S := fit_stable Prot
    obtain ⟨hpe, hvm⟩ := State.prot_of_checked (by simpa using checked)
    exact (fit_anyMode <| (S.peekStack _ _).seq fun _ => (S.peekStack _ _).seq fun _ => (S.checkReturnCs _).seq fun _ =>
      fit_returnProt _ _ _ _ _ _).pre fun c h => fit_at h fun _ => ⟨hpe, hvm⟩

/-! ### Task switches (44_task_switch.md) -/

theorem FitState.enterTask {w : State} (h : FitState PeSet w) (sel : Sel) (d : Desc) (img : TssImage) (mode : SwitchMode) :
    FitState PeMode (w.enterTask sel d img mode) := by
  have pe : (w.enterTask sel d img mode).pe = true := by
    show (setBit w.cr0 bitTS true).getLsbD bitPE = true
    have : w.cr0.getLsbD bitPE = true := h.mode
    simp [setBit, this]
  refine ⟨h.memory, h.pending, ?_, h.stackMask, pe, fun vm => if_pos vm⟩
  simp only [State.enterTask]
  split <;> exact eflagsWrite_normal _

theorem fit_commitSwitch (sel : Sel) (d : Desc) (img : TssImage) (mode : SwitchMode) :
    Spec (Fit PeSet) (commitSwitch sel d img mode) (fun _ => Fit PeMode) BaseFit := by
  intro c ⟨base, work⟩
  have entered : FitState PeMode (c.commit.enterTask sel d img mode) :=
    FitState.enterTask (w := c.commit) { work with memory := applyPlan_wf _ _ _ base.memory } _ _ _ _
  exact ⟨entered.anyMode.inv, entered⟩

/-- What has loaded is kept as the new base. -/
theorem fit_keepWork {M : ModeCond} (h : ∀ w, FitState M w → FitState PeMode w) : Keeps (Fit M) BaseFit keepWork :=
  fun c hc => ⟨(h c.work hc.2).anyMode.inv, hc.2⟩

theorem fit_loadTaskLdt {M : ModeCond} (l : Sel) : Keeps (Fit M) BaseFit (loadTaskLdt l) := by
  have S := fit_stable M
  unfold loadTaskLdt
  split
  · exact keeps_pure _
  · exact (S.raiseIf' _ _).seq fun _ => (S.requireDesc _ _).seq fun _ => (S.raiseIf' _ _).seq fun _ =>
      (S.raiseIf' _ _).seq fun _ => fit_modify fun _ h => { h with }

theorem fit_loadTaskCs (sel : Sel) : Keeps (Fit Prot) BaseFit (loadTaskCs sel) :=
  have S := fit_stable Prot
  (S.raiseIf' _ _).seq fun _ => (S.requireDesc _ _).seq fun _ => (S.raiseIf' _ _).seq fun _ => (S.raiseIf' _ _).seq fun _ =>
    (S.raiseIf' _ _).seq fun _ => (S.raiseIf' _ _).seq fun _ => fit_modify fun _ h => h.installCs _ _ h.mode

theorem fit_loadTaskSs {M : ModeCond} (sel : Sel) (n : Level) : Keeps (Fit M) BaseFit (loadTaskSs sel n) :=
  ((fit_stable M).checkNewSs _ _ _).seq fun _ => fit_modify fun _ h => h.installSeg _ _ _

theorem fit_loadDataSeg {M : ModeCond} {n : SegName} (hn : n ≠ .ss) (sel : Sel) :
    Keeps (Fit M) BaseFit (loadDataSegProt .ts n sel) := by
  have S := fit_stable M
  unfold loadDataSegProt
  split
  · exact fit_modify fun _ h => h.installNull hn _
  · exact keeps_work.seq fun _ => (S.requireDesc _ _).seq fun _ => (S.raiseIf' _ _).seq fun _ => (S.raiseIf' _ _).seq fun _ =>
      (S.raiseIf' _ _).seq fun _ => fit_modify fun _ h => h.installSeg _ _ _

theorem fit_loadTaskSegments (img : TssImage) : Keeps (Fit PeMode) BaseFit (loadTaskSegments img) := by
  have keep := fit_keepWork (M := PeMode) fun _ h => h
  have keepProt := fit_keepWork (M := Prot) fun _ h => h.peMode
  have data : ∀ n sel, n ≠ SegName.ss → Keeps (Fit Prot) BaseFit (loadDataSegProt .ts n sel) := fun _ _ hn => fit_loadDataSeg hn _
  refine (fit_loadTaskLdt _).seq fun _ => keep.seq fun _ => spec_work fun u => ?_
  split
  · exact ((fit_modify fun _ h => h.loadV86Segs _ _ _ _ _ _).seq fun _ => keep).pre fun _ h => h.1
  next hvm =>
    have loads : Keeps (Fit Prot) BaseFit _ := (fit_loadTaskCs img.cs).seq fun _ => keepProt.seq fun _ =>
      (fit_loadTaskSs img.ss (selRpl img.cs)).seq fun _ => keepProt.seq fun _ => (data .ds img.ds (by simp)).seq fun _ =>
      keepProt.seq fun _ => (data .es img.es (by simp)).seq fun _ => keepProt.seq fun _ =>
      (data .fs img.fs (by simp)).seq fun _ => keepProt.seq fun _ => (data .gs img.gs (by simp)).seq fun _ => keepProt
    exact (loads.mono fun _ _ hc => ⟨hc.1, hc.2.peMode⟩).pre fun c h => fit_at h fun m => ⟨m.1, by simpa using hvm⟩

theorem fit_switchTask (sel : Sel) (mode : SwitchMode) (ret : Word) (err : Option Word) :
    Spec (Fit PeSet) (switchTask sel mode ret err) (fun _ => Fit AnyMode) BaseFit := by
  have S := fit_stable PeSet
  exact (S.checkTarget _ _ fun c h => h.1).seq fun _ => S.checkOutgoing.seq fun _ => (S.readImage _).seq fun _ =>
    keeps_work.seq fun _ => (keeps_when (S.setBusy _ _)).seq fun _ => (S.flushOutgoing _ _).seq fun _ =>
    (keeps_when (S.setBusy _ _)).seq fun _ => (keeps_when (S.memWrite _ _ _ _)).seq fun _ =>
    (fit_commitSwitch _ _ _ _).bind fun _ => (fit_loadTaskSegments _).seq fun _ =>
    (fit_pushError err).mono fun _ _ hc => ⟨hc.1, hc.2.anyMode⟩

/-- A task switch from protected mode. -/
theorem fit_switchTask_prot (sel : Sel) (mode : SwitchMode) (ret : Word) (err : Option Word) :
    Spec (Fit Prot) (switchTask sel mode ret err) (fun _ => Fit AnyMode) BaseFit :=
  (fit_switchTask _ _ _ _).pre fun _ h => ⟨h.1, h.2.weaken fun m => m.1⟩

/-! ### Far JMP and CALL -/

theorem fit_taskViaTss (sel : Sel) (d : Desc) (mode : SwitchMode) (next : Word) :
    Spec (Fit Prot) (taskViaTss sel d mode next) (fun _ => Fit AnyMode) BaseFit :=
  keeps_work.seq fun _ => ((fit_stable Prot).raiseIf' _ _).seq fun _ => fit_switchTask_prot _ _ _ _

theorem fit_taskViaGate (sel : Sel) (d : Desc) (mode : SwitchMode) (next : Word) :
    Spec (Fit Prot) (taskViaGate sel d mode next) (fun _ => Fit AnyMode) BaseFit :=
  keeps_work.seq fun _ => ((fit_stable Prot).raiseIf' _ _).seq fun _ => ((fit_stable Prot).raiseIf' _ _).seq fun _ =>
    fit_switchTask_prot _ _ _ _

theorem fit_raise {M : ModeCond} (f : FaultCode) : Spec (Fit M) (raiseFault f : Op α) Q BaseFit := fun _ h => h.1

theorem fit_refuse286 {M : ModeCond} {R : Unit → Ctx → Prop} : Spec (Fit M) refuse286 R BaseFit := fun _ h => h.1

theorem fit_jumpDispatch (sel : Sel) (d : Desc) (off : Word) (wide : Bool) (next : Word) :
    Spec (Fit Prot) (jumpDispatch sel d off wide next) (fun _ => Fit AnyMode) BaseFit := by
  unfold jumpDispatch
  split
  · exact fit_anyMode (fit_jumpToCode _ _ _ _)
  · exact fit_anyMode (fit_jumpViaCallGate _ _)
  · exact fit_taskViaGate _ _ _ _
  · exact fit_taskViaTss _ _ _ _
  · exact fit_refuse286
  · exact fit_refuse286
  all_goals exact fit_raise _

theorem fit_callDispatch (sel : Sel) (d : Desc) (off : Word) (wide : Bool) (next : Word) :
    Spec (Fit Prot) (callDispatch sel d off wide next) (fun _ => Fit AnyMode) BaseFit := by
  unfold callDispatch
  split
  · exact fit_anyMode (fit_callToCode _ _ _ _ _)
  · exact fit_anyMode (fit_callViaCallGate _ _ _)
  · exact fit_taskViaGate _ _ _ _
  · exact fit_taskViaTss _ _ _ _
  · exact fit_refuse286
  · exact fit_refuse286
  all_goals exact fit_raise _

theorem fit_farJump (sel : Sel) (off : Word) (wide : Bool) (next : Word) :
    Keeps (Fit AnyMode) BaseFit (farJump sel off wide next) := by
  refine spec_work fun u => ?_
  split
  · exact (fit_jumpReal _ _ _).pre fun _ h => h.1
  next checked =>
    have S := fit_stable Prot
    have mode := State.prot_of_checked (by simpa using checked)
    exact Spec.pre ((S.raiseIf' _ _).seq fun _ => (S.requireDesc _ _).seq fun d => fit_jumpDispatch _ _ _ _ _)
      fun c h => fit_at h fun _ => mode

theorem fit_farCall (sel : Sel) (off : Word) (wide : Bool) (next : Word) :
    Keeps (Fit AnyMode) BaseFit (farCall sel off wide next) := by
  refine spec_work fun u => ?_
  split
  · exact (fit_callReal _ _ _ _).pre fun _ h => h.1
  next checked =>
    have S := fit_stable Prot
    have mode := State.prot_of_checked (by simpa using checked)
    exact Spec.pre ((S.raiseIf' _ _).seq fun _ => (S.requireDesc _ _).seq fun d => fit_callDispatch _ _ _ _ _)
      fun c h => fit_at h fun _ => mode

/-! ### Interrupts and IRET (43_interrupts.md) -/

theorem vm_clearOnDelivery (s : State) (b : Bool) : (s.clearOnDelivery b).vm = false := by
  rw [State.clearOnDelivery_eq, State.vm_eq_getElem]
  cases b <;> simp [eflagsWrite_bit, maskV86All]

theorem FitState.delivered {w : State} (h : FitState PeSet w) (b : Bool) : FitState Prot (w.clearOnDelivery b) :=
  FitState.withEflags h ⟨h.mode, vm_clearOnDelivery w b⟩

theorem fit_sameLevelInterrupt (t : Sel) (c : Desc) (err : Option Word) (ret : Word) :
    Keeps (Fit PeSet) BaseFit (sameLevelInterrupt t c err ret) :=
  keeps_work.seq fun _ => ((fit_stable PeSet).raiseIf' _ _).seq fun _ => (fit_push _ _).seq fun _ => (fit_push _ _).seq fun _ =>
    (fit_push _ _).seq fun _ => (fit_pushError _).seq fun _ => fit_modify fun _ h => h.installCs _ _ h.mode

theorem fit_interLevelInterrupt (t : Sel) (c : Desc) (err : Option Word) (ret : Word) :
    Keeps (Fit PeSet) BaseFit (interLevelInterrupt t c err ret) := by
  have S := fit_stable PeSet
  refine keeps_work.seq fun _ => (S.raiseIf' _ _).seq fun _ => (S.readStackForLevel _).seq fun _ =>
    (S.checkNewSs _ _ _).seq fun _ => Spec.seq (fit_modify fun w h => ?_) fun _ => (fit_frame _ _ _ _).seq fun _ =>
    (keeps_when (fit_modify fun _ h => h.nullDataSegs)).seq fun _ => fit_modify fun _ h => h.installCs _ _ h.mode
  exact h.enterStack _ _ _ _ h.mode

theorem fit_gateDelivery (g : Desc) (err : Option Word) (ret : Word) :
    Spec (Fit PeSet) (gateDelivery g err ret) (fun _ => Fit AnyMode) BaseFit := by
  refine keeps_work.seq fun u => ((fit_stable PeSet).gateTarget _).seq fun c => Spec.seq ?_ fun _ =>
    fit_modify fun w h => (FitState.withEip (w := w.clearOnDelivery _) (h.delivered _) _).peMode.anyMode
  cases u.isInterLevel c
  · exact fit_sameLevelInterrupt _ _ _ _
  · exact fit_interLevelInterrupt _ _ _ _

theorem fit_interrupt (v : BitVec 8) (tag : IntTag) (b : Bool) (err : Option Word) (ret : Word) :
    Keeps (Fit AnyMode) BaseFit (interrupt v tag b err ret) := by
  refine spec_work fun u => ?_
  split
  · exact (fit_realInterrupt _ _).pre fun _ h => h.1
  next hpe =>
    have S := fit_stable PeSet
    have pe : u.pe = true := by simpa using hpe
    refine Spec.pre (P := Fit PeSet) ?_ fun c h => fit_at h fun _ => pe
    refine (S.raiseIf' _ _).seq fun _ => (S.readIdtGate _).seq fun g => (keeps_refuseIf fun _ h => h.1).seq fun _ =>
      (S.raiseIf' _ _).seq fun _ => (S.raiseIf' _ _).seq fun _ => (S.raiseIf' _ _).seq fun _ => ?_
    split
    · exact fit_switchTask _ _ _ _
    · exact fit_gateDelivery _ _ _

theorem fit_iretToV86 (eip : Word) (cs : Sel) (fl : Word) :
    Spec (Fit Prot) (iretToV86 eip cs fl) (fun _ => Fit AnyMode) BaseFit := by
  have S := fit_stable Prot
  refine (S.peekStack _ _).seq fun esp => (S.peekStack _ _).seq fun ss => (S.peekStack _ _).seq fun es =>
    (S.peekStack _ _).seq fun ds => (S.peekStack _ _).seq fun fs => (S.peekStack _ _).seq fun gs => fit_modify fun w h => ?_
  have flags : FitState PeSet (w.withEflags fl) := h.withEflags h.mode.1
  have segs := ((flags.loadV86Segs cs (low16 ss) (low16 ds) (low16 es) (low16 fs) (low16 gs)).loadEsp esp).withEip
    (sizeTrunc false eip)
  exact (segs.withCpl (N := PeMode) ⟨segs.mode, fun _ => rfl⟩).anyMode

theorem FitState.iretOuterRegs {w : State} (h : FitState Prot w) (cs : Sel) (d : Desc) (nss : Sel) (sd : Desc)
    (nesp eip fl : Word) (wide : Bool) : FitState Prot (w.iretOuterRegs cs d nss sd nesp eip fl wide) := by
  have flags := h.mergeFlags fl wide
  have code : FitState Prot ((w.mergeFlags fl wide).installCs cs d (selRpl cs)) := flags.installCs _ _ flags.mode
  exact (((code.installSeg .ss nss sd).loadEsp (sizeTrunc wide nesp)).withEip (sizeTrunc wide eip)).invalidateDataSegs _

theorem fit_iretSame (cs : Sel) (d : Desc) (eip fl : Word) (wide : Bool) :
    Keeps (Fit Prot) BaseFit (iretSame cs d eip fl wide) := by
  refine fit_modify fun w h => ?_
  have code : FitState Prot ((w.setEsp (w.gpr.esp + BitVec.ofNat 32 (3 * widthBytes wide))).installCs cs d w.cpl) :=
    (h.setEsp _).installCs _ _ h.mode
  exact (code.withEip (sizeTrunc wide eip)).mergeFlags _ _

theorem fit_iretProt (wide : Bool) : Spec (Fit Prot) (iretProt wide) (fun _ => Fit AnyMode) BaseFit := by
  have S := fit_stable Prot
  refine keeps_work.seq fun u => (S.peekStack _ _).seq fun _ => (S.peekStack _ _).seq fun _ => (S.peekStack _ _).seq fun _ => ?_
  split
  · exact fit_iretToV86 _ _ _
  · refine (S.checkReturnCs _).seq fun _ => ?_
    split
    · exact fit_anyMode (fit_iretSame _ _ _ _ _)
    · exact fit_anyMode <| (S.peekStack _ _).seq fun _ => (S.peekStack _ _).seq fun _ => (S.checkNewSs _ _ _).seq fun _ =>
        fit_modify fun _ h => h.iretOuterRegs _ _ _ _ _ _ _ _

theorem fit_iretTask (next : Word) : Spec (Fit Prot) (iretTask next) (fun _ => Fit AnyMode) BaseFit :=
  have S := fit_stable Prot
  keeps_work.seq fun _ => (S.raiseIf' _ _).seq fun _ => (S.memRead16 _).seq fun _ => fit_switchTask_prot _ _ _ _

theorem fit_iretOp (wide : Bool) (next : Word) : Keeps (Fit AnyMode) BaseFit (iretOp wide next) := by
  refine spec_work fun u => ?_
  split
  · exact (fit_iretReal _).pre fun _ h => h.1
  next hpe =>
  split
  · exact Spec.pre (((fit_stable AnyMode).v86IoplGate).seq fun _ => fit_iretReal _) fun _ h => h.1
  next hvm =>
    have mode : u.pe = true ∧ u.vm = false := ⟨by simpa using hpe, by simpa using hvm⟩
    refine Spec.pre (P := Fit Prot) ?_ fun c h => fit_at h fun _ => mode
    split
    · exact fit_iretTask _
    · exact fit_iretProt _

/-! ### Every operation keeps the invariant -/

/-- The transfers that are no delivery. -/
theorem transfer_fit (i : Instr) (s : State) (hi : i.isTransfer = true) (he : i ≠ .exceptionDelivery) :
    ∃ op, exec i s = s.run op ∧ Keeps (Fit AnyMode) BaseFit op := by
  have S := fit_stable AnyMode
  cases i with
  | jmpFarPtr => exact ⟨_, rfl, fit_farJump _ _ _ _⟩
  | jmpFarMem => exact ⟨_, rfl, (S.readFarPtr _ _).seq fun _ => fit_farJump _ _ _ _⟩
  | callFarPtr => exact ⟨_, rfl, fit_farCall _ _ _ _⟩
  | callFarMem => exact ⟨_, rfl, (S.readFarPtr _ _).seq fun _ => fit_farCall _ _ _ _⟩
  | retf | retfImm => exact ⟨_, rfl, fit_farReturn _ _⟩
  | iret => exact ⟨_, rfl, fit_iretOp _ _⟩
  | int3 | intImm | hardwareInterrupt => exact ⟨_, rfl, fit_interrupt _ _ _ _ _⟩
  | into =>
    refine ⟨_, rfl, ?_⟩
    cases s.ofl
    · exact fit_modify fun _ h => h.withEip _
    · exact fit_interrupt _ _ _ _ _
  | exceptionDelivery => exact absurd rfl he
  | _ => cases hi

theorem State.Inv.takeFault {s : State} (h : s.Inv) (f : FaultCode) : (s.takeFault f).Inv :=
  { h with
    pending := fun g hg => by cases hg; rfl }

theorem State.Inv.refuse {s : State} (h : s.Inv) : ({ s with refused := true }).Inv := { h with }

theorem State.Inv.start {s : State} (h : s.Inv) (hp : s.pendingFault = none) : Fit AnyMode (Ctx.start s) :=
  ⟨h, h.memory, hp, h.reserved, h.stackMask, h.real, h.v86⟩

theorem Fit.commit {c : Ctx} (h : Fit AnyMode c) : c.commit.Inv :=
  (FitState.inv (w := c.commit) { h.2 with memory := applyPlan_wf _ _ _ h.1.memory })

theorem run_inv {s t : State} {op : Op Unit} (h : s.run op = .next t) (hs : s.Inv) (hp : s.pendingFault = none)
    (keeps : Keeps (Fit AnyMode) BaseFit op) : t.Inv := by
  have spec := keeps _ (hs.start hp)
  unfold State.run at h
  generalize op (Ctx.start s) = result at h spec
  match result, h, spec with
  | .ok _ c, h, spec => cases h; exact Fit.commit spec
  | .error .refuse c, h, spec => cases h; exact State.Inv.refuse spec
  | .error (.raise f) c, h, spec => cases h; exact State.Inv.takeFault spec f

/-- No operation that is no transfer has VM in its frame. -/
theorem flagMask_vm {i : Instr} {s : State} (hi : i.isTransfer = false) : (i.flagMask s)[17] = false := by
  cases i with
  | popf p => exact mergeMaskFor_vm _ _ _
  | jmpFarPtr | jmpFarMem | callFarPtr | callFarMem | retf | retfImm | iret | int3 | intImm | into | hardwareInterrupt
  | exceptionDelivery => cases hi
  | _ => simp [Instr.flagMask]

theorem isTransfer_of_maySwitch {i : Instr} (h : i.maySwitch = true) : i.isTransfer = true := by
  cases i with
  | jmpFarPtr | jmpFarMem | callFarPtr | callFarMem | iret | int3 | intImm | into | hardwareInterrupt | exceptionDelivery => rfl
  | _ => cases h

/-- Only at level 0 an operation that is no transfer clears PE. -/
theorem cpl_of_pe_cleared {i : Instr} {s t : State} (hi : i.isTransfer = false) (h : exec i s = .next t) (hs : s.pe = true)
    (ht : t.pe = false) : s.cpl = 0 := by
  by_contra hc
  cases hx : writesSystem i with
  | true =>
    obtain ⟨f, e⟩ := systemWriter_faults hs hc hx
    cases e.symm.trans h
    exact absurd (hs.symm.trans ht) (by simp)
  | false =>
    have cr0 : t.cr0 ≠ s.cr0 := fun e => absurd (hs.symm.trans ((congrArg (·.getLsbD bitPE) e.symm).trans ht)) (by simp)
    rcases (exec_systemFramed h).cr0 cr0 with hm | ⟨p, r, rfl⟩
    · cases hi.symm.trans (isTransfer_of_maySwitch hm)
    · cases hx

theorem plain_inv {i : Instr} {s t : State} (hi : i.isTransfer = false) (h : exec i s = .next t) (hs : s.Inv)
    (hp : s.pendingFault = none) : t.Inv := by
  have framed := exec_framed hi h
  have vm : t.vm = s.vm := vm_of_masked framed.flags (flagMask_vm hi)
  have rest : Memory.wf t.mem = true ∧ ∀ f, t.pendingFault = some f → f.returnEip = t.eip := by
    obtain ⟨op, e, spec⟩ := plain_ends i s hi
    match run_cases_here (e ▸ h) fun c hc => spec c (hc ▸ (before_start s).plain) with
    | .commit c hc ht =>
      obtain ⟨base, _, pending, _⟩ := hc
      rw [ht]
      refine ⟨applyPlan_wf _ _ _ (base ▸ hs.memory), fun f hf => ?_⟩
      cases hp.symm.trans (pending.symm.trans hf)
    | .fault f _ ht => rw [ht]; exact ⟨hs.memory, fun g hg => by cases hg; rfl⟩
    | .refuse ht => rw [ht]; exact ⟨hs.memory, hs.pending⟩
  refine ⟨rest.1, framed.normal hs.reserved, framed.stackMask hs.stackMask, fun real => ?_, fun v86 => ?_, rest.2⟩
  · rw [framed.cpl, vm]
    cases pe : s.pe with
    | false => exact hs.real pe
    | true =>
      have zero := cpl_of_pe_cleared hi h pe real
      refine ⟨zero, Bool.eq_false_iff.2 fun hv => ?_⟩
      exact absurd (zero.symm.trans (hs.v86 hv)) (by decide)
  · rw [framed.cpl]
    exact hs.v86 (vm ▸ v86)

theorem exec_inv {i : Instr} {s t : State} (he : i ≠ .exceptionDelivery) (h : exec i s = .next t) (hs : s.Inv)
    (hp : s.pendingFault = none) : t.Inv := by
  cases hi : i.isTransfer with
  | false => exact plain_inv hi h hs hp
  | true =>
    obtain ⟨op, e, keeps⟩ := transfer_fit i s hi he
    exact run_inv (e ▸ h) hs hp keeps

theorem nestedFault_inv {s t : State} {f : PendingFault} {f2 : FaultCode} (h : nestedFault s f f2 = .next t) (hs : s.Inv)
    (hf : f.returnEip = s.eip) : t.Inv := by
  unfold nestedFault at h
  split at h
  · cases h; exact { hs with pending := fun g hg => by cases hg; exact hf }
  · split at h
    · cases h
    · cases h; exact { hs with pending := fun g hg => by cases hg; exact hf }
  · cases h

theorem delivery_inv {s t : State} (h : exec .exceptionDelivery s = .next t) (hs : s.Inv) : t.Inv := by
  cases hp : s.pendingFault with
  | none => simp [exec, execExceptionDelivery, hp] at h
  | some f =>
    have emptied : ({ s with pendingFault := none }).Inv := { hs with pending := fun g hg => by cases hg }
    have spec := fit_interrupt f.vector .exception true f.err f.returnEip _ (emptied.start rfl)
    simp only [exec, execExceptionDelivery, hp, deliver] at h
    generalize interrupt f.vector .exception true f.err f.returnEip _ = result at h spec
    match result, h, spec with
    | .ok _ c, h, spec => cases h; exact Fit.commit spec
    | .error .refuse _, h, _ => cases h; exact { hs with pending := fun g hg => hs.pending g (hp.trans hg) }
    | .error (.raise f2) c, h, spec =>
      cases hsw : c.switched with
      | true => simp only [hsw, if_true] at h; cases h; exact State.Inv.takeFault spec f2
      | false =>
        simp only [hsw, Bool.false_eq_true, if_false] at h
        exact nestedFault_inv h emptied (hs.pending f hp)

/-! ### Every step keeps the invariant -/

theorem State.Inv.withInputs {s : State} (h : s.Inv) (rest : List Input) : ({ s with inputs := rest }).Inv := { h with }

/-- A step of action `a` keeps the invariant. -/
def Action.KeepsInv : Action → Prop
  | .goto u => u.Inv
  | .run i u => ∀ t, exec i u = .next t → t.Inv
  | .stop _ => True

/-- What is fetched has an encoding. -/
theorem fetch_wellFormed {s : State} {i : Instr} (h : s.fetch = .instr i) : WellFormed s.codeBig i = true := by
  simp only [State.fetch] at h
  split at h
  next decoded => cases h; exact (encodeOfDecode _ _ _ _ decoded).1
  · cases h
  · split at h <;> cases h
  · cases h
  · cases h

theorem State.fetchAction_inv {s : State} (h : s.Inv) (hp : s.pendingFault = none) : s.fetchAction.KeepsInv := by
  unfold State.fetchAction
  split
  next i hi =>
    intro t ht
    exact exec_inv (fun e => by cases e ▸ fetch_wellFormed hi) ht h hp
  · exact h.takeFault _
  · trivial

theorem State.portCheck_inv {s : State} (h : s.Inv) : s.portCheck.Inv := by
  unfold State.portCheck
  split
  · exact h
  · exact h.takeFault _

theorem State.idleAction_inv {s : State} (h : s.Inv) (hp : s.pendingFault = none) : s.idleAction.KeepsInv := by
  have fetched := State.fetchAction_inv h hp
  unfold State.idleAction
  split
  · split
    · exact fun t ht => exec_inv (by simp) ht (h.withInputs _) hp
    · exact fetched
  · exact (h.withInputs _).takeFault _
  · exact State.portCheck_inv (h.withInputs _)
  · exact State.fetchAction_inv (h.withInputs _) hp
  all_goals exact fetched

theorem State.liveAction_inv {s : State} (h : s.Inv) : s.liveAction.KeepsInv := by
  unfold State.liveAction
  split
  · exact fun t ht => delivery_inv ht (h.withInputs _)
  next hp => exact State.idleAction_inv h hp

theorem reset_inv : State.reset.Inv where
  memory := rfl
  reserved := rfl
  stackMask := rfl
  real _ := ⟨rfl, by decide⟩
  v86 no := absurd no (by decide)
  pending _ no := by cases no

theorem resetKeepingMemory_inv {s : State} (h : s.Inv) (rest : List Input) : (s.resetKeepingMemory rest).Inv :=
  { reset_inv with memory := h.memory }

theorem State.nextAction_inv {s : State} (h : s.Inv) : s.nextAction.KeepsInv := by
  have live : (if s.refused then Action.stop .unsupported286 else s.liveAction).KeepsInv := by
    split
    · trivial
    · exact State.liveAction_inv h
  unfold State.nextAction
  split
  · exact resetKeepingMemory_inv h _
  · exact { h with memory := Memory.wf_write _ _ _ h.memory }
  · exact { h with }
  all_goals exact live

end Sys2Proof.Machine

namespace Sys2Proof
open Machine

/-- Settles O12: what the outside does, a fault of the core and every operation keep the invariant. -/
theorem stepKeepsTheInvariant : Obligations.StepKeepsTheInvariant := by
  intro s t hs h
  have keeps := State.nextAction_inv hs
  unfold step at h
  split at h
  next e => rw [e] at keeps; cases h; exact keeps
  next e => rw [e] at keeps; exact keeps t h
  · cases h

/-- Settles O11: each field of the reset state as the reset table gives it. -/
theorem resetMeetsTheInvariant : Obligations.ResetMeetsTheInvariant := reset_inv

end Sys2Proof
end

section
/-! SUPPORT. What a step is (60_exceptions.md R308, 70_reset_and_hazards.md R330, R341): the fetch, the order of events, what the
outside does, and the statements about them settled. -/

namespace Sys2Proof.Machine

theorem step_of_goto {s t : State} (h : s.nextAction = .goto t) : step s = .next t := by simp [step, h]
theorem step_of_run {s t : State} {i : Instr} (h : s.nextAction = .run i t) : step s = exec i t := by simp [step, h]
theorem step_of_stop {s : State} {r : Refusal} (h : s.nextAction = .stop r) : step s = .refused r := by simp [step, h]

/-- The outside acts on the state whatever it is. -/
def Input.actsAlways : Input → Bool
  | .reset | .store _ _ | .remap _ _ => true
  | .idle | .interrupt _ | .exception _ _ | .portAccess => false

/-- With no input that acts whatever the state is, a refused state stops and any other goes on. -/
theorem State.nextAction_of_head {s : State} (h : ∀ x ∈ s.inputs.head?, x.actsAlways = false) :
    s.nextAction = if s.refused then .stop .unsupported286 else s.liveAction := by
  unfold State.nextAction
  split <;> rename_i e <;> rw [e] at h
  iterate 3 cases h _ rfl

theorem State.nextAction_live {s : State} (h : ∀ x ∈ s.inputs.head?, x.actsAlways = false) (hr : s.refused = false) :
    s.nextAction = s.liveAction := by simp [State.nextAction_of_head h, hr]

theorem State.liveAction_pending {s : State} {f : PendingFault} (h : s.pendingFault = some f) :
    s.liveAction = .run .exceptionDelivery { s with inputs := Input.afterIdle s.inputs } := by simp [State.liveAction, h]

theorem State.liveAction_none {s : State} (h : s.pendingFault = none) : s.liveAction = s.idleAction := by
  simp [State.liveAction, h]

theorem State.fetchAction_instr {s : State} {i : Instr} (h : s.fetch = .instr i) : s.fetchAction = .run i s := by
  simp [State.fetchAction, h]

theorem State.fetchAction_fault {s : State} {f : FaultCode} (h : s.fetch = .fault f) : s.fetchAction = .goto (s.takeFault f) := by
  simp [State.fetchAction, h]

/-- The action of a live state whose next event is the fetch. -/
theorem State.nextAction_fetch {s : State} (hp : s.pendingFault = none) (hr : s.refused = false)
    (hi : s.inputs = [] ∨ ∃ v rest, s.inputs = .interrupt v :: rest ∧ s.ifl = false) : s.nextAction = s.fetchAction := by
  rcases hi with e | ⟨v, rest, e, masked⟩
  · rw [State.nextAction_live (by simp [e]) hr, State.liveAction_none hp]
    simp [State.idleAction, e]
  · rw [State.nextAction_live (by simp [e, Input.actsAlways]) hr, State.liveAction_none hp]
    simp [State.idleAction, e, masked]

/-- The bytes that can be read are the first of those fetched. -/
theorem State.fetchBytes_prefix (s : State) (bs : List Byte) (n : Nat) (a : Word) (hn : bs.length ≤ n)
    (h : ∀ k (hk : k < bs.length),
      s.mmu.check { addr := a + BitVec.ofNat 32 k, size := 1, write := false, user := s.user } = none ∧
        s.readByte (a + BitVec.ofNat 32 k) = bs[k]) : ∃ rest, (s.fetchBytes n a).1 = bs ++ rest := by
  induction bs generalizing n a with
  | nil => exact ⟨_, rfl⟩
  | cons b bs ih =>
    obtain ⟨m, rfl⟩ : ∃ m, n = m + 1 := ⟨n - 1, by simp at hn; omega⟩
    obtain ⟨readable, first⟩ := h 0 (by simp)
    have next : ∀ k, a + 1#32 + BitVec.ofNat 32 k = a + BitVec.ofNat 32 (k + 1) := by
      intro k
      rw [BitVec.add_assoc, BitVec.add_comm 1#32, ← BitVec.ofNat_add]
    obtain ⟨rest, e⟩ := ih m (a + 1#32) (by simpa using hn) fun k hk => by
      rw [next]
      exact h (k + 1) (by simpa using hk)
    simp only [BitVec.add_zero] at readable first
    exact ⟨rest, by simp [State.fetchBytes, readable, first, e]⟩

/-- The encoding at CS:EIP is fetched as its instruction. -/
theorem State.fetch_encoding {s : State} {i : Instr} (hi : WellFormed s.codeBig i = true)
    (h : ∀ k (hk : k < (encode s.codeBig i).length),
      s.mmu.check { addr := s.fetchAddr + BitVec.ofNat 32 k, size := 1, write := false, user := s.user } = none ∧
        s.readByte (s.fetchAddr + BitVec.ofNat 32 k) = (encode s.codeBig i)[k]) : s.fetch = .instr i := by
  have size : (encode s.codeBig i).length ≤ 15 := by
    rw [WellFormed, Bool.and_eq_true, decide_eq_true_eq] at hi
    exact hi.2
  obtain ⟨rest, e⟩ := s.fetchBytes_prefix _ 15 s.fetchAddr size h
  simp [State.fetch, e, decodeOfEncode s.codeBig i rest hi]

end Sys2Proof.Machine

namespace Sys2Proof
open Machine

/-- Settles O8: a refused state stops unless the outside acts on it, and a store or a remap keeps the mark. -/
theorem refusedHasNoFurtherStep : Obligations.RefusedHasNoFurtherStep := by
  have stops : ∀ s : State, s.refused = true → (∀ x ∈ s.inputs.head?, x.actsAlways = false) →
      step s = .refused .unsupported286 := fun s hr h => step_of_stop (by simp [State.nextAction_of_head h, hr])
  constructor
  · intro s hr noReset noStore noRemap
    refine stops s hr fun x hx => ?_
    obtain ⟨rest, e⟩ : ∃ rest, s.inputs = x :: rest := by
      cases inputs : s.inputs with
      | nil => simp [inputs] at hx
      | cons y rest => simp [inputs] at hx; exact ⟨rest, by rw [hx]⟩
    cases x with
    | reset => exact absurd e (noReset rest)
    | store a b => exact absurd e (noStore a b rest)
    | remap views answers => exact absurd e (noRemap views answers rest)
    | _ => rfl
  · intro s t hr h
    match inputs : s.inputs with
    | .reset :: rest => exact .inr ⟨rest, rfl⟩
    | .store a b :: rest =>
      rw [step_of_goto (by simp [State.nextAction, inputs]; rfl)] at h
      cases h; exact .inl hr
    | .remap views answers :: rest =>
      rw [step_of_goto (by simp [State.nextAction, inputs]; rfl)] at h
      cases h; exact .inl hr
    | [] | .idle :: _ | .interrupt _ :: _ | .exception _ _ :: _ | .portAccess :: _ =>
      rw [stops s hr (by simp [inputs, Input.actsAlways])] at h
      cases h

/-- Settles O5: the bytes at CS:EIP decode to the instruction they encode. -/
theorem stepRunsTheInstructionAtEip : Obligations.StepRunsTheInstructionAtEip := by
  intro s i hi hp hr inputs bytes
  exact step_of_run ((State.nextAction_fetch hp hr inputs).trans (State.fetchAction_instr (State.fetch_encoding hi bytes)))

/-- Settles O6: what the decoder rejects, or the `Mmu` refuses, is the fault of the fetch. -/
theorem fetchFaults : Obligations.FetchFaults := by
  intro s hp hr inputs
  have faults : ∀ f, s.fetch = .fault f → step s = .next (s.takeFault f) := fun f h =>
    step_of_goto ((State.nextAction_fetch hp hr (.inl inputs)).trans (State.fetchAction_fault h))
  exact ⟨fun h => faults _ (by simp [State.fetch, h]), fun f h hf => faults _ (by simp [State.fetch, h, hf])⟩

/-- Settles O7: the pending fault is delivered before the inputs are looked at, an allowed interrupt before the fetch. -/
theorem eventsComeInOrder : Obligations.EventsComeInOrder := by
  intro s v rest hr
  refine ⟨fun f hf => ⟨fun inputs => ?_, fun inputs => ?_⟩, fun hp inputs allowed => ?_, fun hp inputs masked i hi => ?_⟩
  · have head : (∀ x ∈ s.inputs.head?, x.actsAlways = false) ∧ Input.afterIdle s.inputs = s.inputs := by
      rcases inputs with e | e | ⟨code, e⟩ | e <;> rw [e] <;> simp [Input.actsAlways, Input.afterIdle]
    have := step_of_run ((State.nextAction_live head.1 hr).trans (State.liveAction_pending hf))
    rwa [head.2] at this
  · have := step_of_run ((State.nextAction_live (by simp [inputs, Input.actsAlways]) hr).trans (State.liveAction_pending hf))
    rwa [inputs] at this
  · refine step_of_run ((State.nextAction_live (by simp [inputs, Input.actsAlways]) hr).trans ?_)
    simp [State.liveAction_none hp, State.idleAction, inputs, allowed]
  · exact step_of_run ((State.nextAction_fetch hp hr (.inr ⟨v, rest, inputs, masked⟩)).trans (State.fetchAction_instr hi))

/-- Settles O9: each input's action. -/
theorem outsideInputsAct : Obligations.OutsideInputsAct := by
  intro s rest
  refine ⟨fun a b inputs => ?_, fun views answers inputs => ?_, fun hr hp => ⟨fun v code inputs => ?_, fun inputs => ?_,
    fun inputs i hi => ?_⟩⟩
  · exact step_of_goto (by simp [State.nextAction, inputs])
  · exact step_of_goto (by simp [State.nextAction, inputs])
  all_goals
    have live : s.nextAction = s.idleAction :=
      (State.nextAction_live (by simp [inputs, Input.actsAlways]) hr).trans (State.liveAction_none hp)
  · exact step_of_goto (live.trans (by simp [State.idleAction, inputs, State.coreException, State.takeFault]))
  · refine step_of_goto (live.trans ?_)
    simp only [State.idleAction, inputs, State.portCheck, State.ioAllowed, State.iopl, State.vm]
    rfl
  · refine step_of_run (live.trans ?_)
    simp only [State.idleAction, inputs]
    exact State.fetchAction_instr hi

/-- Settles O10: the reset table, field by field, and a reset input. -/
theorem resetLeavesTheSpecsValues : Obligations.ResetLeavesTheSpecsValues := by
  refine ⟨rfl, rfl, rfl, rfl, rfl, rfl, rfl, rfl, rfl, rfl, rfl, by decide, rfl, rfl, fun n hn => ?_, rfl, rfl, rfl, rfl, rfl,
    rfl, rfl, rfl, rfl, rfl, rfl, rfl, rfl, by decide, fun s rest inputs => ?_⟩
  · cases n with
    | cs => exact absurd rfl hn
    | _ => rfl
  · exact step_of_goto (by simp only [State.nextAction, inputs, State.resetKeepingMemory])

end Sys2Proof
end

section
/-! SUPPORT. Memory (20_memory.md): a write read back byte by byte and as a value, an access the `Mmu` refuses, and the statements
about them settled. -/

namespace Sys2Proof.Machine

/-! ### A write read back (20_memory.md R62) -/

theorem offset_succ (a : Word) (k : Nat) : a + 1#32 + BitVec.ofNat 32 k = a + BitVec.ofNat 32 (k + 1) := by
  rw [BitVec.add_assoc, BitVec.add_comm 1#32, ← BitVec.ofNat_add]

theorem extract_shift (v : Word) (k : Nat) : (v >>> 8).extractLsb' (8 * k) 8 = v.extractLsb' (8 * (k + 1)) 8 := by
  ext i hi
  simp [Nat.mul_add, Nat.add_comm, Nat.add_left_comm]

theorem low_byte (v : Word) : v.extractLsb' 0 8 = v.setWidth 8 := by
  ext i hi
  simp

theorem mem_bytesLe_of {a : Word} {n k : Nat} (v : Word) (h : k < n) :
    (a + BitVec.ofNat 32 k, v.extractLsb' (8 * k) 8) ∈ bytesLe a n v := by
  induction n generalizing a v k with
  | zero => cases h
  | succ n ih =>
    cases k with
    | zero => exact List.mem_cons.2 (.inl (by simp [low_byte]))
    | succ k => 
      have := ih (a := a + 1#32) (v >>> 8) (Nat.lt_of_succ_lt_succ h)
      rw [offset_succ, extract_shift] at this
      exact List.mem_cons_of_mem _ this

theorem bytesLe_cases {a : Word} {n : Nat} {v : Word} {w : Word × Byte} (h : w ∈ bytesLe a n v) :
    ∃ k < n, w = (a + BitVec.ofNat 32 k, v.extractLsb' (8 * k) 8) := by
  induction n generalizing a v with
  | zero => cases h
  | succ n ih =>
    rcases List.mem_cons.1 h with rfl | tail
    · exact ⟨0, by omega, by simp [low_byte]⟩
    · obtain ⟨k, hk, rfl⟩ := ih tail
      exact ⟨k + 1, by omega, by rw [offset_succ, extract_shift]⟩

/-- A byte that a plan writes reads as the plan says, when the plan agrees about it. -/
theorem applyPlan_read_mem {m : Mmu} {plan : List (Word × Byte)} {mem : Memory} {w : Word × Byte}
    (wf : Memory.wf mem = true) (hw : w ∈ plan) (agree : ∀ x ∈ plan, m.translate x.1 = m.translate w.1 → x.2 = w.2) :
    Memory.read (applyPlan m plan mem) (m.translate w.1) = w.2 := by
  induction plan with
  | nil => cases hw
  | cons x plan ih =>
    show Memory.read (Memory.write (applyPlan m plan mem) (m.translate x.1) x.2) _ = _
    by_cases e : m.translate x.1 = m.translate w.1
    · rw [← e, Memory.read_write_same _ _ _ (applyPlan_wf m plan mem wf)]
      exact agree x List.mem_cons_self e
    · rw [Memory.read_write_other _ _ _ _ (Ne.symm e)]
      refine ih ?_ fun y hy => agree y (List.mem_cons_of_mem _ hy)
      rcases List.mem_cons.1 hw with rfl | tail
      · exact absurd rfl e
      · exact tail

theorem readByte_writeLin {s : State} {a : Word} {n : Nat} (v : Word) (wf : Memory.wf s.mem = true)
    (inj : ∀ j k, j < n → k < n → s.mmu.translate (a + BitVec.ofNat 32 j) = s.mmu.translate (a + BitVec.ofNat 32 k) → j = k)
    {k : Nat} (hk : k < n) : (s.writeLin a n v).readByte (a + BitVec.ofNat 32 k) = v.extractLsb' (8 * k) 8 := by
  refine applyPlan_read_mem (w := (a + BitVec.ofNat 32 k, v.extractLsb' (8 * k) 8)) wf
    (List.mem_reverse.2 (mem_bytesLe_of v hk)) fun x hx same => ?_
  obtain ⟨j, hj, rfl⟩ := bytesLe_cases (List.mem_reverse.1 hx)
  rw [inj j k hj hk same]

theorem lowMask_bit (m i : Nat) (hi : i < 32) : (BitVec.ofNat 32 (2 ^ m - 1))[i] = decide (i < m) := by
  rw [← BitVec.getLsbD_eq_getElem, BitVec.getLsbD_ofNat, Nat.testBit_two_pow_sub_one]
  simp [hi]

/-- The bytes of a value, read little-endian, are its low bits. -/
theorem readLe_bytes {f : Word → Byte} {a : Word} {n : Nat} {v : Word}
    (h : ∀ k, k < n → f (a + BitVec.ofNat 32 k) = v.extractLsb' (8 * k) 8) :
    readLe f a n = v &&& BitVec.ofNat 32 (2 ^ (8 * n) - 1) := by
  induction n generalizing a v with
  | zero => simp [readLe]
  | succ n ih =>
    have first : f a = v.setWidth 8 := by simpa [low_byte] using h 0 (by omega)
    have tail : ∀ k, k < n → f (a + 1#32 + BitVec.ofNat 32 k) = (v >>> 8).extractLsb' (8 * k) 8 := fun k hk => by
      rw [offset_succ, extract_shift, h (k + 1) (by omega)]
    rw [readLe, first, ih tail]
    ext i hi
    simp only [BitVec.getElem_or, BitVec.getElem_and, lowMask_bit, BitVec.getElem_setWidth, BitVec.getLsbD_setWidth,
      BitVec.getElem_shiftLeft, BitVec.getElem_ushiftRight]
    by_cases low : i < 8
    · simp [low, show i < 8 * (n + 1) by omega, BitVec.getLsbD_eq_getElem hi]
    · simp [low, show 8 + (i - 8) = i by omega, show i - 8 < 8 * n ↔ i < 8 * (n + 1) by omega,
        BitVec.getLsbD_eq_getElem hi]

/-! ### An access the `Mmu` refuses (60_exceptions.md R304) -/

/-- A fault before anything is committed ends the operation with it. -/
theorem State.run_raises {s : State} {x : Op Unit} {f : FaultCode} {c : Ctx} (h : x (Ctx.start s) = .error (.raise f) c)
    (hb : c.base = s) : s.run x = .next (s.takeFault f) := by
  simp [State.run, h, hb]

/-- A write as the first access of an operation is refused. -/
theorem memWrite_faults {s : State} (user : Bool) (a : Word) (n : Nat) (v : Word) (f : MmuFault)
    (hf : s.checkFirst { addr := a, size := n, write := true, user := user } = some f) :
    memWrite user a n v (Ctx.start s) = .error (.raise f.code) (Ctx.start s).asked := by
  have : (Ctx.start s).check { addr := a, size := n, write := true, user := user } = some f := hf
  simp [memWrite, this]

end Sys2Proof.Machine

namespace Sys2Proof
open Machine

/-- Settles O20: the bytes written are read back one by one, and every other byte is left by each of the writes. -/
theorem writesReadBackAndKeepOtherBytes : Obligations.WritesReadBackAndKeepOtherBytes := by
  intro s a n v wf _ inj
  have bytes := fun k (hk : k < n) => readByte_writeLin v wf inj hk
  exact ⟨bytes, readLe_bytes bytes, fun p => writeLin_read_other s a n v p⟩

/-- Settles O21: each of the four accesses is the first of its operation, after the gates. -/
theorem mmuFaultEndsTheOperation : Obligations.MmuFaultEndsTheOperation := by
  intro s p m r f
  refine ⟨fun hv hf => ?_, fun hf => ?_, fun h0 hf => ?_, fun hu hnull hlim hf => ?_⟩
  · refine (State.run_v86IoplGate_pass (by simp [hv])).trans (State.run_raises (c := (Ctx.start s).asked) ?_ rfl)
    have refused := memWrite_faults s.user _ _ (if s.opSize p then pushfImage s.eflags else s.eflags) f hf
    simp [push, refused]
  · refine State.run_raises (c := (Ctx.start s).asked) ?_ rfl
    simp [storePseudo, memWrite_faults _ _ _ _ f hf]
  · refine (State.run_privGate_pass (.inr h0)).trans (State.run_raises (c := (Ctx.start s).asked) ?_ rfl)
    simp [readPseudo, memRead_faults _ _ _ f hf]
  · obtain ⟨k, e⟩ := LoadsSeg.exec_eq_run (.movDs p (.reg r) rfl : LoadsSeg s _ _ _)
    refine e.trans (State.run_raises (c := (Ctx.start s).asked) ?_ rfl)
    simp [loadSegBody, hu, loadDataSegProt, State.rm16, hnull, requireDesc, lookupDesc, hlim, memRead_faults _ _ _ f hf]

end Sys2Proof
end

section
/-! SUPPORT. Segment loads that complete, ARPL, MOV CR and PUSHF (41_segment_loading.md R151 to R155, R166; 45_system_registers.md R270
to R272, R283), with the statements about them settled. -/

namespace Sys2Proof.Machine

/-! ### Segment loads that succeed -/

/-- A load that succeeds leaves its state in the working copy. -/
theorem SegLoads.loadSegBody_ok {s t : State} {n : SegName} {sel : Sel} (h : SegLoads s n sel t) :
    loadSegBody n sel (Ctx.start s) = .ok () { Ctx.start s with work := t } := by
  have fresh := fresh_start s
  cases h with
  | unchecked n sel h => simp [loadSegBody, h]
  | stack sel d h hnull hm hd hrpl hk hdpl hp =>
    simp [loadSegBody, h, loadSsProt, hnull, requireDesc_some fresh sel _ d hm hd, hrpl, hk, hdpl, hp]
  | null n sel h hn hnull => simp [loadSegBody, h, hn, loadDataSegProt, hnull]
  | data n sel d h hn hnull hm hd hk hl hp =>
    simp [loadSegBody, h, hn, loadDataSegProt, hnull, requireDesc_some fresh sel _ d hm hd, hk, hl, hp]

theorem State.setSeg_frame (s : State) (n : SegName) (r : SegReg) :
    s.setSeg n r = { s with seg := s.seg.set n r, stack := (s.setSeg n r).stack } := by cases n <;> rfl

/-- Only the register and the stack mask change. -/
theorem SegLoads.frame {s t : State} {n : SegName} {sel : Sel} (h : SegLoads s n sel t) :
    t = { s with seg := s.seg.set n (t.seg.get n), stack := t.stack } := by
  have written : ∀ r, s.setSeg n r = { s with
      seg := s.seg.set n ((s.setSeg n r).seg.get n), stack := (s.setSeg n r).stack } := fun r => by
    rw [State.setSeg_seg, Segs.get_set_same]
    exact s.setSeg_frame n r
  cases h with
  | unchecked n sel h => exact written _
  | stack sel d => exact written _
  | null n sel h hn => simp [State.installNull]
  | data n sel d => exact written _

theorem SegLoads.stack_other {s t : State} {n : SegName} {sel : Sel} (h : SegLoads s n sel t) (hn : n ≠ .ss) :
    t.stack = s.stack := by
  cases h with
  | unchecked n sel h => exact s.setSeg_stack _ _ hn
  | stack sel d => exact absurd rfl hn
  | null n sel h hn => rfl
  | data n sel d => exact s.setSeg_stack _ _ hn

theorem SegLoads.stack_ss {s t : State} {sel : Sel} (h : SegLoads s .ss sel t) : t.stack = .ofBig t.seg.ss.big := by
  cases h with
  | unchecked _ _ h => rfl
  | stack sel d => rfl
  | null _ _ h hn => exact absurd rfl hn
  | data _ _ d h hn => exact absurd rfl hn

/-- A segment load with its ESP and EIP, run from the start. -/
theorem SegLoads.run_loadSegment {s t : State} {n : SegName} {sel : Sel} (h : SegLoads s n sel t) (e : Option Word)
    (next : Word) : loadSegment n sel e next (Ctx.start s) =
      .ok () { Ctx.start s with work := { t.loadEsp (e.getD t.gpr.esp) with eip := next } } := by
  simp [loadSegment, h.loadSegBody_ok]

theorem SegLoads.mem {s t : State} {n : SegName} {sel : Sel} (h : SegLoads s n sel t) : t.mem = s.mem := by rw [h.frame]
theorem SegLoads.gpr {s t : State} {n : SegName} {sel : Sel} (h : SegLoads s n sel t) : t.gpr = s.gpr := by rw [h.frame]

/-- An operation that has planned no write ends in its working copy. -/
theorem State.run_ok {s t : State} {op : Op Unit} (h : op (Ctx.start s) = .ok () { Ctx.start s with work := t })
    (hm : t.mem = s.mem) : s.run op = .next t := by
  simp only [State.run, h, finish_ok]
  rw [commit_of_no_writes _ rfl hm]

theorem SegLoads.run_movSeg {s t : State} {n : SegName} {p : List Pfx} {x : RmOp} (h : SegLoads s n (s.rm16 p x) t)
    (hx : s.canReadRm p x = true) (next : Word) : s.run (movSeg n p x next) = .next { t with eip := next } :=
  (State.run_readRm16 hx).trans (State.run_ok (h.run_loadSegment none next) h.mem)

theorem SegLoads.run_popSeg {s t : State} {n : SegName} {wide : Bool}
    (h : SegLoads s n (low16 (s.peek 0#32 (widthBytes wide))) t) (hx : s.canPeek 0#32 (widthBytes wide) = true) (next : Word) :
    s.run (popSeg n wide next) = .next { t.loadEsp (s.espAfterPop (widthBytes wide)) with eip := next } :=
  (State.run_bind_ok (peekStack_fresh (fresh_start s) 0#32 _ hx)).trans
    (State.run_ok (h.run_loadSegment (some _) next) h.mem)

theorem SegLoads.run_loadFarSeg {s t : State} {n : SegName} {p : List Pfx} {m : MemOp} (h : SegLoads s n (s.farPtr p m).2 t)
    (hx : s.canReadFar p m = true) (r : Gpr) (wide : Bool) (next : Word) :
    s.run (loadFarSeg n p r m wide next) = .next (({ t with eip := next }).setGpr r wide (s.farPtr p m).1) := by
  refine (State.run_bind_ok (readFarPtr_fresh (fresh_start s) p m hx)).trans (State.run_ok ?_ h.mem)
  rw [bind_apply, start_work, h.run_loadSegment]
  rfl

theorem LoadsSeg.completes {s t : State} {i : Instr} {n : SegName} {sel : Sel} (h : LoadsSeg s i n sel)
    (ht : SegLoads s n sel t) : exec i s = .next (i.afterLoad s t) := by
  cases h with
  | movEs p x hx | movSs p x hx | movDs p x hx | movFs p x hx | movGs p x hx => exact ht.run_movSeg hx _
  | popEs p hx | popSs p hx | popDs p hx | popFs p hx | popGs p hx => exact ht.run_popSeg hx _
  | les p r m hx | lds p r m hx | lss p r m hx | lfs p r m hx | lgs p r m hx => exact ht.run_loadFarSeg hx _ _ _

/-! ### ARPL (41_segment_loading.md R166) -/

theorem arplResult_eq (dst src : Sel) : arplResult dst src =
    if selRpl dst < selRpl src then (dst &&& 0xFFFC) ||| (selRpl src).setWidth 16 else dst := by
  simp only [arplResult, arplAdjusts, decide_eq_true_eq, withRpl]

theorem exec_arpl_reg {s : State} (hu : s.unchecked = false) (p : List Pfx) (d r : Gpr) :
    exec (.arpl p (.reg d) r) s = .next
      { ((s.setGpr d false ((arplResult (low16 (s.gpr.get d)) (low16 (s.gpr.get r))).setWidth 32)).withFlag
          bitZF (arplAdjusts (low16 (s.gpr.get d)) (low16 (s.gpr.get r)))) with eip := s.nextEip (.arpl p (.reg d) r) } :=
  (State.run_modeGate_pass hu).trans (State.run_ok rfl rfl)

theorem exec_arpl_mem {s : State} (hu : s.unchecked = false) (p : List Pfx) {m : MemOp} (r : Gpr)
    (hr : s.canRead s.user (s.linear p m) 2 = true) (hw : s.canWrite s.user (s.linear p m) 2 = true) :
    exec (.arpl p (.mem m) r) s = .next
      { ((s.writeLin (s.linear p m) 2
            ((arplResult (low16 (s.readLin (s.linear p m) 2)) (low16 (s.gpr.get r))).setWidth 32)).withFlag
          bitZF (arplAdjusts (low16 (s.readLin (s.linear p m) 2)) (low16 (s.gpr.get r)))) with
        eip := s.nextEip (.arpl p (.mem m) r) } := by
  have answers : (Ctx.start s).answers = [] := (State.canWrite_iff.1 hw).1
  have read : s.rm16 p (.mem m) = low16 (s.readLin (s.linear p m) 2) := rfl
  refine (State.run_modeGate_pass hu).trans ((State.run_readRm16 (x := .mem m) hr).trans ?_)
  rw [read]
  have write := memWrite_ok (Ctx.start s) answers s.user (s.linear p m) 2
    ((arplResult (low16 (s.readLin (s.linear p m) 2)) (low16 (s.gpr.get r))).setWidth 32) hw
  simp [State.run, writeRm16, write]
  rfl

/-! ### MOV CR (45_system_registers.md R270 to R272) -/

section
variable {s : State} {p : List Pfx} {n : BitVec 3} {r : Gpr}

/-- PG without PE is #GP(0). -/
theorem exec_movToCr_pgWithoutPe (hv : s.vm = false) (h : s.pe = false ∨ s.cpl = 0) (pg : (s.gpr.get r).getLsbD 31 = true)
    (pe : (s.gpr.get r).getLsbD 0 = false) : exec (.movToCr p 0 r) s = .next (s.takeFault (.gp 0)) :=
  (State.run_noSuchCr_pass (.inl rfl)).trans ((State.run_crGate_pass hv h).trans (State.run_raiseIf_raise (by
    simp only [bitPG, bitPE, pg, pe]; rfl)))

/-- Any other value is written. -/
theorem exec_movToCr (hn : n = 0 ∨ n = 2 ∨ n = 3 ∨ n = 4) (hv : s.vm = false) (h : s.pe = false ∨ s.cpl = 0)
    (ok : n = 0 → (s.gpr.get r).getLsbD 31 = false ∨ (s.gpr.get r).getLsbD 0 = true) :
    exec (.movToCr p n r) s = .next { s.writeCr n (s.gpr.get r) with eip := s.nextEip (.movToCr p n r) } := by
  have pass : (n == 0 && (s.gpr.get r).getLsbD 31 && !(s.gpr.get r).getLsbD 0) = false := by
    by_cases zero : n = 0
    · rcases ok zero with e | e <;> simp only [e, Bool.and_false, Bool.false_and, Bool.not_true]
    · rw [beq_false_of_ne zero, Bool.false_and, Bool.false_and]
  have kept : (s.writeCr n (s.gpr.get r)).mem = s.mem := by rcases hn with rfl | rfl | rfl | rfl <;> rfl
  exact (State.run_noSuchCr_pass hn).trans ((State.run_crGate_pass hv h).trans
    ((State.run_raiseIf_pass pass).trans (State.run_modifyWork_advance kept)))

theorem exec_movFromCr {u : Word} (hu : n = 0 ∧ u = s.cr0 ∨ n = 2 ∧ u = s.cr2 ∨ n = 3 ∧ u = s.cr3 ∨ n = 4 ∧ u = s.cr4)
    (hv : s.vm = false) (h : s.pe = false ∨ s.cpl = 0) :
    exec (.movFromCr p n r) s = .next { s with gpr := s.gpr.set r u, eip := s.nextEip (.movFromCr p n r) } := by
  have read : (n = 0 ∨ n = 2 ∨ n = 3 ∨ n = 4) ∧ (s.cr n).getD 0 = u := by
    rcases hu with ⟨rfl, rfl⟩ | ⟨rfl, rfl⟩ | ⟨rfl, rfl⟩ | ⟨rfl, rfl⟩ <;> exact ⟨by decide, rfl⟩
  rw [← read.2]
  exact (State.run_noSuchCr_pass read.1).trans ((State.run_crGate_pass hv h).trans (State.run_modifyWork_advance rfl))

/-- CR0 as R271 states its write. -/
theorem State.writeCr0_eq (s : State) (v : Word) : s.writeCr0 v = { s with
    cr0 := v
    mmu := if v.getLsbD 31 = s.cr0.getLsbD 31 then s.mmu else { s.mmu with paging := v.getLsbD 31 } } := by
  simp [State.writeCr0, bitPG]

/-! ### PUSHF (45_system_registers.md R283) -/

theorem exec_pushf (gate : s.vm = true → s.iopl = 3) (hw : s.canWrite s.user
      (s.stackAddr (s.gpr.esp - BitVec.ofNat 32 (widthBytes (s.opSize p)))) (widthBytes (s.opSize p)) = true) :
    exec (.pushf p) s = .next { s.pushed (widthBytes (s.opSize p))
      (if s.opSize p then pushfImage s.eflags else s.eflags) with eip := s.nextEip (.pushf p) } := by
  have answers : (Ctx.start s).answers = [] := (State.canWrite_iff.1 hw).1
  refine (State.run_v86IoplGate_pass gate).trans ?_
  simp only [State.run, bind_apply, push_ok (Ctx.start s) answers _ _ hw, advance_apply, finish_ok, start_plan,
    List.append_nil]
  rfl
end

end Sys2Proof.Machine

namespace Sys2Proof
open Machine

/-- Settles O22: the load completes, and its register is what the descriptor, the paragraph or the null selector gives. -/
theorem segmentLoadCompletes : Obligations.SegmentLoadCompletes := by
  intro i s t n sel hi h
  refine ⟨hi.completes h, h.frame, h.holds, h.stack_other, ?_⟩
  rintro rfl
  exact h.stack_ss

/-- Settles O30: the result is `arplResult`, written to the register or planned and committed. -/
theorem arplAdjustsRpl : Obligations.ArplAdjustsRpl := by
  intro s p r hu
  refine ⟨fun d => ?_, fun m hr hw => ?_⟩
  · have e := exec_arpl_reg hu p d r
    rwa [arplResult_eq] at e
  · have e := exec_arpl_mem hu p r hr hw
    rwa [arplResult_eq] at e

/-- Settles O34: the checks in their order, then one register written or read. -/
theorem movCrFollowsItsRules : Obligations.MovCrFollowsItsRules := by
  rintro s p n r _ _ rfl rfl
  refine ⟨fun hn => ?_, fun hn h => ?_, fun hv h => ⟨?_, ?_, ?_, ?_, ?_, fun u hu => exec_movFromCr hu hv h⟩⟩
  · have noCr : noSuchCr n = true := by rcases hn with rfl | rfl | rfl | rfl <;> rfl
    exact ⟨State.run_raiseIf_raise noCr, State.run_raiseIf_raise noCr⟩
  · exact ⟨(State.run_noSuchCr_pass hn).trans (State.run_crGate_denied h),
      (State.run_noSuchCr_pass hn).trans (State.run_crGate_denied h)⟩
  · rintro rfl pg pe
    exact exec_movToCr_pgWithoutPe hv h pg pe
  · rintro rfl ok
    rw [exec_movToCr (.inl rfl) hv h fun _ => ok, show s.writeCr 0 (s.gpr.get r) = s.writeCr0 (s.gpr.get r) from rfl,
      State.writeCr0_eq]
  · rintro rfl
    exact exec_movToCr (.inr (.inl rfl)) hv h nofun
  · rintro rfl
    exact exec_movToCr (.inr (.inr (.inl rfl))) hv h nofun
  · rintro rfl
    exact exec_movToCr (.inr (.inr (.inr rfl))) hv h nofun

/-- Settles O37: the gate, then the push of the image of the operand size. -/
theorem pushfPushes : Obligations.PushfPushes := by
  refine fun s p => ⟨State.run_v86IoplGate_raise, fun gate hw => ?_⟩
  rw [exec_pushf gate hw]
  cases s.opSize p <;> rfl

end Sys2Proof
end

section
/-! SUPPORT. Far JMP, CALL and RET (42_control_transfer.md): the unchecked ones, the checks of a target in their order, CALL to the
same level and to a more privileged one, and the statements about them settled. -/

namespace Sys2Proof.Machine

/-! ### Unchecked transfers (42_control_transfer.md R181, R186, R193) -/

/-- The context of an operation begun in `s` that has made register writes only: its working copy is `u`. -/
def Ctx.wrote (s u : State) : Ctx := { Ctx.start s with work := u }

/-- What a pop of `w` bytes leaves (40_privilege_checks.md R137). -/
def State.popped (s : State) (w : Nat) : State := s.setEsp (s.gpr.esp + BitVec.ofNat 32 w)

/-- A pop after writes of registers only. -/
theorem finish_pop {s u : State} (hq : s.Quiet) (hm : u.mem = s.mem) (hu : u.mmu = s.mmu) (w : Nat) {k : Word → Op Unit} :
    finish ((pop w >>= k) (Ctx.wrote s u)) = finish (k (u.peek 0#32 w) (Ctx.wrote s (u.popped w))) := by
  have fresh : (Ctx.wrote s u).Fresh := ⟨rfl, hm, hu, congrArg Mmu.answers hu.symm⟩
  have quiet : u.Quiet := ⟨hu ▸ hq.views, hu ▸ hq.answers⟩
  have read : peekStack 0#32 w (Ctx.wrote s u) = .ok (u.peek 0#32 w) (Ctx.wrote s u) :=
    peekStack_fresh fresh 0#32 w (quiet.canRead _ _ _)
  simp only [pop, bind_apply, read, modifyWork_apply, pure_apply]
  rfl

theorem finish_modifyWork {s u : State} {f : State → State} (hm : (f u).mem = s.mem) :
    finish (modifyWork f (Ctx.wrote s u)) = .next (f u) :=
  congrArg Host.Outcome.next (commit_of_no_writes (Ctx.wrote s (f u)) rfl hm)

theorem JumpsTo.exec_unchecked {s : State} {i : Instr} {sel : Sel} {off : Word} {wide : Bool} (h : JumpsTo s i sel off wide)
    (hu : s.unchecked = true) : exec i s = .next { s.loadSegReal .cs sel with eip := sizeTrunc wide off } := by
  have real : s.run (farJump sel off wide (s.nextEip i)) = s.run (jumpReal sel off wide) := by simp [State.run, farJump, hu]
  rw [jump_run h, real]
  exact State.run_modifyWork rfl

theorem CallsTo.exec_unchecked {s : State} {i : Instr} {sel : Sel} {off : Word} {wide : Bool} (h : CallsTo s i sel off wide)
    (hu : s.unchecked = true) (hq : s.Quiet) : exec i s = .next
      { (((s.pushed (widthBytes wide) (selWord s.seg.cs.sel)).pushed (widthBytes wide) (s.nextEip i)).loadSegReal .cs sel) with
        eip := sizeTrunc wide off } := by
  have real : s.run (farCall sel off wide (s.nextEip i)) = s.run (callReal sel off wide (s.nextEip i)) := by
    simp [State.run, farCall, hu]
  obtain ⟨c, pushed, stands, -⟩ := pushReturn_stands (fresh_stands s hq) (widthBytes wide) (s.nextEip i)
  have loaded := stands.modify (fun u => { u.loadSegReal .cs sel with eip := sizeTrunc wide off }) (by intros; rfl) (by intros; rfl)
  rw [call_run h, real]
  simp only [State.run, callReal, bind_apply, pushed, modifyWork_apply]
  exact stands_next loaded

theorem Returns.exec_unchecked {s : State} {i : Instr} {imm : BitVec 16} {wide : Bool} (h : Returns s i imm wide)
    (hu : s.unchecked = true) (hq : s.Quiet) :
    let w := widthBytes wide
    let t := ((s.popped w).popped w)
    exec i s = .next
      { (t.setEsp (t.gpr.esp + imm.setWidth 32)).loadSegReal .cs (low16 ((s.popped w).peek 0#32 w)) with
        eip := sizeTrunc wide (s.peek 0#32 w) } := by
  have real : s.run (farReturn imm wide) = s.run (returnReal imm wide) := by simp [State.run, farReturn, hu]
  rw [return_run h, real]
  exact (finish_pop hq rfl rfl _).trans ((finish_pop (u := s.popped _) hq rfl rfl _).trans (finish_modifyWork rfl))

end Sys2Proof.Machine

namespace Sys2Proof
open Machine

/-- Settles O40: each transfer goes to its unchecked form, whose reads and pushes the `Mmu` allows. -/
theorem uncheckedTransfers : Obligations.UncheckedTransfers := by
  intro i s hu
  refine ⟨s.fromParagraph_loadSegReal, fun sel off wide h => h.exec_unchecked hu, fun sel off wide h hq => ?_,
    fun imm wide h hq => ?_⟩
  · exact h.exec_unchecked hu hq
  · exact h.exec_unchecked hu hq

end Sys2Proof

namespace Sys2Proof.Machine

/-! ### Far CALL in protected mode (42_control_transfer.md R185 to R189) -/

/-- A CALL whose checks have passed: to the stack of a more privileged level, or on the current one (R187, R188). -/
def State.callOn (s : State) (t : Sel) (c : Desc) (target : Word) (w pc : Nat) (next : Word) : Op Unit :=
  bif s.isInterLevel c then interLevelCall t c target w pc next else sameLevelCall t c target w next

theorem State.run_callOn_sameLevel {s : State} (hq : s.Quiet) {t : Sel} {c : Desc} {target : Word} {w pc : Nat} {next : Word}
    (hl : c.kind.isConforming = true ∨ c.dpl = s.cpl) :
    s.run (s.callOn t c target w pc next) = .next (s.sameLevelCalled t c target w next) := by
  rw [State.callOn, isInterLevel_not hl]
  exact sameLevelCall_runs s hq t c target w next

theorem State.run_callOn_interLevel {s : State} (hq : s.Quiet) {t : Sel} {c sd : Desc} {target : Word} {w pc : Nat} {next : Word}
    (hc : c.kind.isConforming = false) (hl : c.dpl < s.cpl) (hs : s.hasLevelStack c.dpl = true)
    (hg : GoodStack s (s.levelStack c.dpl).1 c.dpl sd) :
    s.run (s.callOn t c target w pc next) = .next (s.interLevelCalled t c target w (s.levelStack c.dpl) sd
      ((List.range pc).map fun k => s.peek (BitVec.ofNat 32 (w * k)) w) next) := by
  rw [State.callOn, isInterLevel_of hc hl, List.range_eq_range']
  exact interLevelCall_runs s hq t c target w pc next sd hs hg

/-- Without a good stack the CALL ends at the checks of the stack (40_privilege_checks.md R138, R139). -/
theorem State.run_callOn_noStack {s : State} (hq : s.Quiet) {t : Sel} {c : Desc} {target : Word} {w pc : Nat} {next : Word}
    {f : FaultCode} (hc : c.kind.isConforming = false) (hl : c.dpl < s.cpl) (hf : s.levelStackFault c.dpl = some f) :
    s.run (s.callOn t c target w pc next) = .next (s.takeFault f) := by
  rw [State.callOn, isInterLevel_of hc hl]
  refine (State.run_bind_ok (x := work) rfl).trans ?_
  rcases levelStack_faults (fresh_start s) hq c.dpl f hf with noPair | ⟨pair, read, badSs⟩
  · exact State.run_bind_raise noPair
  · exact (State.run_bind_ok read).trans (State.run_bind_raise badSs)

theorem callDispatch_of_isCode {sel : Sel} {d : Desc} {off : Word} {wide : Bool} {next : Word} (h : d.kind.isCode = true) :
    callDispatch sel d off wide next = callToCode sel d off wide next := by
  obtain ⟨_, _, hk⟩ := DescKind.isCode_cases h
  rw [callDispatch, hk]

theorem callDispatch_of_callGate {sel : Sel} {d : Desc} {off : Word} {wide : Bool} {next : Word} (h : d.kind = .callGate) :
    callDispatch sel d off wide next = callViaCallGate sel d next := by
  rw [callDispatch, h]

/-- A CALL to code it may call passes the checks of R187. -/
theorem CallsTo.exec_code {s : State} {i : Instr} {sel : Sel} {off : Word} {wide : Bool} {d : Desc}
    (h : CallsTo s i sel off wide) (hu : s.unchecked = false) (hq : s.Quiet) (hnull : isNull sel = false)
    (hd : s.lookup sel = some d) (code : d.kind.isCode = true) (may : mayCall s.cpl sel d = true) (present : d.present = true) :
    exec i s = s.run (s.callOn sel d (sizeTrunc wide off) (widthBytes wide) 0 (s.nextEip i)) := by
  rw [h.exec_eq_run hu hnull (hq.canLookup sel) hd, callDispatch_of_isCode code]
  exact (State.run_raiseIf_pass (congrArg not may)).trans (State.run_raiseIf_pass (congrArg not present))

/-- A CALL through a good call gate to good code passes the checks of R188. -/
theorem CallsTo.exec_gate {s : State} {i : Instr} {sel : Sel} {off : Word} {wide : Bool} {g c : Desc}
    (h : CallsTo s i sel off wide) (hq : s.Quiet) (hg : GoodGate s sel g) (hc : GoodTarget s g.gateSel c) :
    exec i s = s.run (s.callOn g.gateSel c g.gateOff 4 g.paramCount.toNat (s.nextEip i)) := by
  rw [h.exec_eq_run hg.prot hg.nonNull (hq.canLookup sel) hg.found, callDispatch_of_callGate hg.kind]
  exact (State.run_raiseIf_pass (congrArg not hg.ok)).trans ((State.run_raiseIf_pass (congrArg not hg.present)).trans
    (State.run_bind_ok (gateTarget_fresh (fresh_start s) g.gateSel c (hq.canLookup _) hc)))

/-- Settles O42: past its checks, directly or through a gate, the CALL stays on the current stack. -/
theorem sameLevelCallCompletes : Obligations.SameLevelCallCompletes := by
  intro i s sel off wide h hu hq hnull
  refine ⟨fun d hd code may present level => ?_, fun g c hg hc level => ?_⟩
  · rw [h.exec_code hu hq hnull hd code may present]
    exact State.run_callOn_sameLevel hq level
  · rw [h.exec_gate hq hg hc]
    exact State.run_callOn_sameLevel hq level

/-- Settles O43: past its checks the CALL goes to the stack of the new level, with no parameters or the gate's. -/
theorem interLevelCallCompletes : Obligations.InterLevelCallCompletes := by
  intro i s sel off wide h hu hq hnull
  refine ⟨fun d sd hd code may present nonconforming inner hs hg => ?_, fun g c sd hg hc nonconforming inner hs hst => ?_⟩
  · rw [h.exec_code hu hq hnull hd code may present]
    exact State.run_callOn_interLevel hq nonconforming inner hs hg
  · rw [h.exec_gate hq hg hc]
    exact State.run_callOn_interLevel hq nonconforming inner hs hst

/-! ### The stack of a more privileged level (40_privilege_checks.md R138, R139) -/

/-- A delivery through an interrupt or trap gate to a level without a good stack raises the fault of its stack's checks
(43_interrupts.md R214, R215). -/
theorem gateDelivery_noStack {s : State} (hq : s.Quiet) {g c : Desc} (target : GoodTarget s g.gateSel c)
    (hc : c.kind.isConforming = false) (hl : c.dpl < s.cpl) (hv : s.vm = true → c.dpl = 0) {f : FaultCode}
    (hf : s.levelStackFault c.dpl = some f) (err : Option Word) (ret : Word) :
    gateDelivery g err ret (Ctx.start s) = .error (.raise f) (Ctx.start s) := by
  have found := gateTarget_fresh (fresh_start s) g.gateSel c (hq.canLookup _) target
  have fromV86 : (s.vm && c.dpl != 0) = false := by simpa using hv
  have stack : interLevelInterrupt g.gateSel c err ret (Ctx.start s) = .error (.raise f) (Ctx.start s) := by
    rcases levelStack_faults (fresh_start s) hq c.dpl f hf with noPair | ⟨pair, read, badSs⟩
    · simp only [interLevelInterrupt, bind_apply, work_apply, start_work, raiseIf_not fromV86, pure_apply, noPair]
    · simp only [interLevelInterrupt, bind_apply, work_apply, start_work, raiseIf_not fromV86, pure_apply, read, badSs]
  simp only [gateDelivery, bind_apply, work_apply, start_work, found, isInterLevel_of hc hl, cond_true, stack]

/-- Settles O47: each of the three passes the checks of its target and meets the same checks of the stack. -/
theorem noStackForTheLevel : Obligations.NoStackForTheLevel := by
  intro i s c f hq hf nonconforming inner
  refine ⟨fun sel off wide h hu hnull target => ?_, fun v tag err ret h ht entry hv => ?_⟩
  · rcases target with ⟨hd, code, may, present⟩ | ⟨g, hg, hc⟩
    · rw [h.exec_code hu hq hnull hd code may present]
      exact State.run_callOn_noStack hq nonconforming inner hf
    · rw [h.exec_gate hq hg hc]
      exact State.run_callOn_noStack hq nonconforming inner hf
  · refine interrupts_raise h ht f fun b _ => ?_
    rw [interrupt_entry s hq.system v tag b err ret c entry]
    exact gateDelivery_noStack hq entry.target nonconforming inner hv hf err ret

/-! ### The checks of a transfer's target in their order (42_control_transfer.md R180 to R190) -/

/-- One check of a list of checks: it raises the fault, or the rest of the list does. -/
theorem State.run_check {s : State} {b : Bool} {f g : FaultCode} {rest : Option FaultCode} {k : Unit → Op Unit}
    (h : (if b then some f else rest) = some g) (hr : rest = some g → s.run (k ()) = .next (s.takeFault g)) :
    s.run (raiseIf b f >>= k) = .next (s.takeFault g) := by
  cases b with
  | true => cases h; exact State.run_raiseIf_raise rfl
  | false => exact (State.run_raiseIf_pass rfl).trans (hr h)

theorem mayJump_iff {n : Level} {sel : Sel} {d : Desc} {conforming readable : Bool}
    (h : d.kind = .seg (.code conforming readable)) :
    mayJump n sel d = true ↔ if conforming then d.dpl ≤ n else sel.extractLsb' 0 2 ≤ n ∧ d.dpl = n := by
  change _ ↔ if conforming then d.dpl ≤ n else selRpl sel ≤ n ∧ d.dpl = n
  cases conforming <;> simp [mayJump, h, DescKind.isConforming]

theorem mayCall_iff {n : Level} {sel : Sel} {d : Desc} {conforming readable : Bool}
    (h : d.kind = .seg (.code conforming readable)) :
    mayCall n sel d = true ↔ if conforming then d.dpl ≤ n else sel.extractLsb' 0 2 ≤ n ∧ d.dpl ≤ n := by
  change _ ↔ if conforming then d.dpl ≤ n else selRpl sel ≤ n ∧ d.dpl ≤ n
  cases conforming <;> simp [mayCall, h, DescKind.isConforming]

theorem gateOk_iff {n : Level} {sel : Sel} {d : Desc} : gateOk n sel d = true ↔ n ≤ d.dpl ∧ sel.extractLsb' 0 2 ≤ d.dpl := by
  simp [gateOk, levelMax_le, selRpl]

/-- A JMP to code fails the checks of R182 in their order. -/
theorem State.run_jumpToCode_fault {s : State} {sel : Sel} {d : Desc} {off : Word} {wide : Bool} {f : FaultCode}
    (h : (if !mayJump s.cpl sel d then some (.gp (errSel sel)) else if !d.present then some (.np (errSel sel)) else none) = some f) :
    s.run (jumpToCode sel d off wide) = .next (s.takeFault f) :=
  State.run_check h fun h => State.run_check h nofun

/-- A CALL to code fails the checks of R187 in their order. -/
theorem State.run_callToCode_fault {s : State} {sel : Sel} {d : Desc} {off : Word} {wide : Bool} {next : Word} {f : FaultCode}
    (h : (if !mayCall s.cpl sel d then some (.gp (errSel sel)) else if !d.present then some (.np (errSel sel)) else none) = some f) :
    s.run (callToCode sel d off wide next) = .next (s.takeFault f) :=
  State.run_check h fun h => State.run_check h nofun

/-- A JMP or CALL to a TSS or a task gate fails the checks of R190 in their order. -/
theorem State.run_taskViaTss_fault {s : State} {sel : Sel} {d : Desc} {mode : SwitchMode} {next : Word} {f : FaultCode}
    (h : (if !gateOk s.cpl sel d then some (.gp (errSel sel)) else none) = some f) :
    s.run (taskViaTss sel d mode next) = .next (s.takeFault f) :=
  State.run_check h nofun

theorem State.run_taskViaGate_fault {s : State} {sel : Sel} {d : Desc} {mode : SwitchMode} {next : Word} {f : FaultCode}
    (h : (if !gateOk s.cpl sel d then some (.gp (errSel sel)) else if !d.present then some (.np (errSel sel)) else none) = some f) :
    s.run (taskViaGate sel d mode next) = .next (s.takeFault f) :=
  State.run_check h fun h => State.run_check h nofun

/-- The target of a call gate that a JMP goes through fails the checks of R183 in their order: those of any gate's target, and that it
keeps the level unless conforming. -/
def State.jumpTargetFault (s : State) (t : Sel) : Option FaultCode :=
  if isNull t then some (.gp 0)
  else
    match s.lookup t with
    | none => some (.gp (errSel t))
    | some c =>
      if !c.kind.isCode then some (.gp (errSel t))
      else if s.cpl < c.dpl then some (.gp (errSel t))
      else if !c.kind.isConforming && c.dpl != s.cpl then some (.gp (errSel t))
      else if !c.present then some (.np (errSel t))
      else none

theorem State.run_jumpViaCallGate_fault {s : State} (hq : s.Quiet) {sel : Sel} {g : Desc} {f : FaultCode}
    (h : (if !gateOk s.cpl sel g then some (.gp (errSel sel)) else if !g.present then some (.np (errSel sel))
      else s.jumpTargetFault g.gateSel) = some f) :
    s.run (jumpViaCallGate sel g) = .next (s.takeFault f) := by
  refine State.run_check h fun h => State.run_check h fun h => State.run_check h fun h => ?_
  cases hd : s.lookup g.gateSel with
  | none =>
    rw [hd] at h
    cases h
    exact State.run_bind_raise (requireDesc_none (fresh_start s) _ _ (hq.canLookup _) hd)
  | some c =>
    simp only [hd] at h
    refine (State.run_requireDesc (hq.canLookup _) hd).trans (State.run_check h fun h => ?_)
    have absent {op : Op Unit} (h : (if !c.present then some (FaultCode.np (errSel g.gateSel)) else none) = some f) :
        s.run (raiseIf (!c.present) (.np (errSel g.gateSel)) >>= fun _ => op) = .next (s.takeFault f) :=
      State.run_check h nofun
    -- a conforming target has only its DPL to fail by, another one is at the level of the jump or fails
    cases conforming : c.kind.isConforming with
    | true =>
      simp only [conforming, Bool.not_true, Bool.false_and, Bool.false_eq_true, if_false] at h
      refine State.run_check (b := decide (s.cpl < c.dpl)) ((if_congr decide_eq_true_iff rfl rfl).trans h) fun h => ?_
      exact (State.run_raiseIf_pass rfl).trans (absent h)
    | false =>
      simp only [conforming, Bool.not_false, Bool.true_and] at h
      refine (State.run_raiseIf_pass rfl).trans (State.run_check (b := c.dpl != s.cpl)
        (rest := if !c.present then some (FaultCode.np (errSel g.gateSel)) else none) ?_ absent)
      split at h
      next above => rw [if_pos (bne_iff_ne.2 (BitVec.ne_of_lt above).symm)]; exact h
      next => exact h

theorem State.run_callViaCallGate_fault {s : State} (hq : s.Quiet) {sel : Sel} {g : Desc} {next : Word} {f : FaultCode}
    (h : (if !gateOk s.cpl sel g then some (.gp (errSel sel)) else if !g.present then some (.np (errSel sel))
      else s.gateTargetFault g.gateSel) = some f) :
    s.run (callViaCallGate sel g next) = .next (s.takeFault f) :=
  State.run_check h fun h => State.run_check h fun h =>
    State.run_bind_raise (gateTarget_fault (fresh_start s) _ f (hq.canLookup _) h)

/-- The checks every JMP and CALL begins with: a selector that is not null and names a descriptor (R180, R185). -/
theorem State.run_transfer_fault {s : State} (hq : s.Quiet) {jump : Bool} {sel : Sel} {f : FaultCode} {dispatch : Desc → Op Unit}
    (h : s.transferFault jump sel = some f)
    (hd : ∀ d, s.lookup sel = some d → isNull sel = false → s.run (dispatch d) = .next (s.takeFault f)) :
    s.run (raiseIf (isNull sel) (.gp 0) >>= fun _ => requireDesc sel (.gp (errSel sel)) >>= dispatch) =
      .next (s.takeFault f) := by
  cases hnull : isNull sel with
  | true =>
    simp only [State.transferFault, hnull, if_true] at h
    cases h
    exact State.run_raiseIf_raise rfl
  | false =>
    refine (State.run_raiseIf_pass rfl).trans ?_
    cases found : s.lookup sel with
    | none =>
      simp only [State.transferFault, hnull, found, Bool.false_eq_true, if_false] at h
      cases h
      exact State.run_bind_raise (requireDesc_none (fresh_start s) _ _ (hq.canLookup _) found)
    | some d => exact (State.run_requireDesc (hq.canLookup _) found).trans (hd d found hnull)

/-- The checks of a JMP's target, by its kind (R180). -/
theorem State.run_jumpDispatch_fault {s : State} (hq : s.Quiet) {sel : Sel} {d : Desc} {off : Word} {wide : Bool} {next : Word}
    {f : FaultCode} (hnull : isNull sel = false) (hd : s.lookup sel = some d) (h : s.transferFault true sel = some f) :
    s.run (jumpDispatch sel d off wide next) = .next (s.takeFault f) := by
  simp only [State.transferFault, hnull, hd, Bool.false_eq_true, if_false] at h
  cases hk : d.kind with
  | seg k =>
    cases k with
    | code c r => rw [hk] at h; rw [jumpDispatch, hk]; exact State.run_jumpToCode_fault h
    | data w e => rw [hk] at h; cases h; rw [jumpDispatch, hk]; exact State.run_raise rfl
  | callGate => rw [hk] at h; rw [jumpDispatch, hk]; exact State.run_jumpViaCallGate_fault hq h
  | taskGate => rw [hk] at h; rw [jumpDispatch, hk]; exact State.run_taskViaGate_fault h
  | tss b => rw [hk] at h; rw [jumpDispatch, hk]; exact State.run_taskViaTss_fault h
  | tss286 | gate286 => rw [hk] at h; cases h
  | ldt | interruptGate | trapGate | invalid => rw [hk] at h; cases h; rw [jumpDispatch, hk]; exact State.run_raise rfl

/-- The checks of a CALL's target, by its kind (R185). -/
theorem State.run_callDispatch_fault {s : State} (hq : s.Quiet) {sel : Sel} {d : Desc} {off : Word} {wide : Bool} {next : Word}
    {f : FaultCode} (hnull : isNull sel = false) (hd : s.lookup sel = some d) (h : s.transferFault false sel = some f) :
    s.run (callDispatch sel d off wide next) = .next (s.takeFault f) := by
  simp only [State.transferFault, hnull, hd, Bool.false_eq_true, if_false] at h
  cases hk : d.kind with
  | seg k =>
    cases k with
    | code c r => rw [hk] at h; rw [callDispatch, hk]; exact State.run_callToCode_fault h
    | data w e => rw [hk] at h; cases h; rw [callDispatch, hk]; exact State.run_raise rfl
  | callGate => rw [hk] at h; rw [callDispatch, hk]; exact State.run_callViaCallGate_fault hq h
  | taskGate => rw [hk] at h; rw [callDispatch, hk]; exact State.run_taskViaGate_fault h
  | tss b => rw [hk] at h; rw [callDispatch, hk]; exact State.run_taskViaTss_fault h
  | tss286 | gate286 => rw [hk] at h; cases h
  | ldt | interruptGate | trapGate | invalid => rw [hk] at h; cases h; rw [callDispatch, hk]; exact State.run_raise rfl

/-- Settles O45: a JMP or CALL looks its selector up and then makes the checks of the kind it found, in the order of `transferFault`. -/
theorem transferFaults : Obligations.TransferFaults := by
  refine ⟨fun n sel d => ⟨fun _ _ hk => ⟨mayJump_iff hk, mayCall_iff hk⟩, gateOk_iff⟩,
    fun i s sel off wide f hu hq => ⟨fun h hf => ?_, fun h hf => ?_⟩⟩
  · have checked : s.run (farJump sel off wide (s.nextEip i)) =
        s.run (raiseIf (isNull sel) (.gp 0) >>= fun _ => requireDesc sel (.gp (errSel sel)) >>= fun d =>
          jumpDispatch sel d off wide (s.nextEip i)) := by simp [State.run, farJump, hu]
    rw [jump_run h, checked]
    exact State.run_transfer_fault hq hf fun d hd hnull => State.run_jumpDispatch_fault hq hnull hd hf
  · have checked : s.run (farCall sel off wide (s.nextEip i)) =
        s.run (raiseIf (isNull sel) (.gp 0) >>= fun _ => requireDesc sel (.gp (errSel sel)) >>= fun d =>
          callDispatch sel d off wide (s.nextEip i)) := by simp [State.run, farCall, hu]
    rw [call_run h, checked]
    exact State.run_transfer_fault hq hf fun d hd hnull => State.run_callDispatch_fault hq hnull hd hf

end Sys2Proof.Machine
end

section
/-! SUPPORT. IRET (43_interrupts.md R222 to R228): the slots it reads, its checks in their order, what it leaves in each mode, and
the statements about it settled. -/

namespace Sys2Proof.Machine

/-! ### IRET in real and V86 mode (43_interrupts.md R223, R224) -/

/-- Three pops, then CS, EIP and the flags. -/
theorem State.run_iretReal {s : State} (hq : s.Quiet) (wide : Bool) :
    let w := widthBytes wide
    let s2 := (s.popped w).popped w
    s.run (iretReal wide) = .next
      (({ (s2.popped w).loadSegReal .cs (low16 ((s.popped w).peek 0#32 w)) with eip := sizeTrunc wide (s.peek 0#32 w) }).mergeFlags
        (s2.peek 0#32 w) wide) :=
  (finish_pop hq rfl rfl _).trans ((finish_pop (u := s.popped _) hq rfl rfl _).trans
    ((finish_pop (u := (s.popped _).popped _) hq rfl rfl _).trans (finish_modifyWork rfl)))

/-- IRET in real mode, and in V86 mode past the gate (R222). -/
theorem exec_iret_unchecked {s : State} {p : List Pfx} (hu : s.unchecked = true) :
    exec (.iret p) s = s.run (whenOp s.pe v86IoplGate >>= fun _ => iretReal (s.opSize p)) := by
  cases hpe : s.pe with
  | false => simp [exec, execIret, State.run, iretOp, hpe, whenOp]
  | true =>
    have hv : s.vm = true := by simpa [State.unchecked, hpe] using hu
    simp [exec, execIret, State.run, iretOp, hpe, hv, whenOp]

/-- Settles O53: INTO with OF 0 is only an advance; IRET outside protected mode is three pops, past the gate of V86 mode. -/
theorem uncheckedIretAndInto : Obligations.UncheckedIretAndInto := by
  refine ⟨fun s p hof => ?_, fun s p hu => ⟨fun hpe hio => ?_, fun hio hq => ?_⟩⟩
  · have only : exec (.into p) s = s.run (advance (s.nextEip (.into p))) :=
      congrArg (fun b => s.run (bif b then interrupt 4 .software false none (s.nextEip (.into p))
        else advance (s.nextEip (.into p)))) hof
    rw [only]
    exact State.run_modifyWork rfl
  · have hv : s.vm = true := by simpa [State.unchecked, hpe] using hu
    rw [exec_iret_unchecked hu, hpe]
    exact State.run_v86IoplGate_raise hv hio
  · have pass : s.run (whenOp s.pe v86IoplGate >>= fun _ => iretReal (s.opSize p)) = s.run (iretReal (s.opSize p)) := by
      cases hpe : s.pe with
      | false => rfl
      | true => exact State.run_v86IoplGate_pass fun _ => hio hpe
    rw [exec_iret_unchecked hu, pass]
    exact State.run_iretReal hq _

/-! ### IRET in protected mode (43_interrupts.md R222, R226 to R228) -/

/-- IRET in protected mode with NT 0, its three slots read (R222). -/
theorem exec_iret_prot {s : State} {p : List Pfx} (hu : s.unchecked = false) (hnt : s.nt = false) (hq : s.Quiet) :
    let wide := s.opSize p
    let w := widthBytes wide
    let eip := s.peek 0#32 w
    let cs := low16 (s.peek (BitVec.ofNat 32 w) w)
    let fl := s.peek (BitVec.ofNat 32 (2 * w)) w
    exec (.iret p) s = s.run (if wide && fl.getLsbD bitVM && s.cpl == 0 then iretToV86 eip cs fl
      else checkReturnCs cs >>= fun d =>
        if selRpl cs = s.cpl then iretSame cs d eip fl wide else iretOuter cs d eip fl wide) := by
  intro wide w eip cs fl
  rw [iretProt_runs s p hu hnt]
  exact (State.run_bind_ok (x := work) rfl).trans
    ((State.run_peekStack hq).trans ((State.run_peekStack hq).trans (State.run_peekStack hq)))

section Prot
variable {s : State} {p : List Pfx} (hu : s.unchecked = false) (hnt : s.nt = false) (hq : s.Quiet)
include hu hnt hq

/-- IRET to V86 mode, its six further slots read (R228). -/
theorem exec_iret_v86 (wide : s.opSize p = true) (hvm : (s.peek 8#32 4).getLsbD bitVM = true) (h0 : s.cpl = 0) :
    exec (.iret p) s = s.run (iretToV86 (s.peek 0#32 4) (low16 (s.peek 4#32 4)) (s.peek 8#32 4)) := by
  rw [exec_iret_prot hu hnt hq, wide, if_pos]
  · rfl
  · simpa [widthBytes, h0] using hvm

/-- IRET that stays in protected mode: the checks of CS, then the return by its RPL (R222). -/
theorem exec_iret_checked (stays : ¬ (s.opSize p = true ∧ (s.peek (BitVec.ofNat 32 (2 * widthBytes (s.opSize p)))
      (widthBytes (s.opSize p))).getLsbD bitVM = true ∧ s.cpl = 0)) {cs : Sel}
    (hcs : cs = low16 (s.peek (BitVec.ofNat 32 (widthBytes (s.opSize p))) (widthBytes (s.opSize p)))) :
    let wide := s.opSize p
    let w := widthBytes wide
    let eip := s.peek 0#32 w
    let fl := s.peek (BitVec.ofNat 32 (2 * w)) w
    exec (.iret p) s = s.run (checkReturnCs cs >>= fun d =>
      if selRpl cs = s.cpl then iretSame cs d eip fl wide else iretOuter cs d eip fl wide) := by
  intro w wide eip fl
  rw [exec_iret_prot hu hnt hq, if_neg, hcs]
  simpa only [Bool.and_eq_true, beq_iff_eq, and_assoc] using stays

end Prot

/-- IRET to an outer level, its stack read: the checks of SS, then the registers (R227). -/
theorem State.run_iretOuter {s : State} (hq : s.Quiet) {cs nss : Sel} {d : Desc} {eip fl : Word} {wide : Bool}
    (hnss : nss = low16 (s.peek (BitVec.ofNat 32 (4 * widthBytes wide)) (widthBytes wide))) :
    s.run (iretOuter cs d eip fl wide) = s.run (checkNewSs nss (selRpl cs) .gp >>= fun sd =>
      modifyWork fun w => w.iretOuterRegs cs d nss sd
        (s.peek (BitVec.ofNat 32 (3 * widthBytes wide)) (widthBytes wide)) eip fl wide) := by
  rw [hnss]
  exact (State.run_peekStack hq).trans (State.run_peekStack hq)

/-- A popped CS that fails no check names good code. -/
theorem goodReturn_of_returnFault_none {s : State} {cs : Sel} (h : s.returnFault cs = none) : ∃ d, GoodReturn s cs d := by
  unfold State.returnFault at h
  split at h
  next => cases h
  next nonNull =>
    split at h
    next => cases h
    next d found =>
      split_ifs at h with code may present
      exact ⟨d, by simpa using nonNull, found, by simpa using code, by simpa using may, by simpa using present⟩

/-- Settles O46: the checks of CS come first; past them, an outer level meets the checks of SS. -/
theorem iretFaults : Obligations.IretFaults := by
  intro s f p hu hq hnt wide w cs stays
  have fresh := fresh_start s
  have vmSlot : wide = true → s.peek (BitVec.ofNat 32 (2 * w)) w = s.peek 8#32 4 := fun isWide => by
    simp only [w, isWide, if_true]
  have start := exec_iret_checked hu hnt hq (cs := cs) (fun ⟨isWide, hvm, h0⟩ => stays ⟨isWide, vmSlot isWide ▸ hvm, h0⟩) rfl
  refine ⟨fun hf => ?_, fun good outer hf => ?_⟩
  · exact start.trans (State.run_bind_raise (checkReturnCs_fault fresh cs f (hq.canLookup cs) hf))
  · obtain ⟨d, hd⟩ := goodReturn_of_returnFault_none good
    rw [start, State.run_bind_ok (checkReturnCs_fresh fresh cs d (hq.canLookup cs) hd), if_neg outer,
      State.run_iretOuter hq rfl]
    exact State.run_bind_raise (checkNewSs_fault fresh _ _ .gp f (hq.canLookup _) hf)

/-- Settles O54: with a good CS, and a good SS for an outer level, the registers are written at once. -/
theorem iretCompletes : Obligations.IretCompletes := by
  intro s p cs d hu hnt hq wide w eip fl stays hcs hd
  have fresh := fresh_start s
  have heip : sizeTrunc wide (s.peek 0#32 w) = eip := s.sizeTrunc_peek wide
  have start := (exec_iret_checked hu hnt hq stays hcs).trans
    (State.run_bind_ok (checkReturnCs_fresh fresh cs d (hq.canLookup cs) hd))
  refine ⟨fun same => ?_, fun nss sd outer hnss hs => ?_⟩
  · rw [start, if_pos same, ← heip]
    exact State.run_modifyWork rfl
  · rw [start, if_neg (BitVec.ne_of_lt outer).symm, State.run_iretOuter hq hnss,
      State.run_bind_ok (checkNewSs_fresh fresh nss _ .gp sd (hq.canLookup nss) hs), ← heip]
    exact State.run_modifyWork (State.iretOuterRegs_mem ..)

/-- Settles O55: the nine slots are read, then the registers are written at once. -/
theorem iretToV86Completes : Obligations.IretToV86Completes := by
  intro s p hu hnt h0 wide hq hvm
  rw [exec_iret_v86 hu hnt hq wide hvm h0]
  exact (State.run_peekStack hq).trans ((State.run_peekStack hq).trans ((State.run_peekStack hq).trans
    ((State.run_peekStack hq).trans ((State.run_peekStack hq).trans ((State.run_peekStack hq).trans
      (State.run_modifyWork rfl))))))

end Sys2Proof.Machine
end

section
/-! SUPPORT. Interrupts in protected and V86 mode (43_interrupts.md R211 to R216): the delivery to a more privileged level, the checks
of a gate and its target in their order, a fault raised during a delivery, and the statements about them settled. -/

namespace Sys2Proof.Machine

/-! ### A gate to a more privileged level (43_interrupts.md R215) -/

/-- The stack after the data selectors of a delivery from V86 mode. -/
def State.pushedDataSels (s old : State) : State :=
  if old.vm then
    (((s.pushed 4 (selWord old.seg.gs.sel)).pushed 4 (selWord old.seg.fs.sel)).pushed 4
      (selWord old.seg.ds.sel)).pushed 4 (selWord old.seg.es.sel)
  else s

theorem pushDataSels_stands {c : Ctx} {t : State} (h : c.Stands t) (old : State) :
    ∃ c', whenOp old.vm (push 4 (selWord old.seg.gs.sel) >>= fun _ => push 4 (selWord old.seg.fs.sel) >>= fun _ =>
        push 4 (selWord old.seg.ds.sel) >>= fun _ => push 4 (selWord old.seg.es.sel)) c = .ok () c' ∧
      c'.Stands (t.pushedDataSels old) := by
  cases hv : old.vm with
  | false => exact ⟨c, rfl, by simpa [State.pushedDataSels, hv] using h⟩
  | true =>
    obtain ⟨c1, e1, h1, -⟩ := h.push 4 (selWord old.seg.gs.sel)
    obtain ⟨c2, e2, h2, -⟩ := h1.push 4 (selWord old.seg.fs.sel)
    obtain ⟨c3, e3, h3, -⟩ := h2.push 4 (selWord old.seg.ds.sel)
    obtain ⟨c4, e4, h4, -⟩ := h3.push 4 (selWord old.seg.es.sel)
    exact ⟨c4, by simp only [whenOp, if_true, bind_apply, e1, e2, e3, e4], by simpa [State.pushedDataSels, hv] using h4⟩

/-- The frame is pushed in its order. -/
theorem pushInterruptFrame_stands {c : Ctx} {t : State} (h : c.Stands t) (old : State) (err : Option Word) (ret : Word) :
    ∃ c', pushInterruptFrame old old.eflags err ret c = .ok () c' ∧ c'.Stands (t.pushedFrame old err ret) := by
  obtain ⟨c1, e1, h1⟩ := pushDataSels_stands h old
  obtain ⟨c2, e2, h2, -⟩ := h1.push 4 (selWord old.seg.ss.sel)
  obtain ⟨c3, e3, h3, -⟩ := h2.push 4 old.gpr.esp
  obtain ⟨c4, c5, c6, e4, e5, e6, h6⟩ := pushReturnFrame_stands h3 4 old.eflags (selWord old.seg.cs.sel) ret
  obtain ⟨c7, e7, h7, -⟩ := pushError_stands h6 err
  exact ⟨c7, by simp only [pushInterruptFrame, bind_apply] at e1 ⊢; simp only [e1, e2, e3, e4, e5, e6, e7], h7⟩

/-- The data segments are made null on a delivery from V86 mode only. -/
theorem nullDataSegs_stands {c : Ctx} {t : State} (h : c.Stands t) (vm : Bool) :
    ∃ c', whenOp vm (modifyWork fun s => s.nullDataSegs) c = .ok () c' ∧ c'.Stands (if vm then t.nullDataSegs else t) := by
  cases vm with
  | false => exact ⟨c, rfl, h⟩
  | true => exact ⟨_, rfl, h.modify State.nullDataSegs (by intros; rfl) (by intros; rfl)⟩

/-- What an inter-level delivery through gate `g` leaves before the flags are cleared (R215). -/
def State.deliveredInner (s : State) (t : Sel) (c sd : Desc) (err : Option Word) (ret : Word) : State :=
  let u := (s.enterStack (s.levelStack c.dpl).1 sd (s.levelStack c.dpl).2 c.dpl).pushedFrame s err ret
  (if s.vm then u.nullDataSegs else u).installCs t c c.dpl

theorem interLevelInterrupt_stands {s : State} (hq : s.Quiet) (t : Sel) {c sd : Desc} (hv : s.vm = true → c.dpl = 0)
    (hs : s.hasLevelStack c.dpl = true) (hg : GoodStack s (s.levelStack c.dpl).1 c.dpl sd) (err : Option Word) (ret : Word) :
    ∃ c', interLevelInterrupt t c err ret (Ctx.start s) = .ok () c' ∧ c'.Stands (s.deliveredInner t c sd err ret) := by
  have fresh := fresh_start s
  have fromV86 : (s.vm && c.dpl != 0) = false := by simpa using hv
  have pair : readStackForLevel c.dpl (Ctx.start s) = .ok (s.levelStack c.dpl) (Ctx.start s) :=
    readStackForLevel_fresh fresh c.dpl hq hs
  have stack := checkNewSs_fresh fresh (s.levelStack c.dpl).1 c.dpl .ts sd (hq.canLookup _) hg
  have moved := (fresh_stands s hq).modify (fun u => u.enterStack (s.levelStack c.dpl).1 sd (s.levelStack c.dpl).2 c.dpl)
    (by intros; rfl) (by intros; rfl)
  obtain ⟨c1, e1, framed⟩ := pushInterruptFrame_stands moved s err ret
  obtain ⟨c2, e2, nulled⟩ := nullDataSegs_stands framed s.vm
  have installed := nulled.modify (fun u => u.installCs t c c.dpl) (by intros; rfl) (by intros; rfl)
  refine ⟨_, ?_, installed⟩
  simp only [interLevelInterrupt, bind_apply, work_apply, start_work, raiseIf_not fromV86, pure_apply, pair, stack,
    modifyWork_apply]
  simp only [start_work] at e1
  simp only [e1, e2]

/-- A gate to good, more privileged code with a good stack. -/
theorem gateDelivery_interLevel_stands {s : State} (hq : s.Quiet) {g c sd : Desc} (target : GoodTarget s g.gateSel c)
    (hc : c.kind.isConforming = false) (hl : c.dpl < s.cpl) (hv : s.vm = true → c.dpl = 0)
    (hs : s.hasLevelStack c.dpl = true) (hg : GoodStack s (s.levelStack c.dpl).1 c.dpl sd) (err : Option Word) (ret : Word) :
    ∃ c', gateDelivery g err ret (Ctx.start s) = .ok () c' ∧
      c'.Stands ((s.deliveredInner g.gateSel c sd err ret).entered g) := by
  have found := gateTarget_fresh (fresh_start s) g.gateSel c (hq.canLookup _) target
  obtain ⟨c1, delivered, h1⟩ := interLevelInterrupt_stands hq g.gateSel hv hs hg err ret
  have entered := h1.modify (fun u => { u.clearOnDelivery (g.kind == .interruptGate) with eip := g.gateOff })
    (by intros; rfl) (by intros; rfl)
  rw [State.entered_eq]
  refine ⟨_, ?_, entered⟩
  simp only [gateDelivery, bind_apply, work_apply, start_work, found, isInterLevel_of hc hl, cond_true, delivered,
    modifyWork_apply]

end Sys2Proof.Machine

namespace Sys2Proof
open Machine

/-- Settles O50: past the IDT entry and the checks of the stack, the delivery goes to the stack of the new level. (In `Machine` the
name is the model's own operation.) -/
theorem interLevelInterrupt : Obligations.InterLevelInterrupt := by
  intro i s s0 v tag err ret c sd h hq entry nonconforming inner hv hs hg
  have start : s0.levelStack c.dpl = s.levelStack c.dpl ∧ s0.hasLevelStack c.dpl = s.hasLevelStack c.dpl ∧
      s0.lookup (s.levelStack c.dpl).1 = s.lookup (s.levelStack c.dpl).1 := by
    rcases h.start_state with rfl | rfl <;> exact ⟨rfl, rfl, rfl⟩
  obtain ⟨-, vm, cpl, -, gate⟩ := h.start_reads
  obtain ⟨pair, has, found⟩ := start
  have hq0 := h.quiet hq
  have entry0 := h.gateEntry entry
  have stack0 : GoodStack s0 (s.levelStack c.dpl).1 c.dpl sd := { hg with found := found.trans hg.found }
  rw [← gate, ← vm, ← pair]
  exact h.exec_of_stands (fun b => interrupt_entry s0 hq0.system v tag b err ret c entry0)
    (gateDelivery_interLevel_stands hq0 entry0.target nonconforming (cpl ▸ inner) (vm ▸ hv) (has.trans hs) (pair ▸ stack0)
      err ret)

end Sys2Proof

namespace Sys2Proof.Machine

/-! ### The checks of a delivery in their order (43_interrupts.md R211 to R215) -/

/-- A gate of the IDT that fails no check passes each of them. -/
theorem State.idtFault_none_of_gate {s : State} {v : BitVec 8} {tag : IntTag}
    (hk : (s.idtGate v).kind = .interruptGate ∨ (s.idtGate v).kind = .trapGate) (h : s.idtFault v tag = none) :
    (s.vm = true → tag = .software → s.iopl = 3) ∧ s.hasIdtGate v = true ∧
      (tag == .software && decide ((s.idtGate v).dpl < s.cpl)) = false ∧ (s.idtGate v).present = true := by
  have not286 : (s.idtGate v).kind ≠ .gate286 := by rcases hk with hk | hk <;> simp [hk]
  unfold State.idtFault at h
  rw [if_neg not286] at h
  split_ifs at h with hiopl hidt hgate hdpl hpresent
  refine ⟨fun hv hsoft => ?_, by simpa using hidt, by simpa using hdpl, by simpa using hpresent⟩
  simpa [hv, hsoft] using hiopl

/-- Past the checks of its IDT entry, an interrupt through an interrupt or trap gate is the gate's delivery (R213). -/
theorem interrupt_intGate {s : State} (hq : s.SystemQuiet) {v : BitVec 8} {tag : IntTag} (b : Bool) (err : Option Word)
    (ret : Word) (hpe : s.pe = true) (he : s.idtFault v tag = none)
    (hk : (s.idtGate v).kind = .interruptGate ∨ (s.idtGate v).kind = .trapGate) :
    interrupt v tag b err ret (Ctx.start s) = gateDelivery (s.idtGate v) err ret (Ctx.start s) := by
  obtain ⟨hiopl, hidt, hdpl, hpresent⟩ := State.idtFault_none_of_gate hk he
  rw [interrupt_gate s hq v tag b err ret hpe hiopl hidt]
  rcases hk with hk | hk <;> simp [hk, DescKind.isIdtGate, raiseIf_not hdpl, hpresent]

/-- The first check of the target that fails ends the delivery. -/
theorem gateDelivery_target {s : State} (hq : s.Quiet) {g : Desc} {f : FaultCode} (h : s.gateTargetFault g.gateSel = some f)
    (err : Option Word) (ret : Word) : gateDelivery g err ret (Ctx.start s) = .error (.raise f) (Ctx.start s) := by
  simp only [gateDelivery, bind_apply, work_apply, gateTarget_fault (fresh_start s) _ f (hq.canLookup _) h]

/-- From V86 mode a gate leads to non-conforming code of level 0 only (R214, R215). -/
theorem gateDelivery_v86 {s : State} (hq : s.Quiet) {g c : Desc} (target : GoodTarget s g.gateSel c) (hv : s.vm = true)
    (bad : c.kind.isConforming = true ∨ c.dpl ≠ 0) (err : Option Word) (ret : Word) :
    gateDelivery g err ret (Ctx.start s) = .error (.raise (.gp (errSel g.gateSel))) (Ctx.start s) := by
  have found := gateTarget_fresh (fresh_start s) g.gateSel c (hq.canLookup _) target
  cases level : s.isInterLevel c with
  | false =>
    have stops : sameLevelInterrupt g.gateSel c err ret (Ctx.start s) =
        .error (.raise (.gp (errSel g.gateSel))) (Ctx.start s) := by
      simp only [sameLevelInterrupt, bind_apply, work_apply, start_work, raiseIf_of hv, raiseFault_apply]
    simp only [gateDelivery, bind_apply, work_apply, start_work, found, level, cond_false, stops]
  | true =>
    have nonconforming : c.kind.isConforming = false := by simp [State.isInterLevel] at level; exact level.1
    have outer : (s.vm && c.dpl != 0) = true := by simpa [hv, nonconforming] using bad
    have stops : interLevelInterrupt g.gateSel c err ret (Ctx.start s) =
        .error (.raise (.gp (errSel g.gateSel))) (Ctx.start s) := by
      simp only [interLevelInterrupt, bind_apply, work_apply, start_work, raiseIf_of outer, raiseFault_apply]
    simp only [gateDelivery, bind_apply, work_apply, start_work, found, level, cond_true, stops]

/-- Settles O51: the checks of the IDT entry, then those of the gate's target. -/
theorem interruptFaults : Obligations.InterruptFaults := by
  intro i s v tag err ret f h ht hpe hq
  refine ⟨fun hf => ?_, fun he hk => ⟨fun hf => ?_, fun c target hv bad => ?_⟩⟩
  · exact interrupts_raise h ht f fun b hb => interrupt_idtFault s hpe hq.system v tag b err ret f hb hf
  · exact interrupts_raise h ht f fun b _ =>
      (interrupt_intGate hq.system b err ret hpe he hk).trans (gateDelivery_target hq hf err ret)
  · exact interrupts_raise h ht _ fun b _ =>
      (interrupt_intGate hq.system b err ret hpe he hk).trans (gateDelivery_v86 hq target hv bad err ret)

/-! ### A fault raised during a delivery (43_interrupts.md R216, 60_exceptions.md R310) -/

/-- Emptying the pending fault changes none of the checks of its delivery. -/
theorem DeliveryFault.of_pending {s : State} {v : BitVec 8} {f : FaultCode} (h : DeliveryFault s v f) :
    DeliveryFault { s with pendingFault := none } v f := by
  have quiet (hq : s.Quiet) : ({ s with pendingFault := none } : State).Quiet := ⟨hq.views, hq.answers⟩
  cases h with
  | entry f hq h => exact .entry f (quiet hq) h
  | target f hq he hk h => exact .target f (quiet hq) he hk h
  | v86 c hq hg hv h => exact .v86 c (quiet hq) hg.of_pending hv h
  | stack c f hq hg hc hl hv h => exact .stack c f (quiet hq) hg.of_pending hc hl hv h
  | task f hq he hk h => exact .task f (quiet hq) he hk h
  | mmu f hi h => exact .mmu f hi h

/-- The read of the IDT entry that the `Mmu` refuses (60_exceptions.md R304). -/
theorem interrupt_mmuFault {s : State} (hpe : s.pe = true) {v : BitVec 8} (hi : s.hasIdtGate v = true) {f : MmuFault}
    (h : s.checkFirst { addr := s.idtr.base + (v.setWidth 32 <<< 3), size := 4, write := false, user := false } = some f)
    (b : Bool) (err : Option Word) (ret : Word) :
    interrupt v .exception b err ret (Ctx.start s) = .error (.raise f.code) (Ctx.start s).asked := by
  have inIdt : decide (8 * v.toNat + 7 > s.idtr.limit.toNat) = false := by
    simp only [State.hasIdtGate, decide_eq_true_eq] at hi
    simpa using hi
  have noIopl : (s.vm && IntTag.exception == IntTag.software && !b && s.iopl != 3) = false := by simp
  simp only [interrupt, bind_apply, work_apply, start_work, hpe, Bool.not_true, Bool.false_eq_true, if_false,
    raiseIf_not noIopl, pure_apply, readIdtGate, raiseIf_not inIdt, memRead_faults _ _ _ f h]

/-- Each of these faults is raised before the delivery commits anything. -/
theorem DeliveryFault.raises {s : State} {v : BitVec 8} {f : FaultCode} (h : DeliveryFault s v f) (hpe : s.pe = true)
    (err : Option Word) (ret : Word) :
    ∃ c, interrupt v .exception true err ret (Ctx.start s) = .error (.raise f) c ∧ c.switched = false := by
  cases h with
  | entry f hq h => exact ⟨_, interrupt_idtFault s hpe hq.system v _ true err ret f nofun h, rfl⟩
  | target f hq he hk h =>
    exact ⟨_, (interrupt_intGate hq.system true err ret hpe he hk).trans (gateDelivery_target hq h err ret), rfl⟩
  | v86 c hq hg hv h =>
    exact ⟨_, (interrupt_entry s hq.system v _ true err ret c hg).trans (gateDelivery_v86 hq hg.target hv h err ret), rfl⟩
  | stack c f hq hg hc hl hv h =>
    exact ⟨_, (interrupt_entry s hq.system v _ true err ret c hg).trans
      (gateDelivery_noStack hq hg.target hc hl hv h err ret), rfl⟩
  | task f hq he hk h =>
    exact ⟨_, (interrupt_taskGate hq.system true err ret hpe he hk).trans
      (switchTask_fault (fresh_start s) hq.system _ .callInt ret err f h), rfl⟩
  | mmu f hi h => exact ⟨_, interrupt_mmuFault hpe hi h true err ret, rfl⟩

/-- A delivery that fails before a commit ends as `NESTED_FAULT_POLICY` says. -/
theorem exec_exceptionDelivery_nested {s : State} {f : PendingFault} {f2 : FaultCode} (hf : s.pendingFault = some f)
    (hpe : s.pe = true) (h : DeliveryFault s f.vector f2) :
    exec .exceptionDelivery s = nestedFault { s with pendingFault := none } f f2 := by
  obtain ⟨c, raised, uncommitted⟩ := h.of_pending.raises hpe f.err f.returnEip
  simp [exec, execExceptionDelivery, hf, deliver, raised, uncommitted]

/-- Settles O52: the delivery fails before it commits anything, and each policy says what then becomes of the second fault. -/
theorem nestedFaultFollowsThePolicy : Obligations.NestedFaultFollowsThePolicy := by
  intro s f f2 hf hpe h
  rw [exec_exceptionDelivery_nested hf hpe h, nestedFault]
  refine ⟨fun policy => ?_, fun policy first => ?_, fun policy double => ?_, fun policy => ?_⟩
  · rw [policy]
  · rw [policy]; exact if_neg first
  · rw [policy]; exact if_pos double
  · rw [policy]

end Sys2Proof.Machine
end

section
/-! SUPPORT. Task switches past their checks (44_task_switch.md): the loads of the new task one by one, what a switch leaves, Busy
bits and back-link in memory, and the statements about them settled. -/

namespace Sys2Proof.Machine

/-! ### The committed context (44_task_switch.md R249) -/

/-- The context of a switch that has committed in `u`, every load before kept. -/
def Ctx.committed (u : State) : Ctx := { base := u, work := u, plan := [], switched := true, answers := [] }

theorem commit_committed (u : State) : (Ctx.committed u).commit = u := rfl

/-- A state the loads of a new task run in: the `Mmu` allows the reads of a descriptor. -/
theorem fresh_committed {u : State} (hq : u.SystemQuiet) : (Ctx.committed u).Fresh := ⟨rfl, rfl, rfl, hq.answers.symm⟩

/-- A load that succeeds is kept (R250). -/
theorem keep_ok {u v : State} {op : Op Unit} {k : Unit → Op Unit}
    (h : op (Ctx.committed u) = .ok () { Ctx.committed u with work := v }) :
    (op >>= fun _ => keepWork >>= k) (Ctx.committed u) = k () (Ctx.committed v) := by
  simp only [bind_apply, h, keepWork_apply]
  rfl

/-- A load that fails ends the switch in the state of the loads before it (R250). -/
theorem keep_raise {u : State} {op : Op Unit} {k : Unit → Op Unit} {f : FaultCode}
    (h : op (Ctx.committed u) = .error (.raise f) (Ctx.committed u)) :
    (op >>= k) (Ctx.committed u) = .error (.raise f) (Ctx.committed u) := by
  simp only [bind_apply, h]

/-- A check that passes goes on. -/
theorem bind_raiseIf_pass {c : Ctx} {b : Bool} {f : FaultCode} {k : Unit → Op Unit} (h : b = false) :
    (raiseIf b f >>= k) c = k () c := by
  rw [bind_apply, raiseIf_not h]; rfl

/-- One check of a list of checks: it raises the fault, or the rest of the list does. -/
theorem bind_check {c : Ctx} {b : Bool} {f g : FaultCode} {rest : Option FaultCode} {k : Unit → Op Unit}
    (h : (if b then some f else rest) = some g) (hr : rest = some g → k () c = .error (.raise g) c) :
    (raiseIf b f >>= k) c = .error (.raise g) c := by
  cases b with
  | true => cases h; rfl
  | false => exact hr h

theorem bind_require_some {u : State} (hq : u.SystemQuiet) {sel : Sel} {f : FaultCode} {d : Desc} {k : Desc → Op Unit}
    (hd : u.lookup sel = some d) : (requireDesc sel f >>= k) (Ctx.committed u) = k d (Ctx.committed u) := by
  rw [bind_apply, requireDesc_some (fresh_committed hq) sel f d (hq.canLookup sel) hd]

theorem bind_require_none {u : State} (hq : u.SystemQuiet) {sel : Sel} {f : FaultCode} {k : Desc → Op Unit}
    (hd : u.lookup sel = none) : (requireDesc sel f >>= k) (Ctx.committed u) = .error (.raise f) (Ctx.committed u) := by
  rw [bind_apply, requireDesc_none (fresh_committed hq) sel f (hq.canLookup sel) hd]

/-! ### Each load of the new task (44_task_switch.md R250) -/

/-- The loads leave the mode and the `Mmu`. -/
structure SameMode (u v : State) : Prop where
  mmu : v.mmu = u.mmu
  cr0 : v.cr0 = u.cr0
  eflags : v.eflags = u.eflags

theorem SameMode.refl (u : State) : SameMode u u := ⟨rfl, rfl, rfl⟩

theorem SameMode.trans {u v w : State} (h : SameMode u v) (k : SameMode v w) : SameMode u w :=
  ⟨k.mmu.trans h.mmu, k.cr0.trans h.cr0, k.eflags.trans h.eflags⟩

theorem SameMode.quiet {u v : State} (h : SameMode u v) (hq : u.SystemQuiet) : v.SystemQuiet := hq.of_mmu h.mmu

theorem SameMode.vm {u v : State} (h : SameMode u v) : v.vm = u.vm := by rw [State.vm, h.eflags]; rfl

theorem SameMode.unchecked {u v : State} (h : SameMode u v) : v.unchecked = u.unchecked := by
  rw [State.unchecked, h.vm, State.pe, h.cr0]; rfl

theorem TaskLdtLoads.sameMode {u v : State} {l : Sel} (h : TaskLdtLoads u l v) : SameMode u v := by
  cases h <;> exact ⟨rfl, rfl, rfl⟩

theorem TaskCsLoads.sameMode {u v : State} {sel : Sel} (h : TaskCsLoads u sel v) : SameMode u v := by
  cases h; exact ⟨rfl, rfl, rfl⟩

theorem SegLoads.sameMode {u v : State} {n : SegName} {sel : Sel} (h : SegLoads u n sel v) : SameMode u v := by
  rw [h.frame]; exact ⟨rfl, rfl, rfl⟩

theorem SegsLoad.sameMode {u v : State} {l : List (SegName × Sel)} (h : SegsLoad u l v) : SameMode u v := by
  induction h with
  | nil u => exact .refl u
  | cons u v w n sel rest h _ ih => exact h.sameMode.trans ih

/-- The level of a new task's CS: a conforming segment's DPL is at most RPL, another one's is RPL (R250). -/
def Desc.csLevelOk (d : Desc) (n : Level) : Prop := if d.kind.isConforming then d.dpl ≤ n else d.dpl = n

section CsLevel
variable {c : Ctx} {d : Desc} {n : Level} {f : FaultCode} {k : Unit → Op Unit}

theorem bind_csLevel_pass (h : d.csLevelOk n) : (raiseIf (d.kind.isConforming && decide (n < d.dpl)) f >>= fun _ =>
    raiseIf (!d.kind.isConforming && d.dpl != n) f >>= k) c = k () c := by
  unfold Desc.csLevelOk at h
  split at h
  next conforming =>
    rw [conforming, decide_eq_false (BitVec.not_lt.2 h)]
    rfl
  next nonconforming =>
    rw [Bool.not_eq_true] at nonconforming
    rw [nonconforming, bne_eq_false_iff_eq.2 h]
    rfl

theorem bind_csLevel_raise (h : ¬ d.csLevelOk n) : (raiseIf (d.kind.isConforming && decide (n < d.dpl)) f >>= fun _ =>
    raiseIf (!d.kind.isConforming && d.dpl != n) f >>= k) c = .error (.raise f) c := by
  unfold Desc.csLevelOk at h
  split at h
  next conforming =>
    rw [conforming, decide_eq_true (BitVec.not_le.1 h)]
    rfl
  next nonconforming =>
    rw [Bool.not_eq_true] at nonconforming
    rw [nonconforming, bne_iff_ne.2 h]
    rfl

end CsLevel

/-- The checks of a new task's CS, its descriptor found. -/
theorem State.taskCsFault_of_lookup {u : State} {sel : Sel} {d : Desc} (nonNull : isNull sel = false)
    (found : u.lookup sel = some d) : u.taskCsFault sel = none ↔
      d.kind.isCode = true ∧ d.csLevelOk (selRpl sel) ∧ d.present = true := by
  simp only [State.taskCsFault, nonNull, found, Bool.false_eq_true, if_false]
  by_cases code : d.kind.isCode = true <;> by_cases level : d.csLevelOk (selRpl sel) <;>
    by_cases present : d.present = true <;> simp_all [Desc.csLevelOk]

section Loads
variable {u v : State} {sel : Sel} {f : FaultCode} (hq : u.SystemQuiet)
include hq

theorem TaskLdtLoads.runs (h : TaskLdtLoads u sel v) :
    loadTaskLdt sel (Ctx.committed u) = .ok () { Ctx.committed u with work := v } := by
  unfold loadTaskLdt
  cases h with
  | null h => rw [if_pos h]; rfl
  | ldt d h ht hd hk hp =>
    rw [if_neg (by simp [h])]
    exact (bind_raiseIf_pass ht).trans ((bind_require_some hq hd).trans
      ((bind_raiseIf_pass (bne_eq_false_iff_eq.2 hk)).trans (bind_raiseIf_pass (congrArg not hp))))

theorem loadTaskLdt_fault (h : u.taskLdtFault sel = some f) :
    loadTaskLdt sel (Ctx.committed u) = .error (.raise f) (Ctx.committed u) := by
  unfold loadTaskLdt
  unfold State.taskLdtFault at h
  split at h
  next => cases h
  next nonNull =>
    rw [if_neg nonNull]
    refine bind_check h fun h => ?_
    cases hd : u.lookup sel with
    | none => rw [hd] at h; cases h; exact bind_require_none hq hd
    | some d =>
      simp only [hd] at h
      refine (bind_require_some hq hd).trans (bind_check (rest := if !d.present then some (.ts (errSel sel)) else none) ?_
        fun h => bind_check h nofun)
      by_cases hk : d.kind = .ldt <;> by_cases hp : d.present = true <;> simp_all

theorem TaskCsLoads.runs (h : TaskCsLoads u sel v) :
    loadTaskCs sel (Ctx.committed u) = .ok () { Ctx.committed u with work := v } := by
  obtain ⟨c, nonNull, found, noFault⟩ := h
  obtain ⟨code, level, present⟩ := (State.taskCsFault_of_lookup nonNull found).1 noFault
  exact (bind_raiseIf_pass nonNull).trans ((bind_require_some hq found).trans ((bind_raiseIf_pass (congrArg not code)).trans
    ((bind_csLevel_pass level).trans (bind_raiseIf_pass (congrArg not present)))))

theorem loadTaskCs_fault (h : u.taskCsFault sel = some f) :
    loadTaskCs sel (Ctx.committed u) = .error (.raise f) (Ctx.committed u) := by
  refine bind_check h fun h => ?_
  cases hd : u.lookup sel with
  | none => rw [hd] at h; cases h; exact bind_require_none hq hd
  | some d =>
    simp only [hd] at h
    refine (bind_require_some hq hd).trans (bind_check h fun h => ?_)
    by_cases level : if d.kind.isConforming then d.dpl ≤ selRpl sel else d.dpl = selRpl sel
    · refine (bind_csLevel_pass level).trans (bind_check (rest := none) ?_ nofun)
      rw [if_pos level] at h
      cases present : d.present with
      | true => simp [present] at h
      | false => simpa [present] using h
    · rw [if_neg level] at h
      cases h
      exact bind_csLevel_raise level

theorem loadTaskSs_runs {n : Level} {d : Desc} (h : GoodStack u sel n d) :
    loadTaskSs sel n (Ctx.committed u) = .ok () { Ctx.committed u with work := u.installSeg .ss sel d } := by
  have good := checkNewSs_fresh (fresh_committed hq) sel n .ts d (hq.canLookup sel) h
  simp only [loadTaskSs, bind_apply, good, modifyWork_apply]
  rfl

theorem loadTaskSs_fault {n : Level} (h : u.newSsFault sel n .ts = some f) :
    loadTaskSs sel n (Ctx.committed u) = .error (.raise f) (Ctx.committed u) := by
  have bad := checkNewSs_fault (fresh_committed hq) sel n .ts f (hq.canLookup sel) h
  simp only [loadTaskSs, bind_apply, bad]

theorem SegLoads.runs_prot {n : SegName} (h : SegLoads u n sel v) (hu : u.unchecked = false) (hn : n ≠ .ss) :
    loadDataSegProt .ts n sel (Ctx.committed u) = .ok () { Ctx.committed u with work := v } := by
  unfold loadDataSegProt
  cases h with
  | unchecked n sel h => simp [h] at hu
  | stack sel d => exact absurd rfl hn
  | null n sel h hn hnull => rw [if_pos hnull]; rfl
  | data n sel d h hn hnull hm hd hk hl hp =>
    rw [if_neg (by simp [hnull])]
    exact (bind_require_some hq hd).trans ((bind_raiseIf_pass (congrArg not hk)).trans
      ((bind_raiseIf_pass (congrArg not hl)).trans (bind_raiseIf_pass (congrArg not hp))))

theorem loadDataSegProt_taskFault {n : SegName} (h : u.taskDataFault sel = some f) :
    loadDataSegProt .ts n sel (Ctx.committed u) = .error (.raise f) (Ctx.committed u) := by
  unfold loadDataSegProt
  unfold State.taskDataFault at h
  split at h
  next => cases h
  next nonNull =>
    rw [if_neg nonNull]
    cases hd : u.lookup sel with
    | none => rw [hd] at h; cases h; exact bind_require_none hq hd
    | some d =>
      rw [hd] at h
      exact (bind_require_some hq hd).trans (bind_check h fun h => bind_check h fun h => bind_check h nofun)

end Loads

/-! ### All loads of the new task (44_task_switch.md R250) -/

/-- Data segments loaded one after the other, each kept. -/
def loadSegs : List (SegName × Sel) → Op Unit
  | [] => pure ()
  | (n, sel) :: rest => do
    loadDataSegProt .ts n sel
    keepWork
    loadSegs rest

/-- The data segments of a new task, in the order of their loads. -/
def TssImage.dataSegs (img : TssImage) : List (SegName × Sel) := [(.ds, img.ds), (.es, img.es), (.fs, img.fs), (.gs, img.gs)]

/-- The segment loads of a protected-mode task. -/
def loadProtSegs (img : TssImage) : Op Unit := do
  loadTaskCs img.cs
  keepWork
  loadTaskSs img.ss (selRpl img.cs)
  keepWork
  loadSegs img.dataSegs

theorem loadTaskSegments_eq (img : TssImage) : loadTaskSegments img = (do
    loadTaskLdt img.ldt
    keepWork
    let s ← work
    if s.vm then do
      modifyWork fun s => s.loadV86Segs img.cs img.ss img.ds img.es img.fs img.gs
      keepWork
    else loadProtSegs img) := rfl

section Task
variable {u u1 u2 t : State} {img : TssImage} {f : FaultCode} (hq : u.SystemQuiet)
include hq

theorem loadTaskSegments_v86 (hl : TaskLdtLoads u img.ldt u1) (hv : u.vm = true) : loadTaskSegments img (Ctx.committed u) =
    .ok () (Ctx.committed (u1.loadV86Segs img.cs img.ss img.ds img.es img.fs img.gs)) := by
  have vm1 : (Ctx.committed u1).work.vm = true := hl.sameMode.vm.trans hv
  rw [loadTaskSegments_eq, keep_ok (hl.runs hq), bind_apply, work_apply]
  simp only [vm1, if_true]
  rfl

theorem loadTaskSegments_prot (hl : TaskLdtLoads u img.ldt u1) (hv : u.vm = false) :
    loadTaskSegments img (Ctx.committed u) = loadProtSegs img (Ctx.committed u1) := by
  have vm1 : (Ctx.committed u1).work.vm = false := hl.sameMode.vm.trans hv
  rw [loadTaskSegments_eq, keep_ok (hl.runs hq), bind_apply, work_apply]
  simp only [vm1, Bool.false_eq_true, if_false]

theorem loadProtSegs_loads {sd : Desc} (hc : TaskCsLoads u img.cs u1) (hs : GoodStack u1 img.ss (selRpl img.cs) sd) :
    loadProtSegs img (Ctx.committed u) = loadSegs img.dataSegs (Ctx.committed (u1.installSeg .ss img.ss sd)) :=
  (keep_ok (hc.runs hq)).trans (keep_ok (loadTaskSs_runs (hc.sameMode.quiet hq) hs))

/-- The segments that load are loaded before the rest. -/
theorem SegsLoad.runs {done : List (SegName × Sel)} (h : SegsLoad u done t) (hu : u.unchecked = false)
    (notSs : ∀ x ∈ done, x.1 ≠ .ss) (rest : List (SegName × Sel)) :
    loadSegs (done ++ rest) (Ctx.committed u) = loadSegs rest (Ctx.committed t) := by
  induction h with
  | nil u => rfl
  | cons u v w n sel more h _ ih =>
    have first := h.runs_prot hq hu (notSs (n, sel) (by simp))
    exact (keep_ok first).trans (ih (h.sameMode.quiet hq) (h.sameMode.unchecked.trans hu) fun x hx => notSs x (by simp [hx]))

end Task

theorem State.unchecked_of_prot {s : State} (hpe : s.pe = true) (hv : s.vm = false) : s.unchecked = false := by
  simp [State.unchecked, hpe, hv]

theorem sameMode_installSs (u : State) (sel : Sel) (d : Desc) : SameMode u (u.installSeg .ss sel d) := ⟨rfl, rfl, rfl⟩

/-- Every load succeeds: the switch is done in the last state. -/
theorem TaskLoads.runs {u t : State} {img : TssImage} (h : TaskLoads u img t) (hq : u.SystemQuiet) (hpe : u.pe = true) :
    loadTaskSegments img (Ctx.committed u) = .ok () (Ctx.committed t) := by
  cases h with
  | v86 u1 hl hv => exact loadTaskSegments_v86 hq hl hv
  | prot u1 u2 u3 u4 _ c sd hl hv hnull hc hk hdpl hp hs hds hes hfs hgs =>
    have cs : TaskCsLoads u1 img.cs (u1.installCs img.cs c (selRpl img.cs)) :=
      .code c hnull hc ((State.taskCsFault_of_lookup hnull hc).2 ⟨hk, hdpl, hp⟩)
    have ss : GoodStack (u1.installCs img.cs c (selRpl img.cs)) img.ss (selRpl img.cs) sd := { hs with found := hs.found }
    have mode := (hl.sameMode.trans cs.sameMode).trans (sameMode_installSs _ img.ss sd)
    have data : SegsLoad _ img.dataSegs t := .cons _ _ _ _ _ _ hds (.cons _ _ _ _ _ _ hes (.cons _ _ _ _ _ _ hfs
      (.cons _ _ _ _ _ _ hgs (.nil _))))
    have loaded := data.runs (mode.quiet hq) (mode.unchecked.trans (State.unchecked_of_prot hpe hv)) (by simp [TssImage.dataSegs]) []
    rw [loadTaskSegments_prot hq hl hv, loadProtSegs_loads (hl.sameMode.quiet hq) cs ss]
    exact loaded

/-- A load fails: the switch ends with its fault in the state of the loads before it. -/
theorem TaskLoadFails.runs {u t : State} {img : TssImage} {f : FaultCode} {left : List SegName}
    (h : TaskLoadFails u img f t left) (hq : u.SystemQuiet) (hpe : u.pe = true) :
    loadTaskSegments img (Ctx.committed u) = .error (.raise f) (Ctx.committed t) := by
  cases h with
  | ldt f h => exact keep_raise (loadTaskLdt_fault hq h)
  | cs u1 f hl hv h =>
    rw [loadTaskSegments_prot hq hl hv]
    exact keep_raise (loadTaskCs_fault (hl.sameMode.quiet hq) h)
  | ss u1 u2 f hl hv hc h =>
    have mode := hl.sameMode.trans hc.sameMode
    rw [loadTaskSegments_prot hq hl hv]
    exact (keep_ok (hc.runs (hl.sameMode.quiet hq))).trans (keep_raise (loadTaskSs_fault (mode.quiet hq) h))
  | data u1 u2 t sd f done rest n sel hl hv hc hs hn hd h =>
    have mode := (hl.sameMode.trans hc.sameMode).trans (sameMode_installSs _ img.ss sd)
    have notSs : ∀ x ∈ done, x.1 ≠ .ss := fun x hx => by
      have listed : x ∈ img.dataSegs := by rw [TssImage.dataSegs, hn]; exact List.mem_append_left _ hx
      have none : ∀ x ∈ img.dataSegs, x.1 ≠ SegName.ss := by simp [TssImage.dataSegs]
      exact none x listed
    rw [loadTaskSegments_prot hq hl hv, loadProtSegs_loads (hl.sameMode.quiet hq) hc hs, TssImage.dataSegs, hn,
      hd.runs (mode.quiet hq) (mode.unchecked.trans (State.unchecked_of_prot hpe hv)) notSs]
    exact keep_raise (loadDataSegProt_taskFault ((mode.trans hd.sameMode).quiet hq) h)

/-! ### What the loads leave unloaded, and which fault ends them (44_task_switch.md R250) -/

theorem State.installSeg_get_other (s : State) {m n : SegName} (sel : Sel) (d : Desc) (h : n ≠ m) :
    (s.installSeg m sel d).seg.get n = s.seg.get n := by
  rw [State.installSeg, State.setSeg_seg, Segs.get_set_other _ _ _ _ h]

theorem TaskLdtLoads.seg {u v : State} {l : Sel} (h : TaskLdtLoads u l v) : v.seg = u.seg := by cases h <;> rfl

theorem TaskCsLoads.get_other {u v : State} {sel : Sel} (h : TaskCsLoads u sel v) {n : SegName} (hn : n ≠ .cs) :
    v.seg.get n = u.seg.get n := by
  cases h
  exact u.installSeg_get_other _ _ hn

theorem SegLoads.get_other {u v : State} {m n : SegName} {sel : Sel} (h : SegLoads u m sel v) (hn : n ≠ m) :
    v.seg.get n = u.seg.get n := by
  rw [h.frame]
  exact Segs.get_set_other _ _ _ _ hn

theorem SegsLoad.get_other {u v : State} {l : List (SegName × Sel)} (h : SegsLoad u l v) {n : SegName}
    (hn : n ∉ l.map Prod.fst) : v.seg.get n = u.seg.get n := by
  induction h with
  | nil u => rfl
  | cons u v w m sel more h _ ih =>
    simp only [List.map_cons, List.mem_cons, not_or] at hn
    obtain ⟨notThis, notMore⟩ := hn
    exact (ih notMore).trans (h.get_other notThis)

/-- The data segments not loaded are neither CS nor SS nor among those loaded. -/
theorem TssImage.not_loaded {img : TssImage} {done rest : List (SegName × Sel)} {n : SegName} {sel : Sel}
    (h : img.dataSegs = done ++ (n, sel) :: rest) {m : SegName} (hm : m ∈ n :: rest.map Prod.fst) :
    m ≠ .cs ∧ m ≠ .ss ∧ m ∉ done.map Prod.fst := by
  have names : [SegName.ds, .es, .fs, .gs] = done.map Prod.fst ++ n :: rest.map Prod.fst := by
    simpa [TssImage.dataSegs] using congrArg (List.map Prod.fst) h
  have distinct : (done.map Prod.fst ++ n :: rest.map Prod.fst).Nodup := names ▸ (by decide)
  have listed : m ∈ [SegName.ds, .es, .fs, .gs] := names ▸ List.mem_append_right _ hm
  refine ⟨?_, ?_, fun loaded => List.disjoint_of_nodup_append distinct loaded hm⟩
  · rintro rfl; simp at listed
  · rintro rfl; simp at listed

/-- The segment registers a failing load leaves unloaded stay as the commit left them. -/
theorem TaskLoadFails.get_left {u t : State} {img : TssImage} {f : FaultCode} {left : List SegName}
    (h : TaskLoadFails u img f t left) {m : SegName} (hm : m ∈ left) : t.seg.get m = u.seg.get m := by
  cases h with
  | ldt f h => rfl
  | cs u1 f hl hv h => rw [hl.seg]
  | ss u1 u2 f hl hv hc h =>
    have notCs : m ≠ .cs := by rintro rfl; simp at hm
    rw [hc.get_other notCs, hl.seg]
  | data u1 u2 t sd f done rest n sel hl hv hc hs hn hd h =>
    obtain ⟨notCs, notSs, notLoaded⟩ := TssImage.not_loaded (img := img) hn hm
    rw [hd.get_other notLoaded, State.installSeg_get_other _ _ _ notSs, hc.get_other notCs, hl.seg]

theorem State.taskLdtFault_vector {u : State} {l : Sel} {f : FaultCode} (h : u.taskLdtFault l = some f) : f.vector = 10 := by
  unfold State.taskLdtFault at h
  (repeat' split at h) <;> cases h <;> rfl

theorem State.taskCsFault_vector {u : State} {sel : Sel} {f : FaultCode} (h : u.taskCsFault sel = some f) :
    f.vector = 10 ∨ f.vector = 11 := by
  unfold State.taskCsFault at h
  (repeat' split at h) <;> cases h <;> simp [FaultCode.ts, FaultCode.np]

theorem State.newSsFault_vector {u : State} {sel : Sel} {n : Level} {f : FaultCode} (h : u.newSsFault sel n .ts = some f) :
    f.vector = 10 ∨ f.vector = 12 := by
  unfold State.newSsFault at h
  (repeat' split at h) <;> cases h <;> simp [FaultCode.ts, FaultCode.ss]

theorem State.taskDataFault_vector {u : State} {sel : Sel} {f : FaultCode} (h : u.taskDataFault sel = some f) :
    f.vector = 10 ∨ f.vector = 11 := by
  unfold State.taskDataFault at h
  (repeat' split at h) <;> cases h <;> simp [FaultCode.ts, FaultCode.np]

theorem TaskLoadFails.vector {u t : State} {img : TssImage} {f : FaultCode} {left : List SegName}
    (h : TaskLoadFails u img f t left) : f.vector = 10 ∨ f.vector = 11 ∨ f.vector = 12 := by
  cases h with
  | ldt f h => exact .inl (State.taskLdtFault_vector h)
  | cs u1 f hl hv h => exact (State.taskCsFault_vector h).imp_right .inl
  | ss u1 u2 f hl hv hc h => exact (State.newSsFault_vector h).imp_right .inr
  | data u1 u2 t sd f done rest n sel hl hv hc hs hn hd h => exact (State.taskDataFault_vector h).imp_right .inl

/-! ### A switch by JMP, CALL or IRET (44_task_switch.md R249, R250) -/

section Switch
variable {s : State} {tss : Sel} {d : Desc} {mode : SwitchMode} {ret : Word}

theorem State.switchedTo_quiet (hq : s.SystemQuiet) : (s.switchedTo tss d mode ret).SystemQuiet := ⟨hq.views, hq.answers⟩

theorem State.switchedTo_pe : (s.switchedTo tss d mode ret).pe = s.pe := by
  simp [State.switchedTo, State.enterTask, State.pe, setBit, bitTS, bitPE]

theorem State.switchedTo_get_valid (n : SegName) : ((s.switchedTo tss d mode ret).seg.get n).valid = false := by
  cases n <;> rfl

/-- The loads of the new task complete, or one of them faults in a state that has only loaded. -/
theorem State.switchedTo_loads (hq : s.SystemQuiet) :
    (∃ t, loadTaskSegments (s.tssImage d.base) (Ctx.committed (s.switchedTo tss d mode ret)) = .ok () (Ctx.committed t) ∧
        LoadsOnly (s.switchedTo tss d mode ret) t) ∨
      ∃ f t w, loadTaskSegments (s.tssImage d.base) (Ctx.committed (s.switchedTo tss d mode ret)) =
          .error (.raise f) { Ctx.committed t with work := w } ∧
        LoadsOnly (s.switchedTo tss d mode ret) t ∧ f.cr2 = none := by
  have level (hv : (s.switchedTo tss d mode ret).vm = false) :
      (s.switchedTo tss d mode ret).cpl = selRpl (s.tssImage d.base).cs := if_neg (Bool.eq_false_iff.1 hv)
  refine (loadTaskSegments_cases (s.switchedTo tss d mode ret) (s.tssImage d.base) rfl rfl rfl rfl rfl rfl rfl level
    (Ctx.committed _) rfl rfl rfl rfl).imp_right ?_
  rintro ⟨f, t, w, raised, loads, noCr2⟩
  exact ⟨f, t, w, raised, loads, noCr2 (State.switchedTo_quiet hq)⟩

theorem Switches.exec_eq {i : Instr} (h : Switches s i tss mode ret) (ht : SwitchTarget s tss mode d) (hq : s.SystemQuiet) :
    exec i s = finish (loadTaskSegments (s.tssImage d.base) (Ctx.committed (s.switchedTo tss d mode ret))) := by
  rw [switches_run h hq, State.run, switchTask_commits s hq tss mode ret none d ht]
  exact congrArg (fun op : Op Unit => finish (op _)) bind_pure_unit

/-- A fault of the new task leaves the switch as it was committed (60_exceptions.md R303). -/
theorem Switched.takeFault {t : State} (h : Switched s t tss d mode ret) {f : FaultCode} (hf : f.cr2 = none) :
    Switched s (t.takeFault f) tss d mode ret := by
  have kept : (t.takeFault f).cr2 = t.cr2 := congrArg (·.getD t.cr2) hf
  obtain ⟨gdtr, idtr, cr2, others⟩ := h.others
  exact { h with
    others := ⟨gdtr, idtr, kept.trans cr2, others⟩
    fault := .inr ⟨_, rfl, h.eip⟩ }

end Switch

theorem Switches.pe {s : State} {i : Instr} {tss : Sel} {mode : SwitchMode} {ret : Word} (h : Switches s i tss mode ret) :
    s.pe = true := by
  cases h with
  | jmp i sel tss off wide d h hu ht => exact (State.prot_of_checked hu).1
  | call i sel tss off wide d h hu ht => exact (State.prot_of_checked hu).1
  | iret p hu hn hv => exact (State.prot_of_checked hu).1

/-- Settles O56: past its checks the switch commits, and a load that faults after that changes nothing of it. -/
theorem taskSwitchEnters : Obligations.TaskSwitchEnters := by
  intro i s tss mode ret d h ht hq hp
  rw [h.exec_eq ht hq.system]
  rcases State.switchedTo_loads (tss := tss) (d := d) (mode := mode) (ret := ret) hq.system with
    ⟨t, done, loads⟩ | ⟨f, t, w, raised, loads, noCr2⟩
  · exact ⟨t, by rw [done]; rfl, switched_of s tss mode ret d hp t loads⟩
  · exact ⟨t.takeFault f, by rw [raised]; rfl, (switched_of s tss mode ret d hp t loads).takeFault noCr2⟩

/-- Settles O57: the loads run in their order, each kept, until the last one or the first that fails. -/
theorem taskSegmentsLoad : Obligations.TaskSegmentsLoad := by
  intro i s t tss mode ret d h ht hq
  have quiet := State.switchedTo_quiet (tss := tss) (d := d) (mode := mode) (ret := ret) hq.system
  have pe := (State.switchedTo_pe (s := s) (tss := tss) (d := d) (mode := mode) (ret := ret)).trans h.pe
  rw [h.exec_eq ht hq.system]
  refine ⟨fun loads => by rw [loads.runs quiet pe]; rfl, fun f left fails => ⟨by rw [fails.runs quiet pe]; rfl, fun n hn => ?_,
    fails.vector⟩⟩
  rw [fails.get_left hn]
  exact State.switchedTo_get_valid n

end Sys2Proof.Machine
end

section
/-! SUPPORT. An interrupt through a task gate (43_interrupts.md R213, R218; 44_task_switch.md R251): the push of the error code on
the new task's stack, and the statement about it settled. -/

namespace Sys2Proof.Machine

/-! ### The push on the new task's stack (44_task_switch.md R251) -/

theorem push_committed_ok {t : State} (hq : t.SystemQuiet) {w : Nat} (h : t.pushCheck w = none) (v : Word) :
    ∃ c, push w v (Ctx.committed t) = .ok () c ∧ c.commit = t.pushed w v :=
  ⟨_, push_ok (Ctx.committed t) rfl w v (State.canWrite_iff.2 ⟨hq.answers, h⟩), push_commit (Ctx.committed t) rfl w v⟩

/-- A push the `Mmu` refuses changes nothing. -/
theorem push_raise {c : Ctx} (ha : c.answers = []) {w : Nat} {f : MmuFault}
    (h : c.base.mmu.check
      { addr := c.work.stackAddr (c.work.gpr.esp - BitVec.ofNat 32 w), size := w, write := true, user := c.work.user } = some f)
    (v : Word) : push w v c = .error (.raise f.code) c := by
  simp only [push, bind_apply, work_apply, memWrite_plain ha, h]

theorem push_committed_raise {t : State} {w : Nat} {f : MmuFault} (h : t.pushCheck w = some f) (v : Word) :
    push w v (Ctx.committed t) = .error (.raise f.code) (Ctx.committed t) :=
  push_raise (c := Ctx.committed t) rfl h v

/-! ### Taking the interrupt (43_interrupts.md R212, R213) -/

section Taken
variable {s s0 : State} {i : Instr} {v : BitVec 8} {tag : IntTag} {err : Option Word} {ret : Word}

/-- An interrupt that faults after a commit: the fault is the new task's, for an exception too (log 9). -/
theorem Interrupts.exec_raise_switched (h : Interrupts s i s0 v tag err ret) {f : FaultCode} {c : Ctx}
    (e : ∀ b, interrupt v tag b err ret (Ctx.start s0) = .error (.raise f) c) (switched : c.switched = true) :
    exec i s = .next (c.base.takeFault f) := by
  cases h with
  | int3 p =>
    show finish (interrupt 3 .software false none _ (Ctx.start s)) = _
    rw [e false]; rfl
  | int p v => simp [exec, execIntImm, State.run, e false]
  | into p h =>
    show finish ((bif s.ofl then interrupt 4 .software false none _ else _ : Op Unit) (Ctx.start s)) = _
    rw [h, cond_true, e false]; rfl
  | hardware v => simp [exec, execHardwareInterrupt, State.run, e false]
  | exception f h => simp [exec, execExceptionDelivery, h, deliver, e true, switched]

/-- Vector `v` leads through a task gate to the task of the TSS descriptor `d` (R212, R213). -/
structure TaskGateEntry (s : State) (v : BitVec 8) (tag : IntTag) (d : Desc) : Prop where
  pe : s.pe = true
  v86 : s.vm = true → tag = .software → s.iopl = 3
  inIdt : s.hasIdtGate v = true
  kind : (s.idtGate v).kind = .taskGate
  dpl : tag = .software → s.cpl ≤ (s.idtGate v).dpl
  present : (s.idtGate v).present = true
  target : SwitchTarget s (s.idtGate v).gateSel .callInt d

theorem TaskGateEntry.start {d : Desc} (h : TaskGateEntry s v tag d) (hi : Interrupts s i s0 v tag err ret) :
    TaskGateEntry s0 v tag d := by
  obtain ⟨pe, v86, inIdt, kind, dpl, present, inGdt, found, tss, tssPresent, limit, outgoing, outgoingLimit⟩ := h
  rcases hi.start_state with rfl | rfl <;>
    exact ⟨pe, v86, inIdt, kind, dpl, present, inGdt, found, tss, tssPresent, limit, outgoing, outgoingLimit⟩

/-- The interrupt commits the switch; what is left are the loads of the new task and the push of the error code. -/
theorem TaskGateEntry.interrupt_eq {d : Desc} (h : TaskGateEntry s v tag d) (hq : s.SystemQuiet) (b : Bool) :
    interrupt v tag b err ret (Ctx.start s) = (loadTaskSegments (s.tssImage d.base) >>= fun _ => pushError err)
      (Ctx.committed (s.switchedTo (s.idtGate v).gateSel d .callInt ret)) := by
  have allowed : ¬ (tag = .software ∧ (s.idtGate v).dpl < s.cpl) := fun ⟨soft, below⟩ => BitVec.not_lt.2 (h.dpl soft) below
  have passes : s.idtFault v tag = none := by
    simp only [State.idtFault, h.kind, h.inIdt, h.present, if_neg allowed]
    simpa [DescKind.isIdtGate] using h.v86
  rw [interrupt_taskGate hq b err ret h.pe passes h.kind]
  exact switchTask_commits s hq _ .callInt ret err d h.target

end Taken

/-- Settles O59: the switch commits, and then the loads end in the new task's fault, or the error code is pushed on its stack. -/
theorem taskGateInterrupt : Obligations.TaskGateInterrupt := by
  intro i s s0 v tag err ret d hi clear hq hpe hv hidt hk hdpl hp ht
  have entry : TaskGateEntry s0 v tag d := TaskGateEntry.start ⟨hpe, hv, hidt, hk, hdpl, hp, ht⟩ hi
  obtain ⟨pe, -, -, mmu, gate⟩ := hi.start_reads
  have hq0 : s0.SystemQuiet := hq.of_mmu mmu
  have quiet := State.switchedTo_quiet (tss := (s.idtGate v).gateSel) (d := d) (mode := .callInt) (ret := ret) hq0
  have upe := (State.switchedTo_pe (s := s0) (tss := (s.idtGate v).gateSel) (d := d) (mode := .callInt) (ret := ret)).trans
    entry.pe
  have is := entry.interrupt_eq hq0 (err := err) (ret := ret)
  rw [gate] at is
  rcases State.switchedTo_loads (tss := (s.idtGate v).gateSel) (d := d) (mode := .callInt) (ret := ret) hq0 with
    ⟨t, done, loads⟩ | ⟨f, t, w, raised, loads, noCr2⟩
  case inl =>
    have noFault : t.pendingFault = none := by rw [loads.same]; exact clear
    have pushes (b : Bool) : interrupt v tag b err ret (Ctx.start s0) = pushError err (Ctx.committed t) := by
      rw [is b, bind_apply, done]
    refine ⟨t, switched_of s0 _ .callInt ret d clear t loads, ?_, fun u hu => ?_, fun f u left fails => ?_⟩
    · rw [noFault]
      cases err with
      | none => exact interrupts_ok hi fun b _ => pushes b
      | some e =>
        cases check : t.pushCheck 4 with
        | none =>
          obtain ⟨c, pushed, committed⟩ := push_committed_ok (quiet.of_mmu loads.mmu) check e
          exact (interrupts_ok hi fun b _ => (pushes b).trans pushed).trans (congrArg _ committed)
        | some f => exact hi.exec_raise_switched (fun b => (pushes b).trans (push_committed_raise check e)) rfl
    · have same := done.symm.trans (hu.runs quiet upe)
      injection same with _ ctx
      have eq : t = u := congrArg Ctx.base ctx
      exact ⟨eq, eq ▸ noFault⟩
    · cases done.symm.trans (fails.runs quiet upe)
  case inr =>
    refine ⟨t.takeFault f, (switched_of s0 _ .callInt ret d clear t loads).takeFault noCr2, ?_, fun u hu => ?_,
      fun f' u left fails => ?_⟩
    · have faults : exec i s = .next (t.takeFault f) :=
        hi.exec_raise_switched (c := { Ctx.committed t with work := w }) (fun b => by rw [is b, bind_apply, raised]) rfl
      rw [faults]
      cases err <;> rfl
    · cases raised.symm.trans (hu.runs quiet upe)
    · have same := raised.symm.trans (fails.runs quiet upe)
      injection same with halt ctx
      injection halt with fault
      have eq : t = u := congrArg Ctx.base ctx
      rw [eq, fault]

end Sys2Proof.Machine
end

section
/-! SUPPORT. Busy bits and back-link after a task switch (44_task_switch.md R245 to R248): what memory reads after a list of planned
writes, what the writes of a switch leave, and the statement about them settled. -/

namespace Sys2Proof.Machine

/-! ### Memory after planned writes (20_memory.md R64) -/

/-- The byte at `x` after the writes `ws`, the `Mmu` naming different bytes for different addresses. -/
def State.readAfter (s : State) (ws : List (Word × Nat × Word)) (x : Word) : Byte := ((planOf ws).lookup x).getD (s.readByte x)

/-- None of the bytes a write stores to is `x`. -/
def Avoids (x : Word) (w : Word × Nat × Word) : Prop := ∀ j, j < w.2.1 → x ≠ w.1 + BitVec.ofNat 32 j

theorem avoids_byte {x a v : Word} (h : x ≠ a) : Avoids x (a, 1, v) := by
  intro j hj
  obtain rfl : j = 0 := Nat.lt_one_iff.1 hj
  simpa using h

/-- Writes that avoid `x` leave its byte. -/
theorem State.readAfter_avoids (s : State) (ws : List (Word × Nat × Word)) {vs : List (Word × Nat × Word)} {x : Word}
    (h : ∀ w ∈ vs, Avoids x w) : s.readAfter (ws ++ vs) x = s.readAfter ws x := by
  rw [State.readAfter, lookup_planOf_append, lookup_planOf_none vs x h, Option.none_or]
  rfl

theorem State.readAfter_nil (s : State) (x : Word) : s.readAfter [] x = s.readByte x := rfl

/-- One more byte written is the byte read. -/
theorem State.readAfter_byte (s : State) (ws : List (Word × Nat × Word)) (x v : Word) :
    s.readAfter (ws ++ [(x, 1, v)]) x = v.setWidth 8 := by
  rw [State.readAfter, lookup_planOf_append]
  simp [planOf, bytesLe]

/-- A 16-bit value written last is read back byte by byte. -/
theorem State.readAfter_word (s : State) (ws : List (Word × Nat × Word)) (a v : Word) {k : Nat} (hk : k < 2) :
    s.readAfter (ws ++ [(a, 2, v)]) (a + BitVec.ofNat 32 k) = v.extractLsb' (8 * k) 8 := by
  have written : (planOf [(a, 2, v)]).lookup (a + BitVec.ofNat 32 k) = some (v.extractLsb' (8 * k) 8) := by
    obtain rfl | rfl : k = 0 ∨ k = 1 := by omega
    · have apart : (a == a + 1#32) = false := beq_eq_false_iff_ne.2 (by bv_omega)
      simp [planOf, bytesLe, List.lookup, apart, low_byte]
    · simp [planOf, bytesLe, ← low_byte, extract_shift v 0]
  rw [State.readAfter, lookup_planOf_append, written]
  rfl

/-- `SetBusy(sel, true)` after the writes `ws` sets the bit in the byte they leave (40_privilege_checks.md R126). -/
theorem State.readAfter_setBusy (s : State) (ws : List (Word × Nat × Word)) (sel : Sel) :
    s.readAfter (ws ++ [s.busyWrite (planOf ws) sel true]) (s.busyAddr sel) = s.readAfter ws (s.busyAddr sel) ||| 0x02#8 := by
  rw [State.busyWrite, State.readAfter_byte, busyByte_true]
  simp [readLe, State.readAfter]

theorem State.readAfter_clearBusy (s : State) (ws : List (Word × Nat × Word)) (sel : Sel) :
    s.readAfter (ws ++ [s.busyWrite (planOf ws) sel false]) (s.busyAddr sel) =
      s.readAfter ws (s.busyAddr sel) &&& ~~~0x02#8 := by
  rw [State.busyWrite, State.readAfter_byte, busyByte_false]
  simp [readLe, State.readAfter]

/-- The writes of `FlushOutgoing` lie in the 64 bytes from 0x20 on (44_task_switch.md R246). -/
theorem State.flushWrites_within (s : State) (mode : SwitchMode) (ret : Word) :
    ∀ w ∈ s.flushWrites mode ret, ∃ o, o + w.2.1 ≤ 64 ∧ w.1 = s.tr.base + BitVec.ofNat 32 (0x20 + o) := by
  simp only [State.flushWrites, List.forall_mem_cons]
  exact ⟨⟨0x00, by simp, rfl⟩, ⟨0x04, by simp, rfl⟩, ⟨0x08, by simp, rfl⟩, ⟨0x0C, by simp, rfl⟩, ⟨0x10, by simp, rfl⟩,
    ⟨0x14, by simp, rfl⟩, ⟨0x18, by simp, rfl⟩, ⟨0x1C, by simp, rfl⟩, ⟨0x20, by simp, rfl⟩, ⟨0x24, by simp, rfl⟩,
    ⟨0x28, by simp, rfl⟩, ⟨0x2C, by simp, rfl⟩, ⟨0x30, by simp, rfl⟩, ⟨0x34, by simp, rfl⟩, ⟨0x38, by simp, rfl⟩,
    ⟨0x3C, by simp, rfl⟩, by simp⟩

theorem State.flushWrites_avoid (s : State) (mode : SwitchMode) (ret : Word) {x : Word}
    (h : ∀ k, k < 64 → x ≠ s.tr.base + 0x20#32 + BitVec.ofNat 32 k) : ∀ w ∈ s.flushWrites mode ret, Avoids x w := by
  intro w hw j hj
  obtain ⟨o, fits, at_o⟩ := s.flushWrites_within mode ret w hw
  have same : w.1 + BitVec.ofNat 32 j = s.tr.base + 0x20#32 + BitVec.ofNat 32 (o + j) := by
    rw [at_o, BitVec.ofNat_add, BitVec.ofNat_add]
    ac_rfl
  rw [same]
  exact h _ (by omega)

/-! ### The writes of each kind of switch (44_task_switch.md R245 to R248) -/

theorem State.switchWrites_jmp (s : State) (sel : Sel) (d : Desc) (ret : Word) :
    let freed := [] ++ [s.busyWrite (planOf []) s.tr.sel false] ++ s.flushWrites .jmp ret
    s.switchWrites sel d .jmp ret = freed ++ [s.busyWrite (planOf freed) sel true] := rfl

theorem State.switchWrites_call (s : State) (sel : Sel) (d : Desc) (ret : Word) :
    let flushed := [] ++ s.flushWrites .call ret
    s.switchWrites sel d .call ret = flushed ++ [s.busyWrite (planOf flushed) sel true] ++ [(d.base, 2, selWord s.tr.sel)] := rfl

theorem State.switchWrites_iret (s : State) (sel : Sel) (d : Desc) (ret : Word) :
    s.switchWrites sel d .iret ret = [] ++ [s.busyWrite (planOf []) s.tr.sel false] ++ s.flushWrites .iret ret := rfl

/-! ### What memory reads after a switch -/

/-- The `Mmu` being the identity, a byte after the switch is the byte after its writes. -/
theorem Switched.readByte {s t : State} {sel : Sel} {d : Desc} {mode : SwitchMode} {ret : Word}
    (h : Switched s t sel d mode ret) (hv : s.mmu.views = []) (wf : Memory.wf s.mem = true) (x : Word) :
    t.readByte x = s.readAfter (s.switchWrites sel d mode ret) x := by
  have views : t.mmu.views = [] := by rw [h.cr3.2]; exact hv
  have id {m : Mmu} (hm : m.views = []) : m.translate x = x.toNat := by simp [Mmu.translate, Mmu.view, hm]
  rw [State.readByte, id views, h.mem, applyPlan_read_id _ hv _ _ wf, State.readAfter, State.readByte, id hv]

/-- A selector's two bytes, read as a word, are the selector. -/
theorem low16_selWord_bytes (sel : Sel) : low16 (selWord sel &&& BitVec.ofNat 32 (2 ^ (8 * 2) - 1)) = sel := by
  ext i hi
  have fits : i < 32 := by omega
  have low : (65535#32).getLsbD i = true :=
    (BitVec.getLsbD_eq_getElem fits).trans ((lowMask_bit 16 i fits).trans (decide_eq_true hi))
  simp [low16, selWord, low, fits, BitVec.getLsbD_eq_getElem hi]

section Bytes
variable {s : State} {tss : Sel} {d : Desc} {ret x : Word}

/-- `x` lies apart from what `FlushOutgoing` saves. -/
def State.ApartFromSaved (s : State) (x : Word) : Prop := ∀ k, k < 64 → x ≠ s.tr.base + 0x20#32 + BitVec.ofNat 32 k

theorem busyWrite_avoids {plan : List (Word × Byte)} {sel : Sel} {set : Bool} (h : x ≠ s.busyAddr sel) :
    ∀ w ∈ [s.busyWrite plan sel set], Avoids x w := fun _ hw => List.mem_singleton.1 hw ▸ avoids_byte h

theorem link_avoids {a v : Word} (h : ∀ j, j < 2 → x ≠ a + BitVec.ofNat 32 j) : ∀ w ∈ [(a, 2, v)], Avoids x w :=
  fun _ hw => List.mem_singleton.1 hw ▸ h

/-- JMP and IRET write nothing but the two Busy bytes and the saved registers. -/
theorem State.readAfter_jmp_apart (ha : x ≠ s.busyAddr s.tr.sel) (hb : x ≠ s.busyAddr tss) (hs : s.ApartFromSaved x) :
    s.readAfter (s.switchWrites tss d .jmp ret) x = s.readByte x := by
  rw [State.switchWrites_jmp, s.readAfter_avoids _ (busyWrite_avoids hb), s.readAfter_avoids _ (s.flushWrites_avoid _ _ hs),
    s.readAfter_avoids _ (busyWrite_avoids ha), State.readAfter_nil]

theorem State.readAfter_iret_apart (ha : x ≠ s.busyAddr s.tr.sel) (hs : s.ApartFromSaved x) :
    s.readAfter (s.switchWrites tss d .iret ret) x = s.readByte x := by
  rw [State.switchWrites_iret, s.readAfter_avoids _ (s.flushWrites_avoid _ _ hs), s.readAfter_avoids _ (busyWrite_avoids ha),
    State.readAfter_nil]

/-- IRET frees the old task. -/
theorem State.readAfter_iret_old (hs : s.ApartFromSaved (s.busyAddr s.tr.sel)) :
    s.readAfter (s.switchWrites tss d .iret ret) (s.busyAddr s.tr.sel) = s.readByte (s.busyAddr s.tr.sel) &&& ~~~0x02#8 := by
  rw [State.switchWrites_iret, s.readAfter_avoids _ (s.flushWrites_avoid _ _ hs), State.readAfter_clearBusy,
    State.readAfter_nil]

/-- JMP frees the old task and takes the new one. -/
theorem State.readAfter_jmp_old (hab : s.busyAddr s.tr.sel ≠ s.busyAddr tss) (hs : s.ApartFromSaved (s.busyAddr s.tr.sel)) :
    s.readAfter (s.switchWrites tss d .jmp ret) (s.busyAddr s.tr.sel) = s.readByte (s.busyAddr s.tr.sel) &&& ~~~0x02#8 := by
  rw [State.switchWrites_jmp, s.readAfter_avoids _ (busyWrite_avoids hab), s.readAfter_avoids _ (s.flushWrites_avoid _ _ hs),
    State.readAfter_clearBusy, State.readAfter_nil]

theorem State.readAfter_jmp_new (hab : s.busyAddr s.tr.sel ≠ s.busyAddr tss) (hs : s.ApartFromSaved (s.busyAddr tss)) :
    s.readAfter (s.switchWrites tss d .jmp ret) (s.busyAddr tss) = s.readByte (s.busyAddr tss) ||| 0x02#8 := by
  rw [State.switchWrites_jmp, State.readAfter_setBusy, s.readAfter_avoids _ (s.flushWrites_avoid _ _ hs),
    s.readAfter_avoids _ (busyWrite_avoids hab.symm), State.readAfter_nil]

/-- CALL keeps the old task busy, takes the new one and links back. -/
theorem State.readAfter_call_old (hab : s.busyAddr s.tr.sel ≠ s.busyAddr tss) (hs : s.ApartFromSaved (s.busyAddr s.tr.sel))
    (hl : ∀ j, j < 2 → s.busyAddr s.tr.sel ≠ d.base + BitVec.ofNat 32 j) :
    s.readAfter (s.switchWrites tss d .call ret) (s.busyAddr s.tr.sel) = s.readByte (s.busyAddr s.tr.sel) := by
  rw [State.switchWrites_call, s.readAfter_avoids _ (link_avoids hl), s.readAfter_avoids _ (busyWrite_avoids hab),
    s.readAfter_avoids _ (s.flushWrites_avoid _ _ hs), State.readAfter_nil]

theorem State.readAfter_call_new (hs : s.ApartFromSaved (s.busyAddr tss))
    (hl : ∀ j, j < 2 → s.busyAddr tss ≠ d.base + BitVec.ofNat 32 j) :
    s.readAfter (s.switchWrites tss d .call ret) (s.busyAddr tss) = s.readByte (s.busyAddr tss) ||| 0x02#8 := by
  rw [State.switchWrites_call, s.readAfter_avoids _ (link_avoids hl), State.readAfter_setBusy,
    s.readAfter_avoids _ (s.flushWrites_avoid _ _ hs), State.readAfter_nil]

end Bytes

theorem readLe_two {f g : Word → Byte} {a : Word} (h : ∀ j, j < 2 → f (a + BitVec.ofNat 32 j) = g (a + BitVec.ofNat 32 j)) :
    readLe f a 2 = readLe g a 2 := by
  have first : f a = g a := by simpa using h 0 (by decide)
  have second := h 1 (by decide)
  simp only [readLe, first, second]

/-- The task a CALL enters is nested (44_task_switch.md R249). -/
theorem Switched.nt_of_call {s t : State} {sel : Sel} {d : Desc} {ret : Word} (h : Switched s t sel d .call ret) :
    t.nt = true := by
  rw [State.nt, h.eflags]
  simp [eflagsWrite, setBit, maskV86All, bitNT]

/-- Settles O60: memory after the switch is memory after its writes, and the later ones avoid what the earlier ones wrote. -/
theorem busyBitsAndBackLink : Obligations.BusyBitsAndBackLink := by
  intro i s tss mode ret d h ht hv han hp a b hab hflush hlink hbytes wf
  obtain ⟨t, run, sw⟩ := taskSwitchEnters i s tss mode ret d h ht ⟨by simp [hv], han⟩ hp
  have read := sw.readByte hv wf
  have aSaved : s.ApartFromSaved a := fun k hk => (hflush k hk).1
  have bSaved : s.ApartFromSaved b := fun k hk => (hflush k hk).2
  have linkSaved (j : Nat) (hj : j < 2) : s.ApartFromSaved (d.base + BitVec.ofNat 32 j) := fun k hk => hlink j k hj hk
  have aLink (j : Nat) (hj : j < 2) := (hbytes j hj).1
  have bLink (j : Nat) (hj : j < 2) := (hbytes j hj).2
  refine ⟨t, run, ?_⟩
  cases h with
  | jmp =>
    refine ⟨?_, ?_, nofun, fun _ => readLe_two fun j hj => ?_⟩
    · rw [read, State.readAfter_jmp_old hab aSaved]; rfl
    · rw [read, State.readAfter_jmp_new hab bSaved]; rfl
    · rw [read, State.readAfter_jmp_apart (aLink j hj).symm (bLink j hj).symm (linkSaved j hj)]
  | iret =>
    refine ⟨?_, ?_, nofun, fun _ => readLe_two fun j hj => ?_⟩
    · rw [read, State.readAfter_iret_old aSaved]; rfl
    · rw [read, State.readAfter_iret_apart hab.symm bSaved]; rfl
    · rw [read, State.readAfter_iret_apart (aLink j hj).symm (linkSaved j hj)]
  | call =>
    refine ⟨?_, ?_, fun _ => ⟨?_, sw.nt_of_call⟩, fun no => absurd rfl no⟩
    · rw [read, State.readAfter_call_old hab aSaved aLink]; rfl
    · rw [read, State.readAfter_call_new bSaved bLink]; rfl
    · have link (k : Nat) (hk : k < 2) :
          t.readByte (d.base + BitVec.ofNat 32 k) = (selWord s.tr.sel).extractLsb' (8 * k) 8 := by
        rw [read, State.switchWrites_call, State.readAfter_word _ _ _ _ hk]
      rw [State.readLin, readLe_bytes link, low16_selWord_bytes]

end Sys2Proof.Machine
end
